-- ==== Sys2Proof/Word.lean ====
section
/-! DEFINITION. The machine's word and byte: R6, R8 and R60 (decision D1) fix 16-bit registers,
addresses and words, and 8-bit bytes. -/

namespace Sys2Proof

/-- A register value, an address or a code word: 16 bits (R6, R8). -/
abbrev Word := BitVec 16

/-- A byte of memory: 8 bits (R6). -/
abbrev Byte := BitVec 8

end Sys2Proof
end

