-- ==== Sys2Proof/Machine/Bits.lean ====
section
/-! DEFINITION. The bit-field, byte-order and sign-extension helpers (R7, R8, R63). -/

namespace Sys2Proof

/-- The word whose bits 7 to 0 are `lo` and 15 to 8 `hi`: `a ++ b` of R7. -/
def wordOfBytes (lo hi : Byte) : Word := hi ++ lo

/-- Bits 7 to 0, the byte at the lower address (R63). -/
def Word.lo (v : BitVec 16) : Byte := v.extractLsb' 0 8

/-- Bits 15 to 8, the byte at the higher address (R63). -/
def Word.hi (v : BitVec 16) : Byte := v.extractLsb' 8 8

/-- `v` with bit `i` set to `b`. -/
def setBit (v : Word) (i : Nat) (b : Bool) : Word :=
  if b then v ||| BitVec.twoPow 16 i else v &&& ~~~(BitVec.twoPow 16 i)

/-- Bit 0 forced to 0: the effect of `clear_bit0` (R26, R66). -/
def clearBit0 (v : Word) : Word := v &&& 0xFFFE#16

/-- An odd value: bit 0 is 1. -/
def isOdd (v : Word) : Bool := v.getLsbD 0

/-- `zext_16(v[7:0])`. -/
def zextByte (v : Word) : Word := v &&& 0x00FF#16

/-- `sext_16(v[7:0])` (R8, R184). -/
def sextByte (v : Word) : Word := (Word.lo v).signExtend 16

/-- The bits `hi` down to `lo` set, the others clear (R7). -/
def bitMask (hi lo : Nat) : Word := BitVec.ofNat 16 ((2 ^ (hi + 1 - lo) - 1) * 2 ^ lo)

/-- The bits of `a` where `m` has a 0, those of `b` where it has a 1. (The case `m = 0` is no different;
it spares an evaluation from looking at `b`.) -/
def mixBits (m a b : Word) : Word := if m = 0 then a else (a &&& ~~~m) ||| (b &&& m)

end Sys2Proof
end

