-- ==== Sys2Proof/Config.lean ====
section
/-! DEFINITION. What the spec leaves to the implementer of a model: the parameters of R6 (and the list
"Open parameters" of 92_eei_decisions.md), with BOTH named values of each, and the one uninterpreted
source of free values. A machine carries its parameters in `State.cfg`; no step changes them. -/

namespace Sys2Proof

/-- `ODD_WORD_ACCESS` (R66) and `ODD_PC_SP` (R26, R30): the two values the spec names. -/
inductive OddPolicy where
  | refuse
  | clearBit0
deriving DecidableEq, Repr

/-- `FAULT_ACTION` (R301): stop in the named fault, or perform the reset of R312 instead. -/
inductive FaultAction where
  | stop
  | reset
deriving DecidableEq, Repr

/-- `RRC_V` (R181): the draw that is the spec's default, and the two candidate definitions it names. -/
inductive RrcV where
  | anyValue
  | alwaysZero
  | signChange
deriving DecidableEq, Repr

/-- The peripheral registers whose layout the spec prints (R331 to R333, R340 to R345, R350 to R352,
R360 to R362). Registers the source only names (R335) are not among them: no layout may be assumed. The one
exception is ADC10AE0, which R335 names and R362 describes: that it is held is the model's choice (log entry
35). -/
inductive PeriphReg where
  | p1in | p1out | p1ren
  | p2in | p2out | p2ren
  | uca0ctl0 | uca0ctl1 | uca0br0 | uca0br1 | uca0mctl | uca0rxbuf | uca0txbuf
  | ucb0ctl0
  | ta0iv | ta0ctl | ta0cctl0 | ta0cctl1 | ta0cctl2
  | ta1iv | ta1ctl | ta1cctl0 | ta1cctl1 | ta1cctl2
  | adc10ctl0 | adc10ctl1 | adc10ae0
deriving DecidableEq, Repr

/-- The parameters of R6. -/
structure Config where
  /-- `RAM_END`, the last RAM byte (R61, D16). -/
  ramEnd : Word
  /-- `FLASH_BASE`, the first byte of flash/ROM (R61, R62, D16): OPEN in the spec. -/
  flashBase : Word
  /-- `ODD_WORD_ACCESS` (R66, D3). -/
  oddWordAccess : OddPolicy
  /-- `ODD_PC_SP` (R26, R30, D4). -/
  oddPcSp : OddPolicy
  /-- `MOV_READS_DST` (R74, D15). -/
  movReadsDst : Bool
  /-- `RRC_V` (R181, D25). -/
  rrcV : RrcV
  /-- `FAULT_ACTION` (R301, D12). -/
  faultAction : FaultAction
  /-- `PERIPH_ADDR` (R330, D27): OPEN in the spec. -/
  periphAddr : List (PeriphReg × Word)
deriving DecidableEq, Repr

/-- FREE VALUES (the spec's `draw`, R9): the k-th value the environment chooses. It has no body, so
nothing can be proved of it; `State.draws` says which k comes next. -/
opaque Config.freeWord : Nat → Word

/-- The parameters describe a map R61 can have: RAM starts at 0200h and ends on an odd byte, the flash
starts on an even byte above it and not above the vector table's 0FFE0h. -/
def Config.wf (c : Config) : Bool :=
  decide (0x0200 ≤ c.ramEnd.toNat) && c.ramEnd.getLsbD 0
    && decide (c.ramEnd.toNat < c.flashBase.toNat) && !c.flashBase.getLsbD 0
    && decide (c.flashBase.toNat ≤ 0xFFE0)

end Sys2Proof
end

