-- ==== Sys2Proof/Syntax.lean ====
section
/-! DEFINITION. The instructions as syntax: the operand forms of R110, R111 and R149, the 27 core
instructions of R107 to R109 and the 24 emulated instructions of R251 to R274, one constructor for
each row of the opcode table. -/

namespace Sys2Proof

/-- The b/w bit, bit 6 of a Format I or II word: "W=0/B=1" (R68). -/
inductive Width where
  | word
  | byte
deriving DecidableEq, Repr

/-- The sixteen registers by the names R21 gives them: R0 = PC, R1 = SP, R2 = SR, R3 = CG. -/
inductive Reg where
  | pc | sp | sr | cg
  | r4 | r5 | r6 | r7 | r8 | r9 | r10 | r11 | r12 | r13 | r14 | r15
deriving DecidableEq, Repr

/-- The six generated constants of R149. -/
inductive ConstGen where
  | zero | one | two | four | eight | minusOne
deriving DecidableEq, Repr

/-- A source operand, one constructor per mode of R110. -/
inductive Src where
  | reg (r : Reg)                  -- Rn      (R142)
  | const (c : ConstGen)           -- #0 #1 #2 #4 #8 #-1 generated (R149)
  | indexed (r : Reg) (x : Word)   -- x(Rn)   (R143)
  | symbolic (x : Word)            -- addr    (R144)
  | absolute (a : Word)            -- &addr   (R145)
  | indirect (r : Reg)             -- @Rn     (R146)
  | autoInc (r : Reg)              -- @Rn+    (R147)
  | imm (n : Word)                 -- #N      (R148)
deriving DecidableEq, Repr

/-- A destination operand, one constructor per mode of R111. -/
inductive Dst where
  | reg (r : Reg)                  -- Rn      (R151)
  | bucket                         -- R3, the "Bit bucket" (R152)
  | indexed (r : Reg) (x : Word)   -- x(Rn)   (R143, R153)
  | symbolic (x : Word)            -- addr    (R144, R153)
  | absolute (a : Word)            -- &addr   (R145, R153)
deriving DecidableEq, Repr

/-- The instructions. The first 27 are the core instructions; the other 24 are the emulated ones, each
another name for words of a core instruction (R250). -/
inductive Instr where
  -- Format I (R222 to R233)
  | mov (w : Width) (src : Src) (dst : Dst)
  | add (w : Width) (src : Src) (dst : Dst)
  | addc (w : Width) (src : Src) (dst : Dst)
  | subc (w : Width) (src : Src) (dst : Dst)
  | sub (w : Width) (src : Src) (dst : Dst)
  | cmp (w : Width) (src : Src) (dst : Dst)
  | dadd (w : Width) (src : Src) (dst : Dst)
  | bit (w : Width) (src : Src) (dst : Dst)
  | bic (w : Width) (src : Src) (dst : Dst)
  | bis (w : Width) (src : Src) (dst : Dst)
  | xor (w : Width) (src : Src) (dst : Dst)
  | and (w : Width) (src : Src) (dst : Dst)
  -- Format II (R181 to R187); SWPB, SXT and CALL have no byte form
  | rrc (w : Width) (op : Src)
  | swpb (op : Src)
  | rra (w : Width) (op : Src)
  | sxt (op : Src)
  | push (w : Width) (op : Src)
  | call (op : Src)
  | reti
  -- Format III (R201 to R208); off counts words, two's complement
  | jne (off : BitVec 10)
  | jeq (off : BitVec 10)
  | jnc (off : BitVec 10)
  | jc (off : BitVec 10)
  | jn (off : BitVec 10)
  | jge (off : BitVec 10)
  | jl (off : BitVec 10)
  | jmp (off : BitVec 10)
  -- emulated (R251 to R274)
  | adc (w : Width) (dst : Dst)
  | br (src : Src)
  | clr (w : Width) (dst : Dst)
  | clrc
  | clrn
  | clrz
  | dadc (w : Width) (dst : Dst)
  | dec (w : Width) (dst : Dst)
  | decd (w : Width) (dst : Dst)
  | dint
  | eint
  | inc (w : Width) (dst : Dst)
  | incd (w : Width) (dst : Dst)
  | inv (w : Width) (dst : Dst)
  | nop
  | pop (w : Width) (dst : Dst)
  | ret
  | rla (w : Width) (dst : Dst)
  | rlc (w : Width) (dst : Dst)
  | sbc (w : Width) (dst : Dst)
  | setc
  | setn
  | setz
  | tst (w : Width) (dst : Dst)
deriving DecidableEq, Repr

end Sys2Proof
end

