-- ==== Sys2Proof/WellFormed.lean ====
section
/-! DEFINITION. Which terms of `Instr` are instructions in a legal form: the register restrictions of
R22, R110 and R111, and the reserved forms of R117 that depend on the operands. (The reserved forms
that have no term at all, SWPB, SXT or CALL with b/w = 1 and RETI with low bits set, are the
decoder's.) -/

namespace Sys2Proof

/-- Why a form is given no meaning: the two names R117 uses. -/
inductive FormProblem where
  /-- `refuse(reserved_form)`, R117. -/
  | reservedForm
  /-- `refuse(SR_dst_with_flags)`, R33 and R117. -/
  | srDstWithFlags
deriving DecidableEq, Repr

/-- R1, R4 to R15: the registers the indexed and auto-increment modes list (R22). -/
def Reg.isBase : Reg → Bool
  | .pc | .sr | .cg => false
  | _ => true

/-- R0, R1, R4 to R15: the registers the indirect mode lists (R22). -/
def Reg.isPointer : Reg → Bool
  | .sr | .cg => false
  | _ => true

/-- A row of R110. -/
def Src.wf : Src → Bool
  | .reg r => r != .cg
  | .indexed r _ => r.isBase
  | .indirect r => r.isPointer
  | .autoInc r => r.isBase
  | .const _ | .symbolic _ | .absolute _ | .imm _ => true

/-- A row of R111; `Ad = 1` with R3 is not one. -/
def Dst.wf : Dst → Bool
  | .reg r => r != .cg
  | .indexed r _ => r.isBase
  | .bucket | .symbolic _ | .absolute _ => true

/-- The destination is in memory (`Ad = 1`). -/
def Dst.isMem : Dst → Bool
  | .reg _ | .bucket => false
  | .indexed _ _ | .symbolic _ | .absolute _ => true

/-- The operand has no location to write back to (R160): immediate or generated constant. -/
def Src.isConst : Src → Bool
  | .const _ | .imm _ => true
  | _ => false

/-- R117 for Format I; `flags` says that the instruction computes flags and writes its destination. -/
def formIProblem (flags : Bool) (src : Src) (dst : Dst) : Option FormProblem :=
  if !src.wf || !dst.wf then some .reservedForm
  else if src == .reg .pc && dst.isMem then some .reservedForm
  else if flags && dst == .reg .sr then some .srDstWithFlags
  else none

/-- R117 for RRC, RRA, SWPB and SXT. -/
def rmwProblem (flags : Bool) (op : Src) : Option FormProblem :=
  if !op.wf || op.isConst then some .reservedForm
  else if flags && op == .reg .sr then some .srDstWithFlags
  else none

/-- R117 for PUSH (`PUSH SP` has no meaning). -/
def pushProblem (op : Src) : Option FormProblem :=
  if !op.wf || op == .reg .sp then some .reservedForm else none

/-- R117 for CALL. -/
def callProblem (op : Src) : Option FormProblem :=
  if !op.wf then some .reservedForm else none

/-- The reason, if any, that R117 (or a table of operand forms) gives an instruction no meaning. -/
def Instr.formProblem : Instr → Option FormProblem
  | .mov _ s d => formIProblem false s d
  | .add _ s d => formIProblem true s d
  | .addc _ s d => formIProblem true s d
  | .subc _ s d => formIProblem true s d
  | .sub _ s d => formIProblem true s d
  | .cmp _ s d => formIProblem false s d
  | .dadd _ s d => formIProblem true s d
  | .bit _ s d => formIProblem false s d
  | .bic _ s d => formIProblem false s d
  | .bis _ s d => formIProblem false s d
  | .xor _ s d => formIProblem true s d
  | .and _ s d => formIProblem true s d
  | .rrc _ o => rmwProblem true o
  | .swpb o => rmwProblem false o
  | .rra _ o => rmwProblem true o
  | .sxt o => rmwProblem true o
  | .push _ o => pushProblem o
  | .call o => callProblem o
  | .reti => none
  | .jne _ => none
  | .jeq _ => none
  | .jnc _ => none
  | .jc _ => none
  | .jn _ => none
  | .jge _ => none
  | .jl _ => none
  | .jmp _ => none
  | .adc _ d => formIProblem true (.const .zero) d
  | .br s => formIProblem false s (.reg .pc)
  | .clr _ d => formIProblem false (.const .zero) d
  | .clrc => none
  | .clrn => none
  | .clrz => none
  | .dadc _ d => formIProblem true (.const .zero) d
  | .dec _ d => formIProblem true (.const .one) d
  | .decd _ d => formIProblem true (.const .two) d
  | .dint => none
  | .eint => none
  | .inc _ d => formIProblem true (.const .one) d
  | .incd _ d => formIProblem true (.const .two) d
  | .inv _ d => formIProblem true (.const .minusOne) d
  | .nop => none
  | .pop _ d => formIProblem false (.autoInc .sp) d
  | .ret => none
  | .rla _ d => if d == .bucket then some .reservedForm else formIProblem true (.const .zero) d
  | .rlc _ d => if d == .bucket then some .reservedForm else formIProblem true (.const .zero) d
  | .sbc _ d => formIProblem true (.const .zero) d
  | .setc => none
  | .setn => none
  | .setz => none
  | .tst _ d => formIProblem false (.const .zero) d

/-- A well-formed instruction: in a legal form. -/
def Instr.wf (i : Instr) : Bool := i.formProblem == none

end Sys2Proof
end

