-- ==== Sys2Proof/Decode.lean ====
section
/-! DEFINITION. Decoding (R100 to R117, R121) and encoding. The decoder is total: it takes any bytes and
gives an instruction and the bytes after it, or a rejection by name. -/

namespace Sys2Proof

/-- Why bytes are rejected. -/
inductive DecodeError where
  /-- The word selects no instruction (R116): the machine raises `IllegalInstruction`. -/
  | illegal (w : Word)
  /-- A reserved form (R117). -/
  | form (p : FormProblem)
  /-- The bytes end before the instruction does. -/
  | truncated
deriving DecidableEq, Repr

/-! ## Fields -/

/-- The register a 4-bit field names (R20, R21). -/
def Reg.ofBits (b : BitVec 4) : Reg :=
  match b.toNat with
  | 0 => .pc | 1 => .sp | 2 => .sr | 3 => .cg
  | 4 => .r4 | 5 => .r5 | 6 => .r6 | 7 => .r7
  | 8 => .r8 | 9 => .r9 | 10 => .r10 | 11 => .r11
  | 12 => .r12 | 13 => .r13 | 14 => .r14 | _ => .r15

/-- The number of a register (R20, R21). -/
def Reg.bits : Reg → BitVec 4
  | .pc => 0 | .sp => 1 | .sr => 2 | .cg => 3
  | .r4 => 4 | .r5 => 5 | .r6 => 6 | .r7 => 7
  | .r8 => 8 | .r9 => 9 | .r10 => 10 | .r11 => 11
  | .r12 => 12 | .r13 => 13 | .r14 => 14 | .r15 => 15

/-- "W=0/B=1" (R104). -/
def Width.ofBit (b : Bool) : Width := if b then .byte else .word

/-- The b/w bit of a width. -/
def Width.bits : Width → BitVec 1
  | .word => 0
  | .byte => 1

/-- R110: the source operand of the fields As and register; `x` is the next code word. -/
def decodeSrc (as : BitVec 2) (r : Reg) (x : Word) : Src :=
  match as.toNat with
  | 0 =>
    match r with
    | .cg => .const .zero
    | r => .reg r
  | 1 =>
    match r with
    | .cg => .const .one
    | .pc => .symbolic x
    | .sr => .absolute x
    | r => .indexed r x
  | 2 =>
    match r with
    | .cg => .const .two
    | .sr => .const .four
    | r => .indirect r
  | _ =>
    match r with
    | .cg => .const .minusOne
    | .sr => .const .eight
    | .pc => .imm x
    | r => .autoInc r

/-- R111: the destination operand of the fields Ad and register. `Ad = 1` with R3, which the table
does not list, becomes an ill-formed term that the form check rejects (R117). -/
def decodeDst (ad : Bool) (r : Reg) (x : Word) : Dst :=
  if ad then
    match r with
    | .pc => .symbolic x
    | .sr => .absolute x
    | r => .indexed r x
  else
    match r with
    | .cg => .bucket
    | r => .reg r

/-- The extension word of a source operand, if it has one (R115). -/
def Src.ext : Src → Option Word
  | .indexed _ x => some x
  | .symbolic x => some x
  | .absolute a => some a
  | .imm n => some n
  | .reg _ | .const _ | .indirect _ | .autoInc _ => none

/-- The extension word of a destination operand, if it has one (R115). -/
def Dst.ext : Dst → Option Word
  | .indexed _ x => some x
  | .symbolic x => some x
  | .absolute a => some a
  | .reg _ | .bucket => none

/-! ## Emulated names -/

/-- The same operand as a source, for RLA and RLC (R268): in symbolic mode `x` is the source's own
extension word. The bit bucket is no source operand; it becomes a term that is no row of R110. -/
def Dst.asSrc : Dst → Src
  | .reg r => .reg r
  | .bucket => .reg .cg
  | .indexed r x => .indexed r x
  | .symbolic x => .symbolic x
  | .absolute a => .absolute a

/-- The destination operand of RLA and RLC: the symbolic word is 2 less, since it is relative to the
second extension word's address (R268). -/
def Dst.second : Dst → Dst
  | .symbolic x => .symbolic (x - 2)
  | d => d

/-- The core instruction an emulated one stands for (R251 to R274); a core instruction is its own. -/
def Instr.expand : Instr → Instr
  | .adc w d => .addc w (.const .zero) d
  | .br s => .mov .word s (.reg .pc)
  | .clr w d => .mov w (.const .zero) d
  | .clrc => .bic .word (.const .one) (.reg .sr)
  | .clrn => .bic .word (.const .four) (.reg .sr)
  | .clrz => .bic .word (.const .two) (.reg .sr)
  | .dadc w d => .dadd w (.const .zero) d
  | .dec w d => .sub w (.const .one) d
  | .decd w d => .sub w (.const .two) d
  | .dint => .bic .word (.const .eight) (.reg .sr)
  | .eint => .bis .word (.const .eight) (.reg .sr)
  | .inc w d => .add w (.const .one) d
  | .incd w d => .add w (.const .two) d
  | .inv w d => .xor w (.const .minusOne) d
  | .nop => .mov .word (.const .zero) .bucket
  | .pop w d => .mov w (.autoInc .sp) d
  | .ret => .mov .word (.autoInc .sp) (.reg .pc)
  | .rla w d => .add w d.asSrc d.second
  | .rlc w d => .addc w d.asSrc d.second
  | .sbc w d => .subc w (.const .zero) d
  | .setc => .bis .word (.const .one) (.reg .sr)
  | .setn => .bis .word (.const .four) (.reg .sr)
  | .setz => .bis .word (.const .two) (.reg .sr)
  | .tst w d => .cmp w (.const .zero) d
  | i => i

/-- The operand both operands name, when the source operand is the destination operand again (R268). -/
def sameOperand (s : Src) (d : Dst) : Option Dst :=
  match s, d with
  | .reg a, .reg b => if a = b then some (.reg a) else none
  | .indexed a x, .indexed b y => if a = b ∧ x = y then some (.indexed a x) else none
  | .symbolic x, .symbolic y => if y = x - 2 then some (.symbolic x) else none
  | .absolute x, .absolute y => if x = y then some (.absolute x) else none
  | _, _ => none

/-- The name the decoder gives a core instruction: the emulated mnemonic where one matches (R121),
NOP before CLR, RET before POP and BR, CLR before BR; any other instruction keeps its own name. -/
def Instr.preferred : Instr → Instr
  | .mov w s d =>
    match w, s, d with
    | .word, .const .zero, .bucket => .nop
    | .word, .autoInc .sp, .reg .pc => .ret
    | w, .const .zero, d => .clr w d
    | w, .autoInc .sp, d => .pop w d
    | .word, s, .reg .pc => .br s
    | w, s, d => .mov w s d
  | .add w s d =>
    match s with
    | .const .one => .inc w d
    | .const .two => .incd w d
    | s =>
      match sameOperand s d with
      | some e => .rla w e
      | none => .add w s d
  | .addc w s d =>
    match s with
    | .const .zero => .adc w d
    | s =>
      match sameOperand s d with
      | some e => .rlc w e
      | none => .addc w s d
  | .subc w s d => if s = .const .zero then .sbc w d else .subc w s d
  | .sub w s d =>
    match s with
    | .const .one => .dec w d
    | .const .two => .decd w d
    | s => .sub w s d
  | .cmp w s d => if s = .const .zero then .tst w d else .cmp w s d
  | .dadd w s d => if s = .const .zero then .dadc w d else .dadd w s d
  | .bic w s d =>
    match w, s, d with
    | .word, .const .one, .reg .sr => .clrc
    | .word, .const .two, .reg .sr => .clrz
    | .word, .const .four, .reg .sr => .clrn
    | .word, .const .eight, .reg .sr => .dint
    | w, s, d => .bic w s d
  | .bis w s d =>
    match w, s, d with
    | .word, .const .one, .reg .sr => .setc
    | .word, .const .two, .reg .sr => .setz
    | .word, .const .four, .reg .sr => .setn
    | .word, .const .eight, .reg .sr => .eint
    | w, s, d => .bis w s d
  | .xor w s d => if s = .const .minusOne then .inv w d else .xor w s d
  | i => i

/-- The instruction carries the name the decoder gives its words. -/
def Instr.canonical (i : Instr) : Bool := decide (i.expand.preferred = i)

/-! ## Decoding -/

/-- Format I (R104, R107): `x1`, `x2` are the next two code words, the source's first (R103). -/
def decodeFormatI (w x1 x2 : Word) : Except DecodeError Instr :=
  let s := decodeSrc (w.extractLsb' 4 2) (.ofBits (w.extractLsb' 8 4)) x1
  let d := decodeDst (w.getLsbD 7) (.ofBits (w.extractLsb' 0 4)) (if s.ext.isSome then x2 else x1)
  let bw := Width.ofBit (w.getLsbD 6)
  match (w.extractLsb' 12 4).toNat with
  | 4 => .ok (.mov bw s d)
  | 5 => .ok (.add bw s d)
  | 6 => .ok (.addc bw s d)
  | 7 => .ok (.subc bw s d)
  | 8 => .ok (.sub bw s d)
  | 9 => .ok (.cmp bw s d)
  | 10 => .ok (.dadd bw s d)
  | 11 => .ok (.bit bw s d)
  | 12 => .ok (.bic bw s d)
  | 13 => .ok (.bis bw s d)
  | 14 => .ok (.xor bw s d)
  | 15 => .ok (.and bw s d)
  | _ => .error (.illegal w)

/-- Format II (R105, R108), with the reserved forms of R117 that have no term: the byte forms of SWPB,
SXT and CALL, and RETI with any of bits 6 to 0 set. Opcode 111 is illegal (R188). -/
def decodeFormatII (w x1 : Word) : Except DecodeError Instr :=
  let o := decodeSrc (w.extractLsb' 4 2) (.ofBits (w.extractLsb' 0 4)) x1
  let bw := Width.ofBit (w.getLsbD 6)
  let wordOnly := fun (i : Instr) => if bw = .byte then .error (.form .reservedForm) else .ok i
  match (w.extractLsb' 7 3).toNat with
  | 0 => .ok (.rrc bw o)
  | 1 => wordOnly (.swpb o)
  | 2 => .ok (.rra bw o)
  | 3 => wordOnly (.sxt o)
  | 4 => .ok (.push bw o)
  | 5 => wordOnly (.call o)
  | 6 => if w.extractLsb' 0 7 = 0 then .ok .reti else .error (.form .reservedForm)
  | _ => .error (.illegal w)

/-- Format III (R106, R109). -/
def decodeFormatIII (w : Word) : Instr :=
  let off := w.extractLsb' 0 10
  match (w.extractLsb' 10 3).toNat with
  | 0 => .jne off
  | 1 => .jeq off
  | 2 => .jnc off
  | 3 => .jc off
  | 4 => .jn off
  | 5 => .jge off
  | 6 => .jl off
  | _ => .jmp off

/-- R101 and R102, steps (1) and (2): the core instruction a word selects. -/
def decodeCore (w x1 x2 : Word) : Except DecodeError Instr :=
  match (w.extractLsb' 13 3).toNat with
  | 0 => if w.extractLsb' 10 6 = 0b000100#6 then decodeFormatII w x1 else .error (.illegal w)
  | 1 => .ok (decodeFormatIII w)
  | _ => decodeFormatI w x1 x2

/-- R102 with step (3), and R121: the instruction of the word `w` followed by `x1` and `x2`. -/
def decodeWords (w x1 x2 : Word) : Except DecodeError Instr :=
  match decodeCore w x1 x2 with
  | .error e => .error e
  | .ok i =>
    match i.formProblem with
    | some p => .error (.form p)
    | none => .ok i.preferred

/-! ## Encoding -/

/-- 1 for an operand with an extension word, else 0. -/
def extCount : Option Word → Nat
  | some _ => 1
  | none => 0

/-- The fields As and register of a source operand (R110). -/
def Src.fields : Src → BitVec 2 × Reg
  | .reg r => (0, r)
  | .const .zero => (0, .cg)
  | .const .one => (1, .cg)
  | .const .two => (2, .cg)
  | .const .minusOne => (3, .cg)
  | .const .four => (2, .sr)
  | .const .eight => (3, .sr)
  | .indexed r _ => (1, r)
  | .symbolic _ => (1, .pc)
  | .absolute _ => (1, .sr)
  | .indirect r => (2, r)
  | .autoInc r => (3, r)
  | .imm _ => (3, .pc)

/-- The fields Ad and register of a destination operand (R111). -/
def Dst.fields : Dst → BitVec 1 × Reg
  | .reg r => (0, r)
  | .bucket => (0, .cg)
  | .indexed r _ => (1, r)
  | .symbolic _ => (1, .pc)
  | .absolute _ => (1, .sr)

/-- The words of a Format I instruction (R103, R104). -/
def encodeFormatI (op : BitVec 4) (w : Width) (s : Src) (d : Dst) : List Word :=
  (op ++ s.fields.2.bits ++ d.fields.1 ++ w.bits ++ s.fields.1 ++ d.fields.2.bits)
    :: (s.ext.toList ++ d.ext.toList)

/-- The words of a Format II instruction (R105). -/
def encodeFormatII (op : BitVec 3) (w : Width) (o : Src) : List Word :=
  (0b000100#6 ++ op ++ w.bits ++ o.fields.1 ++ o.fields.2.bits) :: o.ext.toList

/-- The word of a Format III instruction (R106). -/
def encodeFormatIII (c : BitVec 3) (off : BitVec 10) : List Word :=
  [(0b001#3 ++ c ++ off : BitVec 16)]

/-- The words of a core instruction; an emulated name has none of its own. -/
def encodeCore : Instr → List Word
  | .mov w s d => encodeFormatI 4 w s d
  | .add w s d => encodeFormatI 5 w s d
  | .addc w s d => encodeFormatI 6 w s d
  | .subc w s d => encodeFormatI 7 w s d
  | .sub w s d => encodeFormatI 8 w s d
  | .cmp w s d => encodeFormatI 9 w s d
  | .dadd w s d => encodeFormatI 10 w s d
  | .bit w s d => encodeFormatI 11 w s d
  | .bic w s d => encodeFormatI 12 w s d
  | .bis w s d => encodeFormatI 13 w s d
  | .xor w s d => encodeFormatI 14 w s d
  | .and w s d => encodeFormatI 15 w s d
  | .rrc w o => encodeFormatII 0 w o
  | .swpb o => encodeFormatII 1 .word o
  | .rra w o => encodeFormatII 2 w o
  | .sxt o => encodeFormatII 3 .word o
  | .push w o => encodeFormatII 4 w o
  | .call o => encodeFormatII 5 .word o
  | .reti => [0x1300#16]
  | .jne off => encodeFormatIII 0 off
  | .jeq off => encodeFormatIII 1 off
  | .jnc off => encodeFormatIII 2 off
  | .jc off => encodeFormatIII 3 off
  | .jn off => encodeFormatIII 4 off
  | .jge off => encodeFormatIII 5 off
  | .jl off => encodeFormatIII 6 off
  | .jmp off => encodeFormatIII 7 off
  | _ => []

/-- The code words of an instruction: those of the core instruction it is (R250). -/
def encode (i : Instr) : List Word := encodeCore i.expand

/-- The bytes of code words, each word's low byte first (R63). -/
def bytesOfWords : List Word → List Byte
  | [] => []
  | v :: t => Word.lo v :: Word.hi v :: bytesOfWords t

/-- The length of an instruction in code words (R100, R115). -/
def Instr.length (i : Instr) : Nat := (encode i).length

/-! ## Bytes -/

/-- The `k`-th code word of some bytes, 0 past their end. -/
def codeWordAt (bs : List Byte) (k : Nat) : Word :=
  wordOfBytes (bs.getD (2 * k) 0) (bs.getD (2 * k + 1) 0)

/-- Decode the instruction at the head of some bytes; the bytes after it remain. -/
def decode (bs : List Byte) : Except DecodeError (Instr × List Byte) :=
  if bs.length < 2 then .error .truncated else
  match decodeWords (codeWordAt bs 0) (codeWordAt bs 1) (codeWordAt bs 2) with
  | .error e => .error e
  | .ok i =>
    if bs.length < 2 * i.length then .error .truncated else .ok (i, bs.drop (2 * i.length))

/-- The three code words of an instruction whose bits are `w`, numbered as the opcode table numbers
them; the bits from `nbits` on are 0. -/
def tableWords (nbits w : Nat) : List Word :=
  let v := w % 2 ^ nbits
  [BitVec.ofNat 16 v, BitVec.ofNat 16 (v / 2 ^ 16), BitVec.ofNat 16 (v / 2 ^ 32)]

/-- What the decoder reads from those words, laid out as the hardware stores them (R63). -/
def decodeTableWord (nbits w : Nat) : Option Instr :=
  match decode (bytesOfWords (tableWords nbits w)) with
  | .ok (i, _) => some i
  | .error _ => none

end Sys2Proof
end

