-- ==== Sys2Proof/Machine/Defaults.lean ====
section
/-! DEFINITION. The values the model takes where the spec leaves a parameter or a reset value open: the
parameter values a machine starts with, and the reset values of R40 that are draws. -/

namespace Sys2Proof.Machine

/-- The suggested register addresses of R330 (from general knowledge, as R330 says; log entry 2). UCB0CTL0,
which R340 prints, is given no address by R330 and has none here. -/
def suggestedPeriphAddr : List (PeriphReg × Word) :=
  [ (.p1in, 0x0020), (.p1out, 0x0021), (.p1ren, 0x0027),
    (.p2in, 0x0028), (.p2out, 0x0029), (.p2ren, 0x002F),
    (.adc10ae0, 0x004A),
    (.uca0ctl0, 0x0060), (.uca0ctl1, 0x0061), (.uca0br0, 0x0062), (.uca0br1, 0x0063),
    (.uca0mctl, 0x0064), (.uca0rxbuf, 0x0066), (.uca0txbuf, 0x0067),
    (.ta1iv, 0x011E), (.ta0iv, 0x012E),
    (.ta0ctl, 0x0160), (.ta0cctl0, 0x0162), (.ta0cctl1, 0x0164), (.ta0cctl2, 0x0166),
    (.ta1ctl, 0x0180), (.ta1cctl0, 0x0182), (.ta1cctl1, 0x0184), (.ta1cctl2, 0x0186),
    (.adc10ctl0, 0x01B0), (.adc10ctl1, 0x01B2) ]

/-- The parameters at the spec's own defaults (R6), `FLASH_BASE` and `PERIPH_ADDR` as it suggests. -/
def specDefaults : Config where
  ramEnd := 0x03FF
  flashBase := 0xC000
  oddWordAccess := .refuse
  oddPcSp := .refuse
  movReadsDst := false
  rrcV := .anyValue
  faultAction := .stop
  periphAddr := suggestedPeriphAddr

/-- The parameters a machine starts with. DESIGN CHOICE (log entry 1): the spec's defaults, but
`ODD_WORD_ACCESS` and `ODD_PC_SP` at `clear_bit0`, the value under which the instruction runs. -/
def startConfig : Config :=
  { specDefaults with oddWordAccess := .clearBit0, oddPcSp := .clearBit0 }

/-- SP at reset, an even draw in R40. DESIGN CHOICE (log entry 4): the middle of RAM. -/
def resetSp : Word := 0x0300

/-- R4 to R15 at reset, draws in R40. DESIGN CHOICE (log entry 4). -/
def resetGeneral : Word := 0

/-- A peripheral register or field with no reset value in the source (R40, R330). DESIGN CHOICE (log
entry 5). -/
def resetUnannotated : Word := 0

end Sys2Proof.Machine
end

