-- ==== Sys2Proof/Machine/Memory.lean ====
section
/-! DEFINITION. Memory as data: the bytes of RAM and flash/ROM as a list of (address, byte) pairs in one
canonical form (addresses strictly rising, no entry equal to what an unlisted address reads as). -/

namespace Sys2Proof.Machine

namespace Memory

/-- What an unlisted address reads as. DESIGN CHOICE (log entry 3): the spec leaves RAM after power-up a
draw and the flash image a model argument (R40); the test vectors take both as 0. -/
def unlisted : Byte := 0

/-- The byte at an address. -/
def read : List Host.Cell → Nat → Byte
  | [], _ => unlisted
  | (x, b) :: t, a => if x = a then b else read t a

/-- Store a byte; the canonical form is kept (storing the unlisted value removes the entry). -/
def write : List Host.Cell → Nat → Byte → List Host.Cell
  | [], a, b => if b = unlisted then [] else [(a, b)]
  | (x, c) :: t, a, b =>
    if x < a then (x, c) :: write t a b
    else if x = a then if b = unlisted then t else (a, b) :: t
    else if b = unlisted then (x, c) :: t else (a, b) :: (x, c) :: t

/-- The canonical form, from address `lo` on. -/
def wfFrom : Nat → List Host.Cell → Bool
  | _, [] => true
  | lo, (a, b) :: t => decide (lo ≤ a) && b != unlisted && wfFrom (a + 1) t

/-- The canonical form. -/
def wf (m : List Host.Cell) : Bool := wfFrom 0 m

/-- The word at an address: its low byte there, its high byte at the next address, modulo 2^16
(R63, R64). -/
def readWord (m : List Host.Cell) (a : Word) : Word :=
  wordOfBytes (read m a.toNat) (read m (a + 1).toNat)

/-- Store a word (R65). -/
def writeWord (m : List Host.Cell) (a v : Word) : List Host.Cell :=
  write (write m a.toNat (Word.lo v)) (a + 1).toNat (Word.hi v)

/-- Store code words at an address and the addresses after it. -/
def writeWords (m : List Host.Cell) (a : Word) : List Word → List Host.Cell
  | [] => m
  | v :: t => writeWords (writeWord m a v) (a + 2) t

end Memory

end Sys2Proof.Machine
end

