-- ==== Sys2Proof/Machine/State.lean ====
section
/-! DEFINITION. The machine's state, as plain data, its reset value, and the reasons a step can stop. -/

namespace Sys2Proof.Machine

/-- The register file (R20, R21). R3 holds no storage (R24). -/
structure Regs where
  pc : Word
  sp : Word
  sr : Word
  r4 : Word
  r5 : Word
  r6 : Word
  r7 : Word
  r8 : Word
  r9 : Word
  r10 : Word
  r11 : Word
  r12 : Word
  r13 : Word
  r14 : Word
  r15 : Word
deriving DecidableEq, Repr

/-- The peripheral registers the spec prints: of each register, the bits that are held (all bits of its
layout in Machine/Peripherals.lean but those that read as 0 or as a free value, which are 0 here). PxIN and
UCA0RXBUF hold no bit. -/
structure Periph where
  p1out : Word
  p1ren : Word
  p2out : Word
  p2ren : Word
  uca0ctl0 : Word
  uca0ctl1 : Word
  uca0br0 : Word
  uca0br1 : Word
  uca0mctl : Word
  uca0txbuf : Word
  ucb0ctl0 : Word
  ta0iv : Word
  ta0ctl : Word
  ta0cctl0 : Word
  ta0cctl1 : Word
  ta0cctl2 : Word
  ta1iv : Word
  ta1ctl : Word
  ta1cctl0 : Word
  ta1cctl1 : Word
  ta1cctl2 : Word
  adc10ctl0 : Word
  adc10ctl1 : Word
  adc10ae0 : Word
deriving DecidableEq, Repr

/-- The rows of the interrupt table that have a source and are no reset (R302), highest priority first. -/
inductive IrqSource where
  | nmi            -- 30: NMI, oscillator fault, flash access violation
  | timer1Ccr0     -- 29: TA1CCR0 CCIFG
  | timer1Multi    -- 28: TA1CCR2, TA1CCR1 CCIFG, TAIFG
  | comparatorA    -- 27: CAIFG
  | watchdog       -- 26: WDTIFG (interval timer)
  | timer0Ccr0     -- 25: TA0CCR0 CCIFG
  | timer0Multi    -- 24: TA0CCR2, TA0CCR1 CCIFG, TAIFG
  | usciRx         -- 23: UCA0RXIFG, UCB0RXIFG
  | usciTx         -- 22: UCA0TXIFG, UCB0TXIFG
  | adc10          -- 21: ADC10IFG
  | portP2         -- 19: P2IFG.0 to P2IFG.7
  | portP1         -- 18: P1IFG.0 to P1IFG.7
deriving DecidableEq, Repr

/-- The five causes of reset, row 31 of R302 (R312, R400). -/
inductive ResetCause where
  | powerUp | externalReset | watchdog | flashKeyViolation | pcOutOfRange
deriving DecidableEq, Repr

/-- The flags that record the cause of a reset (R302, R312). -/
structure ResetFlags where
  porifg : Bool
  rstifg : Bool
  wdtifg : Bool
  keyv : Bool
deriving DecidableEq, Repr

/-- One change the peripheral hardware makes: the bits of the register that are its own take their values in
`value` (log entry 15). -/
structure DeviceMove where
  reg : PeriphReg
  value : Word
deriving DecidableEq, Repr

/-- What the environment does at one instruction boundary (R306, R307): changes in the printed peripheral
registers, in order, requests it raises and withdraws, and a reset it asks for. -/
structure BoundaryInput where
  device : List DeviceMove
  raised : List IrqSource
  withdrawn : List IrqSource
  reset : Option ResetCause
deriving DecidableEq, Repr

/-- What the machine tells the environment (R75, R308, R312). -/
inductive EnvEvent where
  /-- A read of a peripheral address. -/
  | read (a : Word) (w : Width)
  /-- A write to a peripheral address. -/
  | write (a : Word) (w : Width) (v : Word)
  /-- `Accepted(p)` of R308. -/
  | accepted (p : IrqSource)
  /-- A reset was performed; `none` is the reset `FAULT_ACTION` performs for an illegal word. -/
  | reset (c : Option ResetCause)
deriving DecidableEq, Repr

/-- The machine's state. -/
structure State where
  /-- R0 to R15 (R20). -/
  regs : Regs
  /-- RAM and flash/ROM, the vectors included (R60, R61). -/
  mem : List Host.Cell
  /-- The printed peripheral registers (Part 3 of 60_exceptions.md). -/
  periph : Periph
  /-- The set `Pending` of requests that are up at this boundary (R38, R306). -/
  pending : List IrqSource
  /-- `ResetRequested` at this boundary (R307, R312). -/
  resetRequested : Option ResetCause
  /-- PORIFG, RSTIFG, WDTIFG, KEYV (R302, R312). -/
  resetFlags : ResetFlags
  /-- MODEL'S OWN: what the environment will do at the boundaries to come, the next one first. -/
  inputs : List BoundaryInput
  /-- MODEL'S OWN: what the environment has been told, the newest first (R75, R308). -/
  events : List EnvEvent
  /-- MODEL'S OWN: how many free values have been drawn (R9, `Config.freeWord`). -/
  draws : Nat
  /-- The parameters of this machine (R6); no step changes them. -/
  cfg : Config
deriving DecidableEq, Repr

/-- The faults of R301. Each leaves the state as it was before the faulting instruction began. -/
inductive Fault where
  /-- `IllegalInstruction(A, w)`: raised by the step when the word fetched is no instruction (R116).
  Safe: the hardware may go on, the model claims nothing. -/
  | illegalInstruction (a w : Word)
  /-- `PCOutOfRange(a)`: raised by an instruction or extension word fetch outside RAM and flash (R69).
  Safe: the hardware resets, which the model does under `FAULT_ACTION = reset`. -/
  | pcOutOfRange (a : Word)
deriving DecidableEq, Repr

/-- The refusals of R301: situations the spec gives no meaning. Each is safe: nothing is claimed of them. -/
inductive Refusal where
  /-- An instruction with no meaning in the model yet; raised by `exec`'s arm. Safe. -/
  | notModelled (mnemonic : String)
  /-- `reserved_form` (R117): raised by the decoder and by the meanings. Safe. -/
  | reservedForm
  /-- `SR_reserved` (R33): a register-mode write to R2 or RETI would set one of bits 15 to 9. Safe. -/
  | srReserved
  /-- `SR_dst_with_flags` (R33): a flag-computing instruction writes R2. Safe. -/
  | srDstWithFlags
  /-- An odd value for PC or SP under `ODD_PC_SP = refuse` (R26, R30). Safe. -/
  | oddPcSp
  /-- A word access at an odd address under `ODD_WORD_ACCESS = refuse` (R66). Safe. -/
  | oddWordAccess
  /-- `access_kind` (R67): an access of the wrong width to a peripheral region. Safe. -/
  | accessKind
  /-- `unpopulated` (R67): an access to an address where there is nothing. Safe. -/
  | unpopulated
  /-- `write_to_flash` (R65). Safe. -/
  | writeToFlash
  /-- `smc_next_word` (R82): a store into the instruction word after the storing instruction. Safe. -/
  | smcNextWord
deriving DecidableEq, Repr

/-- The peripheral registers after reset (R401): every annotated bit at its value, UCSWRST = 1; the
registers without a value at the model's choice. -/
def Periph.reset : Periph where
  p1out := resetUnannotated
  p1ren := resetUnannotated
  p2out := resetUnannotated
  p2ren := resetUnannotated
  uca0ctl0 := 0
  uca0ctl1 := 0x01
  uca0br0 := resetUnannotated
  uca0br1 := resetUnannotated
  uca0mctl := 0
  uca0txbuf := resetUnannotated
  ucb0ctl0 := 0
  ta0iv := 0
  ta0ctl := 0
  ta0cctl0 := 0
  ta0cctl1 := 0
  ta0cctl2 := 0
  ta1iv := 0
  ta1ctl := 0
  ta1cctl0 := 0
  ta1cctl1 := 0
  ta1cctl2 := 0
  adc10ctl0 := 0
  adc10ctl1 := 0
  adc10ae0 := 0

/-- The machine right after a power-up reset with no program loaded (R40, R312, R401): PC is the word at
0FFFEh of a memory that lists nothing, SR is 0000h, nothing is pending. -/
def State.reset : State where
  regs :=
    { pc := Memory.readWord [] 0xFFFE
      sp := resetSp
      sr := 0
      r4 := resetGeneral
      r5 := resetGeneral
      r6 := resetGeneral
      r7 := resetGeneral
      r8 := resetGeneral
      r9 := resetGeneral
      r10 := resetGeneral
      r11 := resetGeneral
      r12 := resetGeneral
      r13 := resetGeneral
      r14 := resetGeneral
      r15 := resetGeneral }
  mem := []
  periph := Periph.reset
  pending := []
  resetRequested := none
  resetFlags := { porifg := true, rstifg := false, wdtifg := false, keyv := false }
  inputs := []
  events := []
  draws := 0
  cfg := startConfig

end Sys2Proof.Machine
end

