-- ==== Sys2Proof/Machine/Peripherals.lean ====
section
/-! DEFINITION. The peripheral registers the spec prints (Part 3 of 60_exceptions.md): their layouts as
data, transcribed field by field, and what a read, a write and a reset do to them. Everything else in
0000h to 01FFh is environment (R75): a read is a free value, a write is an event. -/

namespace Sys2Proof.Machine

/-- Who changes a bit of a peripheral register, and what a read of it gives (log entries 8 and 15). -/
inductive BitKind where
  /-- Held; only software changes it. -/
  | stored
  /-- Held; software writes it ("rw"), and the peripheral hardware sets and clears it at instruction
  boundaries. -/
  | shared
  /-- Held; read only to software ("r"), changed by the peripheral hardware at instruction boundaries. -/
  | device
  /-- Not held: the source gives no reset value, and a read returns a free value (R75, R331). -/
  | input
  /-- Always reads as 0. -/
  | zero
deriving DecidableEq, Repr

/-- One row of a register's bit table. `resetVal` is the annotation's value for each of the field's bits
(`-0`, `-(0)`, `-1`, `r0`); `none` where the source gives none. -/
structure Field where
  name : String
  hi : Nat
  lo : Nat
  kind : BitKind
  resetVal : Option Bool
deriving DecidableEq, Repr

/-- R350, TACTL. TACLR "is always read as zero"; TAIFG is set by the timer; the unused bits are the
environment's (93_implementation_defined.md U13). -/
def tactlLayout : List Field :=
  [ ⟨"Unused", 15, 10, .shared, some false⟩, ⟨"TASSELx", 9, 8, .stored, some false⟩,
    ⟨"IDx", 7, 6, .stored, some false⟩, ⟨"MCx", 5, 4, .stored, some false⟩,
    ⟨"Unused", 3, 3, .shared, some false⟩, ⟨"TACLR", 2, 2, .zero, some false⟩,
    ⟨"TAIE", 1, 1, .stored, some false⟩, ⟨"TAIFG", 0, 0, .shared, some false⟩ ]

/-- R351, TACCTLx. SCCI and CCI show inputs; COV and CCIFG are set by the timer; bit 9 reads as 0. -/
def tacctlLayout : List Field :=
  [ ⟨"CMx", 15, 14, .stored, some false⟩, ⟨"CCISx", 13, 12, .stored, some false⟩,
    ⟨"SCS", 11, 11, .stored, some false⟩, ⟨"SCCI", 10, 10, .input, none⟩,
    ⟨"Unused", 9, 9, .zero, some false⟩, ⟨"CAP", 8, 8, .stored, some false⟩,
    ⟨"OUTMODx", 7, 5, .stored, some false⟩, ⟨"CCIE", 4, 4, .stored, some false⟩,
    ⟨"CCI", 3, 3, .input, none⟩, ⟨"OUT", 2, 2, .stored, some false⟩,
    ⟨"COV", 1, 1, .shared, some false⟩, ⟨"CCIFG", 0, 0, .shared, some false⟩ ]

/-- R352, TAIV: bits 3 to 1 are the timer's, the others read 0. -/
def taivLayout : List Field :=
  [ ⟨"r0", 15, 4, .zero, some false⟩, ⟨"TAIVx", 3, 1, .device, some false⟩,
    ⟨"r0", 0, 0, .zero, some false⟩ ]

/-- R340, UCAxCTL0 and UCBxCTL0 (the layout of the SPI chapter; 90_conflicts.md C11). The access cell of
bit 0, UCSYNC, is empty in the source: that software writes it and reads it back is the model's choice (log entry
38); its reset value is R401's 00h for the register. -/
def ucctl0Layout : List Field :=
  [ ⟨"UCCKPH", 7, 7, .stored, some false⟩, ⟨"UCCKPL", 6, 6, .stored, some false⟩,
    ⟨"UCMSB", 5, 5, .stored, some false⟩, ⟨"UC7BIT", 4, 4, .stored, some false⟩,
    ⟨"UCMST", 3, 3, .stored, some false⟩, ⟨"UCMODEx", 2, 1, .stored, some false⟩,
    ⟨"UCSYNC", 0, 0, .stored, some false⟩ ]

/-- R341, UCAxCTL1. UCTXADDR and UCTXBRK, "rw-0", ask something of the NEXT frame only, so the hardware may
clear them once it is sent (log entry 8). -/
def ucctl1Layout : List Field :=
  [ ⟨"UCSSELx", 7, 6, .stored, some false⟩, ⟨"UCRXEIE", 5, 5, .stored, some false⟩,
    ⟨"UCBRKIE", 4, 4, .stored, some false⟩, ⟨"UCDORM", 3, 3, .stored, some false⟩,
    ⟨"UCTXADDR", 2, 2, .shared, some false⟩, ⟨"UCTXBRK", 1, 1, .shared, some false⟩,
    ⟨"UCSWRST", 0, 0, .stored, some true⟩ ]

/-- R343, UCAxMCTL. -/
def ucmctlLayout : List Field :=
  [ ⟨"UCBRFx", 7, 4, .stored, some false⟩, ⟨"UCBRSx", 3, 1, .stored, some false⟩,
    ⟨"UCOS16", 0, 0, .stored, some false⟩ ]

/-- R360, ADC10CTL0. ADC10IFG is set by a conversion and reset by acceptance; ADC10SC "is reset
automatically". -/
def adc10ctl0Layout : List Field :=
  [ ⟨"SREFx", 15, 13, .stored, some false⟩, ⟨"ADC10SHTx", 12, 11, .stored, some false⟩,
    ⟨"ADC10SR", 10, 10, .stored, some false⟩, ⟨"REFOUT", 9, 9, .stored, some false⟩,
    ⟨"REFBURST", 8, 8, .stored, some false⟩, ⟨"MSC", 7, 7, .stored, some false⟩,
    ⟨"REF2_5V", 6, 6, .stored, some false⟩, ⟨"REFON", 5, 5, .stored, some false⟩,
    ⟨"ADC10ON", 4, 4, .stored, some false⟩, ⟨"ADC10IE", 3, 3, .stored, some false⟩,
    ⟨"ADC10IFG", 2, 2, .shared, some false⟩, ⟨"ENC", 1, 1, .stored, some false⟩,
    ⟨"ADC10SC", 0, 0, .shared, some false⟩ ]

/-- R361, ADC10CTL1. ADC10BUSY is read only, the converter's. -/
def adc10ctl1Layout : List Field :=
  [ ⟨"INCHx", 15, 12, .stored, some false⟩, ⟨"SHSx", 11, 10, .stored, some false⟩,
    ⟨"ADC10DF", 9, 9, .stored, some false⟩, ⟨"ISSH", 8, 8, .stored, some false⟩,
    ⟨"ADC10DIVx", 7, 5, .stored, some false⟩, ⟨"ADC10SSELx", 4, 3, .stored, some false⟩,
    ⟨"CONSEQx", 2, 1, .stored, some false⟩, ⟨"ADC10BUSY", 0, 0, .device, some false⟩ ]

/-- The layout of each printed register. That ADC10AE0 has one, of eight bits that software writes and reads
back, is the model's choice (log entry 35): R362 gives its width, its bits' meaning and its reset value, R335 and
R5 count ADC10AE among the registers only named, and no access annotation is printed. That software's writes to
UCA0RXBUF change nothing, though R344 transcribes "rw", is the model's choice too (log entry 39). -/
def regLayout : PeriphReg → List Field
  | .p1in => [⟨"P1IN", 7, 0, .input, none⟩]       -- R331
  | .p2in => [⟨"P2IN", 7, 0, .input, none⟩]
  | .p1out => [⟨"P1OUT", 7, 0, .stored, none⟩]     -- R332
  | .p2out => [⟨"P2OUT", 7, 0, .stored, none⟩]
  | .p1ren => [⟨"P1REN", 7, 0, .stored, none⟩]     -- R333
  | .p2ren => [⟨"P2REN", 7, 0, .stored, none⟩]
  | .uca0ctl0 => ucctl0Layout
  | .ucb0ctl0 => ucctl0Layout
  | .uca0ctl1 => ucctl1Layout
  | .uca0br0 => [⟨"UCBRx", 7, 0, .stored, none⟩]   -- R342
  | .uca0br1 => [⟨"UCBRx", 7, 0, .stored, none⟩]
  | .uca0mctl => ucmctlLayout
  | .uca0rxbuf => [⟨"UCRXBUFx", 7, 0, .input, none⟩]  -- R344
  | .uca0txbuf => [⟨"UCTXBUFx", 7, 0, .stored, none⟩]  -- R345
  | .ta0iv => taivLayout
  | .ta1iv => taivLayout
  | .ta0ctl => tactlLayout
  | .ta1ctl => tactlLayout
  | .ta0cctl0 => tacctlLayout
  | .ta0cctl1 => tacctlLayout
  | .ta0cctl2 => tacctlLayout
  | .ta1cctl0 => tacctlLayout
  | .ta1cctl1 => tacctlLayout
  | .ta1cctl2 => tacctlLayout
  | .adc10ctl0 => adc10ctl0Layout
  | .adc10ctl1 => adc10ctl1Layout
  | .adc10ae0 => [⟨"ADC10AE0.y", 7, 0, .stored, some false⟩]  -- R362

/-- The bits of the fields of a kind. -/
def kindMask (k : BitKind) : List Field → Word
  | [] => 0
  | f :: t => (if f.kind = k then bitMask f.hi f.lo else 0) ||| kindMask k t

/-- The bits software writes. -/
def softMask (r : PeriphReg) : Word := kindMask .stored (regLayout r) ||| kindMask .shared (regLayout r)

/-- The bits the peripheral hardware changes at instruction boundaries. -/
def deviceMask (r : PeriphReg) : Word := kindMask .shared (regLayout r) ||| kindMask .device (regLayout r)

/-- The bits State holds. -/
def heldMask (r : PeriphReg) : Word := softMask r ||| deviceMask r

/-- The bits whose every read is a free value. -/
def inputMask (r : PeriphReg) : Word := kindMask .input (regLayout r)

/-- The held bits of a register; 0 for a register that has none. -/
def Periph.get (p : Periph) : PeriphReg → Word
  | .p1in => 0
  | .p2in => 0
  | .uca0rxbuf => 0
  | .ta0iv => p.ta0iv
  | .ta1iv => p.ta1iv
  | .p1out => p.p1out
  | .p1ren => p.p1ren
  | .p2out => p.p2out
  | .p2ren => p.p2ren
  | .uca0ctl0 => p.uca0ctl0
  | .uca0ctl1 => p.uca0ctl1
  | .uca0br0 => p.uca0br0
  | .uca0br1 => p.uca0br1
  | .uca0mctl => p.uca0mctl
  | .uca0txbuf => p.uca0txbuf
  | .ucb0ctl0 => p.ucb0ctl0
  | .ta0ctl => p.ta0ctl
  | .ta0cctl0 => p.ta0cctl0
  | .ta0cctl1 => p.ta0cctl1
  | .ta0cctl2 => p.ta0cctl2
  | .ta1ctl => p.ta1ctl
  | .ta1cctl0 => p.ta1cctl0
  | .ta1cctl1 => p.ta1cctl1
  | .ta1cctl2 => p.ta1cctl2
  | .adc10ctl0 => p.adc10ctl0
  | .adc10ctl1 => p.adc10ctl1
  | .adc10ae0 => p.adc10ae0

/-- Set the held bits of a register; a register that has none is left alone (R331). -/
def Periph.set (p : Periph) (r : PeriphReg) (v : Word) : Periph :=
  match r with
  | .p1in => p
  | .p2in => p
  | .uca0rxbuf => p
  | .ta0iv => { p with ta0iv := v }
  | .ta1iv => { p with ta1iv := v }
  | .p1out => { p with p1out := v }
  | .p1ren => { p with p1ren := v }
  | .p2out => { p with p2out := v }
  | .p2ren => { p with p2ren := v }
  | .uca0ctl0 => { p with uca0ctl0 := v }
  | .uca0ctl1 => { p with uca0ctl1 := v }
  | .uca0br0 => { p with uca0br0 := v }
  | .uca0br1 => { p with uca0br1 := v }
  | .uca0mctl => { p with uca0mctl := v }
  | .uca0txbuf => { p with uca0txbuf := v }
  | .ucb0ctl0 => { p with ucb0ctl0 := v }
  | .ta0ctl => { p with ta0ctl := v }
  | .ta0cctl0 => { p with ta0cctl0 := v }
  | .ta0cctl1 => { p with ta0cctl1 := v }
  | .ta0cctl2 => { p with ta0cctl2 := v }
  | .ta1ctl => { p with ta1ctl := v }
  | .ta1cctl0 => { p with ta1cctl0 := v }
  | .ta1cctl1 => { p with ta1cctl1 := v }
  | .ta1cctl2 => { p with ta1cctl2 := v }
  | .adc10ctl0 => { p with adc10ctl0 := v }
  | .adc10ctl1 => { p with adc10ctl1 := v }
  | .adc10ae0 => { p with adc10ae0 := v }

/-- The register `PERIPH_ADDR` puts at an address (R330). -/
def regAt (c : Config) (a : Word) : Option PeriphReg :=
  (c.periphAddr.find? (fun e => e.2 == a)).map (·.1)

/-- UC7BIT of UCA0CTL0: 7-bit data (R340). -/
def Periph.sevenBit (p : Periph) : Bool := p.uca0ctl0.getLsbD 4

/-- UCSWRST of UCA0CTL1 (R341). -/
def Periph.ucswrst (p : Periph) : Bool := p.uca0ctl1.getLsbD 0

/-- ENC of ADC10CTL0 (R360). -/
def Periph.enc (p : Periph) : Bool := p.adc10ctl0.getLsbD 1

/-- The bits a read gives, from what is held and a free value `d` (R75, R332, R344): "in 7-bit data
mode … the MSB is always reset" for UCAxRXBUF. -/
def Periph.readValue (p : Periph) (r : PeriphReg) (d : Word) : Word :=
  let v := mixBits (inputMask r) (p.get r &&& heldMask r) d
  if r = .uca0rxbuf ∧ p.sevenBit then v &&& 0x007F else v

/-- The bits whose new value the spec leaves open when software writes the register now (log entry 9).
USCI registers are to be written while UCSWRST = 1 (R346, R404; UCSWRST itself always). ADC10 fields marked "can
be modified only when ENC = 0" are to be written while ENC = 0, and which they are is lost (R360, R361): every
field that may be one is open, which is all of ADC10CTL1's and, of ADC10CTL0's, all but ENC and ADC10IFG ("may be
reset by software"). The model's choice for UCB0CTL0 (log entry 9): UCB0's own UCSWRST is in a register the spec
does not print, and a write is taken as made while it is 1. -/
def Periph.openBits (p : Periph) : PeriphReg → Word
  | .uca0ctl0 => if p.ucswrst then 0 else 0x00FF
  | .uca0br0 => if p.ucswrst then 0 else 0x00FF
  | .uca0br1 => if p.ucswrst then 0 else 0x00FF
  | .uca0mctl => if p.ucswrst then 0 else 0x00FF
  | .uca0ctl1 => if p.ucswrst then 0 else 0x00FE
  | .adc10ctl0 => if p.enc then 0xFFF9 else 0
  | .adc10ctl1 => if p.enc then 0xFFFE else 0
  | _ => 0

/-- What the register holds after software writes `v`: the open bits become those of the free value `d`, and
the bits software cannot write stay (R352, R361). "The MSB of UCAxTXBUF is not used for 7-bit data and is
reset" (R345): at the write, while UC7BIT = 1, and at no other moment, which is the model's choice (log entry
37). -/
def Periph.writeValue (p : Periph) (r : PeriphReg) (v d : Word) : Word :=
  let n := mixBits (softMask r) (p.get r) (mixBits (p.openBits r) v d)
  if r = .uca0txbuf ∧ p.sevenBit then n &&& 0x007F else n

/-- What the register holds after the peripheral hardware gives its own bits the values they have in `v`. -/
def Periph.deviceValue (p : Periph) (r : PeriphReg) (v : Word) : Word :=
  mixBits (deviceMask r) (p.get r) v

/-- The set `Pending` without a request. -/
def withdraw (q : IrqSource) (ps : List IrqSource) : List IrqSource := ps.filter (· != q)

/-- The set `Pending` with a request. -/
def raise (q : IrqSource) (ps : List IrqSource) : List IrqSource :=
  if q ∈ ps then ps else q :: ps

/-- A request that is up exactly when `b` holds. -/
def request (q : IrqSource) (b : Bool) (ps : List IrqSource) : List IrqSource :=
  if b then raise q ps else withdraw q ps

/-- CCIFG and CCIE of a TACCTLx are both 1 (R351). -/
def ccRequest (v : Word) : Bool := v.getLsbD 4 && v.getLsbD 0

/-- TAIFG and TAIE of a TACTL are both 1 (R350). -/
def taRequest (v : Word) : Bool := v.getLsbD 1 && v.getLsbD 0

/-- ADC10IFG and ADC10IE of ADC10CTL0 are both 1 (R360). -/
def adcRequest (v : Word) : Bool := v.getLsbD 3 && v.getLsbD 2

/-- The requests after the bits of register `r` changed, by software or by the hardware, to what `p` holds: a
source requests when a flag and its enable are both 1 (R306). For the flags the spec prints: CCIFG of block 0 (25,
29), TAIFG and CCIFG of blocks 1 and 2 on one vector (24, 28; R350, R351), and ADC10IFG (21; R360). -/
def flagRequests (r : PeriphReg) (p : Periph) (ps : List IrqSource) : List IrqSource :=
  match r with
  | .ta0cctl0 => request .timer0Ccr0 (ccRequest p.ta0cctl0) ps
  | .ta1cctl0 => request .timer1Ccr0 (ccRequest p.ta1cctl0) ps
  | .ta0ctl | .ta0cctl1 | .ta0cctl2 =>
    request .timer0Multi (taRequest p.ta0ctl || ccRequest p.ta0cctl1 || ccRequest p.ta0cctl2) ps
  | .ta1ctl | .ta1cctl1 | .ta1cctl2 =>
    request .timer1Multi (taRequest p.ta1ctl || ccRequest p.ta1cctl1 || ccRequest p.ta1cctl2) ps
  | .adc10ctl0 => request .adc10 (adcRequest p.adc10ctl0) ps
  | _ => ps

/-- The requests after software wrote a register: writing UCAxTXBUF withdraws request 22 (R345), and the printed
flags and enables request as they now stand. -/
def writeRequests (r : PeriphReg) (p : Periph) (ps : List IrqSource) : List IrqSource :=
  if r = .uca0txbuf then withdraw .usciTx ps else flagRequests r p ps

/-- The requests after software read a register: reading UCAxRXBUF "withdraws request 23 unless UCB0RXIFG
is also up" (R344); whether it is up is the free bit `b`. -/
def readRequests (r : PeriphReg) (b : Bool) (ps : List IrqSource) : List IrqSource :=
  match r with
  | .uca0rxbuf => if b then ps else withdraw .usciRx ps
  | _ => ps

/-- A value cut to an access width. -/
def truncTo : Width → Word → Word
  | .word, v => v
  | .byte, v => zextByte v

/-- A read of a peripheral address (R74, R75): an event, one free value drawn, and the value read. -/
def devRead (w : Width) (a : Word) (s : State) : Word × State :=
  let d := Config.freeWord s.draws
  let s := { s with draws := s.draws + 1, events := .read a w :: s.events }
  match regAt s.cfg a with
  | none => (truncTo w d, s)
  | some r =>
    (truncTo w (s.periph.readValue r d), { s with pending := readRequests r (d.getLsbD 8) s.pending })

/-- A write to a peripheral address (R74, R75): an event, one free value drawn for the bits the spec
leaves open, and what the register stores. -/
def devWrite (w : Width) (a v : Word) (s : State) : State :=
  let d := Config.freeWord s.draws
  let v := truncTo w v
  let s := { s with draws := s.draws + 1, events := .write a w v :: s.events }
  match regAt s.cfg a with
  | none => s
  | some r =>
    let p := s.periph.set r (s.periph.writeValue r v d)
    { s with
      periph := p
      pending := writeRequests r p s.pending }

/-- One move of the peripheral hardware at an instruction boundary (R306): it gives its own bits of a register
their values, and the requests of that register's flags follow. -/
def State.deviceMove (s : State) (m : DeviceMove) : State :=
  let p := s.periph.set m.reg (s.periph.deviceValue m.reg m.value)
  { s with
    periph := p
    pending := flagRequests m.reg p s.pending }

/-- The moves of a boundary, in order. -/
def State.deviceMoves (s : State) : List DeviceMove → State
  | [] => s
  | m :: t => (s.deviceMove m).deviceMoves t

/-- What acceptance does to the printed flags (R309): ADC10IFG "is automatically reset when the interrupt request
is accepted", and so is the CCIFG of a vector that serves it alone. -/
def Periph.acceptFlag (p : Periph) : IrqSource → Periph
  | .adc10 => { p with adc10ctl0 := setBit p.adc10ctl0 2 false }
  | .timer0Ccr0 => { p with ta0cctl0 := setBit p.ta0cctl0 0 false }
  | .timer1Ccr0 => { p with ta1cctl0 := setBit p.ta1cctl0 0 false }
  | _ => p

/-- The peripheral registers after a reset (R312, R401): annotated bits at their values; the registers
with no reset value take the free values `d 0` to `d 6`. -/
def Periph.afterReset (d : Nat → Word) : Periph :=
  { Periph.reset with
    p1out := zextByte (d 0)
    p1ren := zextByte (d 1)
    p2out := zextByte (d 2)
    p2ren := zextByte (d 3)
    uca0br0 := zextByte (d 4)
    uca0br1 := zextByte (d 5)
    uca0txbuf := zextByte (d 6) }

end Sys2Proof.Machine
end

