-- ==== Sys2Proof/Machine/Flags.lean ====
section
/-! DEFINITION. The flags and the arithmetic that computes them: the bits of SR (R31), the flag functions
of R221 and the result of every computing instruction (R181 to R184, R222 to R233). -/

namespace Sys2Proof.Machine

/-! ## The status register (R31) -/

/-- SR's bit positions. -/
def bitC : Nat := 0
def bitZ : Nat := 1
def bitN : Nat := 2
def bitGIE : Nat := 3
def bitCPUOFF : Nat := 4
def bitOSCOFF : Nat := 5
def bitSCG0 : Nat := 6
def bitSCG1 : Nat := 7
def bitV : Nat := 8

/-- Bits 15 to 9 of SR, reserved (R31, R33). -/
def srReservedMask : Word := 0xFE00

/-- The flags an instruction computes; `none` is "-", not affected (R11). -/
structure FlagUpdate where
  v : Option Bool
  n : Option Bool
  z : Option Bool
  c : Option Bool
deriving DecidableEq, Repr

/-- "-" in all four columns (R36). -/
def FlagUpdate.none : FlagUpdate := ⟨Option.none, Option.none, Option.none, Option.none⟩

/-- One bit set, if the instruction computes it. -/
def setFlag (i : Nat) (b : Option Bool) (sr : Word) : Word :=
  match b with
  | some b => setBit sr i b
  | none => sr

/-- R33 (a): only the flag bits the instruction lists change. -/
def FlagUpdate.apply (f : FlagUpdate) (sr : Word) : Word :=
  setFlag bitV f.v (setFlag bitN f.n (setFlag bitZ f.z (setFlag bitC f.c sr)))

/-! ## Widths -/

/-- `n` of R8: 16 when b/w is 0, 8 when it is 1. -/
def nBits : Width → Nat
  | .word => 16
  | .byte => 8

/-- `k` of R220: the number of bytes of an operand. -/
def nBytes : Width → Nat
  | .word => 2
  | .byte => 1

/-- `msb(v)`, bit n-1 (R8). -/
def msb (w : Width) (v : Word) : Bool := v.getLsbD (nBits w - 1)

/-- `not_n(v)` (R8). -/
def notN (w : Width) (v : Word) : Word := truncTo w (~~~v)

/-! ## The flag functions of R221 -/

/-- What a computation gives: the result, the flags, and how many free values it used. -/
structure AluOut where
  res : Word
  flags : FlagUpdate
  used : Nat
deriving DecidableEq, Repr

/-- `AddFlags(a, b, cin, n)`. -/
def addFlags (w : Width) (a b : Word) (cin : Bool) : AluOut :=
  let sum := a.toNat + b.toNat + cin.toNat
  let res := BitVec.ofNat 16 (sum % 2 ^ nBits w)
  { res := res
    flags :=
      { v := some (msb w a == msb w b && msb w res != msb w a)
        n := some (msb w res)
        z := some (res == 0)
        c := some (decide (2 ^ nBits w ≤ sum)) }
    used := 0 }

/-- `LogicFlags(res, n)` with the V the instruction gives. -/
def logicFlags (w : Width) (res : Word) (v : Bool) : AluOut :=
  { res := res
    flags := { v := some v, n := some (msb w res), z := some (res == 0), c := some (res != 0) }
    used := 0 }

/-- A result that affects no flag. -/
def plainResult (res : Word) : AluOut := { res := res, flags := FlagUpdate.none, used := 0 }

/-! ## Double-operand results: source, then destination -/

/-- R222. -/
def movAlu (a _b : Word) : AluOut := plainResult a

/-- R223. -/
def addAlu (w : Width) (a b : Word) : AluOut := addFlags w a b false

/-- R224. -/
def addcAlu (w : Width) (c : Bool) (a b : Word) : AluOut := addFlags w a b c

/-- R225. -/
def subcAlu (w : Width) (c : Bool) (a b : Word) : AluOut := addFlags w (notN w a) b c

/-- R226 and R227. -/
def subAlu (w : Width) (a b : Word) : AluOut := addFlags w (notN w a) b true

/-- R229 and R233. -/
def andAlu (w : Width) (a b : Word) : AluOut := logicFlags w (a &&& b) false

/-- R230. -/
def bicAlu (w : Width) (a b : Word) : AluOut := plainResult (notN w a &&& b)

/-- R231. -/
def bisAlu (a b : Word) : AluOut := plainResult (a ||| b)

/-- R232: V is set when both operands are negative. -/
def xorAlu (w : Width) (a b : Word) : AluOut := logicFlags w (a ^^^ b) (msb w a && msb w b)

/-- Every nibble of `v`, of `d` nibbles, is 0 to 9. -/
def isDecimal : Nat → Nat → Bool
  | 0, _ => true
  | d + 1, v => decide (v % 16 ≤ 9) && isDecimal d (v / 16)

/-- The digit algorithm of R228 from the low digit up: the sum of `d` digits and the decimal carry. -/
def decimalAdd : Nat → Nat → Nat → Bool → Nat × Bool
  | 0, _, _, c => (0, c)
  | d + 1, a, b, c =>
    let t := a % 16 + b % 16 + c.toNat
    let rest := decimalAdd d (a / 16) (b / 16) (decide (10 ≤ t))
    ((if 10 ≤ t then t - 10 else t) + 16 * rest.1, rest.2)

/-- R228: V is a draw; with a nibble above 9 the result and all four flags are draws. `k` counts the free
values drawn before. -/
def daddAlu (w : Width) (k : Nat) (c : Bool) (a b : Word) : AluOut :=
  let f := Config.freeWord (k + 1)
  if isDecimal (nBits w / 4) a.toNat && isDecimal (nBits w / 4) b.toNat then
    let t := decimalAdd (nBits w / 4) a.toNat b.toNat c
    let res := BitVec.ofNat 16 t.1
    { res := res
      flags :=
        { v := some (f.getLsbD 3), n := some (msb w res), z := some (res == 0), c := some t.2 }
      used := 2 }
  else
    { res := truncTo w (Config.freeWord k)
      flags :=
        { v := some (f.getLsbD 3), n := some (f.getLsbD 2), z := some (f.getLsbD 1)
          c := some (f.getLsbD 0) }
      used := 2 }

/-! ## Single-operand results -/

/-- R181, with `RRC_V` as the machine's parameter says. -/
def rrcAlu (p : RrcV) (w : Width) (k : Nat) (c : Bool) (v : Word) : AluOut :=
  let res := setBit (v >>> 1) (nBits w - 1) c
  { res := res
    flags :=
      { v := some (match p with
          | .anyValue => (Config.freeWord k).getLsbD 0
          | .alwaysZero => false
          | .signChange => !msb w v && c)
        n := some (msb w res)
        z := some (res == 0)
        c := some (v.getLsbD 0) }
    used := match p with
      | .anyValue => 1
      | .alwaysZero | .signChange => 0 }

/-- R182. -/
def swpbAlu (v : Word) : AluOut := plainResult (wordOfBytes (Word.hi v) (Word.lo v))

/-- R183. -/
def rraAlu (w : Width) (v : Word) : AluOut :=
  let res := setBit (v >>> 1) (nBits w - 1) (msb w v)
  { res := res
    flags :=
      { v := some false, n := some (msb w res), z := some (res == 0), c := some (v.getLsbD 0) }
    used := 0 }

/-- R184. -/
def sxtAlu (v : Word) : AluOut := logicFlags .word (sextByte v) false

end Sys2Proof.Machine
end

