-- ==== Sys2Proof/Machine/Ops.lean ====
section
/-! DEFINITION. The named operations over registers and memory that every meaning is written with, and
TAKING AN INTERRUPT, the return from one and RESET, each as one shared operation. -/

namespace Sys2Proof.Machine

/-- The outcome of an operation: a value, a fault or a refusal. -/
abbrev Res (α : Type) : Type := Host.Outcome α Fault Refusal

/-- One operation after another: the first fault or refusal ends the instruction (R314). -/
def andThen {α β : Type} (x : Res α) (f : α → Res β) : Res β :=
  match x with
  | .next a => f a
  | .fault e => .fault e
  | .refused r => .refused r

/-! ## Registers -/

/-- `x[i]` (R9). R3 holds no storage (R24): no rule reads it. -/
def Regs.get (x : Regs) : Reg → Word
  | .pc => x.pc
  | .sp => x.sp
  | .sr => x.sr
  | .cg => 0
  | .r4 => x.r4
  | .r5 => x.r5
  | .r6 => x.r6
  | .r7 => x.r7
  | .r8 => x.r8
  | .r9 => x.r9
  | .r10 => x.r10
  | .r11 => x.r11
  | .r12 => x.r12
  | .r13 => x.r13
  | .r14 => x.r14
  | .r15 => x.r15

/-- Plain storage of a register; R3 keeps nothing (R24). -/
def Regs.set (x : Regs) (r : Reg) (v : Word) : Regs :=
  match r with
  | .pc => { x with pc := v }
  | .sp => { x with sp := v }
  | .sr => { x with sr := v }
  | .cg => x
  | .r4 => { x with r4 := v }
  | .r5 => { x with r5 := v }
  | .r6 => { x with r6 := v }
  | .r7 => { x with r7 := v }
  | .r8 => { x with r8 := v }
  | .r9 => { x with r9 := v }
  | .r10 => { x with r10 := v }
  | .r11 => { x with r11 := v }
  | .r12 => { x with r12 := v }
  | .r13 => { x with r13 := v }
  | .r14 => { x with r14 := v }
  | .r15 => { x with r15 := v }

/-- The machine's value of a register. -/
def State.get (s : State) (r : Reg) : Word := s.regs.get r

/-- The machine with a register stored as it stands. -/
def State.put (s : State) (r : Reg) (v : Word) : State := { s with regs := s.regs.set r v }

/-- `SR.C`. -/
def State.carry (s : State) : Bool := s.regs.sr.getLsbD bitC

/-- `SR.GIE`. -/
def State.gie (s : State) : Bool := s.regs.sr.getLsbD bitGIE

/-- `SR.CPUOFF`. -/
def State.cpuOff (s : State) : Bool := s.regs.sr.getLsbD bitCPUOFF

/-- The value PC or SP takes when `v` is written to it, under `ODD_PC_SP` (R26, R30). -/
def evenValue (c : Config) (v : Word) : Res Word :=
  if isOdd v then
    match c.oddPcSp with
    | .refuse => .refused .oddPcSp
    | .clearBit0 => .next (clearBit0 v)
  else .next v

/-- `x[i] <- v` (R9), subject to R24, R26, R30 and R33. -/
def writeReg (r : Reg) (v : Word) (s : State) : Res State :=
  match r with
  | .pc => andThen (evenValue s.cfg v) fun v => .next (s.put .pc v)
  | .sp => andThen (evenValue s.cfg v) fun v => .next (s.put .sp v)
  | .sr => if v &&& srReservedMask = 0 then .next (s.put .sr v) else .refused .srReserved
  | r => .next (s.put r v)

/-- The flags written after the result (R220). -/
def State.setFlags (s : State) (f : FlagUpdate) : State := s.put .sr (f.apply s.regs.sr)

/-- Free values counted as drawn. -/
def State.takeDraws (s : State) (n : Nat) : State := { s with draws := s.draws + n }

/-- PC past one code word (R9, R25). -/
def State.skipWord (s : State) : State := s.put .pc (s.regs.pc + 2)

/-! ## Memory (R61, R64 to R69) -/

/-- The regions of R61. -/
inductive Region where
  | sfr | periph8 | periph16 | ram | unpopulated | flash
deriving DecidableEq, Repr

/-- The region an address lies in (R61); the interrupt vector table is flash. -/
def region (c : Config) (a : Word) : Region :=
  if a.toNat < 0x0010 then .sfr
  else if a.toNat < 0x0100 then .periph8
  else if a.toNat < 0x0200 then .periph16
  else if a.toNat ≤ c.ramEnd.toNat then .ram
  else if a.toNat < c.flashBase.toNat ∧ a.toNat < 0xFFE0 then .unpopulated
  else .flash

/-- The address an access of a width is made at, under `ODD_WORD_ACCESS` (R66). -/
def accessAddr (c : Config) (w : Width) (a : Word) : Res Word :=
  match w with
  | .byte => .next a
  | .word =>
    if isOdd a then
      match c.oddWordAccess with
      | .refuse => .refused .oddWordAccess
      | .clearBit0 => .next (clearBit0 a)
    else .next a

/-- What an admitted access reaches (R67). -/
inductive Target where
  | device | ram | flash
deriving DecidableEq, Repr

/-- Admission by region and width (R67). -/
def admission (c : Config) (w : Width) (a : Word) : Res Target :=
  match region c a, w with
  | .sfr, .byte => .next .device
  | .sfr, .word => .refused .accessKind
  | .periph8, .byte => .next .device
  | .periph8, .word => .refused .accessKind
  | .periph16, .word => .next .device
  | .periph16, .byte => .refused .accessKind
  | .ram, _ => .next .ram
  | .flash, _ => .next .flash
  | .unpopulated, _ => .refused .unpopulated

/-- The bytes of RAM or flash at an address (R63, R64). -/
def loadValue (m : List Host.Cell) (w : Width) (a : Word) : Word :=
  match w with
  | .word => Memory.readWord m a
  | .byte => (Memory.read m a.toNat).setWidth 16

/-- The memory with a value stored (R65). -/
def storeValue (m : List Host.Cell) (w : Width) (a v : Word) : List Host.Cell :=
  match w with
  | .word => Memory.writeWord m a v
  | .byte => Memory.write m a.toNat (Word.lo v)

/-- `MemRead(a, k)` (R64): the value, and the state after it (a peripheral read has side effects). -/
def readMem (w : Width) (a : Word) (s : State) : Res (Word × State) :=
  andThen (accessAddr s.cfg w a) fun a =>
  andThen (admission s.cfg w a) fun t =>
  match t with
  | .device => .next (devRead w a s)
  | .ram => .next (loadValue s.mem w a, s)
  | .flash => .next (loadValue s.mem w a, s)

/-- Where a write of a width to `a` is made, and what it reaches (R65 to R67). -/
def writeTarget (c : Config) (w : Width) (a : Word) : Res (Word × Target) :=
  andThen (accessAddr c w a) fun a =>
  andThen (admission c w a) fun t =>
  match t with
  | .flash => .refused .writeToFlash
  | t => .next (a, t)

/-- The write itself. -/
def commit (w : Width) (a v : Word) (t : Target) (s : State) : State :=
  match t with
  | .device => devWrite w a v s
  | .ram => { s with mem := storeValue s.mem w a v }
  | .flash => s

/-- `MemWrite(a, k, v)` (R65). -/
def writeMem (w : Width) (a v : Word) (s : State) : Res State :=
  andThen (writeTarget s.cfg w a) fun p => .next (commit w p.1 v p.2 s)

/-- A store of a width at `a` touches the code word at `next` (R82). -/
def touches (w : Width) (a next : Word) : Bool :=
  match w with
  | .byte => a == next || a == next + 1
  | .word => a == next || a == next + 1 || a + 1 == next

/-- A `MemWrite` made by an instruction all of whose code words are fetched: PC is then the address of
the word after it, and a store into that word is refused (R82). -/
def storeMem (w : Width) (a v : Word) (s : State) : Res State :=
  andThen (writeTarget s.cfg w a) fun p =>
  if touches w p.1 s.regs.pc then .refused .smcNextWord else .next (commit w p.1 v p.2 s)

/-! ## Fetch (R69, R103) -/

/-- A place instructions can be fetched from (R69). -/
def isCode (c : Config) (a : Word) : Bool :=
  match region c a with
  | .ram => true
  | .flash => true
  | _ => false

/-- The address of the code word a fetch at PC reads: R66 for its alignment, R69 for its place. -/
def fetchAddr (s : State) : Res Word :=
  andThen (accessAddr s.cfg .word s.regs.pc) fun a =>
  if isCode s.cfg a then .next a else .fault (.pcOutOfRange s.regs.pc)

/-- `Fetch16()` of an extension word: the word itself is in the decoded instruction. -/
def fetchExt (s : State) : Res State :=
  andThen (fetchAddr s) fun _ => .next s.skipWord

/-- The code word at an address as the decoder sees it; where there is no code the fetch of it faults
before it is used (R69), and 0 stands for it. -/
def peekWord (s : State) (a : Word) : Word :=
  if isCode s.cfg a then Memory.readWord s.mem a else 0

/-! ## The stack (R29, R30) -/

/-- `x[1] <- x[1] - 2; MemWrite(x[1], 2, v)`, as interrupt entry makes it. -/
def pushWord (v : Word) (s : State) : Res State :=
  andThen (writeReg .sp (s.regs.sp - 2) s) fun s => writeMem .word s.regs.sp v s

/-- `MemRead(x[1], 2); x[1] <- x[1] + 2`, around what is done with the value. -/
def popInto (r : Reg) (s : State) : Res State :=
  andThen (readMem .word s.regs.sp s) fun p =>
  andThen (writeReg r p.1 p.2) fun s => writeReg .sp (s.regs.sp + 2) s

/-! ## Interrupts (R302 to R313) -/

/-- The sources from the highest priority down (R302, R304). -/
def irqSources : List IrqSource :=
  [.nmi, .timer1Ccr0, .timer1Multi, .comparatorA, .watchdog, .timer0Ccr0, .timer0Multi, .usciRx,
   .usciTx, .adc10, .portP2, .portP1]

/-- The column `p` of R302. -/
def priority : IrqSource → Nat
  | .nmi => 30
  | .timer1Ccr0 => 29
  | .timer1Multi => 28
  | .comparatorA => 27
  | .watchdog => 26
  | .timer0Ccr0 => 25
  | .timer0Multi => 24
  | .usciRx => 23
  | .usciTx => 22
  | .adc10 => 21
  | .portP2 => 19
  | .portP1 => 18

/-- The address of a vector, `0FFC0h + 2*p` (R72, R303). -/
def vectorAddr (p : Nat) : Word := 0xFFC0 + BitVec.ofNat 16 (2 * p)

/-- The reset vector, 0FFFEh (R73). -/
def resetVector : Word := vectorAddr 31

/-- "(non)-maskable": GIE does not mask it (R305). -/
def isMaskable (p : IrqSource) : Bool := p != .nmi

/-- The vectors whose request acceptance withdraws: those that serve one flag (R309, D31; log entry 10). -/
def clearedByAcceptance : IrqSource → Bool
  | .timer1Ccr0 | .comparatorA | .watchdog | .timer0Ccr0 | .adc10 => true
  | .nmi | .timer1Multi | .timer0Multi | .usciRx | .usciTx | .portP2 | .portP1 => false

/-- The request accepted at this boundary, if any (R307, R314). -/
def State.acceptable (s : State) : Option IrqSource :=
  if .nmi ∈ s.pending then some .nmi
  else if s.gie then irqSources.find? (fun p => isMaskable p && decide (p ∈ s.pending))
  else none

/-- TAKING AN INTERRUPT: `Entry(p)` of R308. PC, then SR are pushed; SR is cleared but for SCG0, which
is a free value if it was 1; PC comes from the vector; the environment is told. -/
def enterInterrupt (p : IrqSource) (s : State) : Res State :=
  andThen (pushWord s.regs.pc s) fun s1 =>
  andThen (pushWord s1.regs.sr s1) fun s2 =>
  let s6 := s2.regs.sr.getLsbD bitSCG0 && (Config.freeWord s2.draws).getLsbD 0
  let s3 := (s2.takeDraws 1).put .sr (setBit 0 bitSCG0 s6)
  andThen (readMem .word (vectorAddr (priority p)) s3) fun v =>
  andThen (writeReg .pc v.1 v.2) fun s4 =>
  .next
    { s4 with
      periph := s4.periph.acceptFlag p
      events := .accepted p :: s4.events
      pending := if clearedByAcceptance p then withdraw p s4.pending else s4.pending }

/-- THE RETURN FROM INTERRUPT: R187 and R310. SR is popped first, then PC. -/
def returnFromInterrupt (s : State) : Res State :=
  andThen (popInto .sr s) fun s => popInto .pc s

/-! ## Reset (R312, R401) -/

/-- `n` bytes from `a` on, each a free value: RAM after power-up (R40, D37). -/
def drawBytes : Nat → Nat → Nat → List Host.Cell → List Host.Cell
  | 0, _, _, m => m
  | n + 1, a, k, m =>
    drawBytes n (a + 1) (k + 1) (Memory.write m a (Word.lo (Config.freeWord k)))

/-- The number of RAM bytes (R61). -/
def ramSize (c : Config) : Nat := c.ramEnd.toNat + 1 - 0x0200

/-- The cause recorded (R302, R312); "PC out-of-range" has no flag of its own (R400). -/
def recordCause (f : ResetFlags) : Option ResetCause → ResetFlags
  | some .powerUp => { f with porifg := true }
  | some .externalReset => { f with rstifg := true }
  | some .watchdog => { f with wdtifg := true }
  | some .flashKeyViolation => { f with keyv := true }
  | some .pcOutOfRange => f
  | none => f

/-- The registers after a reset: SR cleared, SP an even free value, R4 to R15 free values (R40). -/
def Regs.afterReset (pc : Word) (d : Nat → Word) : Regs where
  pc := pc
  sp := clearBit0 (d 0)
  sr := 0
  r4 := d 1
  r5 := d 2
  r6 := d 3
  r7 := d 4
  r8 := d 5
  r9 := d 6
  r10 := d 7
  r11 := d 8
  r12 := d 9
  r13 := d 10
  r14 := d 11
  r15 := d 12

/-- RESET (R312): PC from the reset vector, SR 0000h, SP and R4 to R15 not initialised (free values),
RAM free values after power-up and unchanged otherwise, the peripheral registers at their reset values,
nothing pushed and nothing pending. -/
def performReset (cause : Option ResetCause) (s : State) : Res State :=
  andThen (readMem .word resetVector s) fun v =>
  andThen (evenValue s.cfg v.1) fun pc =>
  .next
    { s with
      regs := Regs.afterReset pc (fun k => Config.freeWord (s.draws + k))
      mem :=
        if cause = some .powerUp then drawBytes (ramSize s.cfg) 0x0200 (s.draws + 20) s.mem
        else s.mem
      periph := Periph.afterReset (fun k => Config.freeWord (s.draws + 13 + k))
      pending := []
      resetFlags := recordCause s.resetFlags cause
      events := .reset cause :: s.events
      draws := s.draws + 20 + (if cause = some .powerUp then ramSize s.cfg else 0) }

/-! ## The boundary (R306, R307) -/

/-- The environment's move to the next instruction boundary: what the peripheral hardware changes, the requests
the environment withdraws and raises, and whether it asks for a reset there. With no input left it does
nothing. -/
def State.nextBoundary (s : State) : State :=
  match s.inputs with
  | [] => { s with resetRequested := none }
  | b :: rest =>
    let t := s.deviceMoves b.device
    { t with
      inputs := rest
      pending := b.raised.foldr raise (b.withdrawn.foldr withdraw t.pending)
      resetRequested := b.reset }

end Sys2Proof.Machine
end

