-- ==== Sys2Proof/Machine/Operands.lean ====
section
/-! DEFINITION. The operands: every addressing mode (R140 to R160), and the shapes the Format I, II and
III instructions share (R180, R200, R220). A meaning starts with PC at its own instruction word. -/

namespace Sys2Proof.Machine

/-- The 16-bit value of a generated constant (R149). -/
def constValue : ConstGen → Word
  | .zero => 0x0000
  | .one => 0x0001
  | .two => 0x0002
  | .four => 0x0004
  | .eight => 0x0008
  | .minusOne => 0xFFFF

/-- Where an operand is (R150, R160). -/
inductive Loc where
  | const (v : Word)
  | reg (r : Reg)
  | mem (ea : Word)
  | bucket
deriving DecidableEq, Repr

/-- The amount of an auto-increment: 1 or 2 by the width, always 2 for SP (R147). -/
def autoStep (w : Width) (r : Reg) : Word :=
  match w, r with
  | .word, _ => 2
  | .byte, .sp => 2
  | .byte, _ => 1

/-- `OpLocation` (R160), which also places a source operand of R141: the location, after the extension
word fetch and the auto-increment, if any. A term that is no row of R110 is a reserved form. -/
def opLocation (w : Width) (o : Src) (s : State) : Res (Loc × State) :=
  match o with
  | .const c => .next (.const (truncTo w (constValue c)), s)                       -- R149
  | .reg r => if r = .cg then .refused .reservedForm else .next (.reg r, s)        -- R142
  | .indexed r x =>                                                                -- R143
    if r.isBase then andThen (fetchExt s) fun t => .next (.mem (t.get r + x), t)
    else .refused .reservedForm
  | .symbolic x => andThen (fetchExt s) fun t => .next (.mem (s.regs.pc + x), t)   -- R144
  | .absolute a => andThen (fetchExt s) fun t => .next (.mem a, t)                 -- R145
  | .indirect r =>                                                                 -- R146
    if r.isPointer then .next (.mem (s.get r), s) else .refused .reservedForm
  | .autoInc r =>                                                                  -- R147
    if r.isBase then
      andThen (writeReg r (s.get r + autoStep w r) s) fun t => .next (.mem (s.get r), t)
    else .refused .reservedForm
  | .imm n => andThen (fetchExt s) fun t => .next (.const (truncTo w n), t)        -- R148

/-- `DstLocation` (R150): the extension word is fetched, and the base read, after the source operand is
resolved and its register incremented (R140). -/
def dstLocation (d : Dst) (s : State) : Res (Loc × State) :=
  match d with
  | .bucket => .next (.bucket, s)                                                  -- R152
  | .reg r => if r = .cg then .refused .reservedForm else .next (.reg r, s)        -- R151
  | .indexed r x =>                                                                -- R143, R117
    if r.isBase then andThen (fetchExt s) fun t => .next (.mem (t.get r + x), t)
    else .refused .reservedForm
  | .symbolic x => andThen (fetchExt s) fun t => .next (.mem (s.regs.pc + x), t)   -- R144
  | .absolute a => andThen (fetchExt s) fun t => .next (.mem a, t)                 -- R145

/-- `ReadLoc` and `Val` (R151 to R153, R180): the bit bucket reads as 0. -/
def readLoc (w : Width) (l : Loc) (s : State) : Res (Word × State) :=
  match l with
  | .const v => .next (v, s)
  | .reg r => .next (truncTo w (s.get r), s)
  | .mem ea => readMem w ea s
  | .bucket => .next (0, s)

/-- `WriteLoc` and `Put` (R151 to R153, R180): a byte write clears bits 15 to 8 of a register; the bit
bucket keeps nothing; a constant has no location to write. -/
def writeLoc (w : Width) (l : Loc) (v : Word) (s : State) : Res State :=
  match l with
  | .const _ => .refused .reservedForm
  | .reg r => writeReg r (truncTo w v) s
  | .mem ea => storeMem w ea v s
  | .bucket => .next s

/-- `SrcOperand` (R141): the value, read before an auto-increment of its register takes effect on the
destination (R140). -/
def srcOperand (w : Width) (o : Src) (s : State) : Res (Word × State) :=
  match o with
  | .autoInc r =>
    if r.isBase then
      andThen (readMem w (s.get r) s) fun p =>
      andThen (writeReg r (p.2.get r + autoStep w r) p.2) fun t => .next (p.1, t)
    else .refused .reservedForm
  | o => andThen (opLocation w o s) fun p => readLoc w p.1 p.2

/-- What a Format I instruction does with its destination and the flags (R36, R154). -/
structure Shape where
  readsDst : Bool
  writesDst : Bool
  setsFlags : Bool
deriving DecidableEq, Repr

/-- MOV: written, not read, no flag. -/
def moveShape : Shape := ⟨false, true, false⟩
/-- BIC, BIS: read and written, no flag. -/
def bitsShape : Shape := ⟨true, true, false⟩
/-- ADD, ADDC, SUB, SUBC, DADD, XOR, AND: read, written, flags. -/
def computeShape : Shape := ⟨true, true, true⟩
/-- CMP, BIT: read, flags. -/
def testShape : Shape := ⟨true, false, true⟩

/-- The destination's value where the instruction reads it (R154). MOV does not, unless `MOV_READS_DST`
makes it read a memory destination and drop the value (R74). -/
def readDst (sh : Shape) (w : Width) (l : Loc) (s : State) : Res (Word × State) :=
  if sh.readsDst then readLoc w l s
  else
    match l with
    | .mem ea =>
      if s.cfg.movReadsDst then andThen (readMem w ea s) fun p => .next (0, p.2) else .next (0, s)
    | _ => .next (0, s)

/-- Steps (6) and (7) of R140: the result is written, then the flags. -/
def finish (sh : Shape) (w : Width) (l : Loc) (out : AluOut) (s : State) : Res State :=
  andThen (if sh.writesDst then writeLoc w l out.res (s.takeDraws out.used)
    else .next (s.takeDraws out.used)) fun t =>
  .next (t.setFlags out.flags)

/-- The execution of a Format I instruction (R140, R220). `alu` is given the count of free values drawn,
SR.C, the source and the destination. The first two lines are R117's and R33's. -/
def doubleOp (sh : Shape) (alu : Nat → Bool → Word → Word → AluOut) (w : Width) (src : Src) (dst : Dst)
    (s : State) : Res State :=
  if src = .reg .pc ∧ dst.isMem then .refused .reservedForm
  else if sh.setsFlags ∧ sh.writesDst ∧ dst = .reg .sr then .refused .srDstWithFlags
  else
    andThen (srcOperand w src s.skipWord) fun a =>
    andThen (dstLocation dst a.2) fun l =>
    andThen (readDst sh w l.1 l.2) fun b =>
    finish sh w l.1 (alu b.2.draws b.2.carry a.1 b.1) b.2

/-- The execution of RRC, RRA, SWPB and SXT (R180): read, compute, write to the same location, flags. The
first two lines are R117's and R33's. -/
def singleOp (flags : Bool) (alu : Nat → Bool → Word → AluOut) (w : Width) (op : Src) (s : State) :
    Res State :=
  if op.isConst then .refused .reservedForm
  else if flags ∧ op = .reg .sr then .refused .srDstWithFlags
  else
    andThen (opLocation w op s.skipWord) fun l =>
    andThen (readLoc w l.1 l.2) fun v =>
    let out := alu v.2.draws v.2.carry v.1
    andThen (writeLoc w l.1 out.res (v.2.takeDraws out.used)) fun t =>
    .next (t.setFlags out.flags)

/-- The value PUSH and CALL use: the operand is resolved first, with the old SP (R158, R180, R185,
R186). -/
def operandValue (w : Width) (op : Src) (s : State) : Res (Word × State) :=
  andThen (opLocation w op s.skipWord) fun l => readLoc w l.1 l.2

/-- SP down by 2 and a store at the new SP (R185, R186). -/
def pushValue (w : Width) (v : Word) (s : State) : Res State :=
  andThen (writeReg .sp (s.regs.sp - 2) s) fun t => storeMem w t.regs.sp v t

/-- The target of a jump at `a` (R113, R200): `A + 2 + 2*off`, the offset sign-extended. -/
def jumpTarget (a : Word) (off : BitVec 10) : Word := a + 2 + 2 * off.signExtend 16

/-- The execution of a jump (R200). -/
def jumpIf (taken : Bool) (off : BitVec 10) (s : State) : Res State :=
  .next (if taken then s.put .pc (jumpTarget s.regs.pc off) else s.skipWord)

end Sys2Proof.Machine
end

