-- ==== Sys2Proof/Machine/DoubleOperand.lean ====
section
/-! DEFINITION. The double-operand instructions, Format I (R220 to R233): one meaning each. -/

namespace Sys2Proof.Machine

/-- MOV (R222): "src→dst". -/
def execMov (w : Width) (src : Src) (dst : Dst) (s : State) : Res State :=
  doubleOp moveShape (fun _ _ a b => movAlu a b) w src dst s

/-- ADD (R223): "src+dst→dst". -/
def execAdd (w : Width) (src : Src) (dst : Dst) (s : State) : Res State :=
  doubleOp computeShape (fun _ _ a b => addAlu w a b) w src dst s

/-- ADDC (R224): "src+dst+C→dst". -/
def execAddc (w : Width) (src : Src) (dst : Dst) (s : State) : Res State :=
  doubleOp computeShape (fun _ c a b => addcAlu w c a b) w src dst s

/-- SUBC (R225): "dst+.not.src+C→dst". -/
def execSubc (w : Width) (src : Src) (dst : Dst) (s : State) : Res State :=
  doubleOp computeShape (fun _ c a b => subcAlu w c a b) w src dst s

/-- SUB (R226): "dst+.not.src+1→dst". -/
def execSub (w : Width) (src : Src) (dst : Dst) (s : State) : Res State :=
  doubleOp computeShape (fun _ _ a b => subAlu w a b) w src dst s

/-- CMP (R227): "dst-src"; only the flags are written. -/
def execCmp (w : Width) (src : Src) (dst : Dst) (s : State) : Res State :=
  doubleOp testShape (fun _ _ a b => subAlu w a b) w src dst s

/-- DADD (R228): "src+dst+C→dst(dec)". -/
def execDadd (w : Width) (src : Src) (dst : Dst) (s : State) : Res State :=
  doubleOp computeShape (fun k c a b => daddAlu w k c a b) w src dst s

/-- BIT (R229): "src.and.dst"; only the flags are written. -/
def execBit (w : Width) (src : Src) (dst : Dst) (s : State) : Res State :=
  doubleOp testShape (fun _ _ a b => andAlu w a b) w src dst s

/-- BIC (R230): ".not.src.and.dst→dst". -/
def execBic (w : Width) (src : Src) (dst : Dst) (s : State) : Res State :=
  doubleOp bitsShape (fun _ _ a b => bicAlu w a b) w src dst s

/-- BIS (R231): "src.or.dst→dst". -/
def execBis (w : Width) (src : Src) (dst : Dst) (s : State) : Res State :=
  doubleOp bitsShape (fun _ _ a b => bisAlu a b) w src dst s

/-- XOR (R232): "src.xor.dst→dst". -/
def execXor (w : Width) (src : Src) (dst : Dst) (s : State) : Res State :=
  doubleOp computeShape (fun _ _ a b => xorAlu w a b) w src dst s

/-- AND (R233): "src.and.dst→dst". -/
def execAnd (w : Width) (src : Src) (dst : Dst) (s : State) : Res State :=
  doubleOp computeShape (fun _ _ a b => andAlu w a b) w src dst s

end Sys2Proof.Machine
end

