-- ==== Sys2Proof/Machine/Emulated.lean ====
section
/-! DEFINITION. The emulated instructions (R250 to R274): each is one core instruction on fixed operands,
written from its own rule over the same shared operations; one meaning each. -/

namespace Sys2Proof.Machine

/-- ADC (R251): `ADDC #0,dst`. -/
def execAdc (w : Width) (dst : Dst) (s : State) : Res State :=
  doubleOp computeShape (fun _ c a b => addcAlu w c a b) w (.const .zero) dst s

/-- BR (R252): `MOV src,PC`. -/
def execBr (src : Src) (s : State) : Res State :=
  doubleOp moveShape (fun _ _ a b => movAlu a b) .word src (.reg .pc) s

/-- CLR (R253): `MOV #0,dst`. -/
def execClr (w : Width) (dst : Dst) (s : State) : Res State :=
  doubleOp moveShape (fun _ _ a b => movAlu a b) w (.const .zero) dst s

/-- CLRC (R254): `BIC #1,SR`. -/
def execClrc (s : State) : Res State :=
  doubleOp bitsShape (fun _ _ a b => bicAlu .word a b) .word (.const .one) (.reg .sr) s

/-- CLRN (R255): `BIC #4,SR`. -/
def execClrn (s : State) : Res State :=
  doubleOp bitsShape (fun _ _ a b => bicAlu .word a b) .word (.const .four) (.reg .sr) s

/-- CLRZ (R256): `BIC #2,SR`. -/
def execClrz (s : State) : Res State :=
  doubleOp bitsShape (fun _ _ a b => bicAlu .word a b) .word (.const .two) (.reg .sr) s

/-- DADC (R257): `DADD #0,dst`. -/
def execDadc (w : Width) (dst : Dst) (s : State) : Res State :=
  doubleOp computeShape (fun k c a b => daddAlu w k c a b) w (.const .zero) dst s

/-- DEC (R258): `SUB #1,dst`. -/
def execDec (w : Width) (dst : Dst) (s : State) : Res State :=
  doubleOp computeShape (fun _ _ a b => subAlu w a b) w (.const .one) dst s

/-- DECD (R259): `SUB #2,dst`. -/
def execDecd (w : Width) (dst : Dst) (s : State) : Res State :=
  doubleOp computeShape (fun _ _ a b => subAlu w a b) w (.const .two) dst s

/-- DINT (R260): `BIC #8,SR`. -/
def execDint (s : State) : Res State :=
  doubleOp bitsShape (fun _ _ a b => bicAlu .word a b) .word (.const .eight) (.reg .sr) s

/-- EINT (R261): `BIS #8,SR`. -/
def execEint (s : State) : Res State :=
  doubleOp bitsShape (fun _ _ a b => bisAlu a b) .word (.const .eight) (.reg .sr) s

/-- INC (R262): `ADD #1,dst`. -/
def execInc (w : Width) (dst : Dst) (s : State) : Res State :=
  doubleOp computeShape (fun _ _ a b => addAlu w a b) w (.const .one) dst s

/-- INCD (R263): `ADD #2,dst`. -/
def execIncd (w : Width) (dst : Dst) (s : State) : Res State :=
  doubleOp computeShape (fun _ _ a b => addAlu w a b) w (.const .two) dst s

/-- INV (R264): `XOR #-1,dst`. -/
def execInv (w : Width) (dst : Dst) (s : State) : Res State :=
  doubleOp computeShape (fun _ _ a b => xorAlu w a b) w (.const .minusOne) dst s

/-- NOP (R265): `MOV #0,R3`. -/
def execNop (s : State) : Res State :=
  doubleOp moveShape (fun _ _ a b => movAlu a b) .word (.const .zero) .bucket s

/-- POP (R266): `MOV @SP+,dst`. -/
def execPop (w : Width) (dst : Dst) (s : State) : Res State :=
  doubleOp moveShape (fun _ _ a b => movAlu a b) w (.autoInc .sp) dst s

/-- RET (R267): `MOV @SP+,PC`. -/
def execRet (s : State) : Res State :=
  doubleOp moveShape (fun _ _ a b => movAlu a b) .word (.autoInc .sp) (.reg .pc) s

/-- RLA (R268): `ADD dst,dst`. -/
def execRla (w : Width) (dst : Dst) (s : State) : Res State :=
  doubleOp computeShape (fun _ _ a b => addAlu w a b) w dst.asSrc dst.second s

/-- RLC (R269): `ADDC dst,dst`. -/
def execRlc (w : Width) (dst : Dst) (s : State) : Res State :=
  doubleOp computeShape (fun _ c a b => addcAlu w c a b) w dst.asSrc dst.second s

/-- SBC (R270): `SUBC #0,dst`. -/
def execSbc (w : Width) (dst : Dst) (s : State) : Res State :=
  doubleOp computeShape (fun _ c a b => subcAlu w c a b) w (.const .zero) dst s

/-- SETC (R271): `BIS #1,SR`. -/
def execSetc (s : State) : Res State :=
  doubleOp bitsShape (fun _ _ a b => bisAlu a b) .word (.const .one) (.reg .sr) s

/-- SETN (R272): `BIS #4,SR`. -/
def execSetn (s : State) : Res State :=
  doubleOp bitsShape (fun _ _ a b => bisAlu a b) .word (.const .four) (.reg .sr) s

/-- SETZ (R273): `BIS #2,SR`. -/
def execSetz (s : State) : Res State :=
  doubleOp bitsShape (fun _ _ a b => bisAlu a b) .word (.const .two) (.reg .sr) s

/-- TST (R274): `CMP #0,dst`. -/
def execTst (w : Width) (dst : Dst) (s : State) : Res State :=
  doubleOp testShape (fun _ _ a b => subAlu w a b) w (.const .zero) dst s

end Sys2Proof.Machine
end

