-- ==== Sys2Proof/Machine/Jumps.lean ====
section
/-! DEFINITION. The jumps, Format III (R200 to R208): one meaning each. -/

namespace Sys2Proof.Machine

/-- JNE, JNZ: Z = 0 (R201). -/
def execJne (off : BitVec 10) (s : State) : Res State :=
  jumpIf (!s.regs.sr.getLsbD bitZ) off s

/-- JEQ, JZ: Z = 1 (R202). -/
def execJeq (off : BitVec 10) (s : State) : Res State :=
  jumpIf (s.regs.sr.getLsbD bitZ) off s

/-- JNC, JLO: C = 0 (R203). -/
def execJnc (off : BitVec 10) (s : State) : Res State :=
  jumpIf (!s.regs.sr.getLsbD bitC) off s

/-- JC, JHS: C = 1 (R204). -/
def execJc (off : BitVec 10) (s : State) : Res State :=
  jumpIf (s.regs.sr.getLsbD bitC) off s

/-- JN: N = 1 (R205). -/
def execJn (off : BitVec 10) (s : State) : Res State :=
  jumpIf (s.regs.sr.getLsbD bitN) off s

/-- JGE: N = V (R206). -/
def execJge (off : BitVec 10) (s : State) : Res State :=
  jumpIf (s.regs.sr.getLsbD bitN == s.regs.sr.getLsbD bitV) off s

/-- JL: N ≠ V (R207). -/
def execJl (off : BitVec 10) (s : State) : Res State :=
  jumpIf (s.regs.sr.getLsbD bitN != s.regs.sr.getLsbD bitV) off s

/-- JMP: always (R208). -/
def execJmp (off : BitVec 10) (s : State) : Res State :=
  jumpIf true off s

end Sys2Proof.Machine
end

