-- ==== Sys2Proof/Machine/SingleOperand.lean ====
section
/-! DEFINITION. The single-operand instructions, Format II (R180 to R187): one meaning each. -/

namespace Sys2Proof.Machine

/-- RRC (R181): "C→MSB→...LSB→C". -/
def execRrc (w : Width) (op : Src) (s : State) : Res State :=
  singleOp true (fun k c v => rrcAlu s.cfg.rrcV w k c v) w op s

/-- SWPB (R182): "Swap bytes". -/
def execSwpb (op : Src) (s : State) : Res State :=
  singleOp false (fun _ _ v => swpbAlu v) .word op s

/-- RRA (R183): "MSB→MSB→…LSB→C". -/
def execRra (w : Width) (op : Src) (s : State) : Res State :=
  singleOp true (fun _ _ v => rraAlu w v) w op s

/-- SXT (R184): "bit 7→bit 8...bit 15". -/
def execSxt (op : Src) (s : State) : Res State :=
  singleOp true (fun _ _ v => sxtAlu v) .word op s

/-- PUSH (R185): "SP-2→SP, src→@SP". `PUSH SP` is a reserved form (R117). -/
def execPush (w : Width) (op : Src) (s : State) : Res State :=
  if op = .reg .sp then .refused .reservedForm
  else andThen (operandValue w op s) fun v => pushValue w v.1 v.2

/-- CALL (R186): "SP-2→SP, PC+2→@SP, dst→PC"; the address pushed is that of the next instruction. -/
def execCall (op : Src) (s : State) : Res State :=
  andThen (operandValue .word op s) fun v =>
  andThen (pushValue .word v.2.regs.pc v.2) fun t => writeReg .pc v.1 t

/-- RETI (R187): "@SP+→SR, @SP+→PC". -/
def execReti (s : State) : Res State := returnFromInterrupt s.skipWord

end Sys2Proof.Machine
end

