-- ==== Sys2Proof/Machine/Dispatch.lean ====
section
/-! DEFINITION. One arm per instruction, each a direct call of its meaning. -/

namespace Sys2Proof.Machine

def exec (i : Instr) (s : State) : Host.Outcome State Fault Refusal :=
  match i with
  | .mov w src dst => Sys2Proof.Machine.execMov w src dst s
  | .add w src dst => Sys2Proof.Machine.execAdd w src dst s
  | .addc w src dst => Sys2Proof.Machine.execAddc w src dst s
  | .subc w src dst => Sys2Proof.Machine.execSubc w src dst s
  | .sub w src dst => Sys2Proof.Machine.execSub w src dst s
  | .cmp w src dst => Sys2Proof.Machine.execCmp w src dst s
  | .dadd w src dst => Sys2Proof.Machine.execDadd w src dst s
  | .bit w src dst => Sys2Proof.Machine.execBit w src dst s
  | .bic w src dst => Sys2Proof.Machine.execBic w src dst s
  | .bis w src dst => Sys2Proof.Machine.execBis w src dst s
  | .xor w src dst => Sys2Proof.Machine.execXor w src dst s
  | .and w src dst => Sys2Proof.Machine.execAnd w src dst s
  | .rrc w op => Sys2Proof.Machine.execRrc w op s
  | .swpb op => Sys2Proof.Machine.execSwpb op s
  | .rra w op => Sys2Proof.Machine.execRra w op s
  | .sxt op => Sys2Proof.Machine.execSxt op s
  | .push w op => Sys2Proof.Machine.execPush w op s
  | .call op => Sys2Proof.Machine.execCall op s
  | .reti => Sys2Proof.Machine.execReti s
  | .jne off => Sys2Proof.Machine.execJne off s
  | .jeq off => Sys2Proof.Machine.execJeq off s
  | .jnc off => Sys2Proof.Machine.execJnc off s
  | .jc off => Sys2Proof.Machine.execJc off s
  | .jn off => Sys2Proof.Machine.execJn off s
  | .jge off => Sys2Proof.Machine.execJge off s
  | .jl off => Sys2Proof.Machine.execJl off s
  | .jmp off => Sys2Proof.Machine.execJmp off s
  | .adc w dst => Sys2Proof.Machine.execAdc w dst s
  | .br src => Sys2Proof.Machine.execBr src s
  | .clr w dst => Sys2Proof.Machine.execClr w dst s
  | .clrc => Sys2Proof.Machine.execClrc s
  | .clrn => Sys2Proof.Machine.execClrn s
  | .clrz => Sys2Proof.Machine.execClrz s
  | .dadc w dst => Sys2Proof.Machine.execDadc w dst s
  | .dec w dst => Sys2Proof.Machine.execDec w dst s
  | .decd w dst => Sys2Proof.Machine.execDecd w dst s
  | .dint => Sys2Proof.Machine.execDint s
  | .eint => Sys2Proof.Machine.execEint s
  | .inc w dst => Sys2Proof.Machine.execInc w dst s
  | .incd w dst => Sys2Proof.Machine.execIncd w dst s
  | .inv w dst => Sys2Proof.Machine.execInv w dst s
  | .nop => Sys2Proof.Machine.execNop s
  | .pop w dst => Sys2Proof.Machine.execPop w dst s
  | .ret => Sys2Proof.Machine.execRet s
  | .rla w dst => Sys2Proof.Machine.execRla w dst s
  | .rlc w dst => Sys2Proof.Machine.execRlc w dst s
  | .sbc w dst => Sys2Proof.Machine.execSbc w dst s
  | .setc => Sys2Proof.Machine.execSetc s
  | .setn => Sys2Proof.Machine.execSetn s
  | .setz => Sys2Proof.Machine.execSetz s
  | .tst w dst => Sys2Proof.Machine.execTst w dst s

end Sys2Proof.Machine
end

