-- ==== Sys2Proof/Machine/Fetch.lean ====
section
/-! DEFINITION. Fetching and decoding the instruction at PC (R69, R102), and placing an instruction where
the next step fetches it. -/

namespace Sys2Proof.Machine

/-- The bytes of the three code words at an address. -/
def codeBytes (s : State) (a : Word) : List Byte :=
  bytesOfWords [peekWord s a, peekWord s (a + 2), peekWord s (a + 4)]

/-- How the machine answers a rejection of the decoder (R116, R117); six bytes are never truncated. -/
def rejection (s : State) : DecodeError → Res Instr
  | .illegal w => .fault (.illegalInstruction s.regs.pc w)
  | .form .reservedForm => .refused .reservedForm
  | .form .srDstWithFlags => .refused .srDstWithFlags
  | .truncated => .refused .reservedForm

/-- The instruction at PC. -/
def fetchInstr (s : State) : Res Instr :=
  andThen (fetchAddr s) fun a =>
  match decode (codeBytes s a) with
  | .ok (i, _) => .next i
  | .error e => rejection s e

/-- The cause of the reset that `FAULT_ACTION = reset` performs for a fault (R301, R400). -/
def causeOf : Fault → Option ResetCause
  | .pcOutOfRange _ => some .pcOutOfRange
  | .illegalInstruction _ _ => none

/-- R301: a fault of an instruction stops the run with the state as it was before the instruction, or
resets that state under `FAULT_ACTION = reset`. -/
def onFault (s : State) (r : Res State) : Res State :=
  match r with
  | .fault f =>
    match s.cfg.faultAction with
    | .stop => .fault f
    | .reset => performReset (causeOf f) s
  | r => r

/-- Three code words can be fetched at an address. -/
def holdsCode (c : Config) (a : Word) : Bool :=
  !isOdd a && isCode c a && isCode c (a + 2) && isCode c (a + 4)

/-- The state with code words stored where the next step fetches. PC moves to the first flash byte only
if no instruction can be fetched where it is; CPUOFF, a reset request and, if one would be accepted, the
pending requests are taken away, so that the next step is the instruction's. -/
def placeCode (s : State) (ws : List Word) : State :=
  let a := if holdsCode s.cfg s.regs.pc then s.regs.pc else s.cfg.flashBase
  { s with
    regs := { s.regs with pc := a, sr := setBit s.regs.sr bitCPUOFF false }
    mem := Memory.writeWords s.mem a ws
    pending := if s.acceptable.isSome then [] else s.pending
    resetRequested := none }

end Sys2Proof.Machine
end

