-- ==== Sys2Proof/Machine/Boundary.lean ====
section
/-! DEFINITION. What happens at an instruction boundary (R307). -/

namespace Sys2Proof.Machine

/-- One instruction: fetched, decoded, executed; a fault as `FAULT_ACTION` says. -/
def runInstr (s : State) : Res State :=
  onFault s (andThen (fetchInstr s) fun i => exec i s)

/-- R307: reset before everything, then an interrupt that is accepted, then waiting while CPUOFF = 1, then
the instruction at PC. A boundary at which the CPU waits changes nothing but the environment's move. -/
def atBoundary (s : State) : Res State :=
  match s.resetRequested with
  | some c => performReset (some c) s
  | none =>
    match s.acceptable with
    | some p => enterInterrupt p s
    | none => if s.cpuOff then .next s else runInstr s

/-- A boundary's event, then the environment's move to the next boundary. -/
def boundaryStep (s : State) : Res State :=
  andThen (atBoundary s) fun t => .next t.nextBoundary

end Sys2Proof.Machine
end

