-- ==== Sys2Proof/Machine/Step.lean ====
section
/-! DEFINITION. One step of the machine, and the placing of an instruction for the next step. -/

namespace Sys2Proof.Machine

/-- One step: what happens at one instruction boundary (R307). -/
def step (s : State) : Host.Outcome State Fault Refusal := boundaryStep s

/-- `s` with an instruction stored where `step` fetches its next one (log entry 11). -/
def State.withFetchWord (s : State) (nbits w : Nat) : State := placeCode s (tableWords nbits w)

end Sys2Proof.Machine
end

