-- ==== Sys2Proof/Machine/Timing.lean ====
section
/-! DEFINITION. Instruction timing (R406 to R409): the cycle counts of Tables 3-15 and 3-16, by addressing
mode. No step reads them: no instruction reads a cycle counter (R409) and the machine has none (R320). -/

namespace Sys2Proof.Machine

/-- The rows of the timing tables: the source's mode. -/
inductive SrcTiming where
  | register | indirect | autoInc | immediate | memory
deriving DecidableEq, Repr

/-- The row of a source operand; a generated constant counts as a register in Format I (R408). -/
def srcTiming : Src → SrcTiming
  | .reg _ => .register
  | .const _ => .register
  | .indirect _ => .indirect
  | .autoInc _ => .autoInc
  | .imm _ => .immediate
  | .indexed _ _ => .memory
  | .symbolic _ => .memory
  | .absolute _ => .memory

/-- Table 3-16 (R408). -/
def formatICycles (s : Src) (d : Dst) : Nat :=
  match srcTiming s, d.isMem, decide (d = .reg .pc) with
  | .register, true, _ => 4
  | .register, false, true => 2
  | .register, false, false => 1
  | .indirect, true, _ => 5
  | .indirect, false, _ => 2
  | .autoInc, true, _ => 5
  | .autoInc, false, true => 3
  | .autoInc, false, false => 2
  | .immediate, true, _ => 5
  | .immediate, false, true => 3
  | .immediate, false, false => 2
  | .memory, true, _ => 6
  | .memory, false, _ => 3

/-- Table 3-15 (R407), the column "RRA, RRC, SWPB, SXT"; `none` where the table gives no count. -/
def rotateCycles (o : Src) : Option Nat :=
  match o with
  | .reg _ => some 1
  | .indirect _ => some 3
  | .autoInc _ => some 3
  | .indexed _ _ => some 4
  | .symbolic _ => some 4
  | .absolute _ => some 4
  | .imm _ => none
  | .const _ => none

/-- Table 3-15 (R407), the column PUSH; for a generated constant "the table does not say which row
applies". -/
def pushCycles (o : Src) : Option Nat :=
  match o with
  | .reg _ => some 3
  | .indirect _ => some 4
  | .autoInc _ => some 5
  | .imm _ => some 4
  | .indexed _ _ => some 5
  | .symbolic _ => some 5
  | .absolute _ => some 5
  | .const _ => none

/-- Table 3-15 (R407), the column CALL. -/
def callCycles (o : Src) : Option Nat :=
  match o with
  | .reg _ => some 4
  | .indirect _ => some 4
  | .autoInc _ => some 5
  | .imm _ => some 5
  | .indexed _ _ => some 5
  | .symbolic _ => some 5
  | .absolute _ => some 5
  | .const _ => none

/-- The cycles of a core instruction. -/
def coreCycles : Instr → Option Nat
  | .mov _ s d => some (formatICycles s d)
  | .add _ s d => some (formatICycles s d)
  | .addc _ s d => some (formatICycles s d)
  | .subc _ s d => some (formatICycles s d)
  | .sub _ s d => some (formatICycles s d)
  | .cmp _ s d => some (formatICycles s d)
  | .dadd _ s d => some (formatICycles s d)
  | .bit _ s d => some (formatICycles s d)
  | .bic _ s d => some (formatICycles s d)
  | .bis _ s d => some (formatICycles s d)
  | .xor _ s d => some (formatICycles s d)
  | .and _ s d => some (formatICycles s d)
  | .rrc _ o => rotateCycles o
  | .swpb o => rotateCycles o
  | .rra _ o => rotateCycles o
  | .sxt o => rotateCycles o
  | .push _ o => pushCycles o
  | .call o => callCycles o
  | .reti => some 5
  | .jne _ => some 2
  | .jeq _ => some 2
  | .jnc _ => some 2
  | .jc _ => some 2
  | .jn _ => some 2
  | .jge _ => some 2
  | .jl _ => some 2
  | .jmp _ => some 2
  | _ => none

/-- The cycles of an instruction; an emulated one takes those of the core instruction (R409). RETI's 5 is
from general knowledge, as R407 says. -/
def cycles (i : Instr) : Option Nat := coreCycles i.expand

/-- The cycles of interrupt entry, from general knowledge, as R409 says. -/
def entryCycles : Nat := 6

end Sys2Proof.Machine
end

