-- ==== Sys2Proof/Safety.lean ====
section
/-! DEFINITION. The terms statements are made in: which accesses the memory map admits, when an operand
can be read and a result written, what they are then (all as plain functions of the state, with no fault
and no refusal left in them), the invariant every step keeps, and the terminal states of R410. -/

namespace Sys2Proof.Machine

/-! ## Numbers -/

/-- `signed_n(v)` of R8. -/
def signedN (w : Width) (v : Word) : Int :=
  if v.toNat < 2 ^ (nBits w - 1) then (v.toNat : Int) else (v.toNat : Int) - 2 ^ nBits w

/-- A signed number outside `-2^(n-1) .. 2^(n-1) - 1` (R234). -/
def outOfRange (w : Width) (x : Int) : Bool :=
  decide (x < -(2 ^ (nBits w - 1))) || decide (2 ^ (nBits w - 1) ≤ x)

/-- A number reduced to the operand width (R8). -/
def reduced (w : Width) (x : Nat) : Word := BitVec.ofNat 16 (x % 2 ^ nBits w)

/-- The number that `d` binary-coded decimal digits stand for. -/
def bcdValue : Nat → Nat → Nat
  | 0, _ => 0
  | d + 1, v => v % 16 + 10 * bcdValue d (v / 16)

/-- The flags of a result whose V and C are given: N is its top bit, Z says it is zero (R32). -/
def resultFlags (w : Width) (res : Word) (v c : Bool) : FlagUpdate :=
  { v := some v, n := some (decide (2 ^ (nBits w - 1) ≤ res.toNat)), z := some (decide (res.toNat = 0))
    c := some c }

/-! ## Accesses the map admits (R61, R66, R67, R69) -/

/-- A RAM byte. -/
def inRam (c : Config) (a : Word) : Bool :=
  decide (0x0200 ≤ a.toNat) && decide (a.toNat ≤ c.ramEnd.toNat)

/-- A flash/ROM byte, the vector table included. -/
def inFlash (c : Config) (a : Word) : Bool :=
  decide (0x0200 ≤ a.toNat) && decide (c.ramEnd.toNat < a.toNat)
    && (decide (c.flashBase.toNat ≤ a.toNat) || decide (0xFFE0 ≤ a.toNat))

/-- A peripheral region of the right access kind. -/
def inDevice (w : Width) (a : Word) : Bool :=
  match w with
  | .byte => decide (a.toNat < 0x0100)
  | .word => decide (0x0100 ≤ a.toNat) && decide (a.toNat < 0x0200)

/-- The address an access of a width is made at: a word access at an even one. -/
def alignTo (w : Width) (a : Word) : Word :=
  match w with
  | .byte => a
  | .word => clearBit0 a

/-- The address may be used for the width (R66). -/
def aligned (c : Config) (w : Width) (a : Word) : Bool :=
  match w with
  | .byte => true
  | .word => !isOdd a || c.oddWordAccess == .clearBit0

/-- A data read is performed (R66, R67). -/
def readable (c : Config) (w : Width) (a : Word) : Bool :=
  aligned c w a
    && (inDevice w (alignTo w a) || inRam c (alignTo w a) || inFlash c (alignTo w a))

/-- A data write is performed (R65 to R67). -/
def writable (c : Config) (w : Width) (a : Word) : Bool :=
  aligned c w a && (inDevice w (alignTo w a) || inRam c (alignTo w a))

/-- A code word can be fetched at PC (R66, R69). -/
def fetchable (s : State) : Bool :=
  aligned s.cfg .word s.regs.pc
    && (inRam s.cfg (alignTo .word s.regs.pc) || inFlash s.cfg (alignTo .word s.regs.pc))

/-- What a performed read gives. -/
def valueAt (w : Width) (a : Word) (s : State) : Word :=
  if (alignTo w a).toNat < 0x0200 then (devRead w (alignTo w a) s).1
  else loadValue s.mem w (alignTo w a)

/-- The state after a performed read: only a peripheral read leaves a trace (R74). -/
def afterRead (w : Width) (a : Word) (s : State) : State :=
  if (alignTo w a).toNat < 0x0200 then (devRead w (alignTo w a) s).2 else s

/-- The state after a performed write. -/
def afterWrite (w : Width) (a v : Word) (s : State) : State :=
  if (alignTo w a).toNat < 0x0200 then devWrite w (alignTo w a) v s
  else { s with mem := storeValue s.mem w (alignTo w a) v }

/-- The addresses of the bytes a store of a width at `a` writes. -/
def storedBytes (w : Width) (a : Word) : List Nat :=
  match w with
  | .byte => [a.toNat]
  | .word => [(clearBit0 a).toNat, (clearBit0 a + 1).toNat]

/-! ## Registers (R24, R26, R30, R33) -/

/-- A value that may be written to a register. -/
def storable (c : Config) (r : Reg) (v : Word) : Bool :=
  match r with
  | .pc | .sp => !isOdd v || c.oddPcSp == .clearBit0
  | .sr => decide (v.toNat < 0x0200)
  | _ => true

/-- The value the register then holds. -/
def stored (r : Reg) (v : Word) : Word :=
  match r with
  | .pc | .sp => clearBit0 v
  | _ => v

/-! ## The source operand (R141), with PC past the instruction word -/

/-- The operand is in a legal form and can be read. -/
def srcReady (w : Width) (o : Src) (s : State) : Bool :=
  match o with
  | .const _ => true
  | .reg r => r != .cg
  | .indexed r x => r.isBase && fetchable s && readable s.cfg w (s.get r + x)
  | .symbolic x => fetchable s && readable s.cfg w (s.regs.pc + x)
  | .absolute a => fetchable s && readable s.cfg w a
  | .indirect r => r.isPointer && readable s.cfg w (s.get r)
  | .autoInc r =>
    r.isBase && readable s.cfg w (s.get r) && storable s.cfg r (s.get r + autoStep w r)
  | .imm _ => fetchable s

/-- Its value. -/
def srcVal (w : Width) (o : Src) (s : State) : Word :=
  match o with
  | .const c => truncTo w (constValue c)
  | .reg r => truncTo w (s.get r)
  | .indexed r x => valueAt w (s.get r + x) s.skipWord
  | .symbolic x => valueAt w (s.regs.pc + x) s.skipWord
  | .absolute a => valueAt w a s.skipWord
  | .indirect r => valueAt w (s.get r) s
  | .autoInc r => valueAt w (s.get r) s
  | .imm n => truncTo w n

/-- The state after it. -/
def srcDone (w : Width) (o : Src) (s : State) : State :=
  match o with
  | .const _ => s
  | .reg _ => s
  | .indexed r x => afterRead w (s.get r + x) s.skipWord
  | .symbolic x => afterRead w (s.regs.pc + x) s.skipWord
  | .absolute a => afterRead w a s.skipWord
  | .indirect r => afterRead w (s.get r) s
  | .autoInc r => (afterRead w (s.get r) s).put r (stored r (s.get r + autoStep w r))
  | .imm _ => s.skipWord

/-! ## The destination (R150 to R154), in the state after the source -/

/-- The destination is in a legal form and its extension word, if any, can be fetched. -/
def dstReady (d : Dst) (s : State) : Bool :=
  match d with
  | .reg r => r != .cg
  | .bucket => true
  | .indexed r _ => r.isBase && fetchable s
  | .symbolic _ => fetchable s
  | .absolute _ => fetchable s

/-- Where it is. -/
def dstPlace (d : Dst) (s : State) : Loc :=
  match d with
  | .reg r => .reg r
  | .bucket => .bucket
  | .indexed r x => .mem (s.get r + x)
  | .symbolic x => .mem (s.regs.pc + x)
  | .absolute a => .mem a

/-- The state after it is resolved. -/
def dstDone (d : Dst) (s : State) : State := if d.isMem then s.skipWord else s

/-- A location can be read. -/
def locReady (w : Width) (l : Loc) (s : State) : Bool :=
  match l with
  | .mem ea => readable s.cfg w ea
  | .const _ | .reg _ | .bucket => true

/-- What is there. -/
def locVal (w : Width) (l : Loc) (s : State) : Word :=
  match l with
  | .const v => v
  | .reg r => truncTo w (s.get r)
  | .mem ea => valueAt w ea s
  | .bucket => 0

/-- The state after it is read. -/
def locDone (w : Width) (l : Loc) (s : State) : State :=
  match l with
  | .mem ea => afterRead w ea s
  | .const _ | .reg _ | .bucket => s

/-- A value can be written to a location. -/
def putReady (w : Width) (l : Loc) (v : Word) (s : State) : Bool :=
  match l with
  | .const _ => false
  | .reg r => storable s.cfg r (truncTo w v)
  | .mem ea => writable s.cfg w ea && !touches w (alignTo w ea) s.regs.pc
  | .bucket => true

/-- The state after it is written. -/
def putAt (w : Width) (l : Loc) (v : Word) (s : State) : State :=
  match l with
  | .const _ => s
  | .reg r => s.put r (stored r (truncTo w v))
  | .mem ea => afterWrite w ea v s
  | .bucket => s

/-! ## The operands of a Format I instruction (R140, R220), from PC at the instruction -/

/-- Whether the destination is read: never by MOV, but for `MOV_READS_DST` (R74). -/
def readsPlace (sh : Shape) (c : Config) (d : Dst) : Bool :=
  sh.readsDst || (d.isMem && c.movReadsDst)

/-- The form is legal (R117, R33) and every operand of it can be read. -/
def ready2 (sh : Shape) (w : Width) (src : Src) (dst : Dst) (s : State) : Bool :=
  !(src == .reg .pc && dst.isMem) && !(sh.setsFlags && sh.writesDst && dst == .reg .sr)
    && srcReady w src s.skipWord
    && dstReady dst (srcDone w src s.skipWord)
    && (!readsPlace sh s.cfg dst
      || locReady w (dstPlace dst (srcDone w src s.skipWord)) (dstDone dst (srcDone w src s.skipWord)))

/-- The source value. -/
def src2 (w : Width) (src : Src) (s : State) : Word := srcVal w src s.skipWord

/-- The destination's location. -/
def place2 (w : Width) (src : Src) (dst : Dst) (s : State) : Loc :=
  dstPlace dst (srcDone w src s.skipWord)

/-- The destination's old value. -/
def dst2 (w : Width) (src : Src) (dst : Dst) (s : State) : Word :=
  locVal w (place2 w src dst s) (dstDone dst (srcDone w src s.skipWord))

/-- The state after the operands are read: PC is the address of the next instruction. -/
def state2 (sh : Shape) (w : Width) (src : Src) (dst : Dst) (s : State) : State :=
  let t := dstDone dst (srcDone w src s.skipWord)
  if readsPlace sh s.cfg dst then locDone w (place2 w src dst s) t else t

/-- The instruction can be carried to its end with the result `res`. -/
def canFinish (sh : Shape) (w : Width) (src : Src) (dst : Dst) (s : State) (res : Word) : Bool :=
  ready2 sh w src dst s
    && (!sh.writesDst || putReady w (place2 w src dst s) res (state2 sh w src dst s))

/-- The state it ends in: the result written, if the instruction writes it, then the flags; `n` counts the
free values used. -/
def finished (sh : Shape) (w : Width) (src : Src) (dst : Dst) (s : State) (n : Nat) (res : Word)
    (f : FlagUpdate) : State :=
  let t := (state2 sh w src dst s).takeDraws n
  (if sh.writesDst then putAt w (place2 w src dst s) res t else t).setFlags f

/-! ## The operand of a Format II instruction (R160, R180) -/

/-- The location can be formed (the source operand's conditions, without its read). -/
def opReady (w : Width) (o : Src) (s : State) : Bool :=
  match o with
  | .const _ => true
  | .reg r => r != .cg
  | .indexed r _ => r.isBase && fetchable s
  | .symbolic _ => fetchable s
  | .absolute _ => fetchable s
  | .indirect r => r.isPointer
  | .autoInc r => r.isBase && storable s.cfg r (s.get r + autoStep w r)
  | .imm _ => fetchable s

/-- Where it is. -/
def opPlace (w : Width) (o : Src) (s : State) : Loc :=
  match o with
  | .const c => .const (truncTo w (constValue c))
  | .reg r => .reg r
  | .indexed r x => .mem (s.get r + x)
  | .symbolic x => .mem (s.regs.pc + x)
  | .absolute a => .mem a
  | .indirect r => .mem (s.get r)
  | .autoInc r => .mem (s.get r)
  | .imm n => .const (truncTo w n)

/-- The state after it. -/
def opDone (w : Width) (o : Src) (s : State) : State :=
  match o with
  | .const _ | .reg _ | .indirect _ => s
  | .indexed _ _ | .symbolic _ | .absolute _ | .imm _ => s.skipWord
  | .autoInc r => s.put r (stored r (s.get r + autoStep w r))

/-- The operand can be read. -/
def ready1 (w : Width) (o : Src) (s : State) : Bool :=
  opReady w o s.skipWord && locReady w (opPlace w o s.skipWord) (opDone w o s.skipWord)

/-- Its location. -/
def place1 (w : Width) (o : Src) (s : State) : Loc := opPlace w o s.skipWord

/-- Its value. -/
def val1 (w : Width) (o : Src) (s : State) : Word :=
  locVal w (place1 w o s) (opDone w o s.skipWord)

/-- The state after it is read. -/
def state1 (w : Width) (o : Src) (s : State) : State :=
  locDone w (place1 w o s) (opDone w o s.skipWord)

/-- RRC, RRA, SWPB or SXT is in a legal form (`flags`: it computes flags) and can be carried to its end
with the result `res`. -/
def canFinish1 (flags : Bool) (w : Width) (o : Src) (s : State) (res : Word) : Bool :=
  !o.isConst && !(flags && o == .reg .sr) && ready1 w o s && putReady w (place1 w o s) res (state1 w o s)

/-- The state it ends in. -/
def finished1 (w : Width) (o : Src) (s : State) (n : Nat) (res : Word) (f : FlagUpdate) : State :=
  (putAt w (place1 w o s) res ((state1 w o s).takeDraws n)).setFlags f

/-! ## The stack -/

/-- A value of a width can be pushed: SP less 2 can be written to SP and stored at. -/
def pushReady (w : Width) (s : State) : Bool :=
  storable s.cfg .sp (s.regs.sp - 2) && writable s.cfg w (stored .sp (s.regs.sp - 2))
    && !touches w (alignTo w (stored .sp (s.regs.sp - 2))) s.regs.pc

/-- The state after the push. -/
def pushed (w : Width) (v : Word) (s : State) : State :=
  afterWrite w (stored .sp (s.regs.sp - 2)) v (s.put .sp (stored .sp (s.regs.sp - 2)))

/-! ## The invariant -/

/-- The listed bytes are RAM or flash bytes, in canonical form. -/
def memInv (s : State) : Bool :=
  Memory.wf s.mem
    && s.mem.all fun e => decide (e.1 < 65536)
      && (inRam s.cfg (BitVec.ofNat 16 e.1) || inFlash s.cfg (BitVec.ofNat 16 e.1))

/-- PC and SP are even, and SR's reserved bits are 0 (R26, R30, R33). -/
def regsInv (s : State) : Bool :=
  !isOdd s.regs.pc && !isOdd s.regs.sp && decide (s.regs.sr.toNat < 0x0200)

/-- The printed registers. -/
def allPeriph : List PeriphReg :=
  [.p1in, .p1out, .p1ren, .p2in, .p2out, .p2ren, .uca0ctl0, .uca0ctl1, .uca0br0, .uca0br1, .uca0mctl,
   .uca0rxbuf, .uca0txbuf, .ucb0ctl0, .ta0iv, .ta0ctl, .ta0cctl0, .ta0cctl1, .ta0cctl2, .ta1iv,
   .ta1ctl, .ta1cctl0, .ta1cctl1, .ta1cctl2, .adc10ctl0, .adc10ctl1, .adc10ae0]

/-- Each printed register holds nothing outside the held bits of its layout. -/
def periphInv (s : State) : Bool :=
  allPeriph.all fun r => s.periph.get r &&& ~~~(heldMask r) == 0

/-- What every step keeps. -/
def State.inv (s : State) : Bool :=
  s.cfg.wf && memInv s && regsInv s && periphInv s && decide s.pending.Nodup

/-! ## Terminal states (R410) -/

/-- Nothing can happen at this boundary but the instruction at PC, or waiting. -/
def quiet (s : State) : Bool := s.resetRequested.isNone && s.acceptable.isNone

/-- R410 (b): CPUOFF = 1 and GIE = 0. -/
def sleeping (s : State) : Bool := s.cpuOff && !s.gie

/-- R410 (a), the place: the next instruction is `JMP $`, the word 3FFFh. -/
def atJumpToSelf (s : State) : Bool :=
  fetchable s && !s.cpuOff && Memory.readWord s.mem (alignTo .word s.regs.pc) == 0x3FFF

/-- No enable bit the spec prints is set: TAIE, CCIE, ADC10IE (R306). -/
def enablesOff (p : Periph) : Bool :=
  [p.ta0ctl, p.ta1ctl].all (fun v => !v.getLsbD 1)
    && [p.ta0cctl0, p.ta0cctl1, p.ta0cctl2, p.ta1cctl0, p.ta1cctl1, p.ta1cctl2].all (fun v => !v.getLsbD 4)
    && !p.adc10ctl0.getLsbD 3

/-- R410's "nothing enabled": no maskable request is up, no printed enable bit is set, and the environment, which
has the other enable bits, raises no maskable request (log entry 36). -/
def nothingEnabled (s : State) : Bool :=
  s.pending.all (· == .nmi) && enablesOff s.periph
    && s.inputs.all fun b => b.raised.all (· == .nmi)

/-- R410 (a): `JMP $` reached "with GIE = 0 or with nothing enabled". -/
def jumpEnds (s : State) : Bool := atJumpToSelf s && (!s.gie || nothingEnabled s)

/-- R410: the two states by which a program signals that it is finished. (A run also ends in a fault, which is an
outcome of the step.) -/
def runEnded (s : State) : Bool := jumpEnds s || sleeping s

/-- Neither a reset nor the (non)-maskable request is up or to come: what alone can move a machine on whose run
has ended. -/
def undisturbed (s : State) : Bool :=
  s.resetRequested.isNone && !s.pending.contains .nmi
    && s.inputs.all fun b => b.reset.isNone && !b.raised.contains .nmi

end Sys2Proof.Machine

namespace Sys2Proof

open Machine

/-! ## Instructions by shape -/

/-- What a Format I instruction does with its operands, and the operands; an emulated one through the core
instruction it is. -/
def Instr.formI (i : Instr) : Option (Shape × Width × Src × Dst) :=
  match i.expand with
  | .mov w s d => some (moveShape, w, s, d)
  | .add w s d => some (computeShape, w, s, d)
  | .addc w s d => some (computeShape, w, s, d)
  | .subc w s d => some (computeShape, w, s, d)
  | .sub w s d => some (computeShape, w, s, d)
  | .cmp w s d => some (testShape, w, s, d)
  | .dadd w s d => some (computeShape, w, s, d)
  | .bit w s d => some (testShape, w, s, d)
  | .bic w s d => some (bitsShape, w, s, d)
  | .bis w s d => some (bitsShape, w, s, d)
  | .xor w s d => some (computeShape, w, s, d)
  | .and w s d => some (computeShape, w, s, d)
  | _ => none

/-- Whether RRC, SWPB, RRA or SXT computes flags, its width and its operand. -/
def Instr.rotates : Instr → Option (Bool × Width × Src)
  | .rrc w o => some (true, w, o)
  | .swpb o => some (false, .word, o)
  | .rra w o => some (true, w, o)
  | .sxt o => some (true, .word, o)
  | _ => none

/-- The instruction may load PC with a value of its own (R25): a jump, CALL, RETI, or one whose result goes
to R0 in register mode. -/
def Instr.loadsPc (i : Instr) : Bool :=
  match i.expand with
  | .jne _ | .jeq _ | .jnc _ | .jc _ | .jn _ | .jge _ | .jl _ | .jmp _ | .call _ | .reti => true
  | .rrc _ o | .swpb o | .rra _ o | .sxt o => o == .reg .pc
  | .mov _ _ d | .add _ _ d | .addc _ _ d | .subc _ _ d | .sub _ _ d | .dadd _ _ d | .bic _ _ d
  | .bis _ _ d | .xor _ _ d | .and _ _ d => d == .reg .pc
  | _ => false

/-- The length in words that R115 gives an instruction by the bits of its first word. -/
def wordLength (v : Word) : Nat :=
  let ext := fun (as : Nat) (r : Nat) => if as = 1 ∧ r ≠ 3 ∨ as = 3 ∧ r = 0 then 1 else 0
  let n := v.toNat
  if n / 8192 = 1 then 1
  else if n / 8192 = 0 then (if n / 128 % 8 = 6 then 1 else 1 + ext (n / 16 % 4) (n % 16))
  else 1 + ext (n / 16 % 4) (n / 256 % 16) + n / 128 % 2

end Sys2Proof
end

