-- ==== Sys2Proof/Certificates/Slice0/Obligations.lean ====
section
/-! DEFINITION. The statements for the provers. The terms they use (operand values, readiness, the state
an instruction ends in) are in Sys2Proof/Safety.lean. A statement about a free value holds for every value
the environment can draw. -/

section

open Sys2Proof Sys2Proof.Machine

/-! ## Encoding and decoding -/

/-- R100 to R115 and R121: decoding the words of a well-formed instruction gives it back, and the bytes
after it remain. `canonical` picks one of the two names of words with an emulated mnemonic: the emulated
one (log entry 12). -/
def Obligations.DecodeOfEncode : Prop :=
  ∀ (i : Instr) (rest : List Byte), i.wf = true → i.canonical = true →
    decode (bytesOfWords (encode i) ++ rest) = .ok (i, rest)

/-- R102: what decodes is a well-formed instruction, and the bytes consumed are the ones that encode it: no
bit of an accepted word is ignored. -/
def Obligations.EncodeOfDecode : Prop :=
  ∀ (bs rest : List Byte) (i : Instr), decode bs = .ok (i, rest) →
    i.wf = true ∧ i.canonical = true ∧ bs = bytesOfWords (encode i) ++ rest

/-- Words written out from R104 to R111 decode to the instructions they stand for: one or two of every
format, by their bytes in memory order. -/
def Obligations.SampleWordsDecode : Prop :=
  decode [0x06, 0x55] = .ok (.add .word (.reg .r5) (.reg .r6), []) ∧
  decode [0x95, 0x46, 0x02, 0x00, 0x04, 0x00] =
    .ok (.mov .word (.indexed .r6 2) (.indexed .r5 4), []) ∧
  decode [0xF2, 0xD0, 0x55, 0x00, 0x21, 0x00] = .ok (.bis .byte (.imm 0x55) (.absolute 0x21), []) ∧
  decode [0x45, 0x10] = .ok (.rrc .byte (.reg .r5), []) ∧
  decode [0xB0, 0x12, 0x00, 0xC1] = .ok (.call (.imm 0xC100), []) ∧
  decode [0x00, 0x13] = .ok (.reti, []) ∧
  decode [0xFE, 0x27] = .ok (.jeq 0x3FE, []) ∧
  decode [0x15, 0x83] = .ok (.dec .word (.reg .r5), []) ∧
  decode [0x30, 0x41] = .ok (.ret, [])

/-- R115: the length of a well-formed instruction is the one its first word's fields give. -/
def Obligations.LengthFromFirstWord : Prop :=
  ∀ (i : Instr) (v : Word) (t : List Word), i.wf = true → encode i = v :: t →
    i.length = wordLength v

/-- Which words are rejected, by their bits, whatever follows them. R116: exactly 0000h to 0FFFh and 1380h to
1FFFh (1380h to 13FFh and 1400h to 1FFFh) select no instruction. R117, the reserved forms: in Format II a byte
form of SWPB, SXT or CALL, RETI with a low bit set, RRC, RRA, SWPB or SXT on `#N` or a generated constant, and
`PUSH SP`; in Format I `Ad = 1` with R3, and a register-mode source R0 with `Ad = 1`. R117's last row, with R33:
R2 in register mode as the destination of ADD, ADDC, SUBC, SUB, DADD, XOR or AND, or the operand of RRC, RRA or
SXT. -/
def Obligations.RejectedWordsExact : Prop :=
  ∀ w x1 x2 : Word,
    let n := w.toNat
    let opcode := n / 4096
    let op := n / 128 % 8
    let bw := n / 64 % 2
    let as := n / 16 % 4
    let d := n % 16
    let sreg := n / 256 % 16
    let ad := n / 128 % 2
    let constant := d = 3 ∨ (d = 2 ∧ 2 ≤ as) ∨ (d = 0 ∧ as = 3)
    (decodeWords w x1 x2 = .error (.illegal w) ↔ n < 0x1000 ∨ (0x1380 ≤ n ∧ n ≤ 0x1FFF)) ∧
    (decodeWords w x1 x2 = .error (.form .reservedForm) ↔
      (0x1000 ≤ n ∧ n < 0x1380 ∧
        ((op = 1 ∨ op = 3 ∨ op = 5) ∧ bw = 1 ∨ op = 6 ∧ n ≠ 0x1300 ∨ op ≤ 3 ∧ constant
          ∨ op = 4 ∧ as = 0 ∧ d = 1)) ∨
      (0x4000 ≤ n ∧ (ad = 1 ∧ d = 3 ∨ ad = 1 ∧ as = 0 ∧ sreg = 0))) ∧
    (decodeWords w x1 x2 = .error (.form .srDstWithFlags) ↔
      (0x1000 ≤ n ∧ n < 0x1200 ∧ as = 0 ∧ d = 2 ∧ (op = 0 ∨ op = 2 ∨ op = 3 ∧ bw = 0)) ∨
      (ad = 0 ∧ d = 2 ∧ (opcode = 5 ∨ opcode = 6 ∨ opcode = 7 ∨ opcode = 8 ∨ opcode = 0xA ∨ opcode = 0xE
        ∨ opcode = 0xF)))

/-- R117 and R33: an instruction in a form the spec gives no meaning never completes. -/
def Obligations.IllFormedNeverCompletes : Prop :=
  ∀ (i : Instr) (s t : State), i.wf = false → exec i s ≠ .next t

/-! ## One step -/

/-- R307: at a boundary with no reset, no request to accept and CPUOFF = 0, a step runs the instruction the
bytes at PC decode to, and then the environment moves to the next boundary. A refusal stands; a fault stands
under `FAULT_ACTION = stop`. -/
def Obligations.StepRunsDecoded : Prop :=
  ∀ (s : State) (a : Word) (i : Instr) (rest : List Byte),
    s.resetRequested = none → s.acceptable = none → s.cpuOff = false →
    fetchAddr s = .next a → decode (codeBytes s a) = .ok (i, rest) →
    (∀ t, exec i s = .next t → step s = .next t.nextBoundary) ∧
    (∀ r, exec i s = .refused r → step s = .refused r) ∧
    (∀ f, exec i s = .fault f → s.cfg.faultAction = .stop → step s = .fault f)

/-- R307 and R35, the order at a boundary: reset first, then the request accepted; and while CPUOFF = 1 no
instruction runs: unless a reset is asked for or a request accepted, the step is the environment's move to the
next boundary alone. That move changes no register, no byte and no parameter, tells the environment nothing, and
of the peripheral registers changes only bits the peripheral hardware sets and clears. (That a waiting boundary is
a step at all is the model's choice, log entry 14; which bits are the hardware's, log entry 8.) -/
def Obligations.BoundaryOrder : Prop :=
  ∀ s : State,
    (∀ c, s.resetRequested = some c →
      step s = andThen (performReset (some c) s) fun t => .next t.nextBoundary) ∧
    (∀ p, s.resetRequested = none → s.acceptable = some p →
      step s = andThen (enterInterrupt p s) fun t => .next t.nextBoundary) ∧
    (s.cpuOff = true → s.resetRequested = none → .nmi ∉ s.pending → (s.gie = false ∨ s.pending = []) →
      step s = .next s.nextBoundary) ∧
    s.nextBoundary.regs = s.regs ∧ s.nextBoundary.mem = s.mem ∧ s.nextBoundary.cfg = s.cfg ∧
    s.nextBoundary.resetFlags = s.resetFlags ∧ s.nextBoundary.events = s.events ∧
    ∀ r : PeriphReg,
      let hardware : Word :=
        match r with
        | .ta0ctl | .ta1ctl => 0xFC09
        | .ta0cctl0 | .ta0cctl1 | .ta0cctl2 | .ta1cctl0 | .ta1cctl1 | .ta1cctl2 => 0x0003
        | .ta0iv | .ta1iv => 0x000E
        | .uca0ctl1 => 0x0006
        | .adc10ctl0 => 0x0005
        | .adc10ctl1 => 0x0001
        | _ => 0
      s.nextBoundary.periph.get r &&& ~~~hardware = s.periph.get r &&& ~~~hardware

/-- R307, R304, R305: the request accepted is pending, is not masked, and has the highest priority of all
that are pending; one is accepted unless nothing is pending or GIE masks all that is. -/
def Obligations.HighestPriorityAccepted : Prop :=
  ∀ s : State,
    (∀ p, s.acceptable = some p ↔
      p ∈ s.pending ∧ (p = .nmi ∨ s.gie = true) ∧ ∀ q ∈ s.pending, priority q ≤ priority p) ∧
    (s.acceptable = none ↔ .nmi ∉ s.pending ∧ (s.gie = true → s.pending = []))

/-- R116, R188 and R301: fetching a word that is no instruction raises `IllegalInstruction` with its address
and the word; under `FAULT_ACTION = reset` the machine resets instead. (That this reset records no cause is the
model's reading, log entry 19.) -/
def Obligations.IllegalWordFaults : Prop :=
  ∀ (s : State) (a : Word),
    quiet s = true → s.cpuOff = false → fetchAddr s = .next a →
    ((Memory.readWord s.mem a).toNat < 0x1000 ∨
      0x1380 ≤ (Memory.readWord s.mem a).toNat ∧ (Memory.readWord s.mem a).toNat ≤ 0x1FFF) →
    (s.cfg.faultAction = .stop →
      step s = .fault (.illegalInstruction s.regs.pc (Memory.readWord s.mem a))) ∧
    (s.cfg.faultAction = .reset →
      step s = andThen (performReset none s) fun t => .next t.nextBoundary)

/-- R69 and R301: a fetch outside RAM and flash raises `PCOutOfRange`, of the instruction word and of every
extension word alike (a source's, a destination's, a Format II operand's); under `FAULT_ACTION = reset` the
machine resets. -/
def Obligations.FetchOutOfRangeFaults : Prop :=
  (∀ s : State, quiet s = true → s.cpuOff = false → aligned s.cfg .word s.regs.pc = true →
    inRam s.cfg (alignTo .word s.regs.pc) = false → inFlash s.cfg (alignTo .word s.regs.pc) = false →
    (s.cfg.faultAction = .stop → step s = .fault (.pcOutOfRange s.regs.pc)) ∧
    (s.cfg.faultAction = .reset →
      step s = andThen (performReset (some .pcOutOfRange) s) fun t => .next t.nextBoundary)) ∧
  (∀ s : State, aligned s.cfg .word s.regs.pc = true → fetchable s = false →
    (∀ (w : Width) (o : Src), o.wf = true → o.ext.isSome = true →
      srcOperand w o s = .fault (.pcOutOfRange s.regs.pc) ∧
      opLocation w o s = .fault (.pcOutOfRange s.regs.pc)) ∧
    (∀ d : Dst, d.wf = true → d.ext.isSome = true →
      dstLocation d s = .fault (.pcOutOfRange s.regs.pc)))

/-- R410 and R208, the end of a run. `JMP $` with no request that could be accepted, and no input to come, repeats
for ever: the step gives the same state back. And in each of R410's two terminal states (a word 3FFFh at PC with
GIE = 0 or nothing enabled; CPUOFF = 1 with GIE = 0), while neither a reset nor the (non)-maskable request is up
or to come, whatever else the environment does, a step changes no register and no byte and ends in a terminal
state again. (What "nothing enabled" says of enable bits the spec does not print is the model's reading, log entry
36. That the step of a waiting CPU, CPUOFF = 1 with GIE = 0, answers next at all is the model's choice, log entry 14:
R307 says "no step" there.) -/
def Obligations.JumpToSelfRepeats : Prop :=
  (∀ (s : State) (a : Word) (rest : List Byte),
    quiet s = true → s.cpuOff = false → s.inputs = [] →
    fetchAddr s = .next a → decode (codeBytes s a) = .ok (.jmp 0x3FF, rest) →
    step s = .next s) ∧
  (∀ s : State, runEnded s = true → undisturbed s = true →
    step s = .next s.nextBoundary ∧ s.nextBoundary.regs = s.regs ∧ s.nextBoundary.mem = s.mem ∧
      runEnded s.nextBoundary = true ∧ undisturbed s.nextBoundary = true) ∧
  (∀ s : State, runEnded s = true ↔
    ((∃ a, fetchAddr s = .next a ∧ Memory.readWord s.mem a = 0x3FFF) ∧ s.cpuOff = false ∧
      (s.gie = false ∨ nothingEnabled s = true)) ∨
    (s.cpuOff = true ∧ s.gie = false))

/-! ## Memory -/

/-- R66: a word access at an odd address is refused under `ODD_WORD_ACCESS = refuse`, and made at the
address below under `clear_bit0`. R67 with R65: at an address R66 allows, which accesses the map admits, and
how the others are refused. -/
def Obligations.AccessAdmission : Prop :=
  (∀ (a v : Word) (s : State), isOdd a = true →
    (s.cfg.oddWordAccess = .refuse →
      readMem .word a s = .refused .oddWordAccess ∧ writeMem .word a v s = .refused .oddWordAccess) ∧
    (s.cfg.oddWordAccess = .clearBit0 →
      readMem .word a s = readMem .word (a - 1) s ∧
        writeMem .word a v s = writeMem .word (a - 1) v s)) ∧
  (∀ (w : Width) (a v : Word) (s : State), (w = .byte ∨ isOdd a = false) →
    let n := a.toNat
    let wrongKind := (w = .word ∧ n < 0x0100) ∨ (w = .byte ∧ 0x0100 ≤ n ∧ n < 0x0200)
    let ram := 0x0200 ≤ n ∧ n ≤ s.cfg.ramEnd.toNat
    let flash := 0x0200 ≤ n ∧ s.cfg.ramEnd.toNat < n ∧ (s.cfg.flashBase.toNat ≤ n ∨ 0xFFE0 ≤ n)
    (wrongKind → readMem w a s = .refused .accessKind ∧ writeMem w a v s = .refused .accessKind) ∧
    (n < 0x0200 ∧ ¬wrongKind → (∃ p, readMem w a s = .next p) ∧ (∃ t, writeMem w a v s = .next t)) ∧
    (ram → (∃ p, readMem w a s = .next p) ∧ (∃ t, writeMem w a v s = .next t)) ∧
    (flash → (∃ p, readMem w a s = .next p) ∧ writeMem w a v s = .refused .writeToFlash) ∧
    (0x0200 ≤ n ∧ ¬ram ∧ ¬flash →
      readMem w a s = .refused .unpopulated ∧ writeMem w a v s = .refused .unpopulated))

/-- R76: in RAM a word write is seen by byte reads as its two halves, the low one at the lower address, and two
byte writes by a word read as their concatenation; of a register a byte instruction sees bits 7 to 0 only. -/
def Obligations.MixedWidthView : Prop :=
  (∀ (a v : Word) (s : State), Memory.wf s.mem = true → isOdd a = false →
    inRam s.cfg a = true → inRam s.cfg (a + 1) = true →
    (∃ t, writeMem .word a v s = .next t ∧
      readMem .byte a t = .next (BitVec.ofNat 16 (v.toNat % 256), t) ∧
      readMem .byte (a + 1) t = .next (BitVec.ofNat 16 (v.toNat / 256), t) ∧
      readMem .word a t = .next (v, t)) ∧
    (∀ x y : Word, ∃ t u, writeMem .byte a x s = .next t ∧ writeMem .byte (a + 1) y t = .next u ∧
      readMem .word a u = .next (BitVec.ofNat 16 (x.toNat % 256 + 256 * (y.toNat % 256)), u))) ∧
  (∀ (r : Reg) (s : State), r ≠ .cg →
    srcOperand .byte (.reg r) s = .next (BitVec.ofNat 16 ((s.get r).toNat % 256), s) ∧
    readLoc .byte (.reg r) s = .next (BitVec.ofNat 16 ((s.get r).toNat % 256), s))

/-- R65 and R74: a write leaves every byte it does not store to, every register and the parameters alone, and
keeps memory in its canonical form (the model's own, log entry 3); a read of RAM or flash leaves the whole state
alone. -/
def Obligations.AccessFrame : Prop :=
  (∀ (w : Width) (a v : Word) (s t : State), writeMem w a v s = .next t →
    (∀ x, x ∉ storedBytes w a → Memory.read t.mem x = Memory.read s.mem x) ∧ t.regs = s.regs ∧
      t.cfg = s.cfg ∧ (Memory.wf s.mem = true → Memory.wf t.mem = true) ∧
      (0x0200 ≤ (alignTo w a).toNat → t = { s with mem := t.mem })) ∧
  (∀ (w : Width) (a : Word) (s : State) (p : Word × State), 0x0200 ≤ (alignTo w a).toNat →
    readMem w a s = .next p → p.2 = s)

/-- R75: at a peripheral address with no printed register, a read gives a free value and leaves an event, a
write leaves an event, and nothing else in the machine changes. (A read's event, and the count of free values, are
the model's choice, log entries 13 and 6.) -/
def Obligations.EnvironmentAccess : Prop :=
  ∀ (w : Width) (a v : Word) (s : State), inDevice w a = true → (w = .byte ∨ isOdd a = false) →
    regAt s.cfg a = none →
    (∃ x, readMem w a s =
      .next (x, { s with draws := s.draws + 1, events := .read a w :: s.events })) ∧
    writeMem w a v s =
      .next { s with draws := s.draws + 1, events := .write a w (truncTo w v) :: s.events }

/-- The printed registers. A write gives the bits software writes ("rw" in the source) the written value, as far as
the access is wide, and leaves the other bits and registers alone, and a read then gives those bits back (plain
storage, which R75 lets a model choose, log entry 15; PxOUT and PxREN: R332, R333; ADC10AE0: log entry 35). Left open
are, with UCSWRST = 0 in UCA0CTL1, the bits of UCA0CTL0, UCA0CTL1 (but UCSWRST), UCA0BR0, UCA0BR1 and UCA0MCTL and,
with ENC = 1, the bits that may be fields "modified only when ENC = 0" (log entry 9). UCB0CTL0 is exempt: it is always
stored and read back, whatever UCB0's own UCSWRST is, which is the model's choice, and unsafe (log entry 9). That
UCSYNC is a bit software writes, and UCA0RXBUF none, is the model's choice (log entries 38 and 39). A write of a flag
or of its enable puts the request up exactly when a flag and its enable are then both 1, over all the flags of the
vector (R306, R350, R351, R360; log entry 16), and no other request changes. TACLR reads as zero (R350), bit 9 of
TACCTLx reads as 0 (R351), and TAIV is even and at most 0Eh (R352). -/
def Obligations.PeripheralReads : Prop :=
  (∀ (a v : Word) (s : State) (r : PeriphReg), a.toNat < 0x0100 → regAt s.cfg a = some r →
    (r = .p1out ∨ r = .p2out ∨ r = .p1ren ∨ r = .p2ren) →
    ∃ t u, writeMem .byte a v s = .next t ∧ readMem .byte a t = .next (truncTo .byte v, u)) ∧
  (∀ (w : Width) (a v : Word) (s : State) (r : PeriphReg) (soft left : Word),
    inDevice w a = true → (w = .byte ∨ isOdd a = false) → regAt s.cfg a = some r →
    (let usci := fun m : Word => if s.periph.uca0ctl1.getLsbD 0 then 0 else m
     let adc := fun m : Word => if s.periph.adc10ctl0.getLsbD 1 then m else 0
     (r, soft, left) ∈
      [ (.p1in, 0, 0), (.p1out, 0x00FF, 0), (.p1ren, 0x00FF, 0),
        (.p2in, 0, 0), (.p2out, 0x00FF, 0), (.p2ren, 0x00FF, 0),
        (.uca0ctl0, 0x00FF, usci 0x00FF), (.uca0ctl1, 0x00FF, usci 0x00FE), (.uca0br0, 0x00FF, usci 0x00FF),
        (.uca0br1, 0x00FF, usci 0x00FF), (.uca0mctl, 0x00FF, usci 0x00FF), (.uca0rxbuf, 0, 0),
        (.ucb0ctl0, 0x00FF, 0), (.ta0iv, 0, 0), (.ta1iv, 0, 0), (.ta0ctl, 0xFFFB, 0), (.ta1ctl, 0xFFFB, 0),
        (.ta0cctl0, 0xF9F7, 0), (.ta0cctl1, 0xF9F7, 0), (.ta0cctl2, 0xF9F7, 0),
        (.ta1cctl0, 0xF9F7, 0), (.ta1cctl1, 0xF9F7, 0), (.ta1cctl2, 0xF9F7, 0),
        (.adc10ctl0, 0xFFFF, adc 0xFFF9), (.adc10ctl1, 0xFFFE, adc 0xFFFE), (.adc10ae0, 0x00FF, 0) ]) →
    ∃ t x u, writeMem w a v s = .next t ∧ readMem w a t = .next (x, u) ∧
      (∀ k, soft.getLsbD k = true → left.getLsbD k = false →
        (t.periph.get r).getLsbD k = (truncTo w v).getLsbD k ∧ x.getLsbD k = (truncTo w v).getLsbD k) ∧
      (∀ k, soft.getLsbD k = false → (t.periph.get r).getLsbD k = (s.periph.get r).getLsbD k) ∧
      (∀ q, q ≠ r → t.periph.get q = s.periph.get q)) ∧
  (∀ (w : Width) (a v : Word) (s t : State) (r : PeriphReg),
    inDevice w a = true → regAt s.cfg a = some r → (w = .byte ∨ isOdd a = false) → r ≠ .uca0txbuf →
    writeMem w a v s = .next t →
    let up := fun (q : PeriphReg) (enable flag : Nat) =>
      (t.periph.get q).getLsbD enable && (t.periph.get q).getLsbD flag
    let vector : Option (IrqSource × Bool) :=
      match r with
      | .ta0cctl0 => some (.timer0Ccr0, up .ta0cctl0 4 0)
      | .ta1cctl0 => some (.timer1Ccr0, up .ta1cctl0 4 0)
      | .ta0ctl | .ta0cctl1 | .ta0cctl2 =>
        some (.timer0Multi, up .ta0ctl 1 0 || up .ta0cctl1 4 0 || up .ta0cctl2 4 0)
      | .ta1ctl | .ta1cctl1 | .ta1cctl2 =>
        some (.timer1Multi, up .ta1ctl 1 0 || up .ta1cctl1 4 0 || up .ta1cctl2 4 0)
      | .adc10ctl0 => some (.adc10, up .adc10ctl0 3 2)
      | _ => none
    (∀ p b, vector = some (p, b) →
      (p ∈ t.pending ↔ b = true) ∧ ∀ q, q ≠ p → (q ∈ t.pending ↔ q ∈ s.pending)) ∧
    (vector = none → t.pending = s.pending)) ∧
  (∀ (a : Word) (s : State) (r : PeriphReg) (p : Word × State),
    a.toNat < 0x0200 → isOdd a = false → regAt s.cfg a = some r → readMem .word a s = .next p →
    ((r = .ta0ctl ∨ r = .ta1ctl) → p.1.getLsbD 2 = false) ∧
    ((r = .ta0cctl0 ∨ r = .ta0cctl1 ∨ r = .ta0cctl2 ∨ r = .ta1cctl0 ∨ r = .ta1cctl1 ∨ r = .ta1cctl2) →
      p.1.getLsbD 9 = false) ∧
    ((r = .ta0iv ∨ r = .ta1iv) → p.1.toNat % 2 = 0 ∧ p.1.toNat ≤ 0x0E))

/-- R344, R345 and R74: writing UCAxTXBUF withdraws request 22 and no other, and what was written is read back;
in 7-bit mode the top bit of UCAxTXBUF is stored as 0 and that of UCAxRXBUF reads as 0; a read of UCAxRXBUF
withdraws request 23 or, if the other USCI still asks, leaves it. (Which request each access withdraws is read as
log entry 17 says; that UCAxTXBUF reads back is the model's choice, log entry 15, and that its top bit is reset at the
write, log entry 37.) -/
def Obligations.UsciBuffers : Prop :=
  (∀ (a v : Word) (s : State), a.toNat < 0x0100 → regAt s.cfg a = some .uca0txbuf →
    let kept := if s.periph.uca0ctl0.getLsbD 4 then v &&& 0x007F else v &&& 0x00FF
    ∃ t u, writeMem .byte a v s = .next t ∧ t.pending = s.pending.filter (· != .usciTx) ∧
      readMem .byte a t = .next (kept, u) ∧ u.periph = t.periph ∧
      (s.periph.uca0ctl0.getLsbD 4 = true → t.periph.uca0txbuf.getLsbD 7 = false)) ∧
  (∀ (a : Word) (s : State) (p : Word × State), a.toNat < 0x0100 → regAt s.cfg a = some .uca0rxbuf →
    readMem .byte a s = .next p →
    (p.2.pending = s.pending ∨ p.2.pending = s.pending.filter (· != .usciRx)) ∧
      (s.periph.uca0ctl0.getLsbD 4 = true → p.1.getLsbD 7 = false))

/-- R82: a store by an instruction into the word that follows it is refused; any other store is the plain write of
R65. A word store at an odd address is first made even or refused, as `ODD_WORD_ACCESS` says (R66). -/
def Obligations.StoreToNextWordRefused : Prop :=
  ∀ (a v : Word) (s : State), isOdd s.regs.pc = false → inRam s.cfg a = true →
    (a = s.regs.pc ∨ a = s.regs.pc + 1 → storeMem .byte a v s = .refused .smcNextWord) ∧
    (a ≠ s.regs.pc → a ≠ s.regs.pc + 1 → storeMem .byte a v s = writeMem .byte a v s) ∧
    (a = s.regs.pc → storeMem .word a v s = .refused .smcNextWord) ∧
    (isOdd a = false → a ≠ s.regs.pc → storeMem .word a v s = writeMem .word a v s) ∧
    (isOdd a = true →
      (s.cfg.oddWordAccess = .refuse → storeMem .word a v s = .refused .oddWordAccess) ∧
      (s.cfg.oddWordAccess = .clearBit0 →
        (a = s.regs.pc + 1 → storeMem .word a v s = .refused .smcNextWord) ∧
        (a ≠ s.regs.pc + 1 → storeMem .word a v s = writeMem .word (a - 1) v s)))

/-! ## Registers -/

/-- R24, R26, R30, R33: writing a register. PC and SP keep bit 0 clear or the write is refused, SR's bits 15
to 9 cannot be set, R3 keeps nothing, and every other register holds what was written. -/
def Obligations.RegisterWrites : Prop :=
  ∀ (r : Reg) (v : Word) (s : State),
    ((r = .pc ∨ r = .sp) → isOdd v = false → writeReg r v s = .next (s.put r v)) ∧
    ((r = .pc ∨ r = .sp) → isOdd v = true →
      (s.cfg.oddPcSp = .refuse → writeReg r v s = .refused .oddPcSp) ∧
      (s.cfg.oddPcSp = .clearBit0 → writeReg r v s = .next (s.put r (v - 1)))) ∧
    (r = .sr → (v.toNat < 0x0200 → writeReg r v s = .next (s.put r v)) ∧
      (0x0200 ≤ v.toNat → writeReg r v s = .refused .srReserved)) ∧
    (r = .cg → writeReg r v s = .next s) ∧
    (r ≠ .pc → r ≠ .sp → r ≠ .sr → writeReg r v s = .next (s.put r v))

/-! ## Operands -/

/-- R141 to R149: the value of a source operand in each mode, in RAM and flash. `s` has PC past the
instruction word; an extension word moves PC on by 2; a byte operand is the low byte of a register, an
immediate or a constant. -/
def Obligations.SourceModes : Prop :=
  ∀ (w : Width) (s : State),
    (∀ r : Reg, r ≠ .cg → srcOperand w (.reg r) s = .next (truncTo w (s.get r), s)) ∧
    (∀ n : Word, fetchable s = true → srcOperand w (.imm n) s = .next (truncTo w n, s.skipWord)) ∧
    (srcOperand w (.const .zero) s = .next (0, s) ∧ srcOperand w (.const .one) s = .next (1, s) ∧
      srcOperand w (.const .two) s = .next (2, s) ∧ srcOperand w (.const .four) s = .next (4, s) ∧
      srcOperand w (.const .eight) s = .next (8, s) ∧
      srcOperand w (.const .minusOne) s = .next (BitVec.ofNat 16 (2 ^ nBits w - 1), s)) ∧
    (∀ (r : Reg) (x ea : Word), r.isBase = true → ea = s.get r + x → fetchable s = true →
      0x0200 ≤ (alignTo w ea).toNat → readable s.cfg w ea = true →
      srcOperand w (.indexed r x) s = .next (loadValue s.mem w (alignTo w ea), s.skipWord)) ∧
    (∀ x ea : Word, ea = s.regs.pc + x → fetchable s = true →
      0x0200 ≤ (alignTo w ea).toNat → readable s.cfg w ea = true →
      srcOperand w (.symbolic x) s = .next (loadValue s.mem w (alignTo w ea), s.skipWord)) ∧
    (∀ ea : Word, fetchable s = true → 0x0200 ≤ (alignTo w ea).toNat → readable s.cfg w ea = true →
      srcOperand w (.absolute ea) s = .next (loadValue s.mem w (alignTo w ea), s.skipWord)) ∧
    (∀ (r : Reg) (ea : Word), r.isPointer = true → ea = s.get r →
      0x0200 ≤ (alignTo w ea).toNat → readable s.cfg w ea = true →
      srcOperand w (.indirect r) s = .next (loadValue s.mem w (alignTo w ea), s)) ∧
    (∀ (r : Reg) (ea : Word), r.isBase = true → ea = s.get r → (r = .sp → isOdd ea = false) →
      0x0200 ≤ (alignTo w ea).toNat → readable s.cfg w ea = true →
      srcOperand w (.autoInc r) s =
        .next (loadValue s.mem w (alignTo w ea),
          s.put r (ea + if w = .byte ∧ r ≠ .sp then 1 else 2)))

/-- R150 to R153: where a destination is. The base of an indexed one, and PC for a symbolic one, are read when
it is resolved, after the source. -/
def Obligations.DestinationModes : Prop :=
  ∀ s : State,
    (∀ r : Reg, r ≠ .cg → dstLocation (.reg r) s = .next (.reg r, s)) ∧
    dstLocation .bucket s = .next (.bucket, s) ∧
    (∀ w v, readLoc w .bucket s = .next (0, s) ∧ writeLoc w .bucket v s = .next s) ∧
    (fetchable s = true →
      (∀ (r : Reg) (x : Word), r.isBase = true →
        dstLocation (.indexed r x) s = .next (.mem (s.get r + x), s.skipWord)) ∧
      (∀ x : Word, dstLocation (.symbolic x) s = .next (.mem (s.regs.pc + x), s.skipWord)) ∧
      (∀ a : Word, dstLocation (.absolute a) s = .next (.mem a, s.skipWord)))

/-- Operands that share a register, and PC as one. R156, the order of R140 seen, for every register that has the
modes: with `@Rn+` as the source, `MOV @Rn+,Rn` leaves the word loaded, `ADD @Rn+,Rn` adds it to the incremented
register, and `MOV @Rn+,0(Rn)` stores at the incremented address; `MOV Rn,0(Rn)` stores Rn at the address Rn, and
`ADD Rn,Rn` doubles it. R157: `MOV PC,Rn` gives `A + 2`, `ADD Rn,PC` branches relative to the next instruction, and
`CALL PC` calls `A + 2`. -/
def Obligations.SharedOperands : Prop :=
  (∀ (r : Reg) (s : State) (v : Word), r.isBase = true → isOdd (s.get r) = false →
    0x0200 ≤ (s.get r).toNat → readable s.cfg .word (s.get r) = true → v = Memory.readWord s.mem (s.get r) →
    ((r = .sp → isOdd v = false) →
      exec (.mov .word (.autoInc r) (.reg r)) s = .next (s.skipWord.put r v) ∧
      (∃ t, exec (.add .word (.autoInc r) (.reg r)) s = .next t ∧ t.get r = s.get r + 2 + v)) ∧
    (inRam s.cfg (s.get r + 2) = true → fetchable s.skipWord = true →
      s.get r + 2 ≠ s.regs.pc + 4 → isOdd s.regs.pc = false →
      ∃ t, exec (.mov .word (.autoInc r) (.indexed r 0)) s = .next t ∧ t.get r = s.get r + 2 ∧
        t.mem = Memory.writeWord s.mem (s.get r + 2) v)) ∧
  (∀ (r : Reg) (s : State), r.isBase = true →
    (isOdd (s.get r) = false → inRam s.cfg (s.get r) = true → fetchable s.skipWord = true →
      s.get r ≠ s.regs.pc + 4 → isOdd s.regs.pc = false →
      exec (.mov .word (.reg r) (.indexed r 0)) s =
        .next { s.skipWord.skipWord with mem := Memory.writeWord s.mem (s.get r) (s.get r) }) ∧
    (∃ t, exec (.add .word (.reg r) (.reg r)) s = .next t ∧ t.get r = s.get r + s.get r)) ∧
  (∀ s : State, isOdd s.regs.pc = false →
    (∀ r : Reg, r ≠ .sr → r ≠ .cg →
      exec (.mov .word (.reg .pc) (.reg r)) s = .next (s.skipWord.put r (s.regs.pc + 2))) ∧
    (∀ r : Reg, r ≠ .pc → r ≠ .cg → isOdd (s.get r) = false →
      ∃ t, exec (.add .word (.reg r) (.reg .pc)) s = .next t ∧ t.regs.pc = s.regs.pc + 2 + s.get r) ∧
    (∀ t, exec (.call (.reg .pc)) s = .next t → t.regs.pc = s.regs.pc + 2))

/-! ## Double-operand instructions: the result, the flags, and that they complete -/

/-- R222: MOV. -/
def Obligations.MovCompletes : Prop :=
  ∀ (w : Width) (src : Src) (dst : Dst) (s : State),
    canFinish moveShape w src dst s (src2 w src s) = true →
    exec (.mov w src dst) s = .next (finished moveShape w src dst s 0 (src2 w src s) FlagUpdate.none)

/-- R223 and R224: ADD, and ADDC with SR.C added; V is the signed sum's overflow (R234), C the carry out. -/
def Obligations.AddAddcComplete : Prop :=
  ∀ (w : Width) (src : Src) (dst : Dst) (s : State) (a b : Word) (c : Nat),
    a = src2 w src s → b = dst2 w src dst s → c = s.carry.toNat →
    (∀ res, res = reduced w (a.toNat + b.toNat) → canFinish computeShape w src dst s res = true →
      exec (.add w src dst) s = .next (finished computeShape w src dst s 0 res
        (resultFlags w res (outOfRange w (signedN w a + signedN w b))
          (decide (2 ^ nBits w ≤ a.toNat + b.toNat))))) ∧
    (∀ res, res = reduced w (a.toNat + b.toNat + c) → canFinish computeShape w src dst s res = true →
      exec (.addc w src dst) s = .next (finished computeShape w src dst s 0 res
        (resultFlags w res (outOfRange w (signedN w a + signedN w b + c))
          (decide (2 ^ nBits w ≤ a.toNat + b.toNat + c)))))

/-- R225: SUBC; with C = 1 the result is `dst - src`, with C = 0 `dst - src - 1`; C = 1 after it says that
there was no borrow. -/
def Obligations.SubcCompletes : Prop :=
  ∀ (w : Width) (src : Src) (dst : Dst) (s : State) (a b res : Word) (borrow : Nat),
    a = src2 w src s → b = dst2 w src dst s → borrow = (!s.carry).toNat →
    res = reduced w (b.toNat + 2 ^ nBits w - a.toNat - borrow) →
    canFinish computeShape w src dst s res = true →
    exec (.subc w src dst) s = .next (finished computeShape w src dst s 0 res
      (resultFlags w res (outOfRange w (signedN w b - signedN w a - borrow))
        (decide (a.toNat + borrow ≤ b.toNat))))

/-- R226 and R227: SUB, and CMP, which sets the same flags and writes nothing else; C = 1 exactly when
`dst >= src` unsigned, Z when they are equal. -/
def Obligations.SubCmpComplete : Prop :=
  ∀ (w : Width) (src : Src) (dst : Dst) (s : State) (a b res : Word) (f : FlagUpdate),
    a = src2 w src s → b = dst2 w src dst s → res = reduced w (b.toNat + 2 ^ nBits w - a.toNat) →
    f = resultFlags w res (outOfRange w (signedN w b - signedN w a)) (decide (a.toNat ≤ b.toNat)) →
    (canFinish computeShape w src dst s res = true →
      exec (.sub w src dst) s = .next (finished computeShape w src dst s 0 res f)) ∧
    (ready2 testShape w src dst s = true →
      exec (.cmp w src dst) s = .next ((state2 testShape w src dst s).setFlags f)) ∧
    (f.z = some true ↔ a = b)

/-- R228: DADD on decimal operands adds them as decimal numbers with the carry; C is the decimal carry, V any
value. With a digit above 9 the result and all four flags are any value; that clause is stated where every result
can be written, since no one knows which it is. -/
def Obligations.DaddCompletes : Prop :=
  ∀ (w : Width) (src : Src) (dst : Dst) (s : State) (a b : Word) (d : Nat),
    a = src2 w src s → b = dst2 w src dst s → d = nBits w / 4 →
    (isDecimal d a.toNat = true → isDecimal d b.toNat = true →
      ∃ (res : Word) (v c : Bool),
        bcdValue d res.toNat + 10 ^ d * c.toNat =
          bcdValue d a.toNat + bcdValue d b.toNat + s.carry.toNat ∧
        isDecimal d res.toNat = true ∧ res.toNat < 2 ^ nBits w ∧
        (canFinish computeShape w src dst s res = true →
          exec (.dadd w src dst) s =
            .next (finished computeShape w src dst s 2 res (resultFlags w res v c)))) ∧
    (¬(isDecimal d a.toNat = true ∧ isDecimal d b.toNat = true) →
      (∀ v, canFinish computeShape w src dst s v = true) →
      ∃ (res : Word) (v n z c : Bool), res.toNat < 2 ^ nBits w ∧
        exec (.dadd w src dst) s =
          .next (finished computeShape w src dst s 2 res ⟨some v, some n, some z, some c⟩))

/-- R229 and R233: BIT and AND; C is the complement of Z, V is 0. BIT writes nothing but the flags. -/
def Obligations.BitAndCompletes : Prop :=
  ∀ (w : Width) (src : Src) (dst : Dst) (s : State) (res : Word) (f : FlagUpdate),
    res = src2 w src s &&& dst2 w src dst s → f = resultFlags w res false (decide (res.toNat ≠ 0)) →
    (ready2 testShape w src dst s = true →
      exec (.bit w src dst) s = .next ((state2 testShape w src dst s).setFlags f)) ∧
    (canFinish computeShape w src dst s res = true →
      exec (.and w src dst) s = .next (finished computeShape w src dst s 0 res f))

/-- R230 and R231: BIC clears the source's bits in the destination, BIS sets them; no flag changes unless SR is
the destination. -/
def Obligations.BicBisCompletes : Prop :=
  ∀ (w : Width) (src : Src) (dst : Dst) (s : State),
    (∀ res, res = dst2 w src dst s &&& ~~~(src2 w src s) →
      canFinish bitsShape w src dst s res = true →
      exec (.bic w src dst) s = .next (finished bitsShape w src dst s 0 res FlagUpdate.none)) ∧
    (∀ res, res = dst2 w src dst s ||| src2 w src s → canFinish bitsShape w src dst s res = true →
      exec (.bis w src dst) s = .next (finished bitsShape w src dst s 0 res FlagUpdate.none))

/-- R232: XOR; V is set when both operands are negative. -/
def Obligations.XorCompletes : Prop :=
  ∀ (w : Width) (src : Src) (dst : Dst) (s : State) (a b res : Word),
    a = src2 w src s → b = dst2 w src dst s → res = a ^^^ b →
    canFinish computeShape w src dst s res = true →
    exec (.xor w src dst) s = .next (finished computeShape w src dst s 0 res
      (resultFlags w res (decide (signedN w a < 0 ∧ signedN w b < 0)) (decide (res.toNat ≠ 0))))

/-! ## Single-operand instructions -/

/-- R181: RRC shifts right by one with the old carry coming in at the top and bit 0 going to C. V is as
`RRC_V` says, any value by default. -/
def Obligations.RrcCompletes : Prop :=
  ∀ (w : Width) (o : Src) (s : State) (v res : Word),
    v = val1 w o s → res = BitVec.ofNat 16 (v.toNat / 2 + s.carry.toNat * 2 ^ (nBits w - 1)) →
    canFinish1 true w o s res = true →
    ∃ x : Bool, (s.cfg.rrcV = .alwaysZero → x = false) ∧
      (s.cfg.rrcV = .signChange → x = (decide (0 ≤ signedN w v) && s.carry)) ∧
      exec (.rrc w o) s = .next (finished1 w o s (if s.cfg.rrcV = .anyValue then 1 else 0) res
        (resultFlags w res x (decide (v.toNat % 2 = 1))))

/-- R183: RRA halves the signed number, rounding down; C is the old bit 0, V is 0. -/
def Obligations.RraCompletes : Prop :=
  ∀ (w : Width) (o : Src) (s : State) (v res : Word),
    v = val1 w o s → res = BitVec.ofNat 16 (signedN w v / 2 % 2 ^ nBits w).toNat →
    canFinish1 true w o s res = true →
    exec (.rra w o) s = .next (finished1 w o s 0 res (resultFlags w res false (decide (v.toNat % 2 = 1))))

/-- R182 and R184: SWPB exchanges the two bytes and changes no flag; SXT extends the sign of the low byte,
with C the complement of Z and V 0. -/
def Obligations.SwpbSxtCompletes : Prop :=
  ∀ (o : Src) (s : State) (v : Word), v = val1 .word o s →
    (∀ res, res = BitVec.ofNat 16 (v.toNat % 256 * 256 + v.toNat / 256) →
      canFinish1 false .word o s res = true →
      exec (.swpb o) s = .next (finished1 .word o s 0 res FlagUpdate.none)) ∧
    (∀ res, res = BitVec.ofInt 16 (signedN .byte (BitVec.ofNat 16 (v.toNat % 256))) →
      canFinish1 true .word o s res = true →
      exec (.sxt o) s =
        .next (finished1 .word o s 0 res (resultFlags .word res false (decide (res.toNat ≠ 0)))))

/-- R185: PUSH resolves its operand with the old SP, lowers SP by 2 (for a byte too) and stores there; in RAM
the value is read back from the new SP. (An odd SP is made even as R30 says.) -/
def Obligations.PushCompletes : Prop :=
  ∀ (w : Width) (o : Src) (s : State), o ≠ .reg .sp → ready1 w o s = true →
    pushReady w (state1 w o s) = true →
    ∃ t, exec (.push w o) s = .next t ∧ t.regs.sp = clearBit0 ((state1 w o s).regs.sp - 2) ∧
      t.regs.pc = (state1 w o s).regs.pc ∧ t.regs.sr = s.regs.sr ∧
      (Memory.wf s.mem = true → inRam s.cfg t.regs.sp = true →
        loadValue t.mem w t.regs.sp = val1 w o s)

/-- R186: CALL resolves its operand, pushes the address of the next instruction, `A + 2L`, and loads PC. (An odd SP
or target is made even as R26 and R30 say.) -/
def Obligations.CallCompletes : Prop :=
  ∀ (o : Src) (s : State), ready1 .word o s = true → pushReady .word (state1 .word o s) = true →
    storable s.cfg .pc (val1 .word o s) = true →
    ∃ t, exec (.call o) s = .next t ∧ t.regs.pc = clearBit0 (val1 .word o s) ∧
      t.regs.sp = clearBit0 ((state1 .word o s).regs.sp - 2) ∧ t.regs.sr = s.regs.sr ∧
      (Memory.wf s.mem = true → inRam s.cfg t.regs.sp = true →
        Memory.readWord t.mem t.regs.sp = s.regs.pc + BitVec.ofNat 16 (2 * (Instr.call o).length))

/-- R187: RETI pops SR, then PC, and changes nothing else (frame included): both words in RAM or flash, the
popped SR with its reserved bits clear, the popped PC even. -/
def Obligations.RetiCompletes : Prop :=
  ∀ (s : State) (sp sr pc : Word), sp = s.regs.sp → isOdd sp = false →
    (inRam s.cfg sp || inFlash s.cfg sp) = true →
    (inRam s.cfg (sp + 2) || inFlash s.cfg (sp + 2)) = true →
    sr = Memory.readWord s.mem sp → pc = Memory.readWord s.mem (sp + 2) → sr.toNat < 0x0200 →
    isOdd pc = false →
    exec .reti s = .next { s with regs := { s.regs with pc := pc, sp := sp + 4, sr := sr } }

/-! ## Jumps -/

/-- R200 to R208 and R113: each jump, its one word, and that it is taken exactly on its condition; the target is
`A + 2 + 2*off`; nothing but PC changes (frame included). -/
def Obligations.JumpsComplete : Prop :=
  ∀ (off : BitVec 10) (s : State) (c z n v : Bool),
    c = s.regs.sr.getLsbD 0 → z = s.regs.sr.getLsbD 1 → n = s.regs.sr.getLsbD 2 →
    v = s.regs.sr.getLsbD 8 →
    let goes := fun (b : Bool) => (Host.Outcome.next { s with
      regs := { s.regs with pc :=
        if b then BitVec.ofInt 16 (s.regs.pc.toNat + 2 + 2 * off.toInt) else s.regs.pc + 2 } } :
      Host.Outcome State Fault Refusal)
    exec (.jne off) s = goes (!z) ∧ exec (.jeq off) s = goes z ∧ exec (.jnc off) s = goes (!c) ∧
    exec (.jc off) s = goes c ∧ exec (.jn off) s = goes n ∧ exec (.jge off) s = goes (n == v) ∧
    exec (.jl off) s = goes (n != v) ∧ exec (.jmp off) s = goes true ∧
    [Instr.jne off, .jeq off, .jnc off, .jc off, .jn off, .jge off, .jl off, .jmp off].map encode =
      [0, 1, 2, 3, 4, 5, 6, 7].map fun c : Nat => [BitVec.ofNat 16 (0x2000 + 1024 * c + off.toNat)]

/-- R227 with R201 to R207: after `CMP src,dst` the jumps compare: JEQ on equality, JHS (JC) and JLO (JNC) on
the unsigned order, JGE and JL on the signed one. -/
def Obligations.CompareThenJump : Prop :=
  ∀ (w : Width) (src : Src) (dst : Dst) (s t : State) (off : BitVec 10) (a b : Word),
    a = src2 w src s → b = dst2 w src dst s → exec (.cmp w src dst) s = .next t →
    let goes := fun (p : Prop) [Decidable p] => (Host.Outcome.next
      (t.put .pc (if p then jumpTarget t.regs.pc off else t.regs.pc + 2)) :
        Host.Outcome State Fault Refusal)
    exec (.jeq off) t = goes (a = b) ∧ exec (.jne off) t = goes (a ≠ b) ∧
    exec (.jc off) t = goes (a.toNat ≤ b.toNat) ∧ exec (.jnc off) t = goes (b.toNat < a.toNat) ∧
    exec (.jge off) t = goes (signedN w a ≤ signedN w b) ∧
    exec (.jl off) t = goes (signedN w b < signedN w a)

/-! ## Emulated instructions -/

/-- R251, R270: ADC adds C to the destination, SBC takes off the borrow. -/
def Obligations.AdcSbcComplete : Prop :=
  ∀ (w : Width) (dst : Dst) (s : State) (b : Word) (c borrow : Nat),
    b = dst2 w (.const .zero) dst s → c = s.carry.toNat → borrow = (!s.carry).toNat →
    (∀ res, res = reduced w (b.toNat + c) →
      canFinish computeShape w (.const .zero) dst s res = true →
      exec (.adc w dst) s = .next (finished computeShape w (.const .zero) dst s 0 res
        (resultFlags w res (outOfRange w (signedN w b + c)) (decide (2 ^ nBits w ≤ b.toNat + c))))) ∧
    (∀ res, res = reduced w (b.toNat + 2 ^ nBits w - borrow) →
      canFinish computeShape w (.const .zero) dst s res = true →
      exec (.sbc w dst) s = .next (finished computeShape w (.const .zero) dst s 0 res
        (resultFlags w res (outOfRange w (signedN w b - borrow)) (decide (borrow ≤ b.toNat)))))

/-- R257: DADC adds C to a decimal destination decimally; with a digit above 9 result and flags are any value, as
for DADD. -/
def Obligations.DadcCompletes : Prop :=
  ∀ (w : Width) (dst : Dst) (s : State) (b : Word) (d : Nat),
    b = dst2 w (.const .zero) dst s → d = nBits w / 4 →
    (isDecimal d b.toNat = true →
      ∃ (res : Word) (v c : Bool),
        bcdValue d res.toNat + 10 ^ d * c.toNat = bcdValue d b.toNat + s.carry.toNat ∧
        isDecimal d res.toNat = true ∧ res.toNat < 2 ^ nBits w ∧
        (canFinish computeShape w (.const .zero) dst s res = true →
          exec (.dadc w dst) s =
            .next (finished computeShape w (.const .zero) dst s 2 res (resultFlags w res v c)))) ∧
    (isDecimal d b.toNat = false →
      (∀ v, canFinish computeShape w (.const .zero) dst s v = true) →
      ∃ (res : Word) (v n z c : Bool), res.toNat < 2 ^ nBits w ∧
        exec (.dadc w dst) s = .next (finished computeShape w (.const .zero) dst s 2 res
          ⟨some v, some n, some z, some c⟩))

/-- R262, R263, R258, R259: INC, INCD, DEC and DECD add or take off 1 or 2, with the flags of ADD and SUB: C after
DEC and DECD says that there was no borrow. -/
def Obligations.IncDecComplete : Prop :=
  ∀ (w : Width) (dst : Dst) (s : State) (b res : Word),
    (b = dst2 w (.const .one) dst s → canFinish computeShape w (.const .one) dst s res = true →
      (res = reduced w (b.toNat + 1) →
        exec (.inc w dst) s = .next (finished computeShape w (.const .one) dst s 0 res
          (resultFlags w res (outOfRange w (signedN w b + 1)) (decide (2 ^ nBits w ≤ b.toNat + 1))))) ∧
      (res = reduced w (b.toNat + 2 ^ nBits w - 1) →
        exec (.dec w dst) s = .next (finished computeShape w (.const .one) dst s 0 res
          (resultFlags w res (outOfRange w (signedN w b - 1)) (decide (1 ≤ b.toNat)))))) ∧
    (b = dst2 w (.const .two) dst s → canFinish computeShape w (.const .two) dst s res = true →
      (res = reduced w (b.toNat + 2) →
        exec (.incd w dst) s = .next (finished computeShape w (.const .two) dst s 0 res
          (resultFlags w res (outOfRange w (signedN w b + 2)) (decide (2 ^ nBits w ≤ b.toNat + 2))))) ∧
      (res = reduced w (b.toNat + 2 ^ nBits w - 2) →
        exec (.decd w dst) s = .next (finished computeShape w (.const .two) dst s 0 res
          (resultFlags w res (outOfRange w (signedN w b - 2)) (decide (2 ≤ b.toNat))))))

/-- R264 and R274: INV complements the destination, with V its old sign; TST sets N and Z from it, C to 1 and
V to 0, and writes nothing. -/
def Obligations.InvTstComplete : Prop :=
  ∀ (w : Width) (dst : Dst) (s : State),
    (∀ b res, b = dst2 w (.const .minusOne) dst s → res = BitVec.ofNat 16 (2 ^ nBits w - 1 - b.toNat) →
      canFinish computeShape w (.const .minusOne) dst s res = true →
      exec (.inv w dst) s = .next (finished computeShape w (.const .minusOne) dst s 0 res
        (resultFlags w res (decide (signedN w b < 0)) (decide (res.toNat ≠ 0))))) ∧
    (∀ b, b = dst2 w (.const .zero) dst s → ready2 testShape w (.const .zero) dst s = true →
      exec (.tst w dst) s =
        .next ((state2 testShape w (.const .zero) dst s).setFlags (resultFlags w b false true)))

/-- R268 and R269: RLA adds the destination to itself, RLC does so with C coming in at bit 0. Both name the operand
as source and as destination (`dst.second` is the destination form, whose symbolic index is 2 less), and both read
it as each; the two values `a` and `b` are the same unless the operand is a peripheral register. -/
def Obligations.RlaRlcComplete : Prop :=
  ∀ (w : Width) (dst : Dst) (s : State) (a b : Word) (c : Nat),
    a = src2 w dst.asSrc s → b = dst2 w dst.asSrc dst.second s → c = s.carry.toNat →
    (∀ res, res = reduced w (a.toNat + b.toNat) →
      canFinish computeShape w dst.asSrc dst.second s res = true →
      exec (.rla w dst) s = .next (finished computeShape w dst.asSrc dst.second s 0 res
        (resultFlags w res (outOfRange w (signedN w a + signedN w b))
          (decide (2 ^ nBits w ≤ a.toNat + b.toNat))))) ∧
    (∀ res, res = reduced w (a.toNat + b.toNat + c) →
      canFinish computeShape w dst.asSrc dst.second s res = true →
      exec (.rlc w dst) s = .next (finished computeShape w dst.asSrc dst.second s 0 res
        (resultFlags w res (outOfRange w (signedN w a + signedN w b + c))
          (decide (2 ^ nBits w ≤ a.toNat + b.toNat + c))))) ∧
    (dst.wf = true → (∀ ea, place2 w dst.asSrc dst.second s = .mem ea → 0x0200 ≤ (alignTo w ea).toNat) →
      a = b)

/-- R253, R265, R252: CLR stores 0 without reading its destination; NOP changes PC alone; BR loads PC with its
operand. No flag changes. -/
def Obligations.ClrNopBrComplete : Prop :=
  (∀ (w : Width) (dst : Dst) (s : State), canFinish moveShape w (.const .zero) dst s 0 = true →
    exec (.clr w dst) s = .next (finished moveShape w (.const .zero) dst s 0 0 FlagUpdate.none)) ∧
  (∀ s : State, exec .nop s = .next { s with regs := { s.regs with pc := s.regs.pc + 2 } }) ∧
  (∀ (src : Src) (s : State), ready2 moveShape .word src (.reg .pc) s = true →
    storable s.cfg .pc (src2 .word src s) = true →
    exec (.br src) s = .next ((srcDone .word src s.skipWord).put .pc (clearBit0 (src2 .word src s))))

/-- R266, R267: POP takes the value at SP, raises SP by 2 (for a byte too) and then writes its destination; RET
does so with PC. -/
def Obligations.PopRetComplete : Prop :=
  (∀ (w : Width) (dst : Dst) (s : State) (v : Word), v = valueAt w s.regs.sp s.skipWord →
    canFinish moveShape w (.autoInc .sp) dst s v = true →
    exec (.pop w dst) s = .next (finished moveShape w (.autoInc .sp) dst s 0 v FlagUpdate.none) ∧
      (srcDone w (.autoInc .sp) s.skipWord).regs.sp = clearBit0 (s.regs.sp + 2)) ∧
  (∀ s : State, isOdd s.regs.sp = false → (inRam s.cfg s.regs.sp || inFlash s.cfg s.regs.sp) = true →
    isOdd (Memory.readWord s.mem s.regs.sp) = false →
    exec .ret s = .next { s with regs := { s.regs with
      pc := Memory.readWord s.mem s.regs.sp, sp := s.regs.sp + 2 } })

/-- R254 to R256, R260, R261, R271 to R273: each of the eight SR instructions sets or clears its one bit of SR
and changes nothing else but PC (frame included); its expansion and its word. -/
def Obligations.FlagInstructionsComplete : Prop :=
  (∀ is : List Instr, is = [.clrc, .clrz, .clrn, .dint, .setc, .setz, .setn, .eint] →
    is.map Instr.expand =
      [ .bic .word (.const .one) (.reg .sr), .bic .word (.const .two) (.reg .sr),
        .bic .word (.const .four) (.reg .sr), .bic .word (.const .eight) (.reg .sr),
        .bis .word (.const .one) (.reg .sr), .bis .word (.const .two) (.reg .sr),
        .bis .word (.const .four) (.reg .sr), .bis .word (.const .eight) (.reg .sr) ] ∧
    is.map encode =
      [ [0xC312], [0xC322], [0xC222], [0xC232], [0xD312], [0xD322], [0xD222], [0xD232] ]) ∧
  ∀ s : State, s.regs.sr.toNat < 0x0200 →
    let writes := fun (k : Nat) (b : Bool) => (Host.Outcome.next { s with
      regs := { s.regs with pc := s.regs.pc + 2, sr := setBit s.regs.sr k b } } :
      Host.Outcome State Fault Refusal)
    exec .clrc s = writes 0 false ∧ exec .clrz s = writes 1 false ∧ exec .clrn s = writes 2 false ∧
    exec .dint s = writes 3 false ∧ exec .setc s = writes 0 true ∧ exec .setz s = writes 1 true ∧
    exec .setn s = writes 2 true ∧ exec .eint s = writes 3 true

/-! ## What instructions leave alone -/

/-- R25: an instruction of `L` words at `A` that loads PC with no value of its own leaves PC at `A + 2L`. -/
def Obligations.PcAdvances : Prop :=
  ∀ (i : Instr) (s t : State), i.loadsPc = false → exec i s = .next t →
    t.regs.pc = s.regs.pc + BitVec.ofNat 16 (2 * i.length)

/-- The frame of the Format I instructions, the emulated ones with them, in the forms that store nothing (a
register or bit-bucket destination, CMP, BIT, TST): every register but PC, SR, the destination and an
auto-incremented source register, every byte of memory, every peripheral register, the parameters, and every
bit of SR that is no flag; the flags too, where the instruction affects none (R36). -/
def Obligations.RegisterFormFrame : Prop :=
  ∀ (i : Instr) (sh : Shape) (w : Width) (src : Src) (dst : Dst) (s t : State),
    i.formI = some (sh, w, src, dst) → (sh.writesDst = false ∨ dst.isMem = false) →
    exec i s = .next t →
    (∀ r : Reg, r ≠ .pc → r ≠ .sr → (sh.writesDst = true → dst ≠ .reg r) → src ≠ .autoInc r →
      t.get r = s.get r) ∧
    (∀ x : Nat, Memory.read t.mem x = Memory.read s.mem x) ∧ t.periph = s.periph ∧ t.cfg = s.cfg ∧
    t.resetFlags = s.resetFlags ∧
    ((sh.writesDst = true → dst ≠ .reg .sr) →
      t.regs.sr &&& 0xFEF8 = s.regs.sr &&& 0xFEF8 ∧ (sh.setsFlags = false → t.regs.sr = s.regs.sr))

/-- The frame of the Format I instructions, the emulated ones with them, in the forms that store to memory:
every register but PC, SR and an auto-incremented source register; every byte but those the operand width
stores at the destination's address, computed as the meaning computes it; SR as in the register forms; and
every peripheral register, where that address is in RAM. -/
def Obligations.StoreFormFrame : Prop :=
  ∀ (i : Instr) (sh : Shape) (w : Width) (src : Src) (dst : Dst) (s t : State),
    i.formI = some (sh, w, src, dst) → sh.writesDst = true → dst.isMem = true →
    exec i s = .next t →
    (∀ r : Reg, r ≠ .pc → r ≠ .sr → src ≠ .autoInc r → t.get r = s.get r) ∧
    t.regs.sr &&& 0xFEF8 = s.regs.sr &&& 0xFEF8 ∧ (sh.setsFlags = false → t.regs.sr = s.regs.sr) ∧
    t.cfg = s.cfg ∧ t.resetFlags = s.resetFlags ∧
    (∀ (a : Word) (p : Word × State) (u : State), srcOperand w src s.skipWord = .next p →
      dstLocation dst p.2 = .next (.mem a, u) →
      (∀ x : Nat, x ∉ storedBytes w a → Memory.read t.mem x = Memory.read s.mem x) ∧
      (0x0200 ≤ (alignTo w a).toNat → t.periph = s.periph))

/-- The frame of RRC, RRA, SWPB and SXT, in register and memory forms. -/
def Obligations.RotateFrame : Prop :=
  ∀ (i : Instr) (flags : Bool) (w : Width) (o : Src) (s t : State),
    i.rotates = some (flags, w, o) → exec i s = .next t →
    (∀ r : Reg, r ≠ .pc → r ≠ .sr → o ≠ .reg r → o ≠ .autoInc r → t.get r = s.get r) ∧
    (o ≠ .reg .sr → t.regs.sr &&& 0xFEF8 = s.regs.sr &&& 0xFEF8 ∧
      (flags = false → t.regs.sr = s.regs.sr)) ∧ t.cfg = s.cfg ∧ t.resetFlags = s.resetFlags ∧
    (∀ (l : Loc) (u : State), opLocation w o s.skipWord = .next (l, u) →
      (∀ r, l = .reg r →
        (∀ x : Nat, Memory.read t.mem x = Memory.read s.mem x) ∧ t.periph = s.periph) ∧
      (∀ a, l = .mem a →
        (∀ x : Nat, x ∉ storedBytes w a → Memory.read t.mem x = Memory.read s.mem x) ∧
        (0x0200 ≤ (alignTo w a).toNat → t.periph = s.periph)))

/-- The frame of PUSH and CALL: every register but PC, SP and an auto-incremented one, SR whole, and every byte
but those stored at the new SP. -/
def Obligations.StackFrame : Prop :=
  ∀ (i : Instr) (w : Width) (o : Src) (s t : State),
    (i = .push w o ∨ i = .call o ∧ w = .word) → exec i s = .next t →
    (∀ r : Reg, r ≠ .pc → r ≠ .sp → o ≠ .autoInc r → t.get r = s.get r) ∧
    t.cfg = s.cfg ∧ t.resetFlags = s.resetFlags ∧
    (∀ x : Nat, x ∉ storedBytes w t.regs.sp → Memory.read t.mem x = Memory.read s.mem x) ∧
    (0x0200 ≤ t.regs.sp.toNat → t.periph = s.periph)

/-! ## Interrupts and reset -/

/-- R73, R72, R302: the vector of priority `p` is the word at `0FFC0h + 2*p`, so reset's is the word at 0FFFEh, and
those of the sources are at the addresses of the source's table. -/
def Obligations.VectorTable : Prop :=
  (∀ p : Nat, p ≤ 31 → (vectorAddr p).toNat = 0xFFC0 + 2 * p) ∧
  resetVector = 0xFFFE ∧
  irqSources.map (fun p => vectorAddr (priority p)) =
    [0xFFFC, 0xFFFA, 0xFFF8, 0xFFF6, 0xFFF4, 0xFFF2, 0xFFF0, 0xFFEE, 0xFFEC, 0xFFEA, 0xFFE6, 0xFFE4]

/-- R308 and R309: with an accepted request, the stack in RAM and a vector word that PC can hold, one step is the
entry, which pushes PC, then SR, clears SR (SCG0, if it was 1, becomes any value), loads PC from the vector, tells the
environment, withdraws the request of a vector that serves one flag, with the flag where the spec prints it (ADC10IFG,
CCIFG of block 0), and changes nothing else (frame included). (That the withdrawal is made inside the machine, and at
once, is the model's choice, log entry 10.) -/
def Obligations.InterruptEntry : Prop :=
  ∀ (s : State) (p : IrqSource) (a b : Word), s.inv = true → s.resetRequested = none →
    s.acceptable = some p → a = s.regs.sp - 2 → b = s.regs.sp - 4 → inRam s.cfg a = true →
    inRam s.cfg b = true → storable s.cfg .pc (Memory.readWord s.mem (vectorAddr (priority p))) = true →
    ∃ t : State, step s = .next t.nextBoundary ∧ enterInterrupt p s = .next t ∧
      t.regs.pc = clearBit0 (Memory.readWord s.mem (vectorAddr (priority p))) ∧ t.regs.sp = b ∧
      t.regs.sr &&& 0xFFBF = 0 ∧ (s.regs.sr.getLsbD 6 = false → t.regs.sr = 0) ∧
      Memory.readWord t.mem a = s.regs.pc ∧ Memory.readWord t.mem b = s.regs.sr ∧
      (∀ r : Reg, r ≠ .pc → r ≠ .sp → r ≠ .sr → t.get r = s.get r) ∧
      (∀ x : Nat, x ∉ storedBytes .word a → x ∉ storedBytes .word b →
        Memory.read t.mem x = Memory.read s.mem x) ∧
      t.cfg = s.cfg ∧ t.resetFlags = s.resetFlags ∧ t.resetRequested = none ∧ t.inputs = s.inputs ∧
      t.events = .accepted p :: s.events ∧
      t.periph = { s.periph with
        adc10ctl0 := if p = .adc10 then s.periph.adc10ctl0 &&& 0xFFFB else s.periph.adc10ctl0
        ta0cctl0 := if p = .timer0Ccr0 then s.periph.ta0cctl0 &&& 0xFFFE else s.periph.ta0cctl0
        ta1cctl0 := if p = .timer1Ccr0 then s.periph.ta1cctl0 &&& 0xFFFE else s.periph.ta1cctl0 } ∧
      (priority p ∈ [29, 27, 26, 25, 21] → t.pending = s.pending.filter (· != p)) ∧
      (priority p ∈ [30, 28, 24, 23, 22, 19, 18] → t.pending = s.pending)

/-- R310 and R187: RETI, with SP and the two stack words as entry left them, restores PC, SR and SP. -/
def Obligations.EntryThenReturn : Prop :=
  ∀ (s t u : State) (p : IrqSource), s.inv = true → inRam s.cfg (s.regs.sp - 2) = true →
    inRam s.cfg (s.regs.sp - 4) = true → enterInterrupt p s = .next t →
    u.cfg = t.cfg → u.regs.sp = t.regs.sp →
    Memory.readWord u.mem t.regs.sp = Memory.readWord t.mem t.regs.sp →
    Memory.readWord u.mem (t.regs.sp + 2) = Memory.readWord t.mem (t.regs.sp + 2) →
    exec .reti u = .next { u with
      regs := { u.regs with pc := s.regs.pc, sp := s.regs.sp, sr := s.regs.sr } }

/-- R312, R401: a reset loads PC from 0FFFEh, clears SR, leaves SP even, pushes nothing, drops what is pending,
gives every annotated peripheral register its value, records the cause, and keeps flash, and RAM unless the
cause is power-up. (That registers annotated "-(0)" take their value at every reset, not after power-up alone, is the
model's reading, log entry 28; ADC10AE0's place among them, log entry 35; that a reset leaves the other causes' flags
alone, log entry 7.) -/
def Obligations.ResetEffect : Prop :=
  ∀ (s : State) (c : ResetCause), s.cfg.wf = true → s.resetRequested = some c →
    storable s.cfg .pc (Memory.readWord s.mem 0xFFFE) = true →
    ∃ t : State, step s = .next t.nextBoundary ∧ performReset (some c) s = .next t ∧
      t.regs.pc = clearBit0 (Memory.readWord s.mem 0xFFFE) ∧
      t.regs.sr = 0 ∧ isOdd t.regs.sp = false ∧ t.pending = [] ∧ t.cfg = s.cfg ∧ t.inputs = s.inputs ∧
      (c ≠ .powerUp → t.mem = s.mem) ∧
      (∀ x : Nat, x < 0x0200 ∨ s.cfg.ramEnd.toNat < x → Memory.read t.mem x = Memory.read s.mem x) ∧
      t.periph.uca0ctl0 = 0 ∧ t.periph.ucb0ctl0 = 0 ∧ t.periph.uca0ctl1 = 1 ∧ t.periph.uca0mctl = 0 ∧
      t.periph.ta0iv = 0 ∧ t.periph.ta1iv = 0 ∧
      t.periph.ta0ctl = 0 ∧ t.periph.ta1ctl = 0 ∧ t.periph.ta0cctl0 = 0 ∧ t.periph.ta0cctl1 = 0 ∧
      t.periph.ta0cctl2 = 0 ∧ t.periph.ta1cctl0 = 0 ∧ t.periph.ta1cctl1 = 0 ∧ t.periph.ta1cctl2 = 0 ∧
      t.periph.adc10ctl0 = 0 ∧ t.periph.adc10ctl1 = 0 ∧ t.periph.adc10ae0 = 0 ∧
      t.resetFlags =
        { porifg := s.resetFlags.porifg || c == .powerUp
          rstifg := s.resetFlags.rstifg || c == .externalReset
          wdtifg := s.resetFlags.wdtifg || c == .watchdog
          keyv := s.resetFlags.keyv || c == .flashKeyViolation } ∧
      t.events = .reset (some c) :: s.events

/-! ## Invariants -/

/-- The state after reset meets the invariant; SR is 0, nothing is pending, and PC is the word at the reset
vector (R40, R401). (That memory lists nothing, and SP's value, are the model's choice, log entries 3 and 4.) -/
def Obligations.ResetMeetsInvariant : Prop :=
  State.reset.inv = true ∧ State.reset.regs.sr = 0 ∧ State.reset.pending = [] ∧
    State.reset.regs.pc = Memory.readWord State.reset.mem 0xFFFE ∧ State.reset.periph.uca0ctl1 = 1

/-- Every step keeps the invariant: memory stays in canonical form and lists RAM and flash bytes only, PC and SP
stay even, SR's reserved bits stay 0, each peripheral register holds nothing outside its held bits, the pending
requests stay a set, and the parameters stay those of a legal map (R26, R30, R33, R61). (The canonical form and the
held bits are the model's choice, log entries 3 and 15.) -/
def Obligations.StepKeepsInvariant : Prop :=
  ∀ s t : State, s.inv = true → step s = .next t → t.inv = true

/-- No step changes a byte of flash, the vector table included, or the parameters (R65, R82, R78): whatever
instruction, interrupt or reset it is. -/
def Obligations.StepKeepsFlash : Prop :=
  ∀ s t : State, s.cfg.wf = true → step s = .next t →
    t.cfg = s.cfg ∧
      ∀ a : Word, inFlash s.cfg a = true → Memory.read t.mem a.toNat = Memory.read s.mem a.toNat

/-! ## Timing -/

/-- R406, R407 and R408: the cycle counts of the tables, row by row. Every jump is one word and takes two cycles; a
Format I instruction, emulated ones included, takes those of its source's and destination's modes, whatever its
opcode and width; so do RRC, RRA, SWPB and SXT, PUSH, and CALL by their columns. (That a generated constant counts
as a register in Format I is the spec's general knowledge, log entry 26.) -/
def Obligations.CycleTables : Prop :=
  let memory := fun o : Src =>
    (∃ r x, o = .indexed r x) ∨ (∃ x, o = .symbolic x) ∨ (∃ a, o = .absolute a)
  (∀ (off : BitVec 10) (is : List Instr),
    is = [.jne off, .jeq off, .jnc off, .jc off, .jn off, .jge off, .jl off, .jmp off] →
    is.map Instr.length = List.replicate 8 1 ∧ is.map cycles = List.replicate 8 (some 2)) ∧
  (∀ (i : Instr) (sh : Shape) (w : Width) (o : Src) (d : Dst), i.formI = some (sh, w, o, d) →
    let takes := fun toMemory toPc toReg : Nat =>
      cycles i = some (if d.isMem then toMemory else if d = .reg .pc then toPc else toReg)
    ((∃ r, o = .reg r) ∨ (∃ c, o = .const c) → takes 4 2 1) ∧
    ((∃ r, o = .indirect r) → takes 5 2 2) ∧
    ((∃ r, o = .autoInc r) → takes 5 3 2) ∧
    ((∃ n, o = .imm n) → takes 5 3 2) ∧
    (memory o → takes 6 3 3)) ∧
  (∀ (i : Instr) (flags : Bool) (w : Width) (o : Src), i.rotates = some (flags, w, o) →
    ((∃ r, o = .reg r) → cycles i = some 1) ∧
    ((∃ r, o = .indirect r ∨ o = .autoInc r) → cycles i = some 3) ∧
    (memory o → cycles i = some 4)) ∧
  (∀ (w : Width) (o : Src),
    ((∃ r, o = .reg r) → cycles (.push w o) = some 3 ∧ cycles (.call o) = some 4) ∧
    ((∃ r, o = .indirect r) → cycles (.push w o) = some 4 ∧ cycles (.call o) = some 4) ∧
    ((∃ r, o = .autoInc r) → cycles (.push w o) = some 5 ∧ cycles (.call o) = some 5) ∧
    ((∃ n, o = .imm n) → cycles (.push w o) = some 4 ∧ cycles (.call o) = some 5) ∧
    (memory o → cycles (.push w o) = some 5 ∧ cycles (.call o) = some 5))

end
end

