-- ==== Sys2Proof/Laws/State.lean ====
section
/-! SUPPORT. One lemma for each field of the state under each update, so that no proof unfolds a record
update. -/

namespace Sys2Proof.Machine

/-! ## The register file -/

@[simp] theorem Regs.get_set_self (x : Regs) (r : Reg) (v : Word) (h : r ≠ .cg) :
    (x.set r v).get r = v := by
  cases r <;> first | rfl | exact absurd rfl h

@[simp] theorem Regs.get_set_of_ne (x : Regs) (r q : Reg) (v : Word) (h : q ≠ r) :
    (x.set r v).get q = x.get q := by
  cases r <;> cases q <;> first | rfl | exact absurd rfl h

theorem Regs.get_set (x : Regs) (r q : Reg) (v : Word) :
    (x.set r v).get q = if q = r ∧ r ≠ .cg then v else x.get q := by
  cases r <;> cases q <;> rfl

@[simp] theorem Regs.set_cg (x : Regs) (v : Word) : x.set .cg v = x := rfl
@[simp] theorem Regs.get_pc (x : Regs) : x.get .pc = x.pc := rfl
@[simp] theorem Regs.get_sp (x : Regs) : x.get .sp = x.sp := rfl
@[simp] theorem Regs.get_sr (x : Regs) : x.get .sr = x.sr := rfl
@[simp] theorem Regs.get_cg (x : Regs) : x.get .cg = 0 := rfl

/-- Two register files that read alike are the same. -/
theorem Regs.ext_get {x y : Regs} (h : ∀ r, x.get r = y.get r) : x = y := by
  obtain ⟨⟩ := x
  obtain ⟨⟩ := y
  have a := h .pc; have b := h .sp; have c := h .sr; have d4 := h .r4; have d5 := h .r5
  have d6 := h .r6; have d7 := h .r7; have d8 := h .r8; have d9 := h .r9; have d10 := h .r10
  have d11 := h .r11; have d12 := h .r12; have d13 := h .r13; have d14 := h .r14; have d15 := h .r15
  simp only [Regs.get] at *
  simp [*]

@[simp] theorem State.regs_get (s : State) (r : Reg) : s.regs.get r = s.get r := rfl
@[simp] theorem State.get_pc (s : State) : s.get .pc = s.regs.pc := rfl
@[simp] theorem State.get_sp (s : State) : s.get .sp = s.regs.sp := rfl
@[simp] theorem State.get_sr (s : State) : s.get .sr = s.regs.sr := rfl
@[simp] theorem State.get_cg (s : State) : s.get .cg = 0 := rfl

/-! ## `put` -/

@[simp] theorem State.get_put_self (s : State) (r : Reg) (v : Word) (h : r ≠ .cg) :
    (s.put r v).get r = v := Regs.get_set_self _ _ _ h

@[simp] theorem State.get_put_of_ne (s : State) (r q : Reg) (v : Word) (h : q ≠ r) :
    (s.put r v).get q = s.get q := Regs.get_set_of_ne _ _ _ _ h

theorem State.get_put (s : State) (r q : Reg) (v : Word) :
    (s.put r v).get q = if q = r ∧ r ≠ .cg then v else s.get q := Regs.get_set _ _ _ _

@[simp] theorem State.put_mem (s : State) (r : Reg) (v : Word) : (s.put r v).mem = s.mem := rfl
@[simp] theorem State.put_periph (s : State) (r : Reg) (v : Word) : (s.put r v).periph = s.periph := rfl
@[simp] theorem State.put_pending (s : State) (r : Reg) (v : Word) : (s.put r v).pending = s.pending := rfl
@[simp] theorem State.put_resetRequested (s : State) (r : Reg) (v : Word) : (s.put r v).resetRequested = s.resetRequested := rfl
@[simp] theorem State.put_resetFlags (s : State) (r : Reg) (v : Word) : (s.put r v).resetFlags = s.resetFlags := rfl
@[simp] theorem State.put_inputs (s : State) (r : Reg) (v : Word) : (s.put r v).inputs = s.inputs := rfl
@[simp] theorem State.put_events (s : State) (r : Reg) (v : Word) : (s.put r v).events = s.events := rfl
@[simp] theorem State.put_draws (s : State) (r : Reg) (v : Word) : (s.put r v).draws = s.draws := rfl
@[simp] theorem State.put_cfg (s : State) (r : Reg) (v : Word) : (s.put r v).cfg = s.cfg := rfl
@[simp] theorem State.put_pc_pc (s : State) (v : Word) : (s.put .pc v).regs.pc = v := rfl
@[simp] theorem State.put_pc_sp (s : State) (v : Word) : (s.put .pc v).regs.sp = s.regs.sp := rfl
@[simp] theorem State.put_pc_sr (s : State) (v : Word) : (s.put .pc v).regs.sr = s.regs.sr := rfl
@[simp] theorem State.put_sp_pc (s : State) (v : Word) : (s.put .sp v).regs.pc = s.regs.pc := rfl
@[simp] theorem State.put_sp_sp (s : State) (v : Word) : (s.put .sp v).regs.sp = v := rfl
@[simp] theorem State.put_sp_sr (s : State) (v : Word) : (s.put .sp v).regs.sr = s.regs.sr := rfl
@[simp] theorem State.put_sr_pc (s : State) (v : Word) : (s.put .sr v).regs.pc = s.regs.pc := rfl
@[simp] theorem State.put_sr_sp (s : State) (v : Word) : (s.put .sr v).regs.sp = s.regs.sp := rfl
@[simp] theorem State.put_sr_sr (s : State) (v : Word) : (s.put .sr v).regs.sr = v := rfl
@[simp] theorem State.put_cg (s : State) (v : Word) : s.put .cg v = s := rfl
@[simp] theorem State.put_pc_of_ne (s : State) (r : Reg) (v : Word) (h : r ≠ .pc) :
    (s.put r v).regs.pc = s.regs.pc := by
  cases r <;> first | rfl | exact absurd rfl h
@[simp] theorem State.put_sp_of_ne (s : State) (r : Reg) (v : Word) (h : r ≠ .sp) :
    (s.put r v).regs.sp = s.regs.sp := by
  cases r <;> first | rfl | exact absurd rfl h
@[simp] theorem State.put_sr_of_ne (s : State) (r : Reg) (v : Word) (h : r ≠ .sr) :
    (s.put r v).regs.sr = s.regs.sr := by
  cases r <;> first | rfl | exact absurd rfl h

/-! ## `skipWord`, `setFlags`, `takeDraws` -/

@[simp] theorem State.skipWord_mem (s : State) : s.skipWord.mem = s.mem := rfl
@[simp] theorem State.skipWord_periph (s : State) : s.skipWord.periph = s.periph := rfl
@[simp] theorem State.skipWord_pending (s : State) : s.skipWord.pending = s.pending := rfl
@[simp] theorem State.skipWord_resetRequested (s : State) : s.skipWord.resetRequested = s.resetRequested := rfl
@[simp] theorem State.skipWord_resetFlags (s : State) : s.skipWord.resetFlags = s.resetFlags := rfl
@[simp] theorem State.skipWord_inputs (s : State) : s.skipWord.inputs = s.inputs := rfl
@[simp] theorem State.skipWord_events (s : State) : s.skipWord.events = s.events := rfl
@[simp] theorem State.skipWord_draws (s : State) : s.skipWord.draws = s.draws := rfl
@[simp] theorem State.skipWord_cfg (s : State) : s.skipWord.cfg = s.cfg := rfl
@[simp] theorem State.skipWord_pc (s : State) : s.skipWord.regs.pc = s.regs.pc + 2 := rfl
@[simp] theorem State.skipWord_sp (s : State) : s.skipWord.regs.sp = s.regs.sp := rfl
@[simp] theorem State.skipWord_sr (s : State) : s.skipWord.regs.sr = s.regs.sr := rfl
@[simp] theorem State.get_skipWord (s : State) (r : Reg) (h : r ≠ .pc) : s.skipWord.get r = s.get r :=
  State.get_put_of_ne _ _ _ _ h

@[simp] theorem State.setFlags_mem (s : State) (u : FlagUpdate) : (s.setFlags u).mem = s.mem := rfl
@[simp] theorem State.setFlags_periph (s : State) (u : FlagUpdate) : (s.setFlags u).periph = s.periph := rfl
@[simp] theorem State.setFlags_pending (s : State) (u : FlagUpdate) : (s.setFlags u).pending = s.pending := rfl
@[simp] theorem State.setFlags_resetRequested (s : State) (u : FlagUpdate) : (s.setFlags u).resetRequested = s.resetRequested := rfl
@[simp] theorem State.setFlags_resetFlags (s : State) (u : FlagUpdate) : (s.setFlags u).resetFlags = s.resetFlags := rfl
@[simp] theorem State.setFlags_inputs (s : State) (u : FlagUpdate) : (s.setFlags u).inputs = s.inputs := rfl
@[simp] theorem State.setFlags_events (s : State) (u : FlagUpdate) : (s.setFlags u).events = s.events := rfl
@[simp] theorem State.setFlags_draws (s : State) (u : FlagUpdate) : (s.setFlags u).draws = s.draws := rfl
@[simp] theorem State.setFlags_cfg (s : State) (u : FlagUpdate) : (s.setFlags u).cfg = s.cfg := rfl
@[simp] theorem State.setFlags_pc (s : State) (u : FlagUpdate) : (s.setFlags u).regs.pc = s.regs.pc := rfl
@[simp] theorem State.setFlags_sp (s : State) (u : FlagUpdate) : (s.setFlags u).regs.sp = s.regs.sp := rfl
@[simp] theorem State.setFlags_sr (s : State) (u : FlagUpdate) :
    (s.setFlags u).regs.sr = u.apply s.regs.sr := rfl
@[simp] theorem State.get_setFlags (s : State) (u : FlagUpdate) (r : Reg) (h : r ≠ .sr) :
    (s.setFlags u).get r = s.get r := State.get_put_of_ne _ _ _ _ h
@[simp] theorem State.setFlags_none (s : State) : s.setFlags FlagUpdate.none = s := rfl

@[simp] theorem State.takeDraws_mem (s : State) (n : Nat) : (s.takeDraws n).mem = s.mem := rfl
@[simp] theorem State.takeDraws_periph (s : State) (n : Nat) : (s.takeDraws n).periph = s.periph := rfl
@[simp] theorem State.takeDraws_pending (s : State) (n : Nat) : (s.takeDraws n).pending = s.pending := rfl
@[simp] theorem State.takeDraws_resetRequested (s : State) (n : Nat) : (s.takeDraws n).resetRequested = s.resetRequested := rfl
@[simp] theorem State.takeDraws_resetFlags (s : State) (n : Nat) : (s.takeDraws n).resetFlags = s.resetFlags := rfl
@[simp] theorem State.takeDraws_inputs (s : State) (n : Nat) : (s.takeDraws n).inputs = s.inputs := rfl
@[simp] theorem State.takeDraws_events (s : State) (n : Nat) : (s.takeDraws n).events = s.events := rfl
@[simp] theorem State.takeDraws_cfg (s : State) (n : Nat) : (s.takeDraws n).cfg = s.cfg := rfl
@[simp] theorem State.takeDraws_regs (s : State) (n : Nat) : (s.takeDraws n).regs = s.regs := rfl
@[simp] theorem State.takeDraws_draws (s : State) (n : Nat) : (s.takeDraws n).draws = s.draws + n := rfl
@[simp] theorem State.get_takeDraws (s : State) (n : Nat) (r : Reg) : (s.takeDraws n).get r = s.get r := rfl
@[simp] theorem State.takeDraws_zero (s : State) : s.takeDraws 0 = s := rfl

/-! ## Peripheral accesses -/

@[simp] theorem devRead_regs (w : Width) (a : Word) (s : State) : (devRead w a s).2.regs = s.regs := by
  unfold devRead; dsimp only; split <;> rfl
@[simp] theorem get_devRead (w : Width) (a : Word) (s : State) (r : Reg) :
    (devRead w a s).2.get r = s.get r := by simp only [State.get, devRead_regs]
@[simp] theorem devRead_mem (w : Width) (a : Word) (s : State) : (devRead w a s).2.mem = s.mem := by
  unfold devRead; dsimp only; split <;> rfl
@[simp] theorem devRead_periph (w : Width) (a : Word) (s : State) : (devRead w a s).2.periph = s.periph := by
  unfold devRead; dsimp only; split <;> rfl
@[simp] theorem devRead_resetRequested (w : Width) (a : Word) (s : State) : (devRead w a s).2.resetRequested = s.resetRequested := by
  unfold devRead; dsimp only; split <;> rfl
@[simp] theorem devRead_resetFlags (w : Width) (a : Word) (s : State) : (devRead w a s).2.resetFlags = s.resetFlags := by
  unfold devRead; dsimp only; split <;> rfl
@[simp] theorem devRead_inputs (w : Width) (a : Word) (s : State) : (devRead w a s).2.inputs = s.inputs := by
  unfold devRead; dsimp only; split <;> rfl
@[simp] theorem devRead_cfg (w : Width) (a : Word) (s : State) : (devRead w a s).2.cfg = s.cfg := by
  unfold devRead; dsimp only; split <;> rfl
@[simp] theorem devRead_draws (w : Width) (a : Word) (s : State) :
    (devRead w a s).2.draws = s.draws + 1 := by
  unfold devRead; dsimp only; split <;> rfl
@[simp] theorem devRead_events (w : Width) (a : Word) (s : State) :
    (devRead w a s).2.events = .read a w :: s.events := by
  unfold devRead; dsimp only; split <;> rfl
@[simp] theorem devWrite_regs (w : Width) (a v : Word) (s : State) : (devWrite w a v s).regs = s.regs := by
  unfold devWrite; dsimp only; split <;> rfl
@[simp] theorem get_devWrite (w : Width) (a v : Word) (s : State) (r : Reg) :
    (devWrite w a v s).get r = s.get r := by simp only [State.get, devWrite_regs]
@[simp] theorem devWrite_mem (w : Width) (a v : Word) (s : State) : (devWrite w a v s).mem = s.mem := by
  unfold devWrite; dsimp only; split <;> rfl
@[simp] theorem devWrite_resetRequested (w : Width) (a v : Word) (s : State) : (devWrite w a v s).resetRequested = s.resetRequested := by
  unfold devWrite; dsimp only; split <;> rfl
@[simp] theorem devWrite_resetFlags (w : Width) (a v : Word) (s : State) : (devWrite w a v s).resetFlags = s.resetFlags := by
  unfold devWrite; dsimp only; split <;> rfl
@[simp] theorem devWrite_inputs (w : Width) (a v : Word) (s : State) : (devWrite w a v s).inputs = s.inputs := by
  unfold devWrite; dsimp only; split <;> rfl
@[simp] theorem devWrite_cfg (w : Width) (a v : Word) (s : State) : (devWrite w a v s).cfg = s.cfg := by
  unfold devWrite; dsimp only; split <;> rfl
@[simp] theorem devWrite_draws (w : Width) (a v : Word) (s : State) :
    (devWrite w a v s).draws = s.draws + 1 := by
  unfold devWrite; dsimp only; split <;> rfl
@[simp] theorem devWrite_events (w : Width) (a v : Word) (s : State) :
    (devWrite w a v s).events = .write a w (truncTo w v) :: s.events := by
  unfold devWrite; dsimp only; split <;> rfl

/-! ## `afterRead`, `afterWrite` -/

@[simp] theorem afterRead_regs (w : Width) (a : Word) (s : State) : (afterRead w a s).regs = s.regs := by
  unfold afterRead; split <;> simp
@[simp] theorem afterRead_mem (w : Width) (a : Word) (s : State) : (afterRead w a s).mem = s.mem := by
  unfold afterRead; split <;> simp
@[simp] theorem afterRead_periph (w : Width) (a : Word) (s : State) : (afterRead w a s).periph = s.periph := by
  unfold afterRead; split <;> simp
@[simp] theorem afterRead_resetRequested (w : Width) (a : Word) (s : State) : (afterRead w a s).resetRequested = s.resetRequested := by
  unfold afterRead; split <;> simp
@[simp] theorem afterRead_resetFlags (w : Width) (a : Word) (s : State) : (afterRead w a s).resetFlags = s.resetFlags := by
  unfold afterRead; split <;> simp
@[simp] theorem afterRead_inputs (w : Width) (a : Word) (s : State) : (afterRead w a s).inputs = s.inputs := by
  unfold afterRead; split <;> simp
@[simp] theorem afterRead_cfg (w : Width) (a : Word) (s : State) : (afterRead w a s).cfg = s.cfg := by
  unfold afterRead; split <;> simp
@[simp] theorem get_afterRead (w : Width) (a : Word) (s : State) (r : Reg) :
    (afterRead w a s).get r = s.get r := by simp only [State.get, afterRead_regs]
@[simp] theorem afterWrite_regs (w : Width) (a v : Word) (s : State) :
    (afterWrite w a v s).regs = s.regs := by
  unfold afterWrite; split <;> simp
@[simp] theorem afterWrite_resetRequested (w : Width) (a v : Word) (s : State) :
    (afterWrite w a v s).resetRequested = s.resetRequested := by
  unfold afterWrite; split <;> simp
@[simp] theorem afterWrite_resetFlags (w : Width) (a v : Word) (s : State) :
    (afterWrite w a v s).resetFlags = s.resetFlags := by
  unfold afterWrite; split <;> simp
@[simp] theorem afterWrite_inputs (w : Width) (a v : Word) (s : State) :
    (afterWrite w a v s).inputs = s.inputs := by
  unfold afterWrite; split <;> simp
@[simp] theorem afterWrite_cfg (w : Width) (a v : Word) (s : State) :
    (afterWrite w a v s).cfg = s.cfg := by
  unfold afterWrite; split <;> simp
@[simp] theorem get_afterWrite (w : Width) (a v : Word) (s : State) (r : Reg) :
    (afterWrite w a v s).get r = s.get r := by simp only [State.get, afterWrite_regs]

/-! ## The peripheral hardware's moves -/

@[simp] theorem State.deviceMove_regs (s : State) (m : DeviceMove) : (s.deviceMove m).regs = s.regs := rfl
@[simp] theorem State.deviceMove_mem (s : State) (m : DeviceMove) : (s.deviceMove m).mem = s.mem := rfl
@[simp] theorem State.deviceMove_resetRequested (s : State) (m : DeviceMove) : (s.deviceMove m).resetRequested = s.resetRequested := rfl
@[simp] theorem State.deviceMove_resetFlags (s : State) (m : DeviceMove) : (s.deviceMove m).resetFlags = s.resetFlags := rfl
@[simp] theorem State.deviceMove_inputs (s : State) (m : DeviceMove) : (s.deviceMove m).inputs = s.inputs := rfl
@[simp] theorem State.deviceMove_events (s : State) (m : DeviceMove) : (s.deviceMove m).events = s.events := rfl
@[simp] theorem State.deviceMove_draws (s : State) (m : DeviceMove) : (s.deviceMove m).draws = s.draws := rfl
@[simp] theorem State.deviceMove_cfg (s : State) (m : DeviceMove) : (s.deviceMove m).cfg = s.cfg := rfl
theorem State.deviceMove_periph (s : State) (m : DeviceMove) :
    (s.deviceMove m).periph = s.periph.set m.reg (s.periph.deviceValue m.reg m.value) := rfl
theorem State.deviceMove_pending (s : State) (m : DeviceMove) :
    (s.deviceMove m).pending = flagRequests m.reg (s.deviceMove m).periph s.pending := rfl
@[simp] theorem State.deviceMoves_regs (s : State) (ms : List DeviceMove) : (s.deviceMoves ms).regs = s.regs := by
  induction ms generalizing s with
  | nil => rfl
  | cons m t ih => exact (ih _).trans rfl
@[simp] theorem State.deviceMoves_mem (s : State) (ms : List DeviceMove) : (s.deviceMoves ms).mem = s.mem := by
  induction ms generalizing s with
  | nil => rfl
  | cons m t ih => exact (ih _).trans rfl
@[simp] theorem State.deviceMoves_resetRequested (s : State) (ms : List DeviceMove) : (s.deviceMoves ms).resetRequested = s.resetRequested := by
  induction ms generalizing s with
  | nil => rfl
  | cons m t ih => exact (ih _).trans rfl
@[simp] theorem State.deviceMoves_resetFlags (s : State) (ms : List DeviceMove) : (s.deviceMoves ms).resetFlags = s.resetFlags := by
  induction ms generalizing s with
  | nil => rfl
  | cons m t ih => exact (ih _).trans rfl
@[simp] theorem State.deviceMoves_inputs (s : State) (ms : List DeviceMove) : (s.deviceMoves ms).inputs = s.inputs := by
  induction ms generalizing s with
  | nil => rfl
  | cons m t ih => exact (ih _).trans rfl
@[simp] theorem State.deviceMoves_events (s : State) (ms : List DeviceMove) : (s.deviceMoves ms).events = s.events := by
  induction ms generalizing s with
  | nil => rfl
  | cons m t ih => exact (ih _).trans rfl
@[simp] theorem State.deviceMoves_draws (s : State) (ms : List DeviceMove) : (s.deviceMoves ms).draws = s.draws := by
  induction ms generalizing s with
  | nil => rfl
  | cons m t ih => exact (ih _).trans rfl
@[simp] theorem State.deviceMoves_cfg (s : State) (ms : List DeviceMove) : (s.deviceMoves ms).cfg = s.cfg := by
  induction ms generalizing s with
  | nil => rfl
  | cons m t ih => exact (ih _).trans rfl

/-! ## `nextBoundary` -/

@[simp] theorem State.nextBoundary_regs (s : State) : s.nextBoundary.regs = s.regs := by
  unfold State.nextBoundary; split <;> simp
@[simp] theorem State.nextBoundary_mem (s : State) : s.nextBoundary.mem = s.mem := by
  unfold State.nextBoundary; split <;> simp
@[simp] theorem State.nextBoundary_resetFlags (s : State) : s.nextBoundary.resetFlags = s.resetFlags := by
  unfold State.nextBoundary; split <;> simp
@[simp] theorem State.nextBoundary_events (s : State) : s.nextBoundary.events = s.events := by
  unfold State.nextBoundary; split <;> simp
@[simp] theorem State.nextBoundary_draws (s : State) : s.nextBoundary.draws = s.draws := by
  unfold State.nextBoundary; split <;> simp
@[simp] theorem State.nextBoundary_cfg (s : State) : s.nextBoundary.cfg = s.cfg := by
  unfold State.nextBoundary; split <;> simp
@[simp] theorem State.get_nextBoundary (s : State) (r : Reg) : s.nextBoundary.get r = s.get r := by
  simp only [State.get, State.nextBoundary_regs]

/-- With no input left the environment does nothing (log entry 13). -/
theorem State.nextBoundary_of_no_input {s : State} (h : s.inputs = []) :
    s.nextBoundary = { s with resetRequested := none } := by
  unfold State.nextBoundary; rw [h]

/-! ## The peripheral registers -/

/-- A register with a held bit keeps what it is set to. -/
theorem Periph.get_set_self (p : Periph) (r : PeriphReg) (v : Word) (h : heldMask r ≠ 0) :
    (p.set r v).get r = v := by
  cases r <;> first | rfl | exact absurd (by decide) h

theorem Periph.get_set_of_ne (p : Periph) (r q : PeriphReg) (v : Word) (h : q ≠ r) :
    (p.set r v).get q = p.get q := by
  cases r <;> cases q <;> first | rfl | exact absurd rfl h

end Sys2Proof.Machine
end

