-- ==== Sys2Proof/Laws/Words.lean ====
section
/-! SUPPORT. Words: clearing bit 0, evenness, setting one bit, and the masks of SR. -/

namespace Sys2Proof

theorem clearBit0_toNat (v : Word) : (clearBit0 v).toNat = 2 * (v.toNat / 2) := by
  have hv := v.isLt
  unfold clearBit0
  rw [BitVec.toNat_and]
  apply Nat.eq_of_testBit_eq
  intro i
  rw [Nat.testBit_and]
  by_cases h : i < 16
  · have h1 : (65534#16).toNat.testBit i = !decide (i = 0) := by interval_cases i <;> rfl
    rw [h1]
    cases i with
    | zero => simp
    | succ k => simp [Nat.testBit_succ]
  · have h0 : v.toNat < 2 ^ i := Nat.lt_of_lt_of_le hv (Nat.pow_le_pow_right (by omega) (by omega))
    have h1 : 2 * (v.toNat / 2) < 2 ^ i := Nat.lt_of_le_of_lt (Nat.mul_div_le _ 2) h0
    rw [Nat.testBit_lt_two_pow h0, Nat.testBit_lt_two_pow h1, Bool.false_and]

theorem isOdd_eq (v : Word) : isOdd v = decide (v.toNat % 2 = 1) := by
  unfold isOdd
  rw [BitVec.getLsbD, Nat.testBit_zero]

theorem isOdd_iff {v : Word} : isOdd v = true ↔ v.toNat % 2 = 1 := by simp [isOdd_eq]

theorem not_isOdd_iff {v : Word} : isOdd v = false ↔ v.toNat % 2 = 0 := by
  rw [isOdd_eq, decide_eq_false_iff_not]; omega

theorem clearBit0_of_even {v : Word} (h : isOdd v = false) : clearBit0 v = v := by
  rw [not_isOdd_iff] at h
  apply BitVec.eq_of_toNat_eq
  rw [clearBit0_toNat]
  omega

@[simp] theorem isOdd_clearBit0 (v : Word) : isOdd (clearBit0 v) = false := by
  rw [not_isOdd_iff, clearBit0_toNat]; omega

@[simp] theorem clearBit0_clearBit0 (v : Word) : clearBit0 (clearBit0 v) = clearBit0 v :=
  clearBit0_of_even (isOdd_clearBit0 v)

@[simp] theorem isOdd_add_two (v : Word) : isOdd (v + 2#16) = isOdd v := by
  rw [isOdd_eq, isOdd_eq, BitVec.toNat_add]
  simp

@[simp] theorem isOdd_sub_two (v : Word) : isOdd (v - 2#16) = isOdd v := by
  rw [isOdd_eq, isOdd_eq, BitVec.toNat_sub]
  simp
  omega

/-- An even word and the next address: no wrap between them. -/
theorem toNat_succ_of_even {a : Word} (h : isOdd a = false) : (a + 1).toNat = a.toNat + 1 := by
  rw [not_isOdd_iff] at h
  have := a.isLt
  simp only [BitVec.toNat_add, BitVec.reduceToNat]
  omega

theorem toNat_succ_clearBit0 (a : Word) : (clearBit0 a + 1).toNat = (clearBit0 a).toNat + 1 :=
  toNat_succ_of_even (isOdd_clearBit0 a)

/-! ## One bit -/

theorem getLsbD_setBit (v : Word) (i j : Nat) (b : Bool) (hi : i < 16) :
    (setBit v i b).getLsbD j = if j = i then b else v.getLsbD j := by
  unfold setBit
  split
  · subst_vars
    rw [BitVec.getLsbD_or, BitVec.getLsbD_twoPow]
    split
    · subst_vars; simp [hi]
    · simp; omega
  · rename_i h
    have hb : b = false := by simpa using h
    subst hb
    rw [BitVec.getLsbD_and, BitVec.getLsbD_not, BitVec.getLsbD_twoPow]
    split
    · subst_vars; simp [hi]
    · by_cases hj : j < 16
      · simp [hj]; omega
      · simp [BitVec.getLsbD_of_ge v j (by omega)]

@[simp] theorem getLsbD_setBit_self (v : Word) (i : Nat) (b : Bool) (hi : i < 16) :
    (setBit v i b).getLsbD i = b := by rw [getLsbD_setBit _ _ _ _ hi, if_pos rfl]

theorem setBit_and_of_bit {v m : Word} {i : Nat} {b : Bool} (hi : i < 16) (hm : m.getLsbD i = false) :
    setBit v i b &&& m = v &&& m := by
  apply BitVec.eq_of_getLsbD_eq
  intro j _
  rw [BitVec.getLsbD_and, BitVec.getLsbD_and, getLsbD_setBit _ _ _ _ hi]
  split
  · subst_vars; simp [hm]
  · rfl

/-! ## Bounds -/

theorem getLsbD_mixBits (m a b : Word) (i : Nat) :
    (mixBits m a b).getLsbD i = if m.getLsbD i then b.getLsbD i else a.getLsbD i := by
  unfold mixBits
  split
  · rename_i h; simp [h]
  · by_cases hi : i < 16
    · cases hm : m.getLsbD i <;>
        simp only [BitVec.getLsbD_or, BitVec.getLsbD_and, BitVec.getLsbD_not, hm, hi] <;> simp
    · simp [BitVec.getLsbD_of_ge _ _ (Nat.le_of_not_lt hi)]

theorem zextByte_toNat (v : Word) : (zextByte v).toNat = v.toNat % 256 := by
  unfold zextByte
  rw [BitVec.toNat_and]
  exact Nat.and_two_pow_sub_one_eq_mod v.toNat 8

theorem lo_toNat (v : Word) : (Word.lo v).toNat = v.toNat % 256 := by
  simp [Word.lo, BitVec.extractLsb'_toNat]

theorem hi_toNat (v : Word) : (Word.hi v).toNat = v.toNat / 256 := by
  have := v.isLt
  simp only [Word.hi, BitVec.extractLsb'_toNat, Nat.shiftRight_eq_div_pow]
  omega

theorem wordOfBytes_toNat (l h : Byte) : (wordOfBytes l h).toNat = l.toNat + 256 * h.toNat := by
  have := l.isLt
  unfold wordOfBytes
  rw [BitVec.toNat_append, Nat.shiftLeft_eq, Nat.mul_comm, ← Nat.two_pow_add_eq_or_of_lt l.isLt]
  omega

end Sys2Proof

namespace Sys2Proof.Machine

theorem truncTo_toNat (w : Width) (v : Word) : (truncTo w v).toNat = v.toNat % 2 ^ nBits w := by
  have := v.isLt
  cases w
  · simp only [truncTo, nBits]; omega
  · simp only [truncTo, nBits]; exact zextByte_toNat v

theorem truncTo_lt (w : Width) (v : Word) : (truncTo w v).toNat < 2 ^ nBits w := by
  rw [truncTo_toNat]; exact Nat.mod_lt _ (by cases w <;> decide)

theorem truncTo_of_lt {w : Width} {v : Word} (h : v.toNat < 2 ^ nBits w) : truncTo w v = v := by
  apply BitVec.eq_of_toNat_eq
  rw [truncTo_toNat, Nat.mod_eq_of_lt h]

@[simp] theorem truncTo_word (v : Word) : truncTo .word v = v := rfl

@[simp] theorem truncTo_truncTo (w : Width) (v : Word) : truncTo w (truncTo w v) = truncTo w v :=
  truncTo_of_lt (truncTo_lt w v)

/-- SR's reserved bits are clear exactly when it is below 0200h. -/
theorem srReserved_iff (v : Word) : v &&& srReservedMask = 0 ↔ v.toNat < 0x0200 := by
  have hv := v.isLt
  have key : (v &&& srReservedMask).toNat = 512 * (v.toNat / 512) := by
    unfold srReservedMask
    rw [BitVec.toNat_and]
    apply Nat.eq_of_testBit_eq
    intro i
    rw [Nat.testBit_and]
    have e : 512 * (v.toNat / 512) = v.toNat / 2 ^ 9 * 2 ^ 9 := by omega
    rw [e, Nat.testBit_mul_two_pow, Nat.testBit_div_two_pow]
    by_cases h : i < 16
    · have h1 : (65024 : Word).toNat.testBit i = decide (9 ≤ i) := by interval_cases i <;> rfl
      rw [h1]
      by_cases h9 : 9 ≤ i
      · simp [h9, Nat.sub_add_cancel h9]
      · simp [h9]
    · have h0 : v.toNat < 2 ^ i :=
        Nat.lt_of_lt_of_le hv (Nat.pow_le_pow_right (by omega) (by omega))
      rw [Nat.testBit_lt_two_pow h0, Nat.sub_add_cancel (by omega), Nat.testBit_lt_two_pow h0]
      simp
  constructor
  · intro h
    rw [h] at key
    simp at key
    omega
  · intro h
    apply BitVec.eq_of_toNat_eq
    rw [key]
    simp
    omega

end Sys2Proof.Machine
end

