-- ==== Sys2Proof/Laws/Arithmetic.lean ====
section
/-! SUPPORT. The computations of Flags.lean against the arithmetic the statements use: sums and
differences with their carry and signed overflow, the logical results, the rotations and the decimal sum. -/

namespace Sys2Proof.Machine

theorem nBits_pos (w : Width) : 0 < nBits w := by cases w <;> decide

/-- The top bit of an n-bit value. -/
theorem msb_eq {w : Width} {v : Word} (h : v.toNat < 2 ^ nBits w) :
    msb w v = decide (2 ^ (nBits w - 1) ≤ v.toNat) := by
  unfold msb
  rw [BitVec.getLsbD, Nat.testBit_eq_decide_div_mod_eq, decide_eq_decide]
  cases w
  · simp only [nBits] at h ⊢; omega
  · simp only [nBits] at h ⊢; omega

theorem reduced_toNat (w : Width) (x : Nat) : (reduced w x).toNat = x % 2 ^ nBits w := by
  unfold reduced
  rw [BitVec.toNat_ofNat]
  cases w <;> simp only [nBits] <;> omega

theorem reduced_lt (w : Width) (x : Nat) : (reduced w x).toNat < 2 ^ nBits w := by
  rw [reduced_toNat]; exact Nat.mod_lt _ (by cases w <;> decide)

theorem beq_zero_eq (v : Word) : (v == 0) = decide (v.toNat = 0) := by
  rw [Bool.eq_iff_iff, beq_iff_eq, decide_eq_true_iff]
  exact ⟨fun h => by rw [h]; rfl, fun h => BitVec.eq_of_toNat_eq (by rw [h]; rfl)⟩

theorem bne_zero_eq (v : Word) : (v != 0) = decide (v.toNat ≠ 0) := by
  rw [bne, beq_zero_eq, decide_not]

/-- R221: `AddFlags`, with V as signed overflow (R234). -/
theorem addFlags_eq {w : Width} {a b : Word} (ha : a.toNat < 2 ^ nBits w) (hb : b.toNat < 2 ^ nBits w)
    (c : Bool) :
    addFlags w a b c =
      { res := reduced w (a.toNat + b.toNat + c.toNat)
        flags := resultFlags w (reduced w (a.toNat + b.toNat + c.toNat))
          (outOfRange w (signedN w a + signedN w b + c.toNat))
          (decide (2 ^ nBits w ≤ a.toNat + b.toNat + c.toNat))
        used := 0 } := by
  have hr := reduced_lt w (a.toNat + b.toNat + c.toNat)
  have hv : (msb w a == msb w b && msb w (reduced w (a.toNat + b.toNat + c.toNat)) != msb w a) =
      outOfRange w (signedN w a + signedN w b + c.toNat) := by
    rw [msb_eq ha, msb_eq hb, msb_eq hr, reduced_toNat]
    have hc : c.toNat ≤ 1 := Bool.toNat_le c
    rw [Bool.eq_iff_iff]
    simp only [outOfRange, Bool.and_eq_true, beq_iff_eq, bne_iff_ne, ne_eq, decide_eq_decide,
      Bool.or_eq_true, decide_eq_true_eq]
    cases w <;> simp only [signedN, nBits, Nat.reduceSub, Int.reducePow, Nat.reducePow] at ha hb ⊢ <;>
      split_ifs <;> omega
  unfold addFlags resultFlags
  dsimp only
  rw [← hv, ← msb_eq hr, ← beq_zero_eq]
  rfl

theorem notN_toNat {w : Width} {a : Word} (ha : a.toNat < 2 ^ nBits w) :
    (notN w a).toNat = 2 ^ nBits w - 1 - a.toNat := by
  unfold notN
  rw [truncTo_toNat, BitVec.toNat_not]
  cases w
  · simp only [nBits] at ha ⊢; omega
  · simp only [nBits] at ha ⊢; omega

theorem notN_lt {w : Width} {a : Word} (ha : a.toNat < 2 ^ nBits w) : (notN w a).toNat < 2 ^ nBits w := by
  rw [notN_toNat ha]
  have : 0 < 2 ^ nBits w := by cases w <;> decide
  omega

theorem signedN_notN {w : Width} {a : Word} (ha : a.toNat < 2 ^ nBits w) :
    signedN w (notN w a) = -signedN w a - 1 := by
  unfold signedN
  rw [notN_toNat ha]
  cases w
  · simp only [nBits] at ha ⊢; split_ifs <;> omega
  · simp only [nBits] at ha ⊢; split_ifs <;> omega

/-- R221 and R225: subtraction as addition of the complement; `c` is "no borrow". -/
theorem addFlags_notN {w : Width} {a b : Word} (ha : a.toNat < 2 ^ nBits w) (hb : b.toNat < 2 ^ nBits w)
    (c : Bool) :
    addFlags w (notN w a) b c =
      { res := reduced w (b.toNat + 2 ^ nBits w - a.toNat - (!c).toNat)
        flags := resultFlags w (reduced w (b.toNat + 2 ^ nBits w - a.toNat - (!c).toNat))
          (outOfRange w (signedN w b - signedN w a - (!c).toNat))
          (decide (a.toNat + (!c).toNat ≤ b.toNat))
        used := 0 } := by
  rw [addFlags_eq (notN_lt ha) hb c, signedN_notN ha, notN_toNat ha]
  have e1 : 2 ^ nBits w - 1 - a.toNat + b.toNat + c.toNat = b.toNat + 2 ^ nBits w - a.toNat - (!c).toNat := by
    cases c <;> simp <;> omega
  have e2 : -signedN w a - 1 + signedN w b + (c.toNat : Int) = signedN w b - signedN w a - ((!c).toNat : Int) := by
    cases c <;> simp <;> omega
  have e3 : decide (2 ^ nBits w ≤ 2 ^ nBits w - 1 - a.toNat + b.toNat + c.toNat) =
      decide (a.toNat + (!c).toNat ≤ b.toNat) := by
    rw [decide_eq_decide]
    cases c <;> simp <;> omega
  rw [e3, e1, e2]

/-- R221: `LogicFlags`. -/
theorem logicFlags_eq {w : Width} {res : Word} (h : res.toNat < 2 ^ nBits w) (v : Bool) :
    logicFlags w res v =
      { res := res, flags := resultFlags w res v (decide (res.toNat ≠ 0)), used := 0 } := by
  unfold logicFlags resultFlags
  rw [msb_eq h, beq_zero_eq, bne_zero_eq]

theorem and_lt {w : Width} {a : Word} (ha : a.toNat < 2 ^ nBits w) (b : Word) :
    (a &&& b).toNat < 2 ^ nBits w := by
  rw [BitVec.toNat_and]
  exact Nat.lt_of_le_of_lt Nat.and_le_left ha

theorem or_lt {w : Width} {a b : Word} (ha : a.toNat < 2 ^ nBits w) (hb : b.toNat < 2 ^ nBits w) :
    (a ||| b).toNat < 2 ^ nBits w := by
  rw [BitVec.toNat_or]
  exact Nat.or_lt_two_pow ha hb

theorem xor_lt {w : Width} {a b : Word} (ha : a.toNat < 2 ^ nBits w) (hb : b.toNat < 2 ^ nBits w) :
    (a ^^^ b).toNat < 2 ^ nBits w := by
  rw [BitVec.toNat_xor]
  exact Nat.xor_lt_two_pow ha hb

/-- The sign bit as a sign. -/
theorem msb_eq_neg {w : Width} {v : Word} (h : v.toNat < 2 ^ nBits w) : msb w v = decide (signedN w v < 0) := by
  rw [msb_eq h, decide_eq_decide, signedN]
  cases w
  · simp only [nBits] at h ⊢; split_ifs <;> omega
  · simp only [nBits] at h ⊢; split_ifs <;> omega

/-- A shift right by one with a bit coming in at the top (R181, R183). -/
theorem setBit_shift_toNat {w : Width} {v : Word} (h : v.toNat < 2 ^ nBits w) (c : Bool) :
    (setBit (v >>> 1) (nBits w - 1) c).toNat = v.toNat / 2 + c.toNat * 2 ^ (nBits w - 1) := by
  have e : (v >>> 1).toNat = v.toNat / 2 := by simp [Nat.shiftRight_eq_div_pow]
  have hl : v.toNat / 2 < 2 ^ (nBits w - 1) := by cases w <;> simp only [nBits] at h ⊢ <;> omega
  have hn : nBits w - 1 < 16 := by cases w <;> decide
  apply Nat.eq_of_testBit_eq
  intro i
  have key := getLsbD_setBit (v >>> 1) (nBits w - 1) i c hn
  rw [BitVec.getLsbD, BitVec.getLsbD, e] at key
  rw [key, Nat.add_comm, Nat.mul_comm]
  rw [Nat.testBit_two_pow_mul_add _ hl]
  by_cases h1 : i < nBits w - 1
  · rw [if_neg (by omega), if_pos h1]
  · rw [if_neg h1]
    by_cases h2 : i = nBits w - 1
    · subst h2; cases c <;> simp
    · rw [if_neg h2, Nat.testBit_lt_two_pow (Nat.lt_of_lt_of_le hl (Nat.pow_le_pow_right (by omega) (by omega)))]
      have : (c.toNat).testBit (i - (nBits w - 1)) = false := by
        have hc : c.toNat < 2 ^ 1 := by have := Bool.toNat_le c; omega
        exact Nat.testBit_lt_two_pow (Nat.lt_of_lt_of_le hc (Nat.pow_le_pow_right (by omega) (by omega)))
      rw [this]

/-! ## Decimal addition (R228) -/

theorem decimalAdd_value (d a b : Nat) (c : Bool) (ha : isDecimal d a = true) (hb : isDecimal d b = true) :
    bcdValue d (decimalAdd d a b c).1 + 10 ^ d * (decimalAdd d a b c).2.toNat =
      bcdValue d a + bcdValue d b + c.toNat := by
  induction d generalizing a b c with
  | zero => simp [decimalAdd, bcdValue]
  | succ d ih =>
    simp only [isDecimal, Bool.and_eq_true, decide_eq_true_eq] at ha hb
    simp only [decimalAdd, bcdValue]
    have h := ih (a / 16) (b / 16) (decide (10 ≤ a % 16 + b % 16 + c.toNat)) ha.2 hb.2
    have hc : c.toNat ≤ 1 := Bool.toNat_le c
    generalize (decimalAdd d (a / 16) (b / 16) (decide (10 ≤ a % 16 + b % 16 + c.toNat))).1 = r at h ⊢
    generalize (decimalAdd d (a / 16) (b / 16) (decide (10 ≤ a % 16 + b % 16 + c.toNat))).2 = q at h ⊢
    have e : 10 ^ (d + 1) * q.toNat = 10 * (10 ^ d * q.toNat) := by rw [Nat.pow_succ]; ring
    rw [e]
    generalize 10 ^ d * q.toNat = k at h ⊢
    by_cases ht : 10 ≤ a % 16 + b % 16 + c.toNat
    · simp only [ht, decide_true, Bool.toNat_true, if_true] at h ⊢
      have e1 : (a % 16 + b % 16 + c.toNat - 10 + 16 * r) % 16 = a % 16 + b % 16 + c.toNat - 10 := by omega
      have e2 : (a % 16 + b % 16 + c.toNat - 10 + 16 * r) / 16 = r := by omega
      rw [e1, e2]
      omega
    · simp only [ht, decide_false, Bool.toNat_false, if_false] at h ⊢
      have e1 : (a % 16 + b % 16 + c.toNat + 16 * r) % 16 = a % 16 + b % 16 + c.toNat := by omega
      have e2 : (a % 16 + b % 16 + c.toNat + 16 * r) / 16 = r := by omega
      rw [e1, e2]
      omega

theorem decimalAdd_isDecimal (d a b : Nat) (c : Bool) (ha : isDecimal d a = true)
    (hb : isDecimal d b = true) :
    isDecimal d (decimalAdd d a b c).1 = true ∧ (decimalAdd d a b c).1 < 16 ^ d := by
  induction d generalizing a b c with
  | zero => simp [decimalAdd, isDecimal]
  | succ d ih =>
    simp only [isDecimal, Bool.and_eq_true, decide_eq_true_eq] at ha hb
    obtain ⟨h1, h2⟩ := ih (a / 16) (b / 16) (decide (10 ≤ a % 16 + b % 16 + c.toNat)) ha.2 hb.2
    have hc : c.toNat ≤ 1 := Bool.toNat_le c
    simp only [isDecimal, Bool.and_eq_true, decide_eq_true_iff]
    simp only [decimalAdd]
    generalize (decimalAdd d (a / 16) (b / 16) (decide (10 ≤ a % 16 + b % 16 + c.toNat))).1 = r at h1 h2 ⊢
    rw [Nat.pow_succ]
    split_ifs with ht
    · have e2 : (a % 16 + b % 16 + c.toNat - 10 + 16 * r) / 16 = r := by omega
      rw [e2]
      exact ⟨⟨by omega, h1⟩, by omega⟩
    · have e2 : (a % 16 + b % 16 + c.toNat + 16 * r) / 16 = r := by omega
      rw [e2]
      exact ⟨⟨by omega, h1⟩, by omega⟩

end Sys2Proof.Machine
end

