-- ==== Sys2Proof/Laws/Memory.lean ====
section
/-! SUPPORT. Memory: reading what was written, leaving the rest alone, and keeping the canonical form. -/

namespace Sys2Proof.Machine.Memory

@[simp] theorem read_nil (a : Nat) : read [] a = unlisted := rfl

theorem read_cons (x : Nat) (b : Byte) (t : List Host.Cell) (a : Nat) :
    read ((x, b) :: t) a = if x = a then b else read t a := rfl

theorem wfFrom_cons {lo a : Nat} {b : Byte} {t : List Host.Cell} :
    wfFrom lo ((a, b) :: t) = true ↔ lo ≤ a ∧ b ≠ unlisted ∧ wfFrom (a + 1) t = true := by
  simp [wfFrom, and_assoc]

theorem wfFrom_mono {lo lo' : Nat} {m : List Host.Cell} (h : wfFrom lo m = true) (hl : lo' ≤ lo) :
    wfFrom lo' m = true := by
  cases m with
  | nil => rfl
  | cons e t =>
    obtain ⟨a, b⟩ := e
    rw [wfFrom_cons] at h ⊢
    exact ⟨by omega, h.2⟩

/-- Below the first listed address nothing is listed. -/
theorem read_below {lo a : Nat} {m : List Host.Cell} (h : wfFrom lo m = true) (ha : a < lo) :
    read m a = unlisted := by
  induction m generalizing lo with
  | nil => rfl
  | cons e t ih =>
    obtain ⟨x, b⟩ := e
    rw [wfFrom_cons] at h
    rw [read_cons, if_neg (by omega)]
    exact ih h.2.2 (by omega)

/-- A write away from an address leaves it alone, in any list. -/
theorem read_write_other (m : List Host.Cell) (a a' : Nat) (b : Byte) (h : a' ≠ a) :
    read (write m a b) a' = read m a' := by
  induction m with
  | nil => by_cases hb : b = unlisted <;> simp [write, read, hb, Ne.symm h]
  | cons e t ih =>
    obtain ⟨x, c⟩ := e
    simp only [write]
    split
    · simp [read_cons, ih]
    · split
      · split <;> simp [read_cons] <;> subst_vars <;> simp [Ne.symm h]
      · split
        · rfl
        · rw [read_cons, if_neg (Ne.symm h)]

/-- A read after a write to the same address gives the byte written, in a canonical list. -/
theorem read_write_same_from {lo : Nat} {m : List Host.Cell} (h : wfFrom lo m = true) (a : Nat)
    (b : Byte) : read (write m a b) a = b := by
  induction m generalizing lo with
  | nil => by_cases hb : b = unlisted <;> simp [write, read, hb]
  | cons e t ih =>
    obtain ⟨x, c⟩ := e
    rw [wfFrom_cons] at h
    simp only [write]
    split
    · rw [read_cons, if_neg (by omega)]; exact ih h.2.2
    · split
      · subst_vars
        split
        · rename_i hb; rw [hb]; exact read_below h.2.2 (by omega)
        · simp [read_cons]
      · split
        · rename_i hb
          rw [hb, read_cons, if_neg (by omega)]; exact read_below h.2.2 (by omega)
        · simp [read_cons]

theorem read_write_same {m : List Host.Cell} (h : wf m = true) (a : Nat) (b : Byte) :
    read (write m a b) a = b := read_write_same_from h a b

theorem read_write {m : List Host.Cell} (h : wf m = true) (a a' : Nat) (b : Byte) :
    read (write m a b) a' = if a' = a then b else read m a' := by
  split
  · subst_vars; exact read_write_same h _ _
  · exact read_write_other _ _ _ _ (by assumption)

theorem wfFrom_write {lo : Nat} {m : List Host.Cell} (h : wfFrom lo m = true) (a : Nat) (b : Byte)
    (ha : lo ≤ a) : wfFrom lo (write m a b) = true := by
  induction m generalizing lo with
  | nil => by_cases hb : b = unlisted <;> simp [write, wfFrom, hb, ha]
  | cons e t ih =>
    obtain ⟨x, c⟩ := e
    rw [wfFrom_cons] at h
    simp only [write]
    split
    · rw [wfFrom_cons]; exact ⟨h.1, h.2.1, ih h.2.2 (by omega)⟩
    · split
      · split
        · exact wfFrom_mono h.2.2 (by omega)
        · rw [wfFrom_cons]; subst_vars; exact ⟨h.1, by assumption, h.2.2⟩
      · split
        · rw [wfFrom_cons]; exact h
        · rw [wfFrom_cons, wfFrom_cons]; exact ⟨ha, by assumption, by omega, h.2⟩

/-- A write keeps the canonical form. -/
theorem wf_write {m : List Host.Cell} (h : wf m = true) (a : Nat) (b : Byte) : wf (write m a b) = true :=
  wfFrom_write h a b (Nat.zero_le a)

/-- An address a write lists was listed before, or is the one written. -/
theorem mem_write {m : List Host.Cell} {a : Nat} {b : Byte} {e : Host.Cell} (h : e ∈ write m a b) :
    e.1 = a ∨ e ∈ m := by
  induction m with
  | nil =>
    by_cases hb : b = unlisted <;> simp [write, hb] at h
    exact .inl (by rw [h])
  | cons d t ih =>
    obtain ⟨x, c⟩ := d
    simp only [write] at h
    split at h
    · rcases List.mem_cons.mp h with h | h
      · exact .inr (by simp [h])
      · rcases ih h with h | h
        · exact .inl h
        · exact .inr (by simp [h])
    · split at h
      · split at h
        · exact .inr (by simp [h])
        · rcases List.mem_cons.mp h with h | h
          · exact .inl (by rw [h])
          · exact .inr (by simp [h])
      · split at h
        · exact .inr h
        · rcases List.mem_cons.mp h with h | h
          · exact .inl (by rw [h])
          · exact .inr h

/-- Equal canonical lists are the same list: two that read alike everywhere are equal. -/
theorem eq_of_read {lo : Nat} {m n : List Host.Cell} (hm : wfFrom lo m = true) (hn : wfFrom lo n = true)
    (h : ∀ a, read m a = read n a) : m = n := by
  induction m generalizing lo n with
  | nil =>
    cases n with
    | nil => rfl
    | cons e t =>
      obtain ⟨x, b⟩ := e
      rw [wfFrom_cons] at hn
      have := h x
      simp [read_cons] at this
      exact absurd this.symm hn.2.1
  | cons e t ih =>
    obtain ⟨x, b⟩ := e
    rw [wfFrom_cons] at hm
    cases n with
    | nil => have := h x; simp [read_cons] at this; exact absurd this hm.2.1
    | cons f u =>
      obtain ⟨y, c⟩ := f
      rw [wfFrom_cons] at hn
      have hxy : x = y := by
        rcases Nat.lt_trichotomy x y with hl | hl | hl
        · have hx := h x
          rw [read_cons, if_pos rfl, read_cons, if_neg (by omega), read_below hn.2.2 (by omega)] at hx
          exact absurd hx hm.2.1
        · exact hl
        · have hy := h y
          rw [read_cons, if_neg (by omega), read_below hm.2.2 (by omega), read_cons, if_pos rfl] at hy
          exact absurd hy.symm hn.2.1
      subst hxy
      have hbc : b = c := by simpa [read_cons] using h x
      subst hbc
      have : t = u := by
        refine ih hm.2.2 hn.2.2 fun a => ?_
        by_cases ha : x = a
        · subst ha; rw [read_below hm.2.2 (by omega), read_below hn.2.2 (by omega)]
        · simpa [read_cons, ha] using h a
      rw [this]

/-! ## Words -/

theorem wf_writeWord {m : List Host.Cell} (h : wf m = true) (a v : BitVec 16) :
    wf (writeWord m a v) = true := wf_write (wf_write h _ _) _ _

theorem read_writeWord {m : List Host.Cell} (h : wf m = true) (a v : Word) (a' : Nat) :
    read (writeWord m a v) a' =
      if a' = (a + 1).toNat then Word.hi v else if a' = a.toNat then Word.lo v else read m a' := by
  rw [writeWord, read_write (wf_write h _ _), read_write h]

theorem read_writeWord_other (m : List Host.Cell) (a v : Word) (a' : Nat) (h : a' ≠ a.toNat)
    (h' : a' ≠ (a + 1).toNat) : read (writeWord m a v) a' = read m a' := by
  rw [writeWord, read_write_other _ _ _ _ h', read_write_other _ _ _ _ h]

theorem wordOfBytes_lo_hi (v : Word) : wordOfBytes (Word.lo v) (Word.hi v) = v := by
  unfold wordOfBytes Word.lo Word.hi
  rw [BitVec.extractLsb'_append_extractLsb'_eq_extractLsb' (by omega)]
  simp

/-- A word read after the word is written gives it back (R63 to R65). -/
theorem readWord_writeWord {m : List Host.Cell} (h : wf m = true) (a v : Word) :
    readWord (writeWord m a v) a = v := by
  have hne : a.toNat ≠ (a + 1).toNat := by
    have := a.isLt
    simp [BitVec.toNat_add]
    omega
  rw [readWord, read_writeWord h, read_writeWord h, if_neg hne, if_pos rfl, if_pos rfl]
  exact wordOfBytes_lo_hi v

theorem mem_writeWord {m : List Host.Cell} {a v : Word} {e : Host.Cell} (h : e ∈ writeWord m a v) :
    e.1 = a.toNat ∨ e.1 = (a + 1).toNat ∨ e ∈ m := by
  rcases mem_write h with h | h
  · exact .inr (.inl h)
  · rcases mem_write h with h | h
    · exact .inl h
    · exact .inr (.inr h)

theorem wf_writeWords (ws : List Word) {m : List Host.Cell} (h : wf m = true) (a : Word) :
    wf (writeWords m a ws) = true := by
  induction ws generalizing m a with
  | nil => exact h
  | cons v t ih => exact ih (wf_writeWord h a v) (a + 2)

end Sys2Proof.Machine.Memory
end

