-- ==== Sys2Proof/Laws/Ops.lean ====
section
/-! SUPPORT. One lemma for each shared operation over registers and memory, saying when it answers and
with what; later proofs cite these and unfold no operation. -/

namespace Sys2Proof.Machine

/-! ## Sequencing -/

@[simp] theorem andThen_next {α β : Type} (a : α) (f : α → Res β) : andThen (.next a) f = f a := rfl
@[simp] theorem andThen_fault {α β : Type} (e : Fault) (f : α → Res β) :
    andThen (.fault e) f = .fault e := rfl
@[simp] theorem andThen_refused {α β : Type} (r : Refusal) (f : α → Res β) :
    andThen (.refused r) f = .refused r := rfl

/-- A sequence answers when both parts do. -/
theorem andThen_eq_next {α β : Type} {x : Res α} {f : α → Res β} {b : β} :
    andThen x f = .next b ↔ ∃ a, x = .next a ∧ f a = .next b := by
  cases x <;> simp [andThen]

/-! ## Regions and admission -/

theorem alignTo_of_even (w : Width) {a : Word} (h : isOdd a = false) : alignTo w a = a := by
  cases w
  · exact clearBit0_of_even h
  · rfl

@[simp] theorem alignTo_byte (a : Word) : alignTo .byte a = a := rfl
@[simp] theorem alignTo_word (a : Word) : alignTo .word a = clearBit0 a := rfl

@[simp] theorem alignTo_alignTo (w : Width) (a : Word) : alignTo w (alignTo w a) = alignTo w a := by
  cases w
  · exact clearBit0_clearBit0 a
  · rfl

/-- R66: where an access is made. -/
theorem accessAddr_eq_next {c : Config} {w : Width} {a b : Word} :
    accessAddr c w a = .next b ↔ aligned c w a = true ∧ b = alignTo w a := by
  cases w
  · simp only [accessAddr, aligned, alignTo]
    by_cases h : isOdd a = true
    · cases ho : c.oddWordAccess
      · simp [h]
      · simp only [h, if_true, Host.Outcome.next.injEq, Bool.not_true, beq_self_eq_true, Bool.or_true,
          true_and]
        exact eq_comm
    · have h' : isOdd a = false := by simpa using h
      rw [clearBit0_of_even h']
      simp [h', eq_comm]
  · simp [accessAddr, aligned, alignTo, eq_comm]

theorem accessAddr_next {c : Config} {w : Width} {a : Word} (h : aligned c w a = true) :
    accessAddr c w a = .next (alignTo w a) := accessAddr_eq_next.mpr ⟨h, rfl⟩

theorem region_eq_ram {c : Config} {a : Word} : region c a = .ram ↔ inRam c a = true := by
  unfold region inRam
  simp only [Bool.and_eq_true, decide_eq_true_eq]
  split_ifs <;> simp <;> omega

theorem region_eq_flash {c : Config} {a : Word} : region c a = .flash ↔ inFlash c a = true := by
  unfold region inFlash
  simp only [Bool.and_eq_true, Bool.or_eq_true, decide_eq_true_eq]
  split_ifs <;> simp <;> omega

theorem isCode_eq (c : Config) (a : Word) : isCode c a = (inRam c a || inFlash c a) := by
  rw [Bool.eq_iff_iff, Bool.or_eq_true, ← region_eq_ram, ← region_eq_flash]
  unfold isCode
  cases region c a <;> simp

/-- R67: what an access reaches. -/
theorem admit_eq_device {c : Config} {w : Width} {a : Word} :
    admission c w a = .next .device ↔ inDevice w a = true := by
  unfold admission inDevice
  have hr : region c a = if a.toNat < 0x0010 then .sfr else if a.toNat < 0x0100 then .periph8
      else if a.toNat < 0x0200 then .periph16 else if a.toNat ≤ c.ramEnd.toNat then .ram
      else if a.toNat < c.flashBase.toNat ∧ a.toNat < 0xFFE0 then .unpopulated else .flash := rfl
  rw [hr]
  cases w <;> split_ifs <;> simp <;> omega

theorem admit_eq_ram {c : Config} {w : Width} {a : Word} :
    admission c w a = .next .ram ↔ inRam c a = true := by
  rw [← region_eq_ram]
  unfold admission
  cases region c a <;> cases w <;> simp

theorem admit_eq_flash {c : Config} {w : Width} {a : Word} :
    admission c w a = .next .flash ↔ inFlash c a = true := by
  rw [← region_eq_flash]
  unfold admission
  cases region c a <;> cases w <;> simp

theorem inDevice_lt {w : Width} {a : Word} (h : inDevice w a = true) : a.toNat < 0x0200 := by
  cases w <;> simp [inDevice] at h <;> omega

theorem inRam_ge {c : Config} {a : Word} (h : inRam c a = true) : 0x0200 ≤ a.toNat := by
  simp [inRam] at h; exact h.1

theorem inFlash_ge {c : Config} {a : Word} (h : inFlash c a = true) : 0x0200 ≤ a.toNat := by
  simp [inFlash] at h; exact h.1.1

theorem inFlash_not_inRam {c : Config} {a : Word} (h : inFlash c a = true) : inRam c a = false := by
  simp [inFlash] at h
  simp [inRam]
  omega

/-! ## Memory -/

/-- R64: a data read. -/
theorem readMem_eq_next {w : Width} {a : Word} {s : State} {p : Word × State} :
    readMem w a s = .next p ↔
      readable s.cfg w a = true ∧ p = (valueAt w a s, afterRead w a s) := by
  unfold readMem readable
  simp only [andThen_eq_next, accessAddr_eq_next, Bool.and_eq_true, Bool.or_eq_true]
  constructor
  · rintro ⟨b, ⟨ha, rfl⟩, t, ht, hp⟩
    cases t with
    | device =>
      have hd := admit_eq_device.mp ht
      simp only [Host.Outcome.next.injEq] at hp
      refine ⟨⟨ha, .inl (.inl hd)⟩, ?_⟩
      simp [valueAt, afterRead, inDevice_lt hd, ← hp]
    | ram =>
      have hd := admit_eq_ram.mp ht
      simp only [Host.Outcome.next.injEq] at hp
      refine ⟨⟨ha, .inl (.inr hd)⟩, ?_⟩
      simp [valueAt, afterRead, Nat.not_lt.mpr (inRam_ge hd), ← hp]
    | flash =>
      have hd := admit_eq_flash.mp ht
      simp only [Host.Outcome.next.injEq] at hp
      refine ⟨⟨ha, .inr hd⟩, ?_⟩
      simp [valueAt, afterRead, Nat.not_lt.mpr (inFlash_ge hd), ← hp]
  · rintro ⟨⟨ha, (hd | hd) | hd⟩, rfl⟩
    · exact ⟨_, ⟨ha, rfl⟩, .device, admit_eq_device.mpr hd, by
        simp [valueAt, afterRead, inDevice_lt hd]⟩
    · exact ⟨_, ⟨ha, rfl⟩, .ram, admit_eq_ram.mpr hd, by
        simp [valueAt, afterRead, Nat.not_lt.mpr (inRam_ge hd)]⟩
    · exact ⟨_, ⟨ha, rfl⟩, .flash, admit_eq_flash.mpr hd, by
        simp [valueAt, afterRead, Nat.not_lt.mpr (inFlash_ge hd)]⟩

theorem readMem_next {w : Width} {a : Word} {s : State} (h : readable s.cfg w a = true) :
    readMem w a s = .next (valueAt w a s, afterRead w a s) := readMem_eq_next.mpr ⟨h, rfl⟩

/-- R65 to R67: where a data write is made. -/
theorem writeTarget_eq_next {c : Config} {w : Width} {a : Word} {p : Word × Target} :
    writeTarget c w a = .next p ↔
      writable c w a = true ∧
        p = (alignTo w a, if (alignTo w a).toNat < 0x0200 then .device else .ram) := by
  unfold writeTarget writable
  simp only [andThen_eq_next, accessAddr_eq_next, Bool.and_eq_true, Bool.or_eq_true]
  constructor
  · rintro ⟨b, ⟨ha, rfl⟩, t, ht, hp⟩
    cases t with
    | device =>
      have hd := admit_eq_device.mp ht
      simp only [Host.Outcome.next.injEq] at hp
      exact ⟨⟨ha, .inl hd⟩, by simp [inDevice_lt hd, ← hp]⟩
    | ram =>
      have hd := admit_eq_ram.mp ht
      simp only [Host.Outcome.next.injEq] at hp
      exact ⟨⟨ha, .inr hd⟩, by simp [Nat.not_lt.mpr (inRam_ge hd), ← hp]⟩
    | flash => simp at hp
  · rintro ⟨⟨ha, hd | hd⟩, rfl⟩
    · exact ⟨_, ⟨ha, rfl⟩, .device, admit_eq_device.mpr hd, by simp [inDevice_lt hd]⟩
    · exact ⟨_, ⟨ha, rfl⟩, .ram, admit_eq_ram.mpr hd, by simp [Nat.not_lt.mpr (inRam_ge hd)]⟩

theorem commit_target (w : Width) (a v : Word) (s : State) :
    commit w (alignTo w a) v (if (alignTo w a).toNat < 0x0200 then .device else .ram) s =
      afterWrite w a v s := by
  unfold afterWrite
  split <;> rfl

/-- R65: a data write. -/
theorem writeMem_eq_next {w : Width} {a v : Word} {s t : State} :
    writeMem w a v s = .next t ↔ writable s.cfg w a = true ∧ t = afterWrite w a v s := by
  unfold writeMem
  simp only [andThen_eq_next, writeTarget_eq_next]
  constructor
  · rintro ⟨p, ⟨h, rfl⟩, hp⟩
    rw [commit_target] at hp
    exact ⟨h, by simpa [eq_comm] using hp⟩
  · rintro ⟨h, rfl⟩
    exact ⟨_, ⟨h, rfl⟩, by rw [commit_target]⟩

/-- R65 and R82: a data write by an instruction. -/
theorem storeMem_eq_next {w : Width} {a v : Word} {s t : State} :
    storeMem w a v s = .next t ↔
      (writable s.cfg w a = true ∧ touches w (alignTo w a) s.regs.pc = false) ∧
        t = afterWrite w a v s := by
  unfold storeMem
  simp only [andThen_eq_next, writeTarget_eq_next]
  constructor
  · rintro ⟨p, ⟨h, rfl⟩, hp⟩
    simp only [commit_target] at hp
    by_cases ht : touches w (alignTo w a) s.regs.pc = true
    · simp [ht] at hp
    · exact ⟨⟨h, by simpa using ht⟩, by simpa [ht, eq_comm] using hp⟩
  · rintro ⟨⟨h, ht⟩, rfl⟩
    exact ⟨_, ⟨h, rfl⟩, by simp [ht, commit_target]⟩

/-- A value read is as wide as the access. -/
theorem valueAt_lt (w : Width) (a : Word) (s : State) : (valueAt w a s).toNat < 2 ^ nBits w := by
  unfold valueAt
  split
  · unfold devRead
    dsimp only
    split <;> exact truncTo_lt _ _
  · cases w
    · exact BitVec.isLt _
    · simp only [loadValue, nBits, BitVec.toNat_setWidth]
      exact Nat.lt_of_le_of_lt (Nat.mod_le _ _) (BitVec.isLt _)

/-- A store changes only the bytes it stores. -/
theorem read_storeValue_other (m : List Host.Cell) (w : Width) (a v : Word) (x : Nat)
    (h : x ∉ storedBytes w a) : Memory.read (storeValue m w (alignTo w a) v) x = Memory.read m x := by
  cases w
  · simp only [storedBytes, List.mem_cons, List.not_mem_nil, or_false, not_or] at h
    exact Memory.read_writeWord_other m _ v x h.1 h.2
  · simp only [storedBytes, List.mem_singleton] at h
    exact Memory.read_write_other m _ x _ h

theorem read_afterWrite_other (w : Width) (a v : Word) (s : State) (x : Nat)
    (h : x ∉ storedBytes w a) : Memory.read (afterWrite w a v s).mem x = Memory.read s.mem x := by
  unfold afterWrite
  split
  · simp
  · exact read_storeValue_other _ _ _ _ _ h

/-- Every memory operation keeps the canonical form. -/
theorem wf_storeValue {m : List Host.Cell} (h : Memory.wf m = true) (w : Width) (a v : Word) :
    Memory.wf (storeValue m w a v) = true := by
  cases w
  · exact Memory.wf_writeWord h _ _
  · exact Memory.wf_write h _ _

theorem wf_afterWrite {s : State} (h : Memory.wf s.mem = true) (w : Width) (a v : Word) :
    Memory.wf (afterWrite w a v s).mem = true := by
  unfold afterWrite
  split
  · simpa using h
  · exact wf_storeValue h _ _ _

theorem wf_drawBytes {m : List Host.Cell} (h : Memory.wf m = true) (n a k : Nat) :
    Memory.wf (drawBytes n a k m) = true := by
  induction n generalizing a k m with
  | zero => exact h
  | succ n ih => exact ih (Memory.wf_write h _ _) _ _

theorem read_drawBytes_other (m : List Host.Cell) (n a k x : Nat) (h : x < a ∨ a + n ≤ x) :
    Memory.read (drawBytes n a k m) x = Memory.read m x := by
  induction n generalizing a k m with
  | zero => rfl
  | succ n ih =>
    rw [drawBytes, ih _ _ _ (by omega), Memory.read_write_other _ _ _ _ (by omega)]

/-- A read after a write of the same width to the same RAM address gives the value written (R64, R65). -/
theorem loadValue_storeValue {m : List Host.Cell} (h : Memory.wf m = true) (w : Width) (a v : Word) :
    loadValue (storeValue m w a v) w a = truncTo w v := by
  cases w
  · exact Memory.readWord_writeWord h a v
  · apply BitVec.eq_of_toNat_eq
    simp only [loadValue, storeValue, Memory.read_write_same h, BitVec.toNat_setWidth, lo_toNat,
      truncTo_toNat, nBits]
    omega

theorem wf_reset : Memory.wf State.reset.mem = true := rfl

/-! ## Registers -/

theorem evenValue_eq_next {c : Config} {v u : Word} :
    evenValue c v = .next u ↔ (!isOdd v || c.oddPcSp == .clearBit0) = true ∧ u = clearBit0 v := by
  unfold evenValue
  by_cases h : isOdd v = true
  · cases hc : c.oddPcSp
    · simp [h]
    · simp only [h, if_true, Host.Outcome.next.injEq, Bool.not_true, beq_self_eq_true, Bool.or_true,
        true_and]
      exact eq_comm
  · have h' : isOdd v = false := by simpa using h
    rw [clearBit0_of_even h']
    simp [h', eq_comm]

/-- R24, R26, R30, R33: a register write. -/
theorem writeReg_eq_next {r : Reg} {v : Word} {s t : State} :
    writeReg r v s = .next t ↔ storable s.cfg r v = true ∧ t = s.put r (stored r v) := by
  cases r <;>
    simp only [writeReg, andThen_eq_next, evenValue_eq_next, storable, stored, Host.Outcome.next.injEq]
  case pc => exact ⟨fun ⟨u, ⟨h, hu⟩, ht⟩ => ⟨h, by rw [← ht, hu]⟩, fun ⟨h, ht⟩ => ⟨_, ⟨h, rfl⟩, ht.symm⟩⟩
  case sp => exact ⟨fun ⟨u, ⟨h, hu⟩, ht⟩ => ⟨h, by rw [← ht, hu]⟩, fun ⟨h, ht⟩ => ⟨_, ⟨h, rfl⟩, ht.symm⟩⟩
  case sr =>
    simp only [srReserved_iff]
    by_cases h : v.toNat < 0x0200
    · simp [h, eq_comm]
    · simp [h]
  all_goals simp [eq_comm]

theorem writeReg_next {r : Reg} {v : Word} {s : State} (h : storable s.cfg r v = true) :
    writeReg r v s = .next (s.put r (stored r v)) := writeReg_eq_next.mpr ⟨h, rfl⟩

theorem stored_of_even {r : Reg} {v : Word} (h : isOdd v = false) : stored r v = v := by
  cases r <;> first | rfl | exact clearBit0_of_even h

/-! ## Fetch -/

/-- R69: where a code word is fetched. -/
theorem fetchAddr_eq_next {s : State} {a : Word} :
    fetchAddr s = .next a ↔ fetchable s = true ∧ a = alignTo .word s.regs.pc := by
  unfold fetchAddr fetchable
  simp only [andThen_eq_next, accessAddr_eq_next, Bool.and_eq_true]
  constructor
  · rintro ⟨b, ⟨h, rfl⟩, hb⟩
    split at hb
    · rename_i hc
      rw [isCode_eq] at hc
      exact ⟨⟨h, hc⟩, by simpa [eq_comm] using hb⟩
    · cases hb
  · rintro ⟨⟨h, hc⟩, rfl⟩
    refine ⟨_, ⟨h, rfl⟩, ?_⟩
    rw [← isCode_eq] at hc
    rw [if_pos hc]

theorem fetchExt_eq_next {s t : State} :
    fetchExt s = .next t ↔ fetchable s = true ∧ t = s.skipWord := by
  unfold fetchExt
  simp only [andThen_eq_next, fetchAddr_eq_next, Host.Outcome.next.injEq]
  exact ⟨fun ⟨_, ⟨h, _⟩, ht⟩ => ⟨h, ht.symm⟩, fun ⟨h, ht⟩ => ⟨_, ⟨h, rfl⟩, ht.symm⟩⟩

/-! ## The stack -/

/-- A push as interrupt entry makes it (R308). -/
theorem pushWord_eq_next {v : Word} {s t : State} :
    pushWord v s = .next t ↔
      (storable s.cfg .sp (s.regs.sp - 2) = true ∧
        writable s.cfg .word (stored .sp (s.regs.sp - 2)) = true) ∧ t = pushed .word v s := by
  unfold pushWord pushed
  simp only [andThen_eq_next, writeReg_eq_next, writeMem_eq_next]
  constructor
  · rintro ⟨_, ⟨h, rfl⟩, h2, rfl⟩; exact ⟨⟨h, h2⟩, rfl⟩
  · rintro ⟨⟨h, h2⟩, rfl⟩; exact ⟨_, ⟨h, rfl⟩, h2, rfl⟩

/-- A pop of RETI (R187). -/
theorem popInto_eq_next {r : Reg} {s t : State} :
    popInto r s = .next t ↔
      ∃ u, (readable s.cfg .word s.regs.sp = true ∧ storable s.cfg r (valueAt .word s.regs.sp s) = true
        ∧ u = (afterRead .word s.regs.sp s).put r (stored r (valueAt .word s.regs.sp s))) ∧
        storable s.cfg .sp (u.regs.sp + 2) = true ∧ t = u.put .sp (stored .sp (u.regs.sp + 2)) := by
  unfold popInto
  simp only [andThen_eq_next, writeReg_eq_next, readMem_eq_next]
  constructor
  · rintro ⟨_, ⟨h, rfl⟩, _, ⟨h2, rfl⟩, h3, rfl⟩
    refine ⟨_, ⟨h, by simpa using h2, rfl⟩, by simpa using h3, rfl⟩
  · rintro ⟨_, ⟨h, h2, rfl⟩, h3, rfl⟩
    exact ⟨_, ⟨h, rfl⟩, _, ⟨by simpa using h2, rfl⟩, by simpa using h3, rfl⟩

end Sys2Proof.Machine
end

