-- ==== Sys2Proof/Laws/Operands.lean ====
section
/-! SUPPORT. The operands and their locations: when each can be read or written, and with what result. -/

namespace Sys2Proof.Machine

theorem fetchable_skipWord_dep {s t : State} (hc : t.cfg = s.cfg) (hp : t.regs.pc = s.regs.pc) :
    fetchable t = fetchable s := by simp only [fetchable, hc, hp]

theorem Reg.ne_pc_of_isBase {r : Reg} (h : r.isBase = true) : r ≠ .pc := by
  rintro rfl; exact absurd h (by decide)

theorem Reg.ne_cg_of_isBase {r : Reg} (h : r.isBase = true) : r ≠ .cg := by
  rintro rfl; exact absurd h (by decide)

/-! ## Locations -/

/-- R160: the location of an operand. -/
theorem opLocation_eq_next {w : Width} {o : Src} {s : State} {p : Loc × State} :
    opLocation w o s = .next p ↔ opReady w o s = true ∧ p = (opPlace w o s, opDone w o s) := by
  cases o with
  | const c =>
    simp [opLocation, opReady, opPlace, opDone]
    exact eq_comm
  | reg r =>
    by_cases h : r = .cg
    · simp [opLocation, opReady, h]
    · simp [opLocation, opReady, opPlace, opDone, h]
      exact eq_comm
  | indexed r x =>
    by_cases h : r.isBase = true
    · simp only [opLocation, h, if_true, andThen_eq_next, fetchExt_eq_next, opReady, opPlace, opDone,
        Bool.true_and, Host.Outcome.next.injEq]
      constructor
      · rintro ⟨_, ⟨hf, rfl⟩, rfl⟩
        exact ⟨hf, by rw [State.get_skipWord _ _ (Reg.ne_pc_of_isBase h)]⟩
      · rintro ⟨hf, rfl⟩
        exact ⟨_, ⟨hf, rfl⟩, by rw [State.get_skipWord _ _ (Reg.ne_pc_of_isBase h)]⟩
    · simp [opLocation, opReady, h]
  | symbolic x =>
    simp only [opLocation, andThen_eq_next, fetchExt_eq_next, opReady, opPlace, opDone,
      Host.Outcome.next.injEq]
    exact ⟨by rintro ⟨_, ⟨hf, rfl⟩, rfl⟩; exact ⟨hf, rfl⟩, by rintro ⟨hf, rfl⟩; exact ⟨_, ⟨hf, rfl⟩, rfl⟩⟩
  | absolute a =>
    simp only [opLocation, andThen_eq_next, fetchExt_eq_next, opReady, opPlace, opDone,
      Host.Outcome.next.injEq]
    exact ⟨by rintro ⟨_, ⟨hf, rfl⟩, rfl⟩; exact ⟨hf, rfl⟩, by rintro ⟨hf, rfl⟩; exact ⟨_, ⟨hf, rfl⟩, rfl⟩⟩
  | indirect r =>
    by_cases h : r.isPointer = true
    · simp [opLocation, opReady, opPlace, opDone, h]
      exact eq_comm
    · simp [opLocation, opReady, h]
  | autoInc r =>
    by_cases h : r.isBase = true
    · simp only [opLocation, h, if_true, andThen_eq_next, writeReg_eq_next, opReady, opPlace, opDone,
        Bool.true_and, Host.Outcome.next.injEq]
      exact ⟨by rintro ⟨_, ⟨hf, rfl⟩, rfl⟩; exact ⟨hf, rfl⟩,
        by rintro ⟨hf, rfl⟩; exact ⟨_, ⟨hf, rfl⟩, rfl⟩⟩
    · simp [opLocation, opReady, h]
  | imm n =>
    simp only [opLocation, andThen_eq_next, fetchExt_eq_next, opReady, opPlace, opDone,
      Host.Outcome.next.injEq]
    exact ⟨by rintro ⟨_, ⟨hf, rfl⟩, rfl⟩; exact ⟨hf, rfl⟩, by rintro ⟨hf, rfl⟩; exact ⟨_, ⟨hf, rfl⟩, rfl⟩⟩

/-- R150: the location of a destination. -/
theorem dstLocation_eq_next {d : Dst} {s : State} {p : Loc × State} :
    dstLocation d s = .next p ↔ dstReady d s = true ∧ p = (dstPlace d s, dstDone d s) := by
  cases d with
  | bucket =>
    simp [dstLocation, dstReady, dstPlace, dstDone, Dst.isMem]
    exact eq_comm
  | reg r =>
    by_cases h : r = .cg
    · simp [dstLocation, dstReady, h]
    · simp [dstLocation, dstReady, dstPlace, dstDone, Dst.isMem, h]
      exact eq_comm
  | indexed r x =>
    by_cases h : r.isBase = true
    · simp only [dstLocation, h, if_true, andThen_eq_next, fetchExt_eq_next, dstReady, dstPlace, dstDone,
        Dst.isMem, Bool.true_and, Host.Outcome.next.injEq]
      constructor
      · rintro ⟨_, ⟨hf, rfl⟩, rfl⟩
        exact ⟨hf, by rw [State.get_skipWord _ _ (Reg.ne_pc_of_isBase h)]⟩
      · rintro ⟨hf, rfl⟩
        exact ⟨_, ⟨hf, rfl⟩, by rw [State.get_skipWord _ _ (Reg.ne_pc_of_isBase h)]⟩
    · simp [dstLocation, dstReady, h]
  | symbolic x =>
    simp only [dstLocation, andThen_eq_next, fetchExt_eq_next, dstReady, dstPlace, dstDone, Dst.isMem,
      if_true, Host.Outcome.next.injEq]
    exact ⟨by rintro ⟨_, ⟨hf, rfl⟩, rfl⟩; exact ⟨hf, rfl⟩, by rintro ⟨hf, rfl⟩; exact ⟨_, ⟨hf, rfl⟩, rfl⟩⟩
  | absolute a =>
    simp only [dstLocation, andThen_eq_next, fetchExt_eq_next, dstReady, dstPlace, dstDone, Dst.isMem,
      if_true, Host.Outcome.next.injEq]
    exact ⟨by rintro ⟨_, ⟨hf, rfl⟩, rfl⟩; exact ⟨hf, rfl⟩, by rintro ⟨hf, rfl⟩; exact ⟨_, ⟨hf, rfl⟩, rfl⟩⟩

theorem readLoc_eq_next {w : Width} {l : Loc} {s : State} {p : Word × State} :
    readLoc w l s = .next p ↔ locReady w l s = true ∧ p = (locVal w l s, locDone w l s) := by
  cases l with
  | mem ea => exact readMem_eq_next
  | const v =>
    simp [readLoc, locReady, locVal, locDone]
    exact eq_comm
  | reg r =>
    simp [readLoc, locReady, locVal, locDone]
    exact eq_comm
  | bucket =>
    simp [readLoc, locReady, locVal, locDone]
    exact eq_comm

theorem writeLoc_eq_next {w : Width} {l : Loc} {v : Word} {s t : State} :
    writeLoc w l v s = .next t ↔ putReady w l v s = true ∧ t = putAt w l v s := by
  cases l with
  | mem ea =>
    simp only [writeLoc, putReady, putAt, storeMem_eq_next, Bool.and_eq_true, Bool.not_eq_true']
  | const v => simp [writeLoc, putReady]
  | reg r => exact writeReg_eq_next
  | bucket =>
    simp [writeLoc, putReady, putAt]
    exact eq_comm

/-! ## The source operand -/

/-- R141: the source operand's value. -/
theorem srcOperand_eq_next {w : Width} {o : Src} {s : State} {p : Word × State} :
    srcOperand w o s = .next p ↔ srcReady w o s = true ∧ p = (srcVal w o s, srcDone w o s) := by
  have viaLoc : ∀ o : Src, (∀ r, o ≠ .autoInc r) →
      (andThen (opLocation w o s) (fun q => readLoc w q.1 q.2) = .next p ↔
        (opReady w o s = true ∧ locReady w (opPlace w o s) (opDone w o s) = true) ∧
          p = (locVal w (opPlace w o s) (opDone w o s), locDone w (opPlace w o s) (opDone w o s))) := by
    intro o _
    simp only [andThen_eq_next, opLocation_eq_next, readLoc_eq_next]
    constructor
    · rintro ⟨_, ⟨h1, rfl⟩, h2, rfl⟩; exact ⟨⟨h1, h2⟩, rfl⟩
    · rintro ⟨⟨h1, h2⟩, rfl⟩; exact ⟨_, ⟨h1, rfl⟩, h2, rfl⟩
  cases o with
  | autoInc r =>
    by_cases h : r.isBase = true
    · simp only [srcOperand, h, if_true, andThen_eq_next, writeReg_eq_next, readMem_eq_next, srcReady,
        srcVal, srcDone, Bool.true_and, Bool.and_eq_true, Host.Outcome.next.injEq]
      constructor
      · rintro ⟨_, ⟨h1, rfl⟩, _, ⟨h2, rfl⟩, rfl⟩
        simp only [get_afterRead, afterRead_cfg] at h2
        exact ⟨⟨h1, h2⟩, by simp only [get_afterRead]⟩
      · rintro ⟨⟨h1, h2⟩, rfl⟩
        exact ⟨_, ⟨h1, rfl⟩, _, ⟨by simpa only [get_afterRead, afterRead_cfg] using h2, rfl⟩,
          by simp only [get_afterRead]⟩
    · simp [srcOperand, srcReady, h]
  | const c =>
    rw [srcOperand, viaLoc _ (by intros; simp)]
    · simp [opReady, locReady, opPlace, opDone, locVal, locDone, srcReady, srcVal, srcDone]
    · intro r h; cases h
  | reg r =>
    rw [srcOperand, viaLoc _ (by intros; simp)]
    · simp [opReady, locReady, opPlace, opDone, locVal, locDone, srcReady, srcVal, srcDone]
    · intro r h; cases h
  | indexed r x =>
    rw [srcOperand, viaLoc _ (by intros; simp)]
    · simp [opReady, locReady, opPlace, opDone, locVal, locDone, srcReady, srcVal, srcDone]
    · intro r h; cases h
  | symbolic x =>
    rw [srcOperand, viaLoc _ (by intros; simp)]
    · simp [opReady, locReady, opPlace, opDone, locVal, locDone, srcReady, srcVal, srcDone]
    · intro r h; cases h
  | absolute a =>
    rw [srcOperand, viaLoc _ (by intros; simp)]
    · simp [opReady, locReady, opPlace, opDone, locVal, locDone, srcReady, srcVal, srcDone]
    · intro r h; cases h
  | indirect r =>
    rw [srcOperand, viaLoc _ (by intros; simp)]
    · simp [opReady, locReady, opPlace, opDone, locVal, locDone, srcReady, srcVal, srcDone]
    · intro r h; cases h
  | imm n =>
    rw [srcOperand, viaLoc _ (by intros; simp)]
    · simp [opReady, locReady, opPlace, opDone, locVal, locDone, srcReady, srcVal, srcDone]
    · intro r h; cases h

end Sys2Proof.Machine
end

