-- ==== Sys2Proof/Laws/Shapes.lean ====
section
/-! SUPPORT. The shared shapes of the instructions: `doubleOp_eq_next`, `singleOp_eq_next`,
`execPush_eq_next`, `execCall_eq_next` and `returnFromInterrupt_eq_next` say everything a Format I or II
instruction can do when it answers, and the lemmas after them what it leaves alone. -/

namespace Sys2Proof.Machine

/-! ## Format I -/

theorem readDst_eq_next {sh : Shape} {w : Width} {d : Dst} {s t : State} {p : Word × State}
    (hc : t.cfg = s.cfg) :
    readDst sh w (dstPlace d s) t = .next p ↔
      (!readsPlace sh s.cfg d || locReady w (dstPlace d s) t) = true ∧
        p = (if sh.readsDst then locVal w (dstPlace d s) t else 0,
          if readsPlace sh s.cfg d then locDone w (dstPlace d s) t else t) := by
  unfold readDst readsPlace
  by_cases h : sh.readsDst = true
  · simp [h, readLoc_eq_next]
  · have h' : sh.readsDst = false := by simpa using h
    cases d <;> simp only [h', dstPlace, Dst.isMem, hc, Bool.false_eq_true, if_false, Bool.false_or,
      Bool.false_and, Bool.true_and, Bool.not_false, Bool.true_or, true_and, Host.Outcome.next.injEq]
    case reg => exact eq_comm
    case bucket => exact eq_comm
    all_goals
      by_cases hm : s.cfg.movReadsDst = true
      · simp only [hm, if_true, andThen_eq_next, readMem_eq_next, Bool.not_true, Bool.false_or, locReady,
          locDone, Host.Outcome.next.injEq]
        exact ⟨by rintro ⟨_, ⟨h1, rfl⟩, rfl⟩; exact ⟨h1, rfl⟩,
          by rintro ⟨h1, rfl⟩; exact ⟨_, ⟨h1, rfl⟩, rfl⟩⟩
      · simp [hm]
        exact eq_comm

/-- The flags written after the result (R220). -/
theorem finish_eq_next {sh : Shape} {w : Width} {l : Loc} {out : AluOut} {s t : State} :
    finish sh w l out s = .next t ↔
      (!sh.writesDst || putReady w l out.res (s.takeDraws out.used)) = true ∧
        t = (if sh.writesDst then putAt w l out.res (s.takeDraws out.used)
          else s.takeDraws out.used).setFlags out.flags := by
  unfold finish
  by_cases h : sh.writesDst = true
  · simp only [h, if_true, andThen_eq_next, writeLoc_eq_next, Host.Outcome.next.injEq, Bool.not_true,
      Bool.false_or]
    exact ⟨by rintro ⟨_, ⟨h1, rfl⟩, rfl⟩; exact ⟨h1, rfl⟩, by rintro ⟨h1, rfl⟩; exact ⟨_, ⟨h1, rfl⟩, rfl⟩⟩
  · simp [h]
    exact eq_comm

@[simp] theorem srcDone_cfg (w : Width) (o : Src) (s : State) : (srcDone w o s).cfg = s.cfg := by
  cases o <;> simp [srcDone]

@[simp] theorem dstDone_cfg (d : Dst) (s : State) : (dstDone d s).cfg = s.cfg := by
  unfold dstDone; split <;> simp

@[simp] theorem opDone_cfg (w : Width) (o : Src) (s : State) : (opDone w o s).cfg = s.cfg := by
  cases o <;> simp [opDone]

@[simp] theorem locDone_cfg (w : Width) (l : Loc) (s : State) : (locDone w l s).cfg = s.cfg := by
  cases l <;> simp [locDone]

@[simp] theorem putAt_cfg (w : Width) (l : Loc) (v : Word) (s : State) : (putAt w l v s).cfg = s.cfg := by
  cases l <;> simp [putAt]

@[simp] theorem state2_cfg (sh : Shape) (w : Width) (src : Src) (dst : Dst) (s : State) :
    (state2 sh w src dst s).cfg = s.cfg := by
  unfold state2; dsimp only; split <;> simp

@[simp] theorem state1_cfg (w : Width) (o : Src) (s : State) : (state1 w o s).cfg = s.cfg := by
  simp [state1]

@[simp] theorem pushed_cfg (w : Width) (v : Word) (s : State) : (pushed w v s).cfg = s.cfg := by
  simp [pushed]

/-- The old destination value a Format I computation is given: none, if it does not read it. -/
theorem doubleOp_eq_next {sh : Shape} {alu : Nat → Bool → Word → Word → AluOut} {w : Width} {src : Src}
    {dst : Dst} {s t : State} :
    doubleOp sh alu w src dst s = .next t ↔
      ready2 sh w src dst s = true ∧
      ∃ out, out = alu (state2 sh w src dst s).draws (state2 sh w src dst s).carry (src2 w src s)
          (if sh.readsDst then dst2 w src dst s else 0) ∧
        (!sh.writesDst || putReady w (place2 w src dst s) out.res
          ((state2 sh w src dst s).takeDraws out.used)) = true ∧
        t = (if sh.writesDst then putAt w (place2 w src dst s) out.res
            ((state2 sh w src dst s).takeDraws out.used)
          else (state2 sh w src dst s).takeDraws out.used).setFlags out.flags := by
  unfold doubleOp ready2
  by_cases h1 : src = .reg .pc ∧ dst.isMem
  · simp [h1]
  · by_cases h2 : sh.setsFlags ∧ sh.writesDst ∧ dst = .reg .sr
    · rw [if_neg h1, if_pos h2]
      simp [h2.1, h2.2.1, h2.2.2]
    · rw [if_neg h1, if_neg h2]
      have e1 : (!(src == .reg .pc && dst.isMem)) = true := by
        simp only [Bool.not_eq_true', Bool.and_eq_false_iff, beq_eq_false_iff_ne]
        by_cases hs : src = .reg .pc
        · right; simpa [hs] using h1
        · left; exact hs
      have e2 : (!(sh.setsFlags && sh.writesDst && dst == .reg .sr)) = true := by
        simp only [Bool.not_eq_true', Bool.and_eq_false_iff, beq_eq_false_iff_ne]
        by_cases hs : sh.setsFlags = true
        · by_cases hw : sh.writesDst = true
          · right; intro hd; exact h2 ⟨hs, hw, hd⟩
          · left; right; simpa using hw
        · left; left; simpa using hs
      simp only [e1, e2, Bool.true_and, Bool.and_eq_true, andThen_eq_next, srcOperand_eq_next,
        dstLocation_eq_next, finish_eq_next]
      have hc : ∀ a : State, a.cfg = s.cfg → (dstDone dst a).cfg = a.cfg := by intros; simp
      constructor
      · rintro ⟨_, ⟨g1, rfl⟩, _, ⟨g2, rfl⟩, b, hb, g4, rfl⟩
        rw [readDst_eq_next (by simp)] at hb
        obtain ⟨g3, rfl⟩ := hb
        simp only [srcDone_cfg, State.skipWord_cfg] at g3 g4 ⊢
        exact ⟨⟨⟨g1, g2⟩, g3⟩, _, rfl, g4, rfl⟩
      · rintro ⟨⟨⟨g1, g2⟩, g3⟩, _, rfl, g4, rfl⟩
        refine ⟨_, ⟨g1, rfl⟩, _, ⟨g2, rfl⟩, _, (readDst_eq_next (by simp)).mpr ⟨?_, rfl⟩, ?_, ?_⟩
        · simpa only [srcDone_cfg, State.skipWord_cfg] using g3
        · simpa only [srcDone_cfg, State.skipWord_cfg, state2, place2, dst2, src2] using g4
        · simp only [srcDone_cfg, State.skipWord_cfg, state2, place2, dst2, src2]

/-! ## Format II -/

/-- R180: what RRC, RRA, SWPB and SXT do. -/
theorem singleOp_eq_next {flags : Bool} {alu : Nat → Bool → Word → AluOut} {w : Width} {op : Src}
    {s t : State} :
    singleOp flags alu w op s = .next t ↔
      (!op.isConst && !(flags && op == .reg .sr) && ready1 w op s) = true ∧
      ∃ out, out = alu (state1 w op s).draws (state1 w op s).carry (val1 w op s) ∧
        putReady w (place1 w op s) out.res ((state1 w op s).takeDraws out.used) = true ∧
        t = (putAt w (place1 w op s) out.res ((state1 w op s).takeDraws out.used)).setFlags out.flags := by
  unfold singleOp ready1
  by_cases h1 : op.isConst = true
  · simp [h1]
  · by_cases h2 : flags = true ∧ op = .reg .sr
    · rw [if_neg h1, if_pos h2]
      simp [h2.1, h2.2]
    · rw [if_neg h1, if_neg h2]
      have e2 : (!(flags && op == .reg .sr)) = true := by
        simp only [Bool.not_eq_true', Bool.and_eq_false_iff, beq_eq_false_iff_ne]
        by_cases hs : flags = true
        · right; intro hd; exact h2 ⟨hs, hd⟩
        · left; simpa using hs
      simp only [h1, e2, Bool.not_false, Bool.true_and, Bool.and_eq_true, andThen_eq_next,
        opLocation_eq_next, readLoc_eq_next, writeLoc_eq_next, Host.Outcome.next.injEq]
      constructor
      · rintro ⟨_, ⟨g1, rfl⟩, _, ⟨g2, rfl⟩, _, ⟨g3, rfl⟩, rfl⟩
        exact ⟨⟨g1, g2⟩, _, rfl, g3, rfl⟩
      · rintro ⟨⟨g1, g2⟩, _, rfl, g3, rfl⟩
        exact ⟨_, ⟨g1, rfl⟩, _, ⟨g2, rfl⟩, _, ⟨g3, rfl⟩, rfl⟩

theorem operandValue_eq_next {w : Width} {op : Src} {s : State} {p : Word × State} :
    operandValue w op s = .next p ↔ ready1 w op s = true ∧ p = (val1 w op s, state1 w op s) := by
  unfold operandValue ready1
  simp only [andThen_eq_next, opLocation_eq_next, readLoc_eq_next, Bool.and_eq_true]
  constructor
  · rintro ⟨_, ⟨g1, rfl⟩, g2, rfl⟩; exact ⟨⟨g1, g2⟩, rfl⟩
  · rintro ⟨⟨g1, g2⟩, rfl⟩; exact ⟨_, ⟨g1, rfl⟩, g2, rfl⟩

theorem pushValue_eq_next {w : Width} {v : Word} {s t : State} :
    pushValue w v s = .next t ↔ pushReady w s = true ∧ t = pushed w v s := by
  unfold pushValue pushReady pushed
  simp only [andThen_eq_next, writeReg_eq_next, storeMem_eq_next, Bool.and_eq_true, Bool.not_eq_true']
  constructor
  · rintro ⟨_, ⟨g1, rfl⟩, ⟨g2, g3⟩, rfl⟩; exact ⟨⟨⟨g1, g2⟩, g3⟩, rfl⟩
  · rintro ⟨⟨⟨g1, g2⟩, g3⟩, rfl⟩; exact ⟨_, ⟨g1, rfl⟩, ⟨g2, g3⟩, rfl⟩

/-- R185: what PUSH does. -/
theorem execPush_eq_next {w : Width} {op : Src} {s t : State} :
    execPush w op s = .next t ↔
      op ≠ .reg .sp ∧ (ready1 w op s && pushReady w (state1 w op s)) = true ∧
        t = pushed w (val1 w op s) (state1 w op s) := by
  unfold execPush
  by_cases h : op = .reg .sp
  · simp [h]
  · simp only [h, if_false, andThen_eq_next, operandValue_eq_next, pushValue_eq_next, Bool.and_eq_true, ne_eq,
      not_false_iff, true_and]
    constructor
    · rintro ⟨_, ⟨g1, rfl⟩, g2, rfl⟩; exact ⟨⟨g1, g2⟩, rfl⟩
    · rintro ⟨⟨g1, g2⟩, rfl⟩; exact ⟨_, ⟨g1, rfl⟩, g2, rfl⟩

/-- R186: what CALL does. -/
theorem execCall_eq_next {op : Src} {s t : State} :
    execCall op s = .next t ↔
      (ready1 .word op s && pushReady .word (state1 .word op s)
        && storable s.cfg .pc (val1 .word op s)) = true ∧
        t = (pushed .word (state1 .word op s).regs.pc (state1 .word op s)).put .pc
          (stored .pc (val1 .word op s)) := by
  unfold execCall
  simp only [andThen_eq_next, operandValue_eq_next, pushValue_eq_next, writeReg_eq_next, Bool.and_eq_true]
  constructor
  · rintro ⟨_, ⟨g1, rfl⟩, _, ⟨g2, rfl⟩, g3, rfl⟩
    exact ⟨⟨⟨g1, g2⟩, by simpa using g3⟩, rfl⟩
  · rintro ⟨⟨⟨g1, g2⟩, g3⟩, rfl⟩
    exact ⟨_, ⟨g1, rfl⟩, _, ⟨g2, rfl⟩, by simpa using g3, rfl⟩

end Sys2Proof.Machine
end

