-- ==== Sys2Proof/Laws/Frames.lean ====
section
/-! SUPPORT. What operand resolution, reading and writing leave alone. -/

namespace Sys2Proof.Machine

/-! ## Reading operands changes no memory, no peripheral register and no SR -/

@[simp] theorem srcDone_mem (w : Width) (o : Src) (s : State) : (srcDone w o s).mem = s.mem := by
  cases o <;> simp [srcDone]
@[simp] theorem dstDone_mem (d : Dst) (s : State) : (dstDone d s).mem = s.mem := by
  unfold dstDone; split <;> simp
@[simp] theorem opDone_mem (w : Width) (o : Src) (s : State) : (opDone w o s).mem = s.mem := by
  cases o <;> simp [opDone]
@[simp] theorem locDone_mem (w : Width) (l : Loc) (s : State) : (locDone w l s).mem = s.mem := by
  cases l <;> simp [locDone]
@[simp] theorem state2_mem (sh : Shape) (w : Width) (src : Src) (dst : Dst) (s : State) :
    (state2 sh w src dst s).mem = s.mem := by
  unfold state2; dsimp only; split <;> simp
@[simp] theorem state1_mem (w : Width) (o : Src) (s : State) : (state1 w o s).mem = s.mem := by
  simp [state1]

@[simp] theorem srcDone_periph (w : Width) (o : Src) (s : State) : (srcDone w o s).periph = s.periph := by
  cases o <;> simp [srcDone]
@[simp] theorem dstDone_periph (d : Dst) (s : State) : (dstDone d s).periph = s.periph := by
  unfold dstDone; split <;> simp
@[simp] theorem opDone_periph (w : Width) (o : Src) (s : State) : (opDone w o s).periph = s.periph := by
  cases o <;> simp [opDone]
@[simp] theorem locDone_periph (w : Width) (l : Loc) (s : State) : (locDone w l s).periph = s.periph := by
  cases l <;> simp [locDone]
@[simp] theorem state2_periph (sh : Shape) (w : Width) (src : Src) (dst : Dst) (s : State) :
    (state2 sh w src dst s).periph = s.periph := by
  unfold state2; dsimp only; split <;> simp
@[simp] theorem state1_periph (w : Width) (o : Src) (s : State) : (state1 w o s).periph = s.periph := by
  simp [state1]

@[simp] theorem srcDone_resetFlags (w : Width) (o : Src) (s : State) : (srcDone w o s).resetFlags = s.resetFlags := by
  cases o <;> simp [srcDone]
@[simp] theorem dstDone_resetFlags (d : Dst) (s : State) : (dstDone d s).resetFlags = s.resetFlags := by
  unfold dstDone; split <;> simp
@[simp] theorem opDone_resetFlags (w : Width) (o : Src) (s : State) : (opDone w o s).resetFlags = s.resetFlags := by
  cases o <;> simp [opDone]
@[simp] theorem locDone_resetFlags (w : Width) (l : Loc) (s : State) : (locDone w l s).resetFlags = s.resetFlags := by
  cases l <;> simp [locDone]
@[simp] theorem state2_resetFlags (sh : Shape) (w : Width) (src : Src) (dst : Dst) (s : State) :
    (state2 sh w src dst s).resetFlags = s.resetFlags := by
  unfold state2; dsimp only; split <;> simp
@[simp] theorem state1_resetFlags (w : Width) (o : Src) (s : State) : (state1 w o s).resetFlags = s.resetFlags := by
  simp [state1]

@[simp] theorem srcDone_inputs (w : Width) (o : Src) (s : State) : (srcDone w o s).inputs = s.inputs := by
  cases o <;> simp [srcDone]
@[simp] theorem dstDone_inputs (d : Dst) (s : State) : (dstDone d s).inputs = s.inputs := by
  unfold dstDone; split <;> simp
@[simp] theorem opDone_inputs (w : Width) (o : Src) (s : State) : (opDone w o s).inputs = s.inputs := by
  cases o <;> simp [opDone]
@[simp] theorem locDone_inputs (w : Width) (l : Loc) (s : State) : (locDone w l s).inputs = s.inputs := by
  cases l <;> simp [locDone]
@[simp] theorem state2_inputs (sh : Shape) (w : Width) (src : Src) (dst : Dst) (s : State) :
    (state2 sh w src dst s).inputs = s.inputs := by
  unfold state2; dsimp only; split <;> simp
@[simp] theorem state1_inputs (w : Width) (o : Src) (s : State) : (state1 w o s).inputs = s.inputs := by
  simp [state1]

@[simp] theorem srcDone_resetRequested (w : Width) (o : Src) (s : State) : (srcDone w o s).resetRequested = s.resetRequested := by
  cases o <;> simp [srcDone]
@[simp] theorem dstDone_resetRequested (d : Dst) (s : State) : (dstDone d s).resetRequested = s.resetRequested := by
  unfold dstDone; split <;> simp
@[simp] theorem opDone_resetRequested (w : Width) (o : Src) (s : State) : (opDone w o s).resetRequested = s.resetRequested := by
  cases o <;> simp [opDone]
@[simp] theorem locDone_resetRequested (w : Width) (l : Loc) (s : State) : (locDone w l s).resetRequested = s.resetRequested := by
  cases l <;> simp [locDone]
@[simp] theorem state2_resetRequested (sh : Shape) (w : Width) (src : Src) (dst : Dst) (s : State) :
    (state2 sh w src dst s).resetRequested = s.resetRequested := by
  unfold state2; dsimp only; split <;> simp
@[simp] theorem state1_resetRequested (w : Width) (o : Src) (s : State) : (state1 w o s).resetRequested = s.resetRequested := by
  simp [state1]

theorem srcDone_get {w : Width} {o : Src} {s : State} {r : Reg} (hp : r ≠ .pc) (ho : o ≠ .autoInc r) :
    (srcDone w o s).get r = s.get r := by
  cases o with
  | autoInc q =>
    have : r ≠ q := fun h => ho (by rw [h])
    simp [srcDone, State.get_put_of_ne _ _ _ _ this]
  | const c => rfl
  | reg q => rfl
  | indexed q x => simp [srcDone, hp]
  | symbolic x => simp [srcDone, hp]
  | absolute a => simp [srcDone, hp]
  | indirect q => simp [srcDone]
  | imm n => simp [srcDone, hp]

theorem dstDone_get {d : Dst} {s : State} {r : Reg} (hp : r ≠ .pc) : (dstDone d s).get r = s.get r := by
  unfold dstDone; split <;> simp [hp]

theorem opDone_get {w : Width} {o : Src} {s : State} {r : Reg} (hp : r ≠ .pc) (ho : o ≠ .autoInc r) :
    (opDone w o s).get r = s.get r := by
  cases o with
  | autoInc q =>
    have : r ≠ q := fun h => ho (by rw [h])
    simp [opDone, State.get_put_of_ne _ _ _ _ this]
  | const c => rfl
  | reg q => rfl
  | indexed q x => simp [opDone, hp]
  | symbolic x => simp [opDone, hp]
  | absolute a => simp [opDone, hp]
  | indirect q => rfl
  | imm n => simp [opDone, hp]

@[simp] theorem locDone_get (w : Width) (l : Loc) (s : State) (r : Reg) :
    (locDone w l s).get r = s.get r := by
  cases l <;> simp [locDone]

/-- Reading a Format I instruction's operands changes PC and an auto-incremented register only. -/
theorem state2_get {sh : Shape} {w : Width} {src : Src} {dst : Dst} {s : State} {r : Reg}
    (hp : r ≠ .pc) (ho : src ≠ .autoInc r) : (state2 sh w src dst s).get r = s.get r := by
  unfold state2
  dsimp only
  split <;> simp [dstDone_get hp, srcDone_get hp ho, hp]

/-- Reading a Format II instruction's operand changes PC and an auto-incremented register only. -/
theorem state1_get {w : Width} {o : Src} {s : State} {r : Reg} (hp : r ≠ .pc) (ho : o ≠ .autoInc r) :
    (state1 w o s).get r = s.get r := by
  simp [state1, opDone_get hp ho, hp]

/-- No addressing mode auto-increments SR. -/
theorem state2_sr {sh : Shape} {w : Width} {src : Src} {dst : Dst} {s : State}
    (h : ready2 sh w src dst s = true) : (state2 sh w src dst s).regs.sr = s.regs.sr := by
  refine state2_get (r := .sr) (by simp) ?_
  rintro rfl
  simp [ready2, srcReady, Reg.isBase] at h

theorem state1_sr {w : Width} {o : Src} {s : State} (h : ready1 w o s = true) :
    (state1 w o s).regs.sr = s.regs.sr := by
  refine state1_get (r := .sr) (by simp) ?_
  rintro rfl
  simp [ready1, opReady, Reg.isBase] at h

/-! ## Writing a result -/

theorem putAt_get {w : Width} {l : Loc} {v : Word} {s : State} {r : Reg} (h : l ≠ .reg r) :
    (putAt w l v s).get r = s.get r := by
  cases l with
  | reg q =>
    have : r ≠ q := fun e => h (by rw [e])
    simp [putAt, State.get_put_of_ne _ _ _ _ this]
  | mem ea => simp [putAt]
  | const c => rfl
  | bucket => rfl

theorem putAt_mem_of_reg (w : Width) (r : Reg) (v : Word) (s : State) :
    (putAt w (.reg r) v s).mem = s.mem := rfl

theorem putAt_mem_eq {w : Width} {l : Loc} {v : Word} {s : State} (h : ∀ ea, l ≠ .mem ea) :
    (putAt w l v s).mem = s.mem ∧ (putAt w l v s).periph = s.periph := by
  cases l with
  | mem ea => exact absurd rfl (h ea)
  | reg r => exact ⟨rfl, rfl⟩
  | const c => exact ⟨rfl, rfl⟩
  | bucket => exact ⟨rfl, rfl⟩

theorem putAt_read_other {w : Width} {ea : Word} {v : Word} {s : State} {x : Nat}
    (h : x ∉ storedBytes w ea) : Memory.read (putAt w (.mem ea) v s).mem x = Memory.read s.mem x :=
  read_afterWrite_other w ea v s x h

/-! ## The flags -/

theorem getLsbD_apply (f : FlagUpdate) (sr : Word) (i : Nat) :
    (f.apply sr).getLsbD i =
      if i = bitV then f.v.getD (sr.getLsbD i) else if i = bitN then f.n.getD (sr.getLsbD i)
      else if i = bitZ then f.z.getD (sr.getLsbD i) else if i = bitC then f.c.getD (sr.getLsbD i)
      else sr.getLsbD i := by
  have key : ∀ (k : Nat) (b : Option Bool) (x : Word), k < 16 →
      (setFlag k b x).getLsbD i = if i = k then b.getD (x.getLsbD i) else x.getLsbD i := by
    intro k b x hk
    cases b with
    | none => simp [setFlag]
    | some b =>
      simp only [setFlag, getLsbD_setBit _ _ _ _ hk]
      split <;> simp
  unfold FlagUpdate.apply
  rw [key _ _ _ (by decide), key _ _ _ (by decide), key _ _ _ (by decide), key _ _ _ (by decide)]
  by_cases h8 : i = bitV
  · subst h8; simp [bitV, bitN, bitZ, bitC]
  · by_cases h2 : i = bitN
    · subst h2; simp [bitV, bitN, bitZ, bitC]
    · by_cases h1 : i = bitZ
      · subst h1; simp [bitV, bitN, bitZ, bitC]
      · simp [h8, h2, h1]

/-- R33 (a): the flag update keeps GIE, the low-power bits and the reserved bits. -/
theorem apply_and_flagless (f : FlagUpdate) (sr : Word) : f.apply sr &&& 0xFEF8 = sr &&& 0xFEF8 := by
  have h : ∀ (k : Nat) (b : Option Bool) (x : Word), k < 16 → (0xFEF8#16).getLsbD k = false →
      setFlag k b x &&& 0xFEF8 = x &&& 0xFEF8 := by
    intro k b x hk hm
    cases b with
    | none => rfl
    | some b => exact setBit_and_of_bit hk hm
  unfold FlagUpdate.apply
  rw [h _ _ _ (by decide) (by decide), h _ _ _ (by decide) (by decide), h _ _ _ (by decide) (by decide),
    h _ _ _ (by decide) (by decide)]

end Sys2Proof.Machine
end

