-- ==== Sys2Proof/Laws/Completion.lean ====
section
/-! SUPPORT. How a Format I or II instruction completes: the direction of `doubleOp_eq_next` and
`singleOp_eq_next` that gives a next state, in the terms of Safety.lean, and the bounds of operand values. -/

namespace Sys2Proof.Machine

theorem srcVal_lt (w : Width) (o : Src) (s : State) : (srcVal w o s).toNat < 2 ^ nBits w := by
  cases o <;> first | exact truncTo_lt _ _ | exact valueAt_lt _ _ _

theorem locVal_dstPlace_lt (w : Width) (d : Dst) (s t : State) :
    (locVal w (dstPlace d s) t).toNat < 2 ^ nBits w := by
  cases d with
  | reg r => exact truncTo_lt _ _
  | bucket => show 0 < _; cases w <;> decide
  | indexed r x => exact valueAt_lt _ _ _
  | symbolic x => exact valueAt_lt _ _ _
  | absolute a => exact valueAt_lt _ _ _

/-- A source value fits the operand width. -/
theorem src2_lt (w : Width) (src : Src) (s : State) : (src2 w src s).toNat < 2 ^ nBits w :=
  srcVal_lt _ _ _

/-- A destination value fits the operand width. -/
theorem dst2_lt (w : Width) (src : Src) (dst : Dst) (s : State) :
    (dst2 w src dst s).toNat < 2 ^ nBits w :=
  locVal_dstPlace_lt _ _ _ _

theorem locVal_opPlace_lt (w : Width) (o : Src) (s t : State) :
    (locVal w (opPlace w o s) t).toNat < 2 ^ nBits w := by
  cases o <;> first | exact truncTo_lt _ _ | exact valueAt_lt _ _ _

/-- A single operand's value fits the operand width. -/
theorem val1_lt (w : Width) (o : Src) (s : State) : (val1 w o s).toNat < 2 ^ nBits w :=
  locVal_opPlace_lt _ _ _ _

theorem putReady_takeDraws (w : Width) (l : Loc) (v : Word) (s : State) (n : Nat) :
    putReady w l v (s.takeDraws n) = putReady w l v s := by cases l <;> rfl

theorem ready2_of_canFinish {sh : Shape} {w : Width} {src : Src} {dst : Dst} {s : State} {r : Word}
    (h : canFinish sh w src dst s r = true) : ready2 sh w src dst s = true := by
  simp only [canFinish, Bool.and_eq_true] at h
  exact h.1

theorem ready1_of_canFinish1 {flags : Bool} {w : Width} {o : Src} {s : State} {r : Word}
    (h : canFinish1 flags w o s r = true) : ready1 w o s = true := by
  simp only [canFinish1, Bool.and_eq_true] at h
  exact h.1.2

/-- Reading the operands changes no flag. -/
theorem state2_carry {sh : Shape} {w : Width} {src : Src} {dst : Dst} {s : State}
    (h : ready2 sh w src dst s = true) : (state2 sh w src dst s).carry = s.carry := by
  simp only [State.carry, state2_sr h]

/-- Reading the operand changes no flag. -/
theorem state1_carry {w : Width} {o : Src} {s : State} (h : ready1 w o s = true) :
    (state1 w o s).carry = s.carry := by
  simp only [State.carry, state1_sr h]

/-- A Format I instruction that reads its destination completes with what its computation gives. -/
theorem doubleOp_of_canFinish {sh : Shape} {alu : Nat → Bool → Word → Word → AluOut} {w : Width}
    {src : Src} {dst : Dst} {s : State} {res : Word} {f : FlagUpdate} {n : Nat}
    (hr : sh.readsDst = true) (h : canFinish sh w src dst s res = true)
    (ho : alu (state2 sh w src dst s).draws s.carry (src2 w src s) (dst2 w src dst s) = ⟨res, f, n⟩) :
    doubleOp sh alu w src dst s = .next (finished sh w src dst s n res f) := by
  rw [doubleOp_eq_next]
  refine ⟨ready2_of_canFinish h, ⟨res, f, n⟩, ?_, ?_, rfl⟩
  · rw [if_pos hr, state2_carry (ready2_of_canFinish h)]
    exact ho.symm
  · simp only [canFinish, Bool.and_eq_true] at h
    rw [putReady_takeDraws]
    exact h.2

/-- MOV and its emulated forms complete with the source value. -/
theorem doubleOp_move {w : Width} {src : Src} {dst : Dst} {s : State}
    (h : canFinish moveShape w src dst s (src2 w src s) = true) :
    doubleOp moveShape (fun _ _ a b => movAlu a b) w src dst s =
      .next (finished moveShape w src dst s 0 (src2 w src s) FlagUpdate.none) := by
  rw [doubleOp_eq_next]
  refine ⟨ready2_of_canFinish h, movAlu (src2 w src s) 0, rfl, ?_, rfl⟩
  simp only [canFinish, Bool.and_eq_true] at h
  show (_ || putReady _ _ (src2 w src s) _) = true
  rw [putReady_takeDraws]
  exact h.2

/-- CMP, BIT and TST complete with their flags alone. -/
theorem doubleOp_test {alu : Nat → Bool → Word → Word → AluOut} {w : Width} {src : Src} {dst : Dst}
    {s : State} {res : Word} {f : FlagUpdate} (h : ready2 testShape w src dst s = true)
    (ho : alu (state2 testShape w src dst s).draws s.carry (src2 w src s) (dst2 w src dst s) = ⟨res, f, 0⟩) :
    doubleOp testShape alu w src dst s = .next ((state2 testShape w src dst s).setFlags f) :=
  doubleOp_of_canFinish (sh := testShape) rfl
    (by simp only [canFinish, h, Bool.true_and]; rfl) ho

/-- RRC, RRA, SWPB and SXT complete with what their computation gives. -/
theorem singleOp_of_canFinish1 {flags : Bool} {alu : Nat → Bool → Word → AluOut} {w : Width} {o : Src}
    {s : State} {res : Word} {f : FlagUpdate} {n : Nat} (h : canFinish1 flags w o s res = true)
    (ho : alu (state1 w o s).draws s.carry (val1 w o s) = ⟨res, f, n⟩) :
    singleOp flags alu w o s = .next (finished1 w o s n res f) := by
  rw [singleOp_eq_next]
  have hr := ready1_of_canFinish1 h
  simp only [canFinish1, Bool.and_eq_true] at h
  refine ⟨?_, ⟨res, f, n⟩, ?_, ?_, rfl⟩
  · simp only [Bool.and_eq_true]; exact h.1
  · rw [state1_carry hr]; exact ho.symm
  · rw [putReady_takeDraws]; exact h.2

end Sys2Proof.Machine
end

