-- ==== Sys2Proof/Laws/Peripherals.lean ====
section
/-! SUPPORT. The printed peripheral registers: which bits a write, a move of the peripheral hardware and an
acceptance change, and what becomes of the requests. -/

namespace Sys2Proof.Machine

/-! ## The set of requests -/

@[simp] theorem mem_withdraw {p q : IrqSource} {ps : List IrqSource} :
    q ∈ withdraw p ps ↔ q ∈ ps ∧ q ≠ p := by
  simp [withdraw]

@[simp] theorem mem_raise {p q : IrqSource} {ps : List IrqSource} : q ∈ raise p ps ↔ q = p ∨ q ∈ ps := by
  unfold raise
  split
  · exact ⟨.inr, fun h => h.elim (fun e => e ▸ ‹p ∈ ps›) id⟩
  · exact List.mem_cons

@[simp] theorem mem_request {p q : IrqSource} {b : Bool} {ps : List IrqSource} :
    q ∈ request p b ps ↔ q = p ∧ b = true ∨ q ≠ p ∧ q ∈ ps := by
  unfold request
  by_cases h : q = p <;> cases b <;> simp [h]

theorem mem_foldr_raise {q : IrqSource} {rs ps : List IrqSource} : q ∈ rs.foldr raise ps ↔ q ∈ rs ∨ q ∈ ps := by
  induction rs with
  | nil => simp
  | cons p t ih => rw [List.foldr_cons, mem_raise, ih, List.mem_cons, or_assoc]

theorem mem_foldr_withdraw {q : IrqSource} {ws ps : List IrqSource} :
    q ∈ ws.foldr withdraw ps ↔ q ∈ ps ∧ q ∉ ws := by
  induction ws with
  | nil => simp
  | cons p t ih => rw [List.foldr_cons, mem_withdraw, ih, List.mem_cons, not_or, and_assoc, and_comm (a := q ∉ t)]

theorem nodup_withdraw {p : IrqSource} {ps : List IrqSource} (h : ps.Nodup) : (withdraw p ps).Nodup :=
  h.filter _

theorem nodup_raise {p : IrqSource} {ps : List IrqSource} (h : ps.Nodup) : (raise p ps).Nodup := by
  unfold raise
  split
  · exact h
  · exact List.nodup_cons.mpr ⟨‹_›, h⟩

theorem nodup_request {p : IrqSource} {b : Bool} {ps : List IrqSource} (h : ps.Nodup) :
    (request p b ps).Nodup := by
  cases b
  · exact nodup_withdraw h
  · exact nodup_raise h

theorem nodup_flagRequests {r : PeriphReg} {p : Periph} {ps : List IrqSource} (h : ps.Nodup) :
    (flagRequests r p ps).Nodup := by
  cases r <;> first | exact h | exact nodup_request h

theorem nodup_writeRequests {r : PeriphReg} {p : Periph} {ps : List IrqSource} (h : ps.Nodup) :
    (writeRequests r p ps).Nodup := by
  unfold writeRequests
  split
  · exact nodup_withdraw h
  · exact nodup_flagRequests h

/-! ## The bits -/

/-- Every bit of every register after one register is set. -/
theorem Periph.get_set (p : Periph) (r q : PeriphReg) (v : Word) :
    (p.set r v).get q = if q = r ∧ heldMask r ≠ 0 then v else p.get q := by
  by_cases h : q = r
  · subst h
    by_cases h0 : heldMask q = 0
    · rw [if_neg (by simp [h0])]
      cases q <;> first | rfl | exact absurd h0 (by decide)
    · rw [if_pos ⟨rfl, h0⟩, Periph.get_set_self _ _ _ h0]
  · rw [if_neg (by simp [h]), Periph.get_set_of_ne _ _ _ _ h]

/-- A bit that software does not write stays; of the others those left open are free (log entry 9). -/
theorem Periph.getLsbD_writeValue (p : Periph) (r : PeriphReg) (v d : Word) (k : Nat) (h : r ≠ .uca0txbuf) :
    (p.writeValue r v d).getLsbD k =
      if (softMask r).getLsbD k then
        (if (p.openBits r).getLsbD k then d.getLsbD k else v.getLsbD k)
      else (p.get r).getLsbD k := by
  unfold Periph.writeValue
  simp only [h, false_and, if_false, getLsbD_mixBits]

/-- A read gives what is held, and free values in the bits that show the outside. -/
theorem Periph.getLsbD_readValue (p : Periph) (r : PeriphReg) (d : Word) (k : Nat) (h : r ≠ .uca0rxbuf) :
    (p.readValue r d).getLsbD k =
      if (inputMask r).getLsbD k then d.getLsbD k
      else (p.get r).getLsbD k && (heldMask r).getLsbD k := by
  unfold Periph.readValue
  simp only [h, false_and, if_false, getLsbD_mixBits, BitVec.getLsbD_and]

theorem Periph.getLsbD_deviceValue (p : Periph) (r : PeriphReg) (v : Word) (k : Nat) :
    (p.deviceValue r v).getLsbD k =
      if (deviceMask r).getLsbD k then v.getLsbD k else (p.get r).getLsbD k := by
  unfold Periph.deviceValue
  rw [getLsbD_mixBits]

/-- The peripheral hardware changes its own bits only. -/
theorem State.deviceMove_get (s : State) (m : DeviceMove) (q : PeriphReg) :
    (s.deviceMove m).periph.get q &&& ~~~(deviceMask q) = s.periph.get q &&& ~~~(deviceMask q) := by
  rw [State.deviceMove_periph, Periph.get_set]
  split
  · rename_i h
    rw [h.1]
    apply BitVec.eq_of_getLsbD_eq
    intro k hk
    simp only [BitVec.getLsbD_and, BitVec.getLsbD_not, Periph.getLsbD_deviceValue]
    cases (deviceMask m.reg).getLsbD k <;> simp
  · rfl

theorem State.deviceMoves_get (s : State) (ms : List DeviceMove) (q : PeriphReg) :
    (s.deviceMoves ms).periph.get q &&& ~~~(deviceMask q) = s.periph.get q &&& ~~~(deviceMask q) := by
  induction ms generalizing s with
  | nil => rfl
  | cons m t ih => exact (ih _).trans (s.deviceMove_get m q)

/-- A boundary changes no bit of a peripheral register that is not the hardware's. -/
theorem State.nextBoundary_get (s : State) (q : PeriphReg) :
    s.nextBoundary.periph.get q &&& ~~~(deviceMask q) = s.periph.get q &&& ~~~(deviceMask q) := by
  unfold State.nextBoundary
  split
  · rfl
  · exact s.deviceMoves_get _ q

theorem nodup_deviceMoves {s : State} (ms : List DeviceMove) (h : s.pending.Nodup) :
    (s.deviceMoves ms).pending.Nodup := by
  induction ms generalizing s with
  | nil => exact h
  | cons m t ih => exact ih (nodup_flagRequests h)

theorem State.nextBoundary_nodup {s : State} (h : s.pending.Nodup) : s.nextBoundary.pending.Nodup := by
  unfold State.nextBoundary
  split
  · exact h
  · rename_i b _ _
    have h0 := nodup_deviceMoves b.device h
    have h1 : (b.withdrawn.foldr withdraw (s.deviceMoves b.device).pending).Nodup := by
      induction b.withdrawn with
      | nil => exact h0
      | cons p t ih => exact nodup_withdraw ih
    show (b.raised.foldr raise _).Nodup
    induction b.raised with
    | nil => exact h1
    | cons p t ih => exact nodup_raise ih

/-- What the environment's next input does to the requests: the device's moves, then withdrawals, then requests
raised. -/
theorem State.mem_nextBoundary_pending {s : State} {b : BoundaryInput} {rest : List BoundaryInput}
    {q : IrqSource} (h : s.inputs = b :: rest) :
    q ∈ s.nextBoundary.pending ↔ q ∈ b.raised ∨ q ∈ (s.deviceMoves b.device).pending ∧ q ∉ b.withdrawn := by
  unfold State.nextBoundary
  rw [h]
  show q ∈ b.raised.foldr raise (b.withdrawn.foldr withdraw (s.deviceMoves b.device).pending) ↔ _
  rw [mem_foldr_raise, mem_foldr_withdraw]

/-! ## Acceptance (R309) -/

/-- Acceptance clears one bit at most: ADC10IFG, or the CCIFG of a block with a vector of its own. -/
theorem Periph.acceptFlag_get (p : Periph) (i : IrqSource) (r : PeriphReg) :
    (p.acceptFlag i).get r =
      if i = .adc10 ∧ r = .adc10ctl0 then setBit (p.get r) 2 false
      else if i = .timer0Ccr0 ∧ r = .ta0cctl0 ∨ i = .timer1Ccr0 ∧ r = .ta1cctl0 then setBit (p.get r) 0 false
      else p.get r := by
  cases i <;> cases r <;> rfl

end Sys2Proof.Machine
end

