-- ==== Sys2Proof/Laws/Events.lean ====
section
/-! SUPPORT. Taking an interrupt, reset, and one step: `enterInterrupt_eq_next`, `performReset_eq_next`,
`runInstr_eq_next` and `step_eq_next` say everything each can do when it answers. -/

namespace Sys2Proof.Machine

/-- SP less 2 can be written and stored at. -/
def canPush (s : State) : Bool :=
  storable s.cfg .sp (s.regs.sp - 2) && writable s.cfg .word (stored .sp (s.regs.sp - 2))

/-- The state of interrupt entry after SR is pushed and cleared (R308). -/
def entryCleared (s : State) : State :=
  let u := pushed .word s.regs.sr (pushed .word s.regs.pc s)
  (u.takeDraws 1).put .sr
    (setBit 0 bitSCG0 (s.regs.sr.getLsbD bitSCG0 && (Config.freeWord u.draws).getLsbD 0))

/-- R308: what taking an interrupt does. -/
theorem enterInterrupt_eq_next {p : IrqSource} {s t : State} :
    enterInterrupt p s = .next t ↔
      ∃ v u, (canPush s && canPush (pushed .word s.regs.pc s)
          && readable s.cfg .word (vectorAddr (priority p))) = true ∧
        v = valueAt .word (vectorAddr (priority p)) (entryCleared s) ∧
        u = afterRead .word (vectorAddr (priority p)) (entryCleared s) ∧
        storable s.cfg .pc v = true ∧
        t = { u.put .pc (stored .pc v) with
              periph := u.periph.acceptFlag p
              events := .accepted p :: u.events
              pending := if clearedByAcceptance p then withdraw p u.pending else u.pending } := by
  have hsr : (pushed .word s.regs.pc s).regs.sr = s.regs.sr := by simp [pushed]
  have hsr2 : (pushed .word s.regs.sr (pushed .word s.regs.pc s)).regs.sr = s.regs.sr := by simp [pushed]
  have hcfg : (entryCleared s).cfg = s.cfg := by simp [entryCleared, pushed]
  unfold enterInterrupt canPush
  simp only [andThen_eq_next, pushWord_eq_next, readMem_eq_next, writeReg_eq_next, Bool.and_eq_true]
  constructor
  · rintro ⟨s1, ⟨h1, rfl⟩, s2, ⟨h2, rfl⟩, v, ⟨h3, rfl⟩, s4, ⟨h4, rfl⟩, h5⟩
    rw [hsr, hsr2] at h3 h4 h5
    change readable (entryCleared s).cfg _ _ = true at h3
    refine ⟨_, _, ⟨⟨h1, h2⟩, ?_⟩, rfl, rfl, ?_, ?_⟩
    · rw [hcfg] at h3; exact h3
    · have : (afterRead .word (vectorAddr (priority p)) (entryCleared s)).cfg = s.cfg := by simp [hcfg]
      rw [← this]; exact h4
    · exact (Host.Outcome.next.inj h5).symm
  · rintro ⟨v, u, ⟨⟨h1, h2⟩, h3⟩, rfl, rfl, h4, rfl⟩
    refine ⟨_, ⟨h1, rfl⟩, _, ⟨h2, rfl⟩, ?_⟩
    rw [hsr, hsr2]
    refine ⟨_, ⟨?_, rfl⟩, _, ⟨?_, rfl⟩, rfl⟩
    · change readable (entryCleared s).cfg _ _ = true
      rw [hcfg]; exact h3
    · have : (afterRead .word (vectorAddr (priority p)) (entryCleared s)).cfg = s.cfg := by simp [hcfg]
      rw [← this] at h4; exact h4

/-- R312: what a reset does. -/
theorem performReset_eq_next {c : Option ResetCause} {s t : State} :
    performReset c s = .next t ↔
      (readable s.cfg .word resetVector && storable s.cfg .pc (valueAt .word resetVector s)) = true ∧
        t = { s with
              regs := Regs.afterReset (clearBit0 (valueAt .word resetVector s))
                (fun k => Config.freeWord (s.draws + k))
              mem := if c = some .powerUp then drawBytes (ramSize s.cfg) 0x0200 (s.draws + 20) s.mem
                else s.mem
              periph := Periph.afterReset (fun k => Config.freeWord (s.draws + 13 + k))
              pending := []
              resetFlags := recordCause s.resetFlags c
              events := .reset c :: s.events
              draws := s.draws + 20 + (if c = some .powerUp then ramSize s.cfg else 0) } := by
  unfold performReset
  simp only [andThen_eq_next, readMem_eq_next, evenValue_eq_next, Bool.and_eq_true]
  constructor
  · rintro ⟨_, ⟨h1, rfl⟩, _, ⟨h2, rfl⟩, h3⟩
    exact ⟨⟨h1, h2⟩, (Host.Outcome.next.inj h3).symm⟩
  · rintro ⟨⟨h1, h2⟩, rfl⟩
    exact ⟨_, ⟨h1, rfl⟩, _, ⟨h2, rfl⟩, rfl⟩

/-- R102: what fetching does when it gives an instruction. -/
theorem fetchInstr_eq_next {s : State} {i : Instr} :
    fetchInstr s = .next i ↔
      fetchable s = true ∧ ∃ rest, decode (codeBytes s (alignTo .word s.regs.pc)) = .ok (i, rest) := by
  unfold fetchInstr
  simp only [andThen_eq_next, fetchAddr_eq_next]
  constructor
  · rintro ⟨_, ⟨h, rfl⟩, h2⟩
    refine ⟨h, ?_⟩
    split at h2
    · rename_i j r hd
      exact ⟨r, by rw [hd, Host.Outcome.next.inj h2]⟩
    · rename_i e hd
      cases e with
      | form p => cases p <;> cases h2
      | illegal w => cases h2
      | truncated => cases h2
  · rintro ⟨h, r, hd⟩
    exact ⟨_, ⟨h, rfl⟩, by rw [hd]⟩

/-- R301: an instruction that answers does what `exec` says; the only other answer is the reset that
`FAULT_ACTION = reset` performs. -/
theorem runInstr_eq_next {s t : State} :
    runInstr s = .next t ↔
      (∃ i, fetchInstr s = .next i ∧ exec i s = .next t) ∨
      (∃ f, andThen (fetchInstr s) (fun i => exec i s) = .fault f ∧ s.cfg.faultAction = .reset ∧
        performReset (causeOf f) s = .next t) := by
  unfold runInstr
  rw [← andThen_eq_next (x := fetchInstr s) (f := fun i => exec i s)]
  cases andThen (fetchInstr s) fun i => exec i s with
  | next u => simp [onFault]
  | fault f => cases h : s.cfg.faultAction <;> simp [onFault, h]
  | refused r => simp [onFault]

/-- R307: what one step does. -/
theorem step_eq_next {s t : State} :
    step s = .next t ↔
      ∃ u, t = u.nextBoundary ∧
        ((∃ c, s.resetRequested = some c ∧ performReset (some c) s = .next u) ∨
         (∃ p, s.resetRequested = none ∧ s.acceptable = some p ∧ enterInterrupt p s = .next u) ∨
         (quiet s = true ∧ s.cpuOff = true ∧ u = s) ∨
         (quiet s = true ∧ s.cpuOff = false ∧ runInstr s = .next u)) := by
  unfold step boundaryStep
  simp only [andThen_eq_next, Host.Outcome.next.injEq]
  refine exists_congr fun u => ?_
  rw [eq_comm (a := t), and_comm]
  refine and_congr_right fun _ => ?_
  unfold atBoundary quiet
  cases hr : s.resetRequested with
  | some c => simp
  | none =>
    cases ha : s.acceptable with
    | some p => simp
    | none =>
      cases hc : s.cpuOff
      · simp
      · simp [eq_comm]

end Sys2Proof.Machine
end

