-- ==== Sys2Proof/Laws/Meanings.lean ====
section
/-! SUPPORT. What each arm of `exec` is, over the shared operations: one equation for each instruction. -/

namespace Sys2Proof.Machine

theorem exec_mov (w : Width) (src : Src) (dst : Dst) (s : State) :
    exec (.mov w src dst) s =
      doubleOp moveShape (fun _ _ a b => movAlu a b) w src dst s := rfl
theorem exec_add (w : Width) (src : Src) (dst : Dst) (s : State) :
    exec (.add w src dst) s =
      doubleOp computeShape (fun _ _ a b => addAlu w a b) w src dst s := rfl
theorem exec_addc (w : Width) (src : Src) (dst : Dst) (s : State) :
    exec (.addc w src dst) s =
      doubleOp computeShape (fun _ c a b => addcAlu w c a b) w src dst s := rfl
theorem exec_subc (w : Width) (src : Src) (dst : Dst) (s : State) :
    exec (.subc w src dst) s =
      doubleOp computeShape (fun _ c a b => subcAlu w c a b) w src dst s := rfl
theorem exec_sub (w : Width) (src : Src) (dst : Dst) (s : State) :
    exec (.sub w src dst) s =
      doubleOp computeShape (fun _ _ a b => subAlu w a b) w src dst s := rfl
theorem exec_cmp (w : Width) (src : Src) (dst : Dst) (s : State) :
    exec (.cmp w src dst) s =
      doubleOp testShape (fun _ _ a b => subAlu w a b) w src dst s := rfl
theorem exec_dadd (w : Width) (src : Src) (dst : Dst) (s : State) :
    exec (.dadd w src dst) s =
      doubleOp computeShape (fun k c a b => daddAlu w k c a b) w src dst s := rfl
theorem exec_bit (w : Width) (src : Src) (dst : Dst) (s : State) :
    exec (.bit w src dst) s =
      doubleOp testShape (fun _ _ a b => andAlu w a b) w src dst s := rfl
theorem exec_bic (w : Width) (src : Src) (dst : Dst) (s : State) :
    exec (.bic w src dst) s =
      doubleOp bitsShape (fun _ _ a b => bicAlu w a b) w src dst s := rfl
theorem exec_bis (w : Width) (src : Src) (dst : Dst) (s : State) :
    exec (.bis w src dst) s =
      doubleOp bitsShape (fun _ _ a b => bisAlu a b) w src dst s := rfl
theorem exec_xor (w : Width) (src : Src) (dst : Dst) (s : State) :
    exec (.xor w src dst) s =
      doubleOp computeShape (fun _ _ a b => xorAlu w a b) w src dst s := rfl
theorem exec_and (w : Width) (src : Src) (dst : Dst) (s : State) :
    exec (.and w src dst) s =
      doubleOp computeShape (fun _ _ a b => andAlu w a b) w src dst s := rfl
theorem exec_rrc (w : Width) (op : Src) (s : State) :
    exec (.rrc w op) s =
      singleOp true (fun k c v => rrcAlu s.cfg.rrcV w k c v) w op s := rfl
theorem exec_swpb (op : Src) (s : State) :
    exec (.swpb op) s =
      singleOp false (fun _ _ v => swpbAlu v) .word op s := rfl
theorem exec_rra (w : Width) (op : Src) (s : State) :
    exec (.rra w op) s =
      singleOp true (fun _ _ v => rraAlu w v) w op s := rfl
theorem exec_sxt (op : Src) (s : State) :
    exec (.sxt op) s =
      singleOp true (fun _ _ v => sxtAlu v) .word op s := rfl
theorem exec_push (w : Width) (op : Src) (s : State) :
    exec (.push w op) s =
      execPush w op s := rfl
theorem exec_call (op : Src) (s : State) :
    exec (.call op) s =
      execCall op s := rfl
theorem exec_reti (s : State) :
    exec .reti s =
      returnFromInterrupt s.skipWord := rfl
theorem exec_jne (off : BitVec 10) (s : State) :
    exec (.jne off) s =
      jumpIf (!s.regs.sr.getLsbD bitZ) off s := rfl
theorem exec_jeq (off : BitVec 10) (s : State) :
    exec (.jeq off) s =
      jumpIf (s.regs.sr.getLsbD bitZ) off s := rfl
theorem exec_jnc (off : BitVec 10) (s : State) :
    exec (.jnc off) s =
      jumpIf (!s.regs.sr.getLsbD bitC) off s := rfl
theorem exec_jc (off : BitVec 10) (s : State) :
    exec (.jc off) s =
      jumpIf (s.regs.sr.getLsbD bitC) off s := rfl
theorem exec_jn (off : BitVec 10) (s : State) :
    exec (.jn off) s =
      jumpIf (s.regs.sr.getLsbD bitN) off s := rfl
theorem exec_jge (off : BitVec 10) (s : State) :
    exec (.jge off) s =
      jumpIf (s.regs.sr.getLsbD bitN == s.regs.sr.getLsbD bitV) off s := rfl
theorem exec_jl (off : BitVec 10) (s : State) :
    exec (.jl off) s =
      jumpIf (s.regs.sr.getLsbD bitN != s.regs.sr.getLsbD bitV) off s := rfl
theorem exec_jmp (off : BitVec 10) (s : State) :
    exec (.jmp off) s =
      jumpIf true off s := rfl
theorem exec_adc (w : Width) (dst : Dst) (s : State) :
    exec (.adc w dst) s =
      doubleOp computeShape (fun _ c a b => addcAlu w c a b) w (.const .zero) dst s := rfl
theorem exec_br (src : Src) (s : State) :
    exec (.br src) s =
      doubleOp moveShape (fun _ _ a b => movAlu a b) .word src (.reg .pc) s := rfl
theorem exec_clr (w : Width) (dst : Dst) (s : State) :
    exec (.clr w dst) s =
      doubleOp moveShape (fun _ _ a b => movAlu a b) w (.const .zero) dst s := rfl
theorem exec_clrc (s : State) :
    exec .clrc s =
      doubleOp bitsShape (fun _ _ a b => bicAlu .word a b) .word (.const .one) (.reg .sr) s := rfl
theorem exec_clrn (s : State) :
    exec .clrn s =
      doubleOp bitsShape (fun _ _ a b => bicAlu .word a b) .word (.const .four) (.reg .sr) s := rfl
theorem exec_clrz (s : State) :
    exec .clrz s =
      doubleOp bitsShape (fun _ _ a b => bicAlu .word a b) .word (.const .two) (.reg .sr) s := rfl
theorem exec_dadc (w : Width) (dst : Dst) (s : State) :
    exec (.dadc w dst) s =
      doubleOp computeShape (fun k c a b => daddAlu w k c a b) w (.const .zero) dst s := rfl
theorem exec_dec (w : Width) (dst : Dst) (s : State) :
    exec (.dec w dst) s =
      doubleOp computeShape (fun _ _ a b => subAlu w a b) w (.const .one) dst s := rfl
theorem exec_decd (w : Width) (dst : Dst) (s : State) :
    exec (.decd w dst) s =
      doubleOp computeShape (fun _ _ a b => subAlu w a b) w (.const .two) dst s := rfl
theorem exec_dint (s : State) :
    exec .dint s =
      doubleOp bitsShape (fun _ _ a b => bicAlu .word a b) .word (.const .eight) (.reg .sr) s := rfl
theorem exec_eint (s : State) :
    exec .eint s =
      doubleOp bitsShape (fun _ _ a b => bisAlu a b) .word (.const .eight) (.reg .sr) s := rfl
theorem exec_inc (w : Width) (dst : Dst) (s : State) :
    exec (.inc w dst) s =
      doubleOp computeShape (fun _ _ a b => addAlu w a b) w (.const .one) dst s := rfl
theorem exec_incd (w : Width) (dst : Dst) (s : State) :
    exec (.incd w dst) s =
      doubleOp computeShape (fun _ _ a b => addAlu w a b) w (.const .two) dst s := rfl
theorem exec_inv (w : Width) (dst : Dst) (s : State) :
    exec (.inv w dst) s =
      doubleOp computeShape (fun _ _ a b => xorAlu w a b) w (.const .minusOne) dst s := rfl
theorem exec_nop (s : State) :
    exec .nop s =
      doubleOp moveShape (fun _ _ a b => movAlu a b) .word (.const .zero) .bucket s := rfl
theorem exec_pop (w : Width) (dst : Dst) (s : State) :
    exec (.pop w dst) s =
      doubleOp moveShape (fun _ _ a b => movAlu a b) w (.autoInc .sp) dst s := rfl
theorem exec_ret (s : State) :
    exec .ret s =
      doubleOp moveShape (fun _ _ a b => movAlu a b) .word (.autoInc .sp) (.reg .pc) s := rfl
theorem exec_rla (w : Width) (dst : Dst) (s : State) :
    exec (.rla w dst) s =
      doubleOp computeShape (fun _ _ a b => addAlu w a b) w dst.asSrc dst.second s := rfl
theorem exec_rlc (w : Width) (dst : Dst) (s : State) :
    exec (.rlc w dst) s =
      doubleOp computeShape (fun _ c a b => addcAlu w c a b) w dst.asSrc dst.second s := rfl
theorem exec_sbc (w : Width) (dst : Dst) (s : State) :
    exec (.sbc w dst) s =
      doubleOp computeShape (fun _ c a b => subcAlu w c a b) w (.const .zero) dst s := rfl
theorem exec_setc (s : State) :
    exec .setc s =
      doubleOp bitsShape (fun _ _ a b => bisAlu a b) .word (.const .one) (.reg .sr) s := rfl
theorem exec_setn (s : State) :
    exec .setn s =
      doubleOp bitsShape (fun _ _ a b => bisAlu a b) .word (.const .four) (.reg .sr) s := rfl
theorem exec_setz (s : State) :
    exec .setz s =
      doubleOp bitsShape (fun _ _ a b => bisAlu a b) .word (.const .two) (.reg .sr) s := rfl
theorem exec_tst (w : Width) (dst : Dst) (s : State) :
    exec (.tst w dst) s =
      doubleOp testShape (fun _ _ a b => subAlu w a b) w (.const .zero) dst s := rfl

end Sys2Proof.Machine
end

