-- ==== Sys2Proof/Laws/PerInstr.lean ====
section
/-! SUPPORT. The statements made per instruction. LengthRule (R100, R115): an instruction is one, two or
three code words long. -/

namespace Sys2Proof.Laws.LengthRule

/-- An instruction encodes to one, two or three code words. -/
def Statement (i : Instr) : Prop := 1 ≤ i.length ∧ i.length ≤ 3

theorem ext_toList (e : Option Word) : e.toList.length ≤ 1 := by cases e <;> simp

theorem formatI (op : BitVec 4) (w : Width) (s : Src) (d : Dst) :
    1 ≤ (encodeFormatI op w s d).length ∧ (encodeFormatI op w s d).length ≤ 3 := by
  have h1 := ext_toList s.ext
  have h2 := ext_toList d.ext
  simp only [encodeFormatI, List.length_cons, List.length_append]
  omega

theorem formatII (op : BitVec 3) (w : Width) (o : Src) :
    1 ≤ (encodeFormatII op w o).length ∧ (encodeFormatII op w o).length ≤ 3 := by
  have h := ext_toList o.ext
  simp only [encodeFormatII, List.length_cons]
  omega

theorem formatIII (c : BitVec 3) (off : BitVec 10) :
    1 ≤ (encodeFormatIII c off).length ∧ (encodeFormatIII c off).length ≤ 3 := by
  simp [encodeFormatIII]

theorem mov (w : Width) (src : Src) (dst : Dst) : Statement (.mov w src dst) := formatI _ _ _ _
theorem add (w : Width) (src : Src) (dst : Dst) : Statement (.add w src dst) := formatI _ _ _ _
theorem addc (w : Width) (src : Src) (dst : Dst) : Statement (.addc w src dst) := formatI _ _ _ _
theorem subc (w : Width) (src : Src) (dst : Dst) : Statement (.subc w src dst) := formatI _ _ _ _
theorem sub (w : Width) (src : Src) (dst : Dst) : Statement (.sub w src dst) := formatI _ _ _ _
theorem cmp (w : Width) (src : Src) (dst : Dst) : Statement (.cmp w src dst) := formatI _ _ _ _
theorem dadd (w : Width) (src : Src) (dst : Dst) : Statement (.dadd w src dst) := formatI _ _ _ _
theorem bit (w : Width) (src : Src) (dst : Dst) : Statement (.bit w src dst) := formatI _ _ _ _
theorem bic (w : Width) (src : Src) (dst : Dst) : Statement (.bic w src dst) := formatI _ _ _ _
theorem bis (w : Width) (src : Src) (dst : Dst) : Statement (.bis w src dst) := formatI _ _ _ _
theorem xor (w : Width) (src : Src) (dst : Dst) : Statement (.xor w src dst) := formatI _ _ _ _
theorem and (w : Width) (src : Src) (dst : Dst) : Statement (.and w src dst) := formatI _ _ _ _
theorem rrc (w : Width) (op : Src) : Statement (.rrc w op) := formatII _ _ _
theorem swpb (op : Src) : Statement (.swpb op) := formatII _ _ _
theorem rra (w : Width) (op : Src) : Statement (.rra w op) := formatII _ _ _
theorem sxt (op : Src) : Statement (.sxt op) := formatII _ _ _
theorem push (w : Width) (op : Src) : Statement (.push w op) := formatII _ _ _
theorem call (op : Src) : Statement (.call op) := formatII _ _ _
theorem reti : Statement .reti := ⟨Nat.le_refl 1, by decide⟩
theorem jne (off : BitVec 10) : Statement (.jne off) := formatIII _ _
theorem jeq (off : BitVec 10) : Statement (.jeq off) := formatIII _ _
theorem jnc (off : BitVec 10) : Statement (.jnc off) := formatIII _ _
theorem jc (off : BitVec 10) : Statement (.jc off) := formatIII _ _
theorem jn (off : BitVec 10) : Statement (.jn off) := formatIII _ _
theorem jge (off : BitVec 10) : Statement (.jge off) := formatIII _ _
theorem jl (off : BitVec 10) : Statement (.jl off) := formatIII _ _
theorem jmp (off : BitVec 10) : Statement (.jmp off) := formatIII _ _
theorem adc (w : Width) (dst : Dst) : Statement (.adc w dst) := formatI _ _ _ _
theorem br (src : Src) : Statement (.br src) := formatI _ _ _ _
theorem clr (w : Width) (dst : Dst) : Statement (.clr w dst) := formatI _ _ _ _
theorem clrc : Statement .clrc := formatI _ _ _ _
theorem clrn : Statement .clrn := formatI _ _ _ _
theorem clrz : Statement .clrz := formatI _ _ _ _
theorem dadc (w : Width) (dst : Dst) : Statement (.dadc w dst) := formatI _ _ _ _
theorem dec (w : Width) (dst : Dst) : Statement (.dec w dst) := formatI _ _ _ _
theorem decd (w : Width) (dst : Dst) : Statement (.decd w dst) := formatI _ _ _ _
theorem dint : Statement .dint := formatI _ _ _ _
theorem eint : Statement .eint := formatI _ _ _ _
theorem inc (w : Width) (dst : Dst) : Statement (.inc w dst) := formatI _ _ _ _
theorem incd (w : Width) (dst : Dst) : Statement (.incd w dst) := formatI _ _ _ _
theorem inv (w : Width) (dst : Dst) : Statement (.inv w dst) := formatI _ _ _ _
theorem nop : Statement .nop := formatI _ _ _ _
theorem pop (w : Width) (dst : Dst) : Statement (.pop w dst) := formatI _ _ _ _
theorem ret : Statement .ret := formatI _ _ _ _
theorem rla (w : Width) (dst : Dst) : Statement (.rla w dst) := formatI _ _ _ _
theorem rlc (w : Width) (dst : Dst) : Statement (.rlc w dst) := formatI _ _ _ _
theorem sbc (w : Width) (dst : Dst) : Statement (.sbc w dst) := formatI _ _ _ _
theorem setc : Statement .setc := formatI _ _ _ _
theorem setn : Statement .setn := formatI _ _ _ _
theorem setz : Statement .setz := formatI _ _ _ _
theorem tst (w : Width) (dst : Dst) : Statement (.tst w dst) := formatI _ _ _ _

end Sys2Proof.Laws.LengthRule
end

