-- ==== Sys2Proof/Machine/Disassembly.lean ====
section
/-! DEFINITION. The text of an instruction, decoded (`disassemble`) or as the words it is (`disassembleWords`,
R119, R121): mnemonic, suffix `.B`, operands, the source first. Symbolic operands and jump targets are printed as
the absolute address. -/

namespace Sys2Proof.Machine

/-- A register's name (R21, R119). -/
def regText : Reg → String
  | .pc => "PC" | .sp => "SP" | .sr => "SR" | .cg => "R3"
  | .r4 => "R4" | .r5 => "R5" | .r6 => "R6" | .r7 => "R7"
  | .r8 => "R8" | .r9 => "R9" | .r10 => "R10" | .r11 => "R11"
  | .r12 => "R12" | .r13 => "R13" | .r14 => "R14" | .r15 => "R15"

/-- The hexadecimal digits of a number, at least one, most significant first. -/
def hexDigits : Nat → Nat → List Char
  | 0, _ => []
  | fuel + 1, n =>
    (if n < 16 then [] else hexDigits fuel (n / 16)) ++ [("0123456789ABCDEF".toList).getD (n % 16) '0']

/-- A number as R119 writes it: a trailing h, and a leading 0 before a letter. -/
def hexText (v : Word) : String :=
  let d := hexDigits 4 v.toNat
  String.ofList ((if v.toNat / 16 ^ (d.length - 1) ≥ 10 then ['0'] else []) ++ d ++ ['h'])

/-- A generated constant (R110). -/
def constText : ConstGen → String
  | .zero => "#0" | .one => "#1" | .two => "#2" | .four => "#4" | .eight => "#8" | .minusOne => "#-1"

/-- A source operand; `e` is the address of its extension word, if it has one. -/
def srcText (e : Word) : Src → String
  | .reg r => regText r
  | .const c => constText c
  | .indexed r x => hexText x ++ "(" ++ regText r ++ ")"
  | .symbolic x => hexText (e + x)
  | .absolute a => "&" ++ hexText a
  | .indirect r => "@" ++ regText r
  | .autoInc r => "@" ++ regText r ++ "+"
  | .imm n => "#" ++ hexText n

/-- A destination operand. -/
def dstText (e : Word) : Dst → String
  | .reg r => regText r
  | .bucket => "R3"
  | .indexed r x => hexText x ++ "(" ++ regText r ++ ")"
  | .symbolic x => hexText (e + x)
  | .absolute a => "&" ++ hexText a

/-- The suffix of a byte operation. -/
def widthText : Width → String
  | .word => ""
  | .byte => ".B"

/-- A Format I line; `a` is the instruction's address. -/
def textI (a : Word) (m : String) (w : Width) (s : Src) (d : Dst) : String :=
  m ++ widthText w ++ " " ++ srcText (a + 2) s ++ ","
    ++ dstText (if s.ext.isSome then a + 4 else a + 2) d

/-- An emulated line with one destination operand. -/
def textD (a : Word) (m : String) (w : Width) (d : Dst) : String :=
  m ++ widthText w ++ " " ++ dstText (a + 2) d

/-- A Format II line. -/
def textII (a : Word) (m : String) (w : Width) (o : Src) : String :=
  m ++ widthText w ++ " " ++ srcText (a + 2) o

/-- A Format III line: the target `A + 2 + 2*off`. -/
def textIII (a : Word) (m : String) (off : BitVec 10) : String :=
  m ++ " " ++ hexText (a + 2 + 2 * off.signExtend 16)

/-- The text of an instruction at an address (R121). -/
def disassemble (a : Word) : Instr → String
  | .mov w s d => textI a "MOV" w s d
  | .add w s d => textI a "ADD" w s d
  | .addc w s d => textI a "ADDC" w s d
  | .subc w s d => textI a "SUBC" w s d
  | .sub w s d => textI a "SUB" w s d
  | .cmp w s d => textI a "CMP" w s d
  | .dadd w s d => textI a "DADD" w s d
  | .bit w s d => textI a "BIT" w s d
  | .bic w s d => textI a "BIC" w s d
  | .bis w s d => textI a "BIS" w s d
  | .xor w s d => textI a "XOR" w s d
  | .and w s d => textI a "AND" w s d
  | .rrc w o => textII a "RRC" w o
  | .swpb o => textII a "SWPB" .word o
  | .rra w o => textII a "RRA" w o
  | .sxt o => textII a "SXT" .word o
  | .push w o => textII a "PUSH" w o
  | .call o => textII a "CALL" .word o
  | .reti => "RETI"
  | .jne o => textIII a "JNE" o
  | .jeq o => textIII a "JEQ" o
  | .jnc o => textIII a "JNC" o
  | .jc o => textIII a "JC" o
  | .jn o => textIII a "JN" o
  | .jge o => textIII a "JGE" o
  | .jl o => textIII a "JL" o
  | .jmp o => textIII a "JMP" o
  | .adc w d => textD a "ADC" w d
  | .br s => textII a "BR" .word s
  | .clr w d => textD a "CLR" w d
  | .clrc => "CLRC"
  | .clrn => "CLRN"
  | .clrz => "CLRZ"
  | .dadc w d => textD a "DADC" w d
  | .dec w d => textD a "DEC" w d
  | .decd w d => textD a "DECD" w d
  | .dint => "DINT"
  | .eint => "EINT"
  | .inc w d => textD a "INC" w d
  | .incd w d => textD a "INCD" w d
  | .inv w d => textD a "INV" w d
  | .nop => "NOP"
  | .pop w d => textD a "POP" w d
  | .ret => "RET"
  | .rla w d => textD a "RLA" w d
  | .rlc w d => textD a "RLC" w d
  | .sbc w d => textD a "SBC" w d
  | .setc => "SETC"
  | .setn => "SETN"
  | .setz => "SETZ"
  | .tst w d => textD a "TST" w d

/-- The text and length of a Format II word whose form has no term of `Instr`: the byte forms of SWPB, SXT and
CALL, and RETI with a low bit set (R117; the notes "(reserved form)" as in 95_test_vectors.md, K66). -/
def reservedText (a w x1 : Word) : String × Nat :=
  let o := decodeSrc (w.extractLsb' 4 2) (.ofBits (w.extractLsb' 0 4)) x1
  let line := fun (m : String) => (textII a m .byte o, 1 + extCount o.ext)
  match (w.extractLsb' 7 3).toNat with
  | 1 => line "SWPB"
  | 3 => line "SXT"
  | 5 => line "CALL"
  | _ => ("RETI (reserved form)", 1)

/-- R121, steps (1) to (4): the text of the word `w` at address `a` with the two words after it, and how many
words it takes; a reserved form is printed like any other, and a word that is no instruction has no text. -/
def disassembleWords (a w x1 x2 : Word) : Option (String × Nat) :=
  match decodeCore w x1 x2 with
  | .ok i => some (disassemble a i, i.length)
  | .error (.form _) => some (reservedText a w x1)
  | .error (.illegal _) => none
  | .error .truncated => none

/-- The last sentence of R121: the emulated mnemonic's text, where a row of 44_emulated.md matches. -/
def disassembleEmulated (a w x1 x2 : Word) : Option String :=
  match decodeCore w x1 x2 with
  | .ok i => if i.preferred = i then none else some (disassemble a i.preferred)
  | .error _ => none

end Sys2Proof.Machine
end

