-- ==== Sys2Proof/Machine/PeriphFields.lean ====
section
/-! DEFINITION. The named fields of the printed peripheral registers and what their values mean, as far as
the source prints it (R340 to R353, R360, R361). What the peripherals DO with them is out of scope
(R5). -/

namespace Sys2Proof.Machine

/-- The value of a named field in a register's bits, by the register's layout. -/
def fieldValue (r : PeriphReg) (name : String) (v : Word) : Option Nat :=
  ((regLayout r).find? (fun f => f.name == name)).map fun f =>
    (v.toNat / 2 ^ f.lo) % 2 ^ (f.hi + 1 - f.lo)

/-- The 16-bit prescaler value UCAxBR0 + UCAxBR1 × 256 (R342). -/
def Periph.prescaler (p : Periph) : Nat := p.uca0br0.toNat + p.uca0br1.toNat * 256

/-- R353, Table 12-2: the output modes OUTMODx selects. -/
inductive OutputMode where
  | output | set | toggleReset | setReset | toggle | reset | toggleSet | resetSet
deriving DecidableEq, Repr

/-- The mode of OUTMODx. -/
def outputMode (n : Nat) : OutputMode :=
  match n with
  | 0 => .output
  | 1 => .set
  | 2 => .toggleReset
  | 3 => .setReset
  | 4 => .toggle
  | 5 => .reset
  | 6 => .toggleSet
  | _ => .resetSet

/-- R350: MCx. -/
inductive TimerMode where
  | stop | up | continuous | upDown
deriving DecidableEq, Repr

/-- The mode of MCx. -/
def timerMode (n : Nat) : TimerMode :=
  match n with
  | 0 => .stop
  | 1 => .up
  | 2 => .continuous
  | _ => .upDown

/-- R352: the interrupt a value of TAIV names. -/
inductive TaivSource where
  | nothing | ccr1 | ccr2 | overflow | reserved
deriving DecidableEq, Repr

/-- The table of R352. -/
def taivSource (v : Nat) : TaivSource :=
  match v with
  | 0x00 => .nothing
  | 0x02 => .ccr1
  | 0x04 => .ccr2
  | 0x0A => .overflow
  | _ => .reserved

/-- What the values of a field select, in order from 0, in the source's words where it prints them. -/
def fieldMeanings : String → List String
  | "TASSELx" => ["TACLK", "ACLK", "SMCLK", "INCLK"]
  | "IDx" => ["/1", "/2", "/4", "/8"]
  | "MCx" => ["Stop mode", "Up mode", "Continuous mode", "Up/down mode"]
  | "CMx" =>
    ["No capture", "Capture on rising edge", "Capture on falling edge",
     "Capture on both rising and falling edges"]
  | "CCISx" => ["CCIxA", "CCIxB", "GND", "VCC"]
  | "SCS" => ["Asynchronous capture", "Synchronous capture"]
  | "CAP" => ["Compare mode", "Capture mode"]
  | "OUTMODx" =>
    ["OUT bit value", "Set", "Toggle/reset", "Set/reset", "Toggle", "Reset", "Toggle/set", "Reset/set"]
  | "CCIE" => ["Interrupt disabled", "Interrupt enabled"]
  | "TAIE" => ["Interrupt disabled", "Interrupt enabled"]
  | "OUT" => ["Output low", "Output high"]
  | "UCCKPH" =>
    ["Data is changed on the first UCLK edge and captured on the following edge",
     "Data is captured on the first UCLK edge and changed on the following edge"]
  | "UCCKPL" => ["The inactive state is low", "The inactive state is high"]
  | "UCMSB" => ["LSB first", "MSB first"]
  | "UC7BIT" => ["8-bit data", "7-bit data"]
  | "UCMST" => ["Slave mode", "Master mode"]
  | "UCMODEx" =>
    ["3-pin SPI", "4-pin SPI with UCxSTE active high", "4-pin SPI with UCxSTE active low", "I2C mode"]
  | "UCSYNC" => ["Asynchronous mode", "Synchronous mode"]
  | "UCSSELx" => ["UCLK", "ACLK", "SMCLK", "SMCLK"]
  | "UCRXEIE" =>
    ["Erroneous characters rejected and UCAxRXIFG is not set",
     "Erroneous characters received will set UCAxRXIFG"]
  | "UCBRKIE" =>
    ["Received break characters do not set UCAxRXIFG", "Received break characters set UCAxRXIFG"]
  | "UCDORM" => ["Not dormant", "Dormant"]
  | "UCTXADDR" => ["Next frame transmitted is data", "Next frame transmitted is an address"]
  | "UCTXBRK" =>
    ["Next frame transmitted is not a break", "Next frame transmitted is a break or a break/synch"]
  | "UCSWRST" => ["USCI reset released for operation", "USCI logic held in reset state"]
  | "UCOS16" => ["Disabled", "Enabled"]
  | "SREFx" =>
    ["VR+ = VCC and VR- = VSS", "VR+ = VREF+ and VR- = VSS", "VR+ = VeREF+ and VR- = VSS",
     "VR+ = Buffered VeREF+ and VR- = VSS", "VR+ = VCC and VR- = VREF-/VeREF-",
     "VR+ = VREF+ and VR- = VREF-/VeREF-", "VR+ = VeREF+ and VR- = VREF-/VeREF-",
     "VR+ = Buffered VeREF+ and VR- = VREF-/VeREF-"]
  | "ADC10SHTx" =>
    ["4 x ADC10CLKs", "8 x ADC10CLKs", "16 x ADC10CLKs", "64 x ADC10CLKs"]
  | "ADC10SR" =>
    ["Reference buffer supports up to ~200 ksps", "Reference buffer supports up to ~50 ksps"]
  | "REFOUT" => ["Reference output off", "Reference output on"]
  | "REFBURST" =>
    ["Reference buffer on continuously", "Reference buffer on only during sample-and-conversion"]
  | "MSC" =>
    ["The sampling requires a rising edge of the SHI signal to trigger each sample-and-conversion",
     "The first rising edge of the SHI signal triggers the sampling timer, but further sample-and-conversions are performed automatically as soon as the prior conversion is completed"]
  | "REF2_5V" => ["1.5 V", "2.5 V"]
  | "REFON" => ["Reference off", "Reference on"]
  | "ADC10ON" => ["ADC10 off", "ADC10 on"]
  | "ADC10IE" => ["Interrupt disabled", "Interrupt enabled"]
  | "ENC" => ["ADC10 disabled", "ADC10 enabled"]
  | "INCHx" =>
    ["A0", "A1", "A2", "A3", "A4", "A5", "A6", "A7", "VeREF+", "VREF-/VeREF-", "Temperature sensor",
     "(VCC - VSS) / 2", "(VCC - VSS) / 2", "(VCC - VSS) / 2", "(VCC - VSS) / 2", "(VCC - VSS) / 2"]
  | "SHSx" => ["ADC10SC", "Timer_A.OUT1", "Timer_A.OUT0", "Timer_A.OUT2"]
  | "ADC10DF" => ["Straight binary", "2s complement"]
  | "ISSH" => ["The sample-input signal is not inverted", "The sample-input signal is inverted"]
  | "ADC10DIVx" => ["/1", "/2", "/3", "/4", "/5", "/6", "/7", "/8"]
  | "ADC10SSELx" => ["ADC10OSC", "ACLK", "MCLK", "SMCLK"]
  | "CONSEQx" =>
    ["Single channel, single conversion", "Sequence of channels", "Repeat single channel",
     "Repeat sequence of channels"]
  | _ => []

end Sys2Proof.Machine
end

