-- ==== Sys2Proof/Machine/Pins.lean ====
section
/-! DEFINITION. The pin functions of port P1 (R334, Tables 16 to 19), as data. No rule of the CPU depends on
them; nothing in the step reads them. -/

namespace Sys2Proof.Machine

/-- What a cell of the table asks of its control bit. -/
inductive PinControl where
  | low        -- 0
  | high       -- 1
  | any        -- X, or no column
  | direction  -- "I: 0; O: 1": either value, 0 for input and 1 for output
  | fromUsci   -- "from USCI"
deriving DecidableEq, Repr

/-- A row of Tables 16 to 19. -/
structure PinRow where
  /-- `x` of P1.x. -/
  pin : Nat
  function : String
  /-- Marked (2), "MSP430G2x53 devices only". -/
  g2x53Only : Bool
  p1dir : PinControl
  p1sel : PinControl
  p1sel2 : PinControl
  /-- ADC10AE.x, "with INCH.x = 1". -/
  adc10ae : PinControl
  /-- INCH.x: the condition of the column ADC10AE.x, asked where that cell is 1. -/
  inch : PinControl
  /-- Tables 18 and 19 only (P1.4 to P1.7); in the others the cell asks nothing. -/
  jtag : PinControl
  capd : PinControl
deriving DecidableEq, Repr

/-- The rows of P1.0. -/
def pinRowsP10 : List PinRow :=
  [ ⟨0, "P1.x (I/O)", false, .direction, .low, .low, .low, .any, .any, .low⟩,
    ⟨0, "TA0.TACLK", false, .low, .high, .low, .low, .any, .any, .low⟩,
    ⟨0, "ACLK", false, .high, .high, .low, .low, .any, .any, .low⟩,
    ⟨0, "A0", true, .any, .any, .any, .high, .high, .any, .low⟩,
    ⟨0, "CA0", false, .any, .any, .any, .low, .any, .any, .high⟩,
    ⟨0, "Pin Osc, capacitive sensing", false, .any, .low, .high, .low, .any, .any, .low⟩ ]

/-- The rows of P1.1. -/
def pinRowsP11 : List PinRow :=
  [ ⟨1, "P1.x (I/O)", false, .direction, .low, .low, .low, .any, .any, .low⟩,
    ⟨1, "TA0.0", false, .high, .high, .low, .low, .any, .any, .low⟩,
    ⟨1, "TA0.CCI0A", false, .low, .high, .low, .low, .any, .any, .low⟩,
    ⟨1, "UCA0RXD", false, .fromUsci, .high, .high, .low, .any, .any, .low⟩,
    ⟨1, "UCA0SOMI", false, .fromUsci, .high, .high, .low, .any, .any, .low⟩,
    ⟨1, "A1", true, .any, .any, .any, .high, .high, .any, .low⟩,
    ⟨1, "CA1", false, .any, .any, .any, .low, .any, .any, .high⟩,
    ⟨1, "Pin Osc, capacitive sensing", false, .any, .low, .high, .low, .any, .any, .low⟩ ]

/-- The rows of P1.2. -/
def pinRowsP12 : List PinRow :=
  [ ⟨2, "P1.x (I/O)", false, .direction, .low, .low, .low, .any, .any, .low⟩,
    ⟨2, "TA0.1", false, .high, .high, .low, .low, .any, .any, .low⟩,
    ⟨2, "TA0.CCI1A", false, .low, .high, .low, .low, .any, .any, .low⟩,
    ⟨2, "UCA0TXD", false, .fromUsci, .high, .high, .low, .any, .any, .low⟩,
    ⟨2, "UCA0SIMO", false, .fromUsci, .high, .high, .low, .any, .any, .low⟩,
    ⟨2, "A2", true, .any, .any, .any, .high, .high, .any, .low⟩,
    ⟨2, "CA2", false, .any, .any, .any, .low, .any, .any, .high⟩,
    ⟨2, "Pin Osc, capacitive sensing", false, .any, .low, .high, .low, .any, .any, .low⟩ ]

/-- The rows of P1.3. -/
def pinRowsP13 : List PinRow :=
  [ ⟨3, "P1.x (I/O)", false, .direction, .low, .low, .low, .any, .any, .low⟩,
    ⟨3, "ADC10CLK", true, .high, .high, .low, .low, .any, .any, .low⟩,
    ⟨3, "CAOUT", false, .high, .high, .high, .low, .any, .any, .low⟩,
    ⟨3, "A3", true, .any, .any, .any, .high, .high, .any, .low⟩,
    ⟨3, "VREF-", true, .any, .any, .any, .high, .high, .any, .low⟩,
    ⟨3, "VEREF-", true, .any, .any, .any, .high, .high, .any, .low⟩,
    ⟨3, "CA3", false, .any, .any, .any, .low, .any, .any, .high⟩,
    ⟨3, "Pin Osc, capacitive sensing", false, .any, .low, .high, .low, .any, .any, .low⟩ ]

/-- The rows of P1.4. -/
def pinRowsP14 : List PinRow :=
  [ ⟨4, "P1.x (I/O)", false, .direction, .low, .low, .low, .any, .low, .low⟩,
    ⟨4, "SMCLK", false, .high, .high, .low, .low, .any, .low, .low⟩,
    ⟨4, "UCB0STE", false, .fromUsci, .high, .high, .low, .any, .low, .low⟩,
    ⟨4, "UCA0CLK", false, .fromUsci, .high, .high, .low, .any, .low, .low⟩,
    ⟨4, "VREF+", true, .any, .any, .any, .high, .high, .low, .low⟩,
    ⟨4, "VEREF+", true, .any, .any, .any, .high, .high, .low, .low⟩,
    ⟨4, "A4", true, .any, .any, .any, .high, .high, .low, .low⟩,
    ⟨4, "CA4", false, .any, .any, .any, .low, .any, .low, .high⟩,
    ⟨4, "TCK", false, .any, .any, .any, .low, .any, .high, .low⟩,
    ⟨4, "Pin Osc, capacitive sensing", false, .any, .low, .high, .low, .any, .low, .low⟩ ]

/-- The rows of P1.5. -/
def pinRowsP15 : List PinRow :=
  [ ⟨5, "P1.x (I/O)", false, .direction, .low, .low, .low, .any, .low, .low⟩,
    ⟨5, "TA0.0", false, .high, .high, .low, .low, .any, .low, .low⟩,
    ⟨5, "UCB0CLK", false, .fromUsci, .high, .high, .low, .any, .low, .low⟩,
    ⟨5, "UCA0STE", false, .fromUsci, .high, .high, .low, .any, .low, .low⟩,
    ⟨5, "A5", true, .any, .any, .any, .high, .high, .low, .low⟩,
    ⟨5, "CA5", false, .any, .any, .any, .low, .any, .low, .high⟩,
    ⟨5, "TMS", false, .any, .any, .any, .low, .any, .high, .low⟩,
    ⟨5, "Pin Osc, capacitive sensing", false, .any, .low, .high, .low, .any, .low, .low⟩ ]

/-- The rows of P1.6. -/
def pinRowsP16 : List PinRow :=
  [ ⟨6, "P1.x (I/O)", false, .direction, .low, .low, .low, .any, .low, .low⟩,
    ⟨6, "TA0.1", false, .high, .high, .low, .low, .any, .low, .low⟩,
    ⟨6, "UCB0SOMI", false, .fromUsci, .high, .high, .low, .any, .low, .low⟩,
    ⟨6, "UCB0SCL", false, .fromUsci, .high, .high, .low, .any, .low, .low⟩,
    ⟨6, "A6", true, .any, .any, .any, .high, .high, .low, .low⟩,
    ⟨6, "CA6", false, .any, .any, .any, .low, .any, .low, .high⟩,
    ⟨6, "TDI/TCLK", false, .any, .any, .any, .low, .any, .high, .low⟩,
    ⟨6, "Pin Osc, capacitive sensing", false, .any, .low, .high, .low, .any, .low, .low⟩ ]

/-- The rows of P1.7. -/
def pinRowsP17 : List PinRow :=
  [ ⟨7, "P1.x (I/O)", false, .direction, .low, .low, .low, .any, .low, .low⟩,
    ⟨7, "UCB0SIMO", false, .fromUsci, .high, .high, .low, .any, .low, .low⟩,
    ⟨7, "UCB0SDA", false, .fromUsci, .high, .high, .low, .any, .low, .low⟩,
    ⟨7, "A7", true, .any, .any, .any, .high, .high, .low, .low⟩,
    ⟨7, "CA7", false, .any, .any, .any, .low, .any, .low, .high⟩,
    ⟨7, "CAOUT", false, .high, .high, .low, .low, .any, .low, .low⟩,
    ⟨7, "TDO/TDI", false, .any, .any, .any, .low, .any, .high, .low⟩,
    ⟨7, "Pin Osc, capacitive sensing", false, .any, .low, .high, .low, .any, .low, .low⟩ ]

/-- All rows. -/
def pinRows : List PinRow :=
  pinRowsP10 ++ pinRowsP11 ++ pinRowsP12 ++ pinRowsP13 ++ pinRowsP14 ++ pinRowsP15 ++ pinRowsP16
    ++ pinRowsP17

/-- A control bit's value meets a cell. -/
def PinControl.meets (c : PinControl) (b : Bool) : Bool :=
  match c with
  | .low => !b
  | .high => b
  | .any => true
  | .direction => true
  | .fromUsci => true

/-- INCH.x of R334: the channel INCHx of ADC10CTL1 (R361) selects is `x`. -/
def inchSelects (adc10ctl1 : Word) (x : Nat) : Bool := adc10ctl1.toNat / 4096 == x

/-- The functions the tables give a pin for the values of its control bits; `inch` is the condition INCH.x = 1. -/
def pinFunctions (pin : Nat) (dir sel sel2 ae inch jtag capd : Bool) : List String :=
  (pinRows.filter fun r =>
    r.pin == pin && r.p1dir.meets dir && r.p1sel.meets sel && r.p1sel2.meets sel2 && r.adc10ae.meets ae
      && r.inch.meets inch && r.jtag.meets jtag && r.capd.meets capd).map (·.function)

/-- The direction of a pin with the I/O function, by its P1DIR bit: "I: 0; O: 1". -/
inductive PinDirection where
  | input | output
deriving DecidableEq, Repr

/-- The direction a row gives a pin, where its cell says "I: 0; O: 1". -/
def PinRow.direction (r : PinRow) (dir : Bool) : Option PinDirection :=
  match r.p1dir with
  | .direction => some (if dir then .output else .input)
  | .low | .high | .any | .fromUsci => none

end Sys2Proof.Machine
end

