-- ==== Sys2Proof/Tests/Slice0.lean ====
section
/-! SUPPORT. The model's own tests. Every expected value comes from the spec: its encodings (30_encoding.md),
its execution vectors (95_test_vectors.md, by their numbers) or the rule named. The theorems called
`witness_…` show, for each statement with hypotheses, concrete states and operands that meet them, clause by
clause. -/

namespace Sys2Proof.Tests

open Machine

/-! ## Helpers -/

/-- The vectors' start: PC = 0C000h, every other register 0. -/
def tRegs : Regs :=
  { pc := 0xC000, sp := 0, sr := 0, r4 := 0, r5 := 0, r6 := 0, r7 := 0, r8 := 0, r9 := 0, r10 := 0
    r11 := 0, r12 := 0, r13 := 0, r14 := 0, r15 := 0 }

/-- Words stored over a memory. -/
def store (m : List Host.Cell) : List (Word × Word) → List Host.Cell
  | [] => m
  | (a, v) :: t => store (Memory.writeWord m a v) t

/-- A state with some registers and memory words. -/
def stateOf (c : Config) (r : Regs) (ws : List (Word × Word)) : State :=
  { State.reset with regs := r, mem := store [] ws, cfg := c }

/-- Stores of both widths over a memory. -/
def storeEach (m : List Host.Cell) : List (Word × Width × Word) → List Host.Cell
  | [] => m
  | (a, w, v) :: t => storeEach (storeValue m w a v) t

/-- One step from code words at PC ends with these registers and these stores. -/
def ran (c : Config) (code : List Word) (r : Regs) (ws : List (Word × Word)) (r' : Regs)
    (ws' : List (Word × Width × Word)) : Bool :=
  let m := Memory.writeWords (store [] ws) r.pc code
  match step { State.reset with regs := r, mem := m, cfg := c } with
  | .next t => decide (t.regs = r') && decide (t.mem = storeEach m ws')
  | _ => false

/-- Under the spec's defaults. -/
def runs := ran specDefaults

/-- Under `RRC_V` = always 0, which is one of the two values the vectors of RRC allow. -/
def runsV0 := ran { specDefaults with rrcV := .alwaysZero }

/-- As `runs`, but SR is not compared: a vector says "V=draw". -/
def runsNoSR (code : List Word) (r : Regs) (r' : Regs) : Bool :=
  match step { State.reset with regs := r, mem := Memory.writeWords [] r.pc code, cfg := specDefaults } with
  | .next t => decide ({ t.regs with sr := 0 } = r')
  | _ => false

/-- One step from code words at PC answers with this refusal. -/
def refuses (code : List Word) (r : Regs) (ws : List (Word × Word)) (e : Refusal) : Bool :=
  match step { State.reset with
    regs := r, mem := Memory.writeWords (store [] ws) r.pc code, cfg := specDefaults } with
  | .refused e' => decide (e' = e)
  | _ => false

/-- One step from code words at PC answers with this fault. -/
def faults (code : List Word) (r : Regs) (e : Fault) : Bool :=
  match step { State.reset with
    regs := r, mem := Memory.writeWords [] r.pc code, cfg := specDefaults } with
  | .fault e' => decide (e' = e)
  | _ => false

/-- Something that holds of the state an outcome gives. -/
def holds (o : Res State) (p : State → Bool) : Bool :=
  match o with
  | .next t => p t
  | _ => false

/-- The instruction some code words decode to, all of them consumed. -/
def decoded (ws : List Word) : Option Instr :=
  match decode (bytesOfWords ws) with
  | .ok (i, []) => some i
  | _ => none

/-- How the decoder rejects a word. -/
def rejects (w : Word) (e : DecodeError) : Bool :=
  match decodeWords w 0 0 with
  | .error e' => decide (e' = e)
  | .ok _ => false

/-! ## WellFormed: each check refuses an ill-formed term -/

theorem test_wf_source_cg : (Instr.mov .word (.reg .cg) (.reg .r5)).wf = false := by decide
theorem test_wf_indexed_pc : (Instr.mov .word (.indexed .pc 2) (.reg .r5)).wf = false := by decide
theorem test_wf_indexed_sr : (Instr.push .word (.indexed .sr 2)).wf = false := by decide
theorem test_wf_indirect_sr : (Instr.add .word (.indirect .sr) (.reg .r5)).wf = false := by decide
theorem test_wf_autoInc_pc : (Instr.add .word (.autoInc .pc) (.reg .r5)).wf = false := by decide
theorem test_wf_dst_cg : (Instr.mov .word (.reg .r5) (.reg .cg)).wf = false := by decide
theorem test_wf_dst_indexed_cg : (Instr.mov .word (.reg .r5) (.indexed .cg 0)).wf = false := by decide
theorem test_wf_pc_to_memory :
    (Instr.mov .word (.reg .pc) (.indexed .r5 0)).formProblem = some .reservedForm := by decide
theorem test_wf_sr_with_flags :
    (Instr.add .word (.reg .r5) (.reg .sr)).formProblem = some .srDstWithFlags := by decide
theorem test_wf_rotate_constant : (Instr.rrc .word (.const .one)).formProblem = some .reservedForm := by
  decide
theorem test_wf_rotate_immediate : (Instr.swpb (.imm 0x1234)).formProblem = some .reservedForm := by decide
theorem test_wf_rotate_sr : (Instr.rra .word (.reg .sr)).formProblem = some .srDstWithFlags := by decide
theorem test_wf_push_sp : (Instr.push .word (.reg .sp)).formProblem = some .reservedForm := by decide
theorem test_wf_call_cg : (Instr.call (.reg .cg)).formProblem = some .reservedForm := by decide
theorem test_wf_rla_bucket : (Instr.rla .word .bucket).formProblem = some .reservedForm := by decide
theorem test_wf_accepts :
    (Instr.cmp .byte (.autoInc .sp) (.reg .sr)).wf = true ∧ (Instr.swpb (.reg .sr)).wf = true := by decide

/-! ## Decode: words written out from R104 to R111 -/

/-! Format I: opcode, source register, Ad, b/w, As, destination register. -/

theorem test_decode_mov :
    decoded [0b0100010100000110] = some (.mov .word (.reg .r5) (.reg .r6)) := by decide
theorem test_decode_add :
    decoded [0b0101010101100110] = some (.add .byte (.indirect .r5) (.reg .r6)) := by decide
theorem test_decode_addc :
    decoded [0b0110011000010111, 0x0002] = some (.addc .word (.indexed .r6 2) (.reg .r7)) := by decide
theorem test_decode_subc :
    decoded [0b0111011000110111] = some (.subc .word (.autoInc .r6) (.reg .r7)) := by decide
theorem test_decode_sub :
    decoded [0b1000000010110101, 0x1234, 0x0004] =
      some (.sub .word (.imm 0x1234) (.indexed .r5 4)) := by decide
theorem test_decode_cmp :
    decoded [0b1001001001010101, 0x0200] = some (.cmp .byte (.absolute 0x0200) (.reg .r5)) := by decide
theorem test_decode_dadd :
    decoded [0b1010010100000110] = some (.dadd .word (.reg .r5) (.reg .r6)) := by decide
theorem test_decode_bit :
    decoded [0b1011001011110010, 0x0021] = some (.bit .byte (.const .eight) (.absolute 0x0021)) := by decide
theorem test_decode_bic :
    decoded [0b1100001000100101] = some (.bic .word (.const .four) (.reg .r5)) := by decide
theorem test_decode_bis :
    decoded [0b1101010111000000, 0x0010] = some (.bis .byte (.reg .r5) (.symbolic 0x0010)) := by decide
theorem test_decode_xor :
    decoded [0b1110010100000011] = some (.xor .word (.reg .r5) .bucket) := by decide
theorem test_decode_and :
    decoded [0b1111000000010101, 0x0010] = some (.and .word (.symbolic 0x0010) (.reg .r5)) := by decide

/-! Format II: 000100, opcode, b/w, As, register. -/

theorem test_decode_rrc : decoded [0b0001000001000101] = some (.rrc .byte (.reg .r5)) := by decide
theorem test_decode_swpb : decoded [0b0001000010111010] = some (.swpb (.autoInc .r10)) := by decide
theorem test_decode_rra : decoded [0b0001000100101001] = some (.rra .word (.indirect .r9)) := by decide
theorem test_decode_sxt : decoded [0b0001000110010010, 0x0200] = some (.sxt (.absolute 0x0200)) := by decide
theorem test_decode_push : decoded [0b0001001001110010] = some (.push .byte (.const .eight)) := by decide
theorem test_decode_call : decoded [0b0001001010110000, 0xC100] = some (.call (.imm 0xC100)) := by decide
theorem test_decode_reti : decoded [0b0001001100000000] = some .reti := by decide

/-! Format III: 001, condition, offset. -/

theorem test_decode_jne : decoded [0b0010000000000011] = some (.jne 3) := by decide
theorem test_decode_jeq : decoded [0b0010011111111110] = some (.jeq 0x3FE) := by decide
theorem test_decode_jnc : decoded [0b0010101111111111] = some (.jnc 0x3FF) := by decide
theorem test_decode_jc : decoded [0b0010111000000000] = some (.jc 0x200) := by decide
theorem test_decode_jn : decoded [0b0011001000000000] = some (.jn 0x200) := by decide
theorem test_decode_jge : decoded [0b0011010111111111] = some (.jge 0x1FF) := by decide
theorem test_decode_jl : decoded [0b0011100000000001] = some (.jl 1) := by decide
theorem test_decode_jmp : decoded [0b0011111111111111] = some (.jmp 0x3FF) := by decide

/-! Emulated instructions: the core words of R251 to R274. -/

theorem test_decode_adc : decoded [0b0110001100000101] = some (.adc .word (.reg .r5)) := by decide
theorem test_decode_br : decoded [0b0100000000110000, 0xC200] = some (.br (.imm 0xC200)) := by decide
theorem test_decode_clr : decoded [0b0100001111000010, 0x0201] = some (.clr .byte (.absolute 0x0201)) := by decide
theorem test_decode_clrc : decoded [0b1100001100010010] = some .clrc := by decide
theorem test_decode_clrn : decoded [0b1100001000100010] = some .clrn := by decide
theorem test_decode_clrz : decoded [0b1100001100100010] = some .clrz := by decide
theorem test_decode_dadc : decoded [0b1010001101000101] = some (.dadc .byte (.reg .r5)) := by decide
theorem test_decode_dec : decoded [0b1000001100010101] = some (.dec .word (.reg .r5)) := by decide
theorem test_decode_decd : decoded [0b1000001100100101] = some (.decd .word (.reg .r5)) := by decide
theorem test_decode_dint : decoded [0b1100001000110010] = some .dint := by decide
theorem test_decode_eint : decoded [0b1101001000110010] = some .eint := by decide
theorem test_decode_inc : decoded [0b0101001101010101] = some (.inc .byte (.reg .r5)) := by decide
theorem test_decode_incd : decoded [0b0101001100100101] = some (.incd .word (.reg .r5)) := by decide
theorem test_decode_inv : decoded [0b1110001100110101] = some (.inv .word (.reg .r5)) := by decide
theorem test_decode_nop : decoded [0b0100001100000011] = some .nop := by decide
theorem test_decode_pop : decoded [0b0100000100110101] = some (.pop .word (.reg .r5)) := by decide
theorem test_decode_ret : decoded [0b0100000100110000] = some .ret := by decide
theorem test_decode_rla :
    decoded [0b0101000010010000, 0x0010, 0x000E] = some (.rla .word (.symbolic 0x0010)) := by decide
theorem test_decode_rlc :
    decoded [0b0110010110010101, 0x0004, 0x0004] = some (.rlc .word (.indexed .r5 4)) := by decide
theorem test_decode_sbc : decoded [0b0111001100000101] = some (.sbc .word (.reg .r5)) := by decide
theorem test_decode_setc : decoded [0b1101001100010010] = some .setc := by decide
theorem test_decode_setn : decoded [0b1101001000100010] = some .setn := by decide
theorem test_decode_setz : decoded [0b1101001100100010] = some .setz := by decide
theorem test_decode_tst : decoded [0b1001001101000101] = some (.tst .byte (.reg .r5)) := by decide

/-- R116 and R117 at their boundaries (K60 to K78). -/
theorem test_decode_rejected :
    rejects 0x0000 (.illegal 0x0000) = true ∧ rejects 0x0FFF (.illegal 0x0FFF) = true ∧
    rejects 0x1380 (.illegal 0x1380) = true ∧ rejects 0x1400 (.illegal 0x1400) = true ∧
    rejects 0x1FFF (.illegal 0x1FFF) = true ∧ rejects 0x1301 (.form .reservedForm) = true ∧
    rejects 0x137F (.form .reservedForm) = true ∧ rejects 0x10C5 (.form .reservedForm) = true ∧
    rejects 0x1201 (.form .reservedForm) = true ∧ rejects 0x4583 (.form .reservedForm) = true ∧
    rejects 0x4085 (.form .reservedForm) = true ∧ rejects 0x5502 (.form .srDstWithFlags) = true := by decide

/-- The examples of Tables 3-15 and 3-16 (E2, E4, F19, F28): their words, encoded. -/
theorem test_encode_examples :
    encode (.rrc .word (.indirect .r9)) = [0x1029] ∧ encode (.call (.imm 0xF000)) = [0x12B0, 0xF000] ∧
    encode (.add .word (.imm 0x21) (.symbolic 0x420C)) = [0x50B0, 0x0021, 0x420C] ∧
    encode (.cmp .word (.symbolic 0x420E) (.symbolic 0x421C)) = [0x9090, 0x420E, 0x421C] := by decide

/-- What the host asks of a table word: decoded, and run as the first instruction after reset. -/
theorem test_table_word :
    decodeTableWord 16 0x5506 = some (.add .word (.reg .r5) (.reg .r6)) ∧
    decodeTableWord 16 0xF0B2 = some (.and .word (.imm 0) (.absolute 0)) ∧
    holds (step (State.reset.withFetchWord 16 0x4303)) (fun t => t.regs.pc == 0xC002) = true := by decide

/-! ## Execution vectors (95_test_vectors.md, part 3) -/

/-- V5: `RRC.B R5`. -/
theorem test_rrc_v5 : runsV0 [0x1045]
    { tRegs with r5 := 0x1281, sr := 0x0001 } []
    { tRegs with r5 := 0x00C0, sr := 0x0005, pc := 0xC002 } [] = true := by decide
/-- V6: `RRC @R9`. -/
theorem test_rrc_v6 : runsV0 [0x1029]
    { tRegs with r9 := 0x0200, sr := 0x0001 } [(0x0200, 0x0002)]
    { tRegs with r9 := 0x0200, sr := 0x0004, pc := 0xC002 } [(0x0200, .word, 0x8001)] = true := by decide
/-- V8: `SWPB R5`. -/
theorem test_swpb_v8 : runs [0x1085]
    { tRegs with r5 := 0x1234 } []
    { tRegs with r5 := 0x3412, pc := 0xC002, sr := 0x0000 } [] = true := by decide
/-- V9: `SWPB @R10+`. -/
theorem test_swpb_v9 : runs [0x10BA]
    { tRegs with r10 := 0x0200 } [(0x0200, 0xAB01)]
    { tRegs with r10 := 0x0202, pc := 0xC002, sr := 0x0000 } [(0x0200, .word, 0x01AB)] = true := by decide
/-- V14: `RRA.B R5`. -/
theorem test_rra_v14 : runs [0x1145]
    { tRegs with r5 := 0x1280 } []
    { tRegs with r5 := 0x00C0, pc := 0xC002, sr := 0x0004 } [] = true := by decide
/-- V15: `RRA.B &0200h`. -/
theorem test_rra_v15 : runs [0x1152, 0x0200]
    tRegs [(0x0200, 0x55FE)]
    { tRegs with pc := 0xC004, sr := 0x0004 } [(0x0200, .byte, 0xff)] = true := by decide
/-- V17: `SXT R5`. -/
theorem test_sxt_v17 : runs [0x1185]
    { tRegs with r5 := 0xFF00, sr := 0x0101 } []
    { tRegs with r5 := 0x0000, sr := 0x0002, pc := 0xC002 } [] = true := by decide
/-- V19: `SXT &0200h`. -/
theorem test_sxt_v19 : runs [0x1192, 0x0200]
    tRegs [(0x0200, 0x00FF)]
    { tRegs with pc := 0xC004, sr := 0x0005 } [(0x0200, .word, 0xFFFF)] = true := by decide
/-- V21: `PUSH.B R5`. -/
theorem test_push_v21 : runs [0x1245]
    { tRegs with sp := 0x0400, r5 := 0x1234 } [(0x03FE, 0xAAAA)]
    { tRegs with sp := 0x03FE, r5 := 0x1234, pc := 0xC002, sr := 0x0000 } [(0x03FE, .byte, 0x34)] = true := by decide
/-- V24: `PUSH @SP+`. -/
theorem test_push_v24 : runs [0x1231]
    { tRegs with sp := 0x03FE } [(0x03FE, 0xBEEF)]
    { tRegs with sp := 0x03FE, pc := 0xC002, sr := 0x0000 } [] = true := by decide
/-- V33: `CALL @R5+`. -/
theorem test_call_v33 : runs [0x12B5]
    { tRegs with sp := 0x0400, r5 := 0x0200 } [(0x0200, 0xC400)]
    { tRegs with sp := 0x03FE, r5 := 0x0202, pc := 0xC400, sr := 0x0000 } [(0x03FE, .word, 0xC002)] = true := by decide
/-- V35: `CALL @SP+`. -/
theorem test_call_v35 : runs [0x12B1]
    { tRegs with sp := 0x03FE } [(0x03FE, 0xC600)]
    { tRegs with sp := 0x03FE, pc := 0xC600, sr := 0x0000 } [(0x03FE, .word, 0xC002)] = true := by decide
/-- V36: `RETI`. -/
theorem test_reti_v36 : runs [0x1300]
    { tRegs with sp := 0x03FC } [(0x03FC, 0x0008), (0x03FE, 0xC010)]
    { tRegs with sp := 0x0400, pc := 0xC010, sr := 0x0008 } [] = true := by decide
/-- V37: `RETI`. -/
theorem test_reti_v37 : runs [0x1300]
    { tRegs with sp := 0x03FC, sr := 0x0008 } [(0x03FC, 0x0107), (0x03FE, 0xC010)]
    { tRegs with sp := 0x0400, sr := 0x0107, pc := 0xC010 } [] = true := by decide
/-- V100: `JNE 0C008h`. -/
theorem test_jne_v100 : runs [0x2003]
    tRegs []
    { tRegs with pc := 0xC008, sr := 0x0000 } [] = true := by decide
/-- V101: `JNE 0C008h`. -/
theorem test_jne_v101 : runs [0x2003]
    { tRegs with sr := 0x0002 } []
    { tRegs with sr := 0x0002, pc := 0xC002 } [] = true := by decide
/-- V102: `JEQ 0C008h`. -/
theorem test_jeq_v102 : runs [0x2403]
    { tRegs with sr := 0x0002 } []
    { tRegs with sr := 0x0002, pc := 0xC008 } [] = true := by decide
/-- V103: `JEQ 0C008h`. -/
theorem test_jeq_v103 : runs [0x2403]
    tRegs []
    { tRegs with pc := 0xC002, sr := 0x0000 } [] = true := by decide
/-- V104: `JNC 0C008h`. -/
theorem test_jnc_v104 : runs [0x2803]
    tRegs []
    { tRegs with pc := 0xC008, sr := 0x0000 } [] = true := by decide
/-- V105: `JNC 0C008h`. -/
theorem test_jnc_v105 : runs [0x2803]
    { tRegs with sr := 0x0001 } []
    { tRegs with sr := 0x0001, pc := 0xC002 } [] = true := by decide
/-- V106: `JC 0C008h`. -/
theorem test_jc_v106 : runs [0x2C03]
    { tRegs with sr := 0x0001 } []
    { tRegs with sr := 0x0001, pc := 0xC008 } [] = true := by decide
/-- V107: `JC 0C008h`. -/
theorem test_jc_v107 : runs [0x2C03]
    tRegs []
    { tRegs with pc := 0xC002, sr := 0x0000 } [] = true := by decide
/-- V108: `JN 0C008h`. -/
theorem test_jn_v108 : runs [0x3003]
    { tRegs with sr := 0x0004 } []
    { tRegs with sr := 0x0004, pc := 0xC008 } [] = true := by decide
/-- V109: `JN 0C008h`. -/
theorem test_jn_v109 : runs [0x3003]
    tRegs []
    { tRegs with pc := 0xC002, sr := 0x0000 } [] = true := by decide
/-- V110: `JGE 0C008h`. -/
theorem test_jge_v110 : runs [0x3403]
    { tRegs with sr := 0x0104 } []
    { tRegs with sr := 0x0104, pc := 0xC008 } [] = true := by decide
/-- V111: `JGE 0C008h`. -/
theorem test_jge_v111 : runs [0x3403]
    { tRegs with sr := 0x0004 } []
    { tRegs with sr := 0x0004, pc := 0xC002 } [] = true := by decide
/-- V112: `JL 0C008h`. -/
theorem test_jl_v112 : runs [0x3803]
    { tRegs with sr := 0x0100 } []
    { tRegs with sr := 0x0100, pc := 0xC008 } [] = true := by decide
/-- V113: `JL 0C008h`. -/
theorem test_jl_v113 : runs [0x3803]
    { tRegs with sr := 0x0104 } []
    { tRegs with sr := 0x0104, pc := 0xC002 } [] = true := by decide
/-- V119: `word 3DFFh`. -/
theorem test_jmp_v119 : runs [0x3DFF]
    tRegs []
    { tRegs with pc := 0xC400, sr := 0x0000 } [] = true := by decide
/-- V120: `word 3E00h`. -/
theorem test_jmp_v120 : runs [0x3E00]
    tRegs []
    { tRegs with pc := 0xBC02, sr := 0x0000 } [] = true := by decide
/-- V307: `MOV.B @R5+,R6`. -/
theorem test_mov_v307 : runs [0x4576]
    { tRegs with r5 := 0x0201 } [(0x0200, 0x66AA)]
    { tRegs with r5 := 0x0202, pc := 0xC002, r6 := 0x0066, sr := 0x0000 } [] = true := by decide
/-- V322: `MOV 4(R7),0220h`. -/
theorem test_mov_v322 : runs [0x4790, 0x0004, 0x421C]
    { tRegs with r7 := 0x0200 } [(0x0204, 0x7777)]
    { tRegs with r7 := 0x0200, pc := 0xC006, sr := 0x0000 } [(0x0220, .word, 0x7777)] = true := by decide
/-- V209: `ADD.B R5,R6`. -/
theorem test_add_v209 : runs [0x5546]
    { tRegs with r5 := 0xFF80, r6 := 0xFF80 } []
    { tRegs with r5 := 0xFF80, r6 := 0x0000, pc := 0xC002, sr := 0x0103 } [] = true := by decide
/-- V327: `ADD @R5+,R5`. -/
theorem test_add_v327 : runs [0x5535]
    { tRegs with r5 := 0x0200 } [(0x0200, 0x0010)]
    { tRegs with r5 := 0x0212, pc := 0xC002, sr := 0x0000 } [] = true := by decide
/-- V211: `ADDC R5,R6`. -/
theorem test_addc_v211 : runs [0x6506]
    { tRegs with r5 := 0xFFFF, r6 := 0xFFFF, sr := 0x0001 } []
    { tRegs with r5 := 0xFFFF, r6 := 0xFFFF, sr := 0x0005, pc := 0xC002 } [] = true := by decide
/-- V212: `ADDC R5,R6`. -/
theorem test_addc_v212 : runs [0x6506]
    { tRegs with r5 := 0x7FFF, r6 := 0x0000, sr := 0x0001 } []
    { tRegs with r5 := 0x7FFF, r6 := 0x8000, sr := 0x0104, pc := 0xC002 } [] = true := by decide
/-- V216: `SUBC R5,R6`. -/
theorem test_subc_v216 : runs [0x7506]
    { tRegs with r5 := 0x0000, r6 := 0x0000 } []
    { tRegs with r5 := 0x0000, r6 := 0xFFFF, pc := 0xC002, sr := 0x0004 } [] = true := by decide
/-- V218: `SUBC.B R5,R6`. -/
theorem test_subc_v218 : runs [0x7546]
    { tRegs with r5 := 0x0001, r6 := 0x0080, sr := 0x0001 } []
    { tRegs with r5 := 0x0001, r6 := 0x007F, sr := 0x0101, pc := 0xC002 } [] = true := by decide
/-- V222: `SUB R5,R6`. -/
theorem test_sub_v222 : runs [0x8506]
    { tRegs with r5 := 0x8000, r6 := 0x0000 } []
    { tRegs with r5 := 0x8000, r6 := 0x8000, pc := 0xC002, sr := 0x0104 } [] = true := by decide
/-- V224: `SUB.B R5,R6`. -/
theorem test_sub_v224 : runs [0x8546]
    { tRegs with r5 := 0x0001, r6 := 0xAB00 } []
    { tRegs with r5 := 0x0001, r6 := 0x00FF, pc := 0xC002, sr := 0x0004 } [] = true := by decide
/-- V229: `CMP R5,R6`. -/
theorem test_cmp_v229 : runs [0x9506]
    { tRegs with r5 := 0xFFFF, r6 := 0x7FFF } []
    { tRegs with r5 := 0xFFFF, r6 := 0x7FFF, pc := 0xC002, sr := 0x0104 } [] = true := by decide
/-- V231: `CMP #5,&0200h`. -/
theorem test_cmp_v231 : runs [0x90B2, 0x0005, 0x0200]
    tRegs [(0x0200, 0x0005)]
    { tRegs with pc := 0xC006, sr := 0x0003 } [] = true := by decide
/-- V235: `DADD R5,R6`. -/
theorem test_dadd_v235 : runsNoSR [0xA506]
    { tRegs with r5 := 0x4999, r6 := 0x5000, sr := 0x0001 }
    { tRegs with r5 := 0x4999, r6 := 0x0000, pc := 0xC002 } = true := by decide
/-- V236: `DADD.B R5,R6`. -/
theorem test_dadd_v236 : runsNoSR [0xA546]
    { tRegs with r5 := 0x0099, r6 := 0x1201 }
    { tRegs with r5 := 0x0099, r6 := 0x0000, pc := 0xC002 } = true := by decide
/-- V238: `BIT R5,R6`. -/
theorem test_bit_v238 : runs [0xB506]
    { tRegs with r5 := 0x0001, r6 := 0x0002, sr := 0x0100 } []
    { tRegs with r5 := 0x0001, r6 := 0x0002, sr := 0x0002, pc := 0xC002 } [] = true := by decide
/-- V241: `BIT.B R5,R6`. -/
theorem test_bit_v241 : runs [0xB546]
    { tRegs with r5 := 0x8080, r6 := 0x0080 } []
    { tRegs with r5 := 0x8080, r6 := 0x0080, pc := 0xC002, sr := 0x0005 } [] = true := by decide
/-- V242: `BIC R5,R6`. -/
theorem test_bic_v242 : runs [0xC506]
    { tRegs with r5 := 0x00FF, r6 := 0x1234, sr := 0x0107 } []
    { tRegs with r5 := 0x00FF, r6 := 0x1200, sr := 0x0107, pc := 0xC002 } [] = true := by decide
/-- V243: `BIC.B R5,R6`. -/
theorem test_bic_v243 : runs [0xC546]
    { tRegs with r5 := 0x000F, r6 := 0x12FF } []
    { tRegs with r5 := 0x000F, r6 := 0x00F0, pc := 0xC002, sr := 0x0000 } [] = true := by decide
/-- V246: `BIS.B R5,R6`. -/
theorem test_bis_v246 : runs [0xD546]
    { tRegs with r5 := 0xFF01, r6 := 0x1280 } []
    { tRegs with r5 := 0xFF01, r6 := 0x0081, pc := 0xC002, sr := 0x0000 } [] = true := by decide
/-- V248: `BIS #0010h,SR`. -/
theorem test_bis_v248 : runs [0xD032, 0x0010]
    { tRegs with sr := 0x0008 } []
    { tRegs with sr := 0x0018, pc := 0xC004 } [] = true := by decide
/-- V250: `XOR R5,R5`. -/
theorem test_xor_v250 : runs [0xE505]
    { tRegs with r5 := 0x8000 } []
    { tRegs with r5 := 0x0000, pc := 0xC002, sr := 0x0102 } [] = true := by decide
/-- V253: `XOR.B R5,R6`. -/
theorem test_xor_v253 : runs [0xE546]
    { tRegs with r5 := 0x0080, r6 := 0x12C0 } []
    { tRegs with r5 := 0x0080, r6 := 0x0040, pc := 0xC002, sr := 0x0101 } [] = true := by decide
/-- V255: `AND R5,R6`. -/
theorem test_and_v255 : runs [0xF506]
    { tRegs with r5 := 0xF000, r6 := 0x0FFF, sr := 0x0001 } []
    { tRegs with r5 := 0xF000, r6 := 0x0000, sr := 0x0002, pc := 0xC002 } [] = true := by decide
/-- V257: `AND.B R5,R6`. -/
theorem test_and_v257 : runs [0xF546]
    { tRegs with r5 := 0xFF80, r6 := 0x12FF } []
    { tRegs with r5 := 0xFF80, r6 := 0x0080, pc := 0xC002, sr := 0x0005 } [] = true := by decide
/-- V401: `ADC R5`. -/
theorem test_adc_v401 : runs [0x6305]
    { tRegs with r5 := 0x7FFF, sr := 0x0001 } []
    { tRegs with r5 := 0x8000, sr := 0x0104, pc := 0xC002 } [] = true := by decide
/-- V402: `ADC.B R5`. -/
theorem test_adc_v402 : runs [0x6345]
    { tRegs with r5 := 0x12FF, sr := 0x0001 } []
    { tRegs with r5 := 0x0000, sr := 0x0003, pc := 0xC002 } [] = true := by decide
/-- V405: `BR #0C200h`. -/
theorem test_br_v405 : runs [0x4030, 0xC200]
    tRegs []
    { tRegs with pc := 0xC200, sr := 0x0000 } [] = true := by decide
/-- V406: `BR @R9+`. -/
theorem test_br_v406 : runs [0x4930]
    { tRegs with r9 := 0x0200 } [(0x0200, 0xC300)]
    { tRegs with r9 := 0x0202, pc := 0xC300, sr := 0x0000 } [] = true := by decide
/-- V409: `CLR &0200h`. -/
theorem test_clr_v409 : runs [0x4382, 0x0200]
    tRegs [(0x0200, 0x1234)]
    { tRegs with pc := 0xC004, sr := 0x0000 } [(0x0200, .word, 0x0000)] = true := by decide
/-- V410: `CLR.B &0201h`. -/
theorem test_clr_v410 : runs [0x43C2, 0x0201]
    tRegs [(0x0200, 0x1234)]
    { tRegs with pc := 0xC004, sr := 0x0000 } [(0x0201, .byte, 0x00)] = true := by decide
/-- V411: `CLRC`. -/
theorem test_clrc_v411 : runs [0xC312]
    { tRegs with sr := 0x010F } []
    { tRegs with sr := 0x010E, pc := 0xC002 } [] = true := by decide
/-- V412: `CLRN`. -/
theorem test_clrn_v412 : runs [0xC222]
    { tRegs with sr := 0x010F } []
    { tRegs with sr := 0x010B, pc := 0xC002 } [] = true := by decide
/-- V413: `CLRZ`. -/
theorem test_clrz_v413 : runs [0xC322]
    { tRegs with sr := 0x010F } []
    { tRegs with sr := 0x010D, pc := 0xC002 } [] = true := by decide
/-- V414: `DADC R5`. -/
theorem test_dadc_v414 : runsNoSR [0xA305]
    { tRegs with r5 := 0x0199, sr := 0x0001 }
    { tRegs with r5 := 0x0200, pc := 0xC002 } = true := by decide
/-- V416: `DADC.B R5`. -/
theorem test_dadc_v416 : runsNoSR [0xA345]
    { tRegs with r5 := 0x1299, sr := 0x0001 }
    { tRegs with r5 := 0x0000, pc := 0xC002 } = true := by decide
/-- V419: `DEC R5`. -/
theorem test_dec_v419 : runs [0x8315]
    { tRegs with r5 := 0x0000 } []
    { tRegs with r5 := 0xFFFF, pc := 0xC002, sr := 0x0004 } [] = true := by decide
/-- V421: `DEC.B R5`. -/
theorem test_dec_v421 : runs [0x8355]
    { tRegs with r5 := 0x1200 } []
    { tRegs with r5 := 0x00FF, pc := 0xC002, sr := 0x0004 } [] = true := by decide
/-- V422: `DECD R5`. -/
theorem test_decd_v422 : runs [0x8325]
    { tRegs with r5 := 0x0002 } []
    { tRegs with r5 := 0x0000, pc := 0xC002, sr := 0x0003 } [] = true := by decide
/-- V424: `DECD R5`. -/
theorem test_decd_v424 : runs [0x8325]
    { tRegs with r5 := 0x8001 } []
    { tRegs with r5 := 0x7FFF, pc := 0xC002, sr := 0x0101 } [] = true := by decide
/-- V425: `DINT`. -/
theorem test_dint_v425 : runs [0xC232]
    { tRegs with sr := 0x000F } []
    { tRegs with sr := 0x0007, pc := 0xC002 } [] = true := by decide
/-- V426: `EINT`. -/
theorem test_eint_v426 : runs [0xD232]
    { tRegs with sr := 0x0100 } []
    { tRegs with sr := 0x0108, pc := 0xC002 } [] = true := by decide
/-- V429: `INC.B R5`. -/
theorem test_inc_v429 : runs [0x5355]
    { tRegs with r5 := 0x12FF } []
    { tRegs with r5 := 0x0000, pc := 0xC002, sr := 0x0003 } [] = true := by decide
/-- V430: `INC &0200h`. -/
theorem test_inc_v430 : runs [0x5392, 0x0200]
    tRegs [(0x0200, 0x00FF)]
    { tRegs with pc := 0xC004, sr := 0x0000 } [(0x0200, .word, 0x0100)] = true := by decide
/-- V432: `INCD R5`. -/
theorem test_incd_v432 : runs [0x5325]
    { tRegs with r5 := 0x7FFE } []
    { tRegs with r5 := 0x8000, pc := 0xC002, sr := 0x0104 } [] = true := by decide
/-- V433: `INCD R5`. -/
theorem test_incd_v433 : runs [0x5325]
    { tRegs with r5 := 0xFFFF } []
    { tRegs with r5 := 0x0001, pc := 0xC002, sr := 0x0001 } [] = true := by decide
/-- V435: `INV R5`. -/
theorem test_inv_v435 : runs [0xE335]
    { tRegs with r5 := 0xFFFF } []
    { tRegs with r5 := 0x0000, pc := 0xC002, sr := 0x0102 } [] = true := by decide
/-- V437: `INV.B R5`. -/
theorem test_inv_v437 : runs [0xE375]
    { tRegs with r5 := 0x12F0 } []
    { tRegs with r5 := 0x000F, pc := 0xC002, sr := 0x0101 } [] = true := by decide
/-- V438: `NOP`. -/
theorem test_nop_v438 : runs [0x4303]
    { tRegs with sr := 0x0107 } []
    { tRegs with sr := 0x0107, pc := 0xC002 } [] = true := by decide
/-- V440: `POP.B R5`. -/
theorem test_pop_v440 : runs [0x4175]
    { tRegs with sp := 0x03FE, r5 := 0xFFFF } [(0x03FE, 0x1234)]
    { tRegs with sp := 0x0400, r5 := 0x0034, pc := 0xC002, sr := 0x0000 } [] = true := by decide
/-- V441: `POP SR`. -/
theorem test_pop_v441 : runs [0x4132]
    { tRegs with sp := 0x03FE } [(0x03FE, 0x0009)]
    { tRegs with sp := 0x0400, pc := 0xC002, sr := 0x0009 } [] = true := by decide
/-- V442: `RET`. -/
theorem test_ret_v442 : runs [0x4130]
    { tRegs with sp := 0x03FE } [(0x03FE, 0xC004)]
    { tRegs with sp := 0x0400, pc := 0xC004, sr := 0x0000 } [] = true := by decide
/-- V446: `RLA.B R5`. -/
theorem test_rla_v446 : runs [0x5545]
    { tRegs with r5 := 0x1281 } []
    { tRegs with r5 := 0x0002, pc := 0xC002, sr := 0x0101 } [] = true := by decide
/-- V447: `RLA 2(R5)`. -/
theorem test_rla_v447 : runs [0x5595, 0x0002, 0x0002]
    { tRegs with r5 := 0x0200 } [(0x0202, 0x0003)]
    { tRegs with r5 := 0x0200, pc := 0xC006, sr := 0x0000 } [(0x0202, .word, 0x0006)] = true := by decide
/-- V448: `RLC R5`. -/
theorem test_rlc_v448 : runs [0x6505]
    { tRegs with r5 := 0x8000, sr := 0x0001 } []
    { tRegs with r5 := 0x0001, sr := 0x0101, pc := 0xC002 } [] = true := by decide
/-- V450: `RLC.B R5`. -/
theorem test_rlc_v450 : runs [0x6545]
    { tRegs with r5 := 0x0080, sr := 0x0001 } []
    { tRegs with r5 := 0x0001, sr := 0x0101, pc := 0xC002 } [] = true := by decide
/-- V451: `SBC R5`. -/
theorem test_sbc_v451 : runs [0x7305]
    { tRegs with r5 := 0x0000 } []
    { tRegs with r5 := 0xFFFF, pc := 0xC002, sr := 0x0004 } [] = true := by decide
/-- V453: `SBC R5`. -/
theorem test_sbc_v453 : runs [0x7305]
    { tRegs with r5 := 0x8000 } []
    { tRegs with r5 := 0x7FFF, pc := 0xC002, sr := 0x0101 } [] = true := by decide
/-- V455: `SETC`. -/
theorem test_setc_v455 : runs [0xD312]
    tRegs []
    { tRegs with pc := 0xC002, sr := 0x0001 } [] = true := by decide
/-- V456: `SETN`. -/
theorem test_setn_v456 : runs [0xD222]
    tRegs []
    { tRegs with pc := 0xC002, sr := 0x0004 } [] = true := by decide
/-- V457: `SETZ`. -/
theorem test_setz_v457 : runs [0xD322]
    tRegs []
    { tRegs with pc := 0xC002, sr := 0x0002 } [] = true := by decide
/-- V458: `TST R5`. -/
theorem test_tst_v458 : runs [0x9305]
    { tRegs with r5 := 0x0000, sr := 0x0100 } []
    { tRegs with r5 := 0x0000, sr := 0x0003, pc := 0xC002 } [] = true := by decide
/-- V461: `TST &0200h`. -/
theorem test_tst_v461 : runs [0x9382, 0x0200]
    tRegs [(0x0200, 0x0001)]
    { tRegs with pc := 0xC004, sr := 0x0001 } [] = true := by decide

/-- The flags of V235 and V236 that are no draw (R228): a decimal carry out, a zero result. -/
theorem test_dadd_flags :
    (let o := daddAlu .word 0 true 0x4999 0x5000
     (o.flags.n, o.flags.z, o.flags.c)) = (some false, some true, some true) ∧
    (let o := daddAlu .byte 0 false 0x99 0x01
     (o.flags.n, o.flags.z, o.flags.c)) = (some false, some true, some true) := by decide

/-- V1 and V7 (R181): the candidate definitions of `RRC_V`. -/
theorem test_rrc_v :
    (rrcAlu .signChange .word 0 true 0x7FFE).flags.v = some true ∧
    (rrcAlu .signChange .word 0 true 0x8000).flags.v = some false ∧
    (rrcAlu .alwaysZero .word 0 true 0x7FFE).flags.v = some false := by decide

/-! ## Refusals and faults (95_test_vectors.md, parts 3.2 and 3.7) -/

theorem test_v47_rra_sr : refuses [0x1102] { tRegs with sr := 0x0004 } [] .srDstWithFlags = true := by decide
theorem test_v48_swpb_sr : refuses [0x1082] { tRegs with sr := 0x0004 } [] .srReserved = true := by decide
theorem test_v50_reti :
    refuses [0x1300] { tRegs with sp := 0x03FC } [(0x03FC, 0x0200), (0x03FE, 0xC010)] .srReserved = true := by
  decide
theorem test_v52_call_odd :
    refuses [0x1285] { tRegs with sp := 0x0400, r5 := 0xC201 } [] .oddPcSp = true := by decide
theorem test_v55_odd_address : refuses [0x1112, 0x0201] tRegs [] .oddWordAccess = true := by decide
theorem test_v361_odd_sp : refuses [0x5311] { tRegs with sp := 0x0400 } [] .oddPcSp = true := by decide
theorem test_v362_flash : refuses [0x4582, 0xC100] { tRegs with r5 := 1 } [] .writeToFlash = true := by decide
theorem test_v363_word_of_byte_region : refuses [0x4215, 0x0020] tRegs [] .accessKind = true := by decide
theorem test_v364_byte_of_word_region : refuses [0x4255, 0x0120] tRegs [] .accessKind = true := by decide
theorem test_v367_above_ram : refuses [0x4582, 0x0400] { tRegs with r5 := 1 } [] .unpopulated = true := by decide
theorem test_v56_illegal : faults [0x1380] tRegs (.illegalInstruction 0xC000 0x1380) = true := by decide
theorem test_v368_pc_out_of_range :
    faults [] { tRegs with pc := 0x0100 } (.pcOutOfRange 0x0100) = true := by decide

/-- R82: a store into the next instruction's word, from code in RAM. -/
theorem test_smc_next_word :
    refuses [0x4582, 0x0214] { tRegs with pc := 0x0210, r5 := 1 } [] .smcNextWord = true := by decide

/-- R26 and R66 under `clear_bit0`: the same operands run. -/
theorem test_clear_bit0 :
    ran startConfig [0x5311] { tRegs with sp := 0x0400 } [] { tRegs with pc := 0xC002, sp := 0x0400 } [] = true ∧
    ran startConfig [0x4215, 0x0201] tRegs [(0x0200, 0x1234)]
      { tRegs with pc := 0xC004, r5 := 0x1234 } [] = true := by decide

/-! ## Peripheral addresses (95_test_vectors.md, part 3.8) -/

/-- V371: MOV.B #1,&0021h writes P1OUT and reads nothing. -/
theorem test_v371_p1out :
    holds (step { stateOf specDefaults tRegs [(0xC000, 0x43D2), (0xC002, 0x0021)] with events := [] })
      (fun t => decide (t.events = [.write 0x0021 .byte 0x0001]) && decide (t.periph.p1out = 0x0001)
        && decide (t.regs.pc = 0xC004)) = true := by decide

/-- V372: BIS.B #1,&0021h with 40h there reads it, then writes 41h. -/
theorem test_v372_p1out :
    holds (step { stateOf specDefaults tRegs [(0xC000, 0xD3D2), (0xC002, 0x0021)] with
        periph := { Periph.reset with p1out := 0x0040 } })
      (fun t => decide (t.events = [.write 0x0021 .byte 0x0041, .read 0x0021 .byte])
        && decide (t.periph.p1out = 0x0041)) = true := by decide

/-- V374: a word write to an address with no printed register is an event and nothing else. -/
theorem test_v374_event :
    holds (step (stateOf specDefaults tRegs [(0xC000, 0x40B2), (0xC002, 0x5A80), (0xC004, 0x0120)]))
      (fun t => decide (t.events = [.write 0x0120 .word 0x5A80]) && decide (t.periph = Periph.reset)) = true := by
  decide

/-- R340 and R345: UCA0TXBUF drops its top bit in 7-bit mode, and a write withdraws request 22. -/
theorem test_txbuf :
    holds (writeMem .byte 0x0067 0x00FF { State.reset with
        periph := { Periph.reset with uca0ctl0 := 0x0010 }, pending := [.usciTx, .adc10] })
      (fun t => decide (t.periph.uca0txbuf = 0x007F) && decide (t.pending = [.adc10])) = true := by decide

/-- R350: TACLR is not stored; R306: TAIFG and TAIE both 1 raise the timer's request. -/
theorem test_tactl :
    holds (writeMem .word 0x0160 0x0217 State.reset)
      (fun t => decide (t.periph.ta0ctl = 0x0213) && decide (t.pending = [.timer0Multi])) = true := by decide

/-- R341 and R401: UCAxCTL1 reads 01h right after reset, UCTXADDR and UCTXBRK among its zeros. -/
theorem test_reset_ucctl1 : (devRead .byte 0x0061 State.reset).1 = 0x01 := by rfl

/-- R40 and R401: at reset every annotated bit of every printed register has its annotation's value. -/
theorem test_reset_annotations :
    (allPeriph.all fun r => (regLayout r).all fun f =>
      match f.resetVal with
      | none => true
      | some b => (List.range 16).all fun k =>
        !(decide (f.lo ≤ k) && decide (k ≤ f.hi)) || (Periph.reset.get r).getLsbD k == b) = true := by decide

/-- R306: the timer sets TAIFG at a boundary; with TAIE = 1 that is request 24. A move changes no other bit. -/
theorem test_device_move :
    (let t := ({ State.reset with periph := { Periph.reset with ta0ctl := 0x0212 } }).deviceMove
      ⟨.ta0ctl, 0x0001⟩
     t.periph.ta0ctl = 0x0213 ∧ t.pending = [.timer0Multi]) ∧
    (State.reset.deviceMove ⟨.ta0ctl, 0x0001⟩).pending = [] := by decide

/-- R306, R350, R351: clearing one flag of a shared vector keeps the request while another flag is up. -/
theorem test_shared_vector :
    (let s := { State.reset with
       periph := { Periph.reset with ta0ctl := 0x0003, ta0cctl1 := 0x0011 }, pending := [.timer0Multi] }
     holds (writeMem .word 0x0160 0x0002 s) (fun t => decide (t.pending = [.timer0Multi])) = true) := by decide

/-! ## Interrupts and reset (95_test_vectors.md, part 3.10) -/

/-- V500: entry to vector 0FFF2h. -/
theorem test_v500_entry :
    holds (enterInterrupt .timer0Ccr0
        (stateOf specDefaults { tRegs with pc := 0xC010, sp := 0x0400, sr := 0x000B } [(0xFFF2, 0xC200)]))
      (fun t => decide (t.regs = { tRegs with pc := 0xC200, sp := 0x03FC })
        && decide (t.mem = store [] [(0xFFF2, 0xC200), (0x03FE, 0xC010), (0x03FC, 0x000B)])) = true := by
  decide

/-- V507: the second push runs out of RAM into a 16-bit peripheral address. -/
theorem test_v507_entry :
    holds (enterInterrupt .timer0Ccr0
        (stateOf specDefaults { tRegs with pc := 0xC010, sp := 0x0202, sr := 0x0008 } [(0xFFF2, 0xC200)]))
      (fun t => decide (t.regs = { tRegs with pc := 0xC200, sp := 0x01FE })
        && decide (t.events = [.accepted .timer0Ccr0, .write 0x01FE .word 0x0008])) = true := by decide

/-- R309: acceptance resets ADC10IFG and its request; the (non)-maskable request stays for the program. -/
theorem test_acceptance :
    (let s := { stateOf specDefaults { tRegs with sp := 0x0400, sr := 0x0008 } [(0xFFEA, 0xC200), (0xFFFC, 0xC300)] with
       periph := { Periph.reset with adc10ctl0 := 0x000C }, pending := [.adc10, .nmi] }
     holds (enterInterrupt .adc10 s)
       (fun t => decide (t.periph.adc10ctl0 = 0x0008) && decide (t.pending = [.nmi])) = true ∧
     holds (enterInterrupt .nmi s) (fun t => decide (t.pending = [.adc10, .nmi])) = true) := by decide

/-- A boundary with SR and some pending requests. -/
def pendingAt (sr : Word) (ps : List IrqSource) : State :=
  { stateOf specDefaults { tRegs with sr := sr } [] with pending := ps }

/-- V520 to V524: which request is accepted. -/
theorem test_v520_acceptable :
    (pendingAt 0x0000 [.timer0Ccr0]).acceptable = none ∧
    (pendingAt 0x0008 [.timer0Ccr0, .timer1Ccr0, .portP1]).acceptable = some .timer1Ccr0 ∧
    (pendingAt 0x0000 [.timer0Ccr0, .nmi]).acceptable = some .nmi := by decide

/-- V525: with CPUOFF = 1 and nothing pending the CPU waits. -/
theorem test_v525_waits :
    holds (step (stateOf specDefaults { tRegs with sr := 0x0018 } [(0xC000, 0x4303)]))
      (fun t => decide (t.regs = { tRegs with sr := 0x0018 })) = true := by decide

/-- V527 and R312: a reset loads PC from 0FFFEh and clears SR; RSTIFG records the cause. -/
theorem test_v527_reset :
    holds (step { stateOf specDefaults { tRegs with sr := 0x01FF } [(0xFFFE, 0xC000)] with
        resetRequested := some .externalReset, pending := [.nmi] })
      (fun t => decide (t.regs.pc = 0xC000) && decide (t.regs.sr = 0) && decide (t.pending = [])
        && t.resetFlags.rstifg && decide (t.periph.uca0ctl1 = 0x0001)) = true := by decide

/-- R307: the environment's inputs reach the next boundary. -/
theorem test_boundary_inputs :
    holds (step { stateOf specDefaults { tRegs with sr := 0x0008 } [(0xC000, 0x4303)] with
        inputs := [⟨[], [.adc10], [], none⟩] })
      (fun t => decide (t.pending = [.adc10]) && decide (t.inputs = []) && decide (t.regs.pc = 0xC002)) = true := by
  decide

/-! ## Beside the machine -/

/-- K66, K68, K71, K75, K76 and K78: reserved forms have a text; K60: an illegal word has none. -/
theorem test_disassemble_reserved :
    disassembleWords 0xC000 0x1301 0 0 = some ("RETI (reserved form)", 1) ∧
    disassembleWords 0xC000 0x10C5 0 0 = some ("SWPB.B R5", 1) ∧
    disassembleWords 0xC000 0x1030 0x1234 0 = some ("RRC #1234h", 2) ∧
    disassembleWords 0xC000 0x1201 0 0 = some ("PUSH SP", 1) ∧
    disassembleWords 0xC000 0x4583 0x0000 0 = some ("MOV R5,0h(R3)", 2) ∧
    disassembleWords 0xC000 0x5502 0 0 = some ("ADD R5,SR", 1) ∧
    disassembleWords 0xC000 0x0000 0 0 = none := by
  refine ⟨?_, ?_, ?_, ?_, ?_, ?_, ?_⟩ <;> rfl

/-- R334: A0 of P1.0 asks ADC10AE.0 = 1 with INCH.0 = 1; the I/O row has a direction, "I: 0; O: 1". -/
theorem test_pins :
    pinFunctions 0 false false false true true false false = ["A0"] ∧
    pinFunctions 0 false false false true false false false = [] ∧
    (pinRows.head?.map fun r => (r.function, r.direction true)) = some ("P1.x (I/O)", some .output) := by decide

/-! ## Witnesses: states that meet the hypotheses of the statements -/

/-- RAM code and data, the stack at the top of RAM, every RAM word read by the witnesses listed. -/
def wState : State :=
  stateOf startConfig
    { tRegs with pc := 0xC000, sp := 0x03FC, r5 := 0x0200, r6 := 0x0210, r7 := 0x0012, r8 := 0xC100 }
    [(0x0200, 0x0034), (0x0202, 0x0099), (0x0210, 0x0001), (0x03FC, 0x0008), (0x03FE, 0xC010),
     (0xC100, 0x5555), (0xFFFE, 0xC000), (0xFFF2, 0xC200), (0xFFFC, 0xC300)]

/-- The same under the spec's defaults. -/
def wDefault : State := { wState with cfg := specDefaults }

/-- The same with PC at an address. -/
def wAt (pc : Word) : State := { wState with regs := { wState.regs with pc := pc } }

theorem witness_inv : wState.inv = true ∧ wDefault.inv = true ∧ State.reset.inv = true := by decide

theorem witness_DecodeOfEncode :
    (Instr.sub .byte (.imm 0x1234) (.indexed .r5 4)).wf = true ∧
    (Instr.sub .byte (.imm 0x1234) (.indexed .r5 4)).canonical = true ∧
    (Instr.rla .word (.symbolic 0x0010)).wf = true ∧
    (Instr.rla .word (.symbolic 0x0010)).canonical = true := by decide

theorem witness_EncodeOfDecode :
    decode [0x15, 0x83, 0x07] = .ok (.dec .word (.reg .r5), [0x07]) := by rfl

theorem witness_LengthFromFirstWord :
    (Instr.add .word (.imm 0x21) (.symbolic 0x420C)).wf = true ∧
    encode (.add .word (.imm 0x21) (.symbolic 0x420C)) = 0x50B0 :: [0x0021, 0x420C] := by decide

/-- Both sides of every boundary of R116, and a word of each reserved form, beside one that is none. -/
theorem witness_RejectedWordsExact :
    rejects 0x0FFF (.illegal 0x0FFF) = true ∧ rejects 0x1000 (.illegal 0x1000) = false ∧
    rejects 0x137F (.form .reservedForm) = true ∧ rejects 0x1380 (.illegal 0x1380) = true ∧
    rejects 0x1FFF (.illegal 0x1FFF) = true ∧ rejects 0x2000 (.illegal 0x2000) = false ∧
    rejects 0x1300 (.form .reservedForm) = false ∧ rejects 0x1003 (.form .reservedForm) = true ∧
    rejects 0x1122 (.form .reservedForm) = true ∧ rejects 0x1030 (.form .reservedForm) = true ∧
    rejects 0x1203 (.form .reservedForm) = false ∧
    ([0x1002, 0x1042, 0x1102, 0x1182, 0x5502, 0x6502, 0x7502, 0x8502, 0xA502, 0xE502, 0xF542].all fun w =>
      rejects w (.form .srDstWithFlags)) = true ∧
    ([0x1082, 0x11C2, 0x1012, 0x4502, 0x9502, 0xB502, 0xC502, 0xD502, 0x5582].all fun w =>
      !rejects w (.form .srDstWithFlags)) = true := by decide

theorem witness_IllFormedNeverCompletes : (Instr.push .word (.reg .sp)).wf = false := by decide

/-- A boundary at which the instruction runs: ADD R5,R6 answers, SWPB SR is refused, MOV #1,R5 with its
extension word in unpopulated space faults. -/
theorem witness_StepRunsDecoded :
    (let s := stateOf specDefaults { tRegs with r5 := 1 } [(0xC000, 0x5506)]
     s.resetRequested = none ∧ s.acceptable = none ∧ s.cpuOff = false ∧ fetchAddr s = .next 0xC000 ∧
       decoded [0x5506] = some (.add .word (.reg .r5) (.reg .r6)) ∧
       holds (exec (.add .word (.reg .r5) (.reg .r6)) s) (fun _ => true) = true) ∧
    (let s := stateOf specDefaults { tRegs with sr := 4 } [(0xC000, 0x1082)]
     s.acceptable = none ∧ s.cpuOff = false ∧ fetchAddr s = .next 0xC000 ∧
       refuses [0x1082] { tRegs with sr := 4 } [] .srReserved = true) ∧
    (let s := stateOf specDefaults { tRegs with pc := 0x03FE } [(0x03FE, 0x4035)]
     s.acceptable = none ∧ s.cpuOff = false ∧ fetchAddr s = .next 0x03FE ∧ s.cfg.faultAction = .stop ∧
       faults [0x4035] { tRegs with pc := 0x03FE } (.pcOutOfRange 0x0400) = true) := by
  refine ⟨⟨?_, ?_, ?_, rfl, ?_, ?_⟩, ⟨?_, ?_, rfl, ?_⟩, ⟨?_, ?_, rfl, ?_, ?_⟩⟩ <;> decide

theorem witness_BoundaryOrder :
    { wState with resetRequested := some ResetCause.watchdog }.resetRequested = some .watchdog ∧
    { wState with pending := [IrqSource.nmi] }.acceptable = some .nmi ∧
    (let s := { wState with regs := { wState.regs with sr := 0x0010 }, pending := [IrqSource.adc10] }
     s.cpuOff = true ∧ s.resetRequested = none ∧ .nmi ∉ s.pending ∧ s.gie = false) ∧
    (let s := { wState with regs := { wState.regs with sr := 0x0018 } }
     s.cpuOff = true ∧ .nmi ∉ s.pending ∧ s.pending = []) := by decide

/-- The words at both ends of both illegal ranges; the clauses differ in `FAULT_ACTION`. -/
theorem witness_IllegalWordFaults :
    (let s := stateOf specDefaults tRegs [(0xC000, 0x0FFF)]
     quiet s = true ∧ s.cpuOff = false ∧ fetchAddr s = .next 0xC000 ∧
       (Memory.readWord s.mem 0xC000).toNat < 0x1000 ∧ s.cfg.faultAction = .stop) ∧
    (let s := stateOf { specDefaults with faultAction := .reset } tRegs [(0xC000, 0x1380)]
     quiet s = true ∧ fetchAddr s = .next 0xC000 ∧ (Memory.readWord s.mem 0xC000).toNat = 0x1380 ∧
       s.cfg.faultAction = .reset) ∧
    (Memory.readWord (stateOf specDefaults tRegs [(0xC000, 0x1FFF)]).mem 0xC000).toNat ≤ 0x1FFF := by
  refine ⟨⟨?_, ?_, rfl, ?_, ?_⟩, ⟨?_, rfl, ?_, ?_⟩, ?_⟩ <;> decide

/-- PC just below RAM, just above it, and just below flash. -/
theorem witness_FetchOutOfRangeFaults :
    ([0x01FE, 0x0400, 0xBFFE, 0x0000].all fun pc =>
      quiet (wAt pc) && !(wAt pc).cpuOff && aligned (wAt pc).cfg .word (wAt pc).regs.pc
        && !inRam (wAt pc).cfg (alignTo .word (wAt pc).regs.pc)
        && !inFlash (wAt pc).cfg (alignTo .word (wAt pc).regs.pc) && !fetchable (wAt pc)) = true ∧
    wState.cfg.faultAction = .stop ∧
    { startConfig with faultAction := .reset }.faultAction = .reset ∧
    (Src.imm 5).wf = true ∧ (Src.imm 5).ext.isSome = true ∧
    (Dst.indexed .r15 5).wf = true ∧ (Dst.indexed .r15 5).ext.isSome = true := by decide

/-- `JMP $` with no input left; then each terminal state of R410 under inputs: GIE = 0 with a maskable request up
and a device that moves, GIE = 1 with nothing enabled, and CPUOFF with GIE = 0. -/
theorem witness_JumpToSelfRepeats :
    (let s := stateOf startConfig tRegs [(0xC000, 0x3FFF)]
     quiet s = true ∧ s.cpuOff = false ∧ s.inputs = [] ∧ fetchAddr s = .next 0xC000 ∧
       codeBytes s 0xC000 = [0xFF, 0x3F, 0, 0, 0, 0]) ∧
    decode [0xFF, 0x3F, 0, 0, 0, 0] = .ok (.jmp 0x3FF, [0, 0, 0, 0]) ∧
    (let s := { stateOf startConfig tRegs [(0xC000, 0x3FFF)] with
       pending := [.adc10], inputs := [⟨[⟨.ta0ctl, 1⟩], [.portP1], [], none⟩] }
     runEnded s = true ∧ undisturbed s = true) ∧
    (let s := { stateOf startConfig { tRegs with sr := 0x0008 } [(0xC000, 0x3FFF)] with
       inputs := [⟨[⟨.ta0ctl, 1⟩], [], [.portP1], none⟩] }
     s.gie = true ∧ runEnded s = true ∧ undisturbed s = true) ∧
    (let s := { stateOf startConfig { tRegs with sr := 0x0010 } [] with inputs := [⟨[], [.portP1], [], none⟩] }
     runEnded s = true ∧ undisturbed s = true) := by
  refine ⟨⟨?_, ?_, rfl, rfl, ?_⟩, rfl, ?_, ?_, ?_⟩ <;> decide

/-- R410: with GIE = 1 and an enable set, or anywhere but at `JMP $`, the run has not ended. -/
theorem test_run_not_ended :
    runEnded { stateOf startConfig { tRegs with sr := 0x0008 } [(0xC000, 0x3FFF)] with
      periph := { Periph.reset with ta0cctl0 := 0x0010 } } = false ∧
    runEnded (stateOf startConfig tRegs [(0xC000, 0x3FFE)]) = false ∧
    runEnded (stateOf startConfig { tRegs with sr := 0x0018 } []) = false := by decide

/-- Every region's first and last address, in the clause it falls under. -/
theorem witness_AccessAdmission :
    isOdd 0x0201 = true ∧ specDefaults.oddWordAccess = .refuse ∧ startConfig.oddWordAccess = .clearBit0 ∧
    isOdd 0x00FE = false ∧ isOdd 0x0100 = false ∧ wState.cfg.ramEnd.toNat = 0x03FF ∧
    wState.cfg.flashBase.toNat = 0xC000 ∧
    holds (writeMem .byte 0x00FF 1 wState) (fun _ => true) = true ∧
    holds (writeMem .word 0x01FE 1 wState) (fun _ => true) = true ∧
    holds (writeMem .word 0x0200 1 wState) (fun _ => true) = true ∧
    holds (writeMem .byte 0x03FF 1 wState) (fun _ => true) = true ∧
    holds (writeMem .byte 0x0400 1 wState) (fun _ => true) = false ∧
    holds (readMem .byte 0xBFFF wState |> fun o => andThen o fun p => .next p.2) (fun _ => true) = false ∧
    holds (readMem .byte 0xC000 wState |> fun o => andThen o fun p => .next p.2) (fun _ => true) = true ∧
    holds (readMem .byte 0xFFFF wState |> fun o => andThen o fun p => .next p.2) (fun _ => true) = true := by
  decide

theorem witness_MixedWidthView :
    Memory.wf wState.mem = true ∧ isOdd 0x0200 = false ∧ inRam wState.cfg 0x0200 = true ∧
    inRam wState.cfg (0x0200 + 1) = true ∧ isOdd 0x03FE = false ∧ inRam wState.cfg 0x03FE = true ∧
    inRam wState.cfg (0x03FE + 1) = true ∧ Reg.pc ≠ .cg ∧ Reg.r15 ≠ .cg := by decide

theorem witness_AccessFrame :
    holds (writeMem .word 0x0200 0x1234 wState) (fun _ => true) = true ∧
    holds (writeMem .byte 0x0000 0x12 wState) (fun _ => true) = true ∧
    0x0200 ≤ (alignTo .word 0x0200).toNat ∧ readMem .word 0x0200 wState = .next (0x0034, wState) := by
  refine ⟨?_, ?_, ?_, rfl⟩ <;> decide

/-- The four ends of the peripheral regions hold no printed register. -/
theorem witness_EnvironmentAccess :
    ([(Width.byte, 0x0000), (.byte, 0x00FF), (.word, 0x0100), (.word, 0x01FE)].all fun p =>
      inDevice p.1 p.2 && (p.1 == .byte || !isOdd p.2) && (regAt startConfig p.2).isNone) = true := by decide

/-- Registers of each kind at the suggested addresses, with UCSWRST and ENC at both values. -/
theorem witness_PeripheralReads :
    regAt wState.cfg 0x0021 = some .p1out ∧ regAt wState.cfg 0x002F = some .p2ren ∧
    regAt wState.cfg 0x0160 = some .ta0ctl ∧ isOdd 0x0160 = false ∧ regAt wState.cfg 0x0186 = some .ta1cctl2 ∧
    regAt wState.cfg 0x011E = some .ta1iv ∧ regAt wState.cfg 0x0060 = some .uca0ctl0 ∧
    regAt wState.cfg 0x01B0 = some .adc10ctl0 ∧ inDevice .byte 0x0060 = true ∧ inDevice .word 0x01B0 = true ∧
    wState.periph.uca0ctl1.getLsbD 0 = true ∧ wState.periph.adc10ctl0.getLsbD 1 = false ∧
    { Periph.reset with uca0ctl1 := 0 }.uca0ctl1.getLsbD 0 = false ∧
    { Periph.reset with adc10ctl0 := 2 }.adc10ctl0.getLsbD 1 = true ∧
    holds (writeMem .word 0x01B0 0x000C wState) (fun t => decide (t.pending = [.adc10])) = true ∧
    holds (readMem .word 0x0160 wState |> fun o => andThen o fun p => .next p.2) (fun _ => true) = true := by
  decide

theorem witness_UsciBuffers :
    regAt wState.cfg 0x0067 = some .uca0txbuf ∧ regAt wState.cfg 0x0066 = some .uca0rxbuf ∧
    holds (readMem .byte 0x0066 wState |> fun o => andThen o fun p => .next p.2) (fun _ => true) = true ∧
    { Periph.reset with uca0ctl0 := 0x10 }.uca0ctl0.getLsbD 4 = true := by decide

/-- The word after the instruction, its two neighbours, and an odd address under both values. -/
theorem witness_StoreToNextWordRefused :
    isOdd (wAt 0x0212).regs.pc = false ∧ inRam (wAt 0x0212).cfg 0x0212 = true ∧
    inRam (wAt 0x0212).cfg 0x0213 = true ∧ isOdd 0x0210 = false ∧ (0x0210#16) ≠ (wAt 0x0212).regs.pc ∧
    inRam (wAt 0x0212).cfg 0x0210 = true ∧ (0x0211#16) ≠ (wAt 0x0212).regs.pc + 1 ∧
    inRam (wAt 0x0212).cfg 0x0211 = true ∧ isOdd 0x0211 = true ∧ isOdd 0x0213 = true ∧
    (wAt 0x0212).cfg.oddWordAccess = .clearBit0 ∧ specDefaults.oddWordAccess = .refuse := by decide

theorem witness_RegisterWrites :
    isOdd 0xFFFE = false ∧ isOdd 0xFFFF = true ∧ (0x01FF#16).toNat < 0x0200 ∧ 0x0200 ≤ (0x0200#16).toNat ∧
    specDefaults.oddPcSp = .refuse ∧ startConfig.oddPcSp = .clearBit0 := by decide

/-- A base, a pointer and an address in RAM, at its first and last word, and in flash. -/
theorem witness_SourceModes :
    fetchable wState = true ∧ Reg.isBase .r5 = true ∧ Reg.isPointer .r8 = true ∧
    ([0x0200, 0x03FE, 0xC100, 0xFFFE].all fun ea =>
      decide (0x0200 ≤ (alignTo .word ea).toNat) && readable wState.cfg .word ea) = true ∧
    readable wState.cfg .byte 0xFFFF = true ∧ wState.get .r5 = 0x0200 ∧ wState.get .r8 = 0xC100 ∧
    Reg.isBase .sp = true ∧ isOdd (wState.get .sp) = false ∧
    readable wState.cfg .word (wState.get .sp) = true ∧ readable wState.cfg .word (wState.regs.pc + 0x0100) = true := by
  decide

theorem witness_DestinationModes :
    fetchable wState = true ∧ Reg.isBase .r5 = true ∧ Reg.r5 ≠ .cg := by decide

/-- A general register and SP as the shared one. -/
theorem witness_SharedOperands :
    Reg.isBase .r5 = true ∧ isOdd (wState.get .r5) = false ∧ 0x0200 ≤ (wState.get .r5).toNat ∧
    readable wState.cfg .word (wState.get .r5) = true ∧ inRam wState.cfg (wState.get .r5 + 2) = true ∧
    fetchable wState.skipWord = true ∧ wState.get .r5 + 2 ≠ wState.regs.pc + 4 ∧
    inRam wState.cfg (wState.get .r5) = true ∧ wState.get .r5 ≠ wState.regs.pc + 4 ∧
    Reg.isBase .sp = true ∧ isOdd (wState.get .sp) = false ∧
    readable wState.cfg .word (wState.get .sp) = true ∧
    isOdd (Memory.readWord wState.mem (wState.get .sp)) = false ∧ inRam wState.cfg (wState.get .sp + 2) = true ∧
    isOdd wState.regs.pc = false ∧ holds (exec (.call (.reg .pc)) wState) (fun _ => true) = true := by decide

/-! Completion: a register form and a memory form each. -/

theorem witness_MovCompletes :
    canFinish moveShape .word (.reg .r5) (.reg .r6) wState (src2 .word (.reg .r5) wState) = true ∧
    canFinish moveShape .byte (.autoInc .r5) (.indexed .r6 1) wState (src2 .byte (.autoInc .r5) wState) = true ∧
    canFinish moveShape .word (.imm 0x0300) (.indexed .sp 0) wState (src2 .word (.imm 0x0300) wState) = true := by
  decide

theorem witness_AddAddcComplete :
    canFinish computeShape .word (.indirect .r5) (.reg .r6) wState 0x0244 = true ∧
    reduced .word ((src2 .word (.indirect .r5) wState).toNat
      + (dst2 .word (.indirect .r5) (.reg .r6) wState).toNat) = 0x0244 ∧
    canFinish computeShape .byte (.reg .r7) (.indexed .r5 0) wState 0x0046 = true ∧
    reduced .byte ((src2 .byte (.reg .r7) wState).toNat
      + (dst2 .byte (.reg .r7) (.indexed .r5 0) wState).toNat + wState.carry.toNat) = 0x0046 := by decide

theorem witness_SubcCompletes :
    canFinish computeShape .word (.reg .r7) (.indexed .r5 2) wState
      (reduced .word ((dst2 .word (.reg .r7) (.indexed .r5 2) wState).toNat + 2 ^ nBits .word
        - (src2 .word (.reg .r7) wState).toNat - (!wState.carry).toNat)) = true := by decide

theorem witness_SubCmpComplete :
    canFinish computeShape .byte (.const .one) (.reg .r6) wState
      (reduced .byte ((dst2 .byte (.const .one) (.reg .r6) wState).toNat + 2 ^ nBits .byte
        - (src2 .byte (.const .one) wState).toNat)) = true ∧
    ready2 testShape .word (.imm 5) (.absolute 0x0200) wState = true := by decide

/-- The decimal clause at 99h + 12h, and the other with the operand 0Ah. -/
theorem witness_DaddCompletes :
    isDecimal (nBits .byte / 4) (src2 .byte (.reg .r7) wState).toNat = true ∧
    isDecimal (nBits .byte / 4) (dst2 .byte (.reg .r7) (.indexed .r5 2) wState).toNat = true ∧
    canFinish computeShape .byte (.reg .r7) (.indexed .r5 2) wState 0x11 = true ∧
    ¬(isDecimal (nBits .word / 4) (src2 .word (.imm 0x000A) wState).toNat = true ∧
      isDecimal (nBits .word / 4) (dst2 .word (.imm 0x000A) (.reg .r6) wState).toNat = true) := by decide

/-- The same clause's other hypothesis: every value can be written to a general register. -/
theorem witness_DaddCompletes_any (v : Word) :
    canFinish computeShape .word (.imm 0x000A) (.reg .r6) wState v = true := by
  have h : ready2 computeShape .word (.imm 0x000A) (.reg .r6) wState = true := by decide
  unfold canFinish
  rw [h]
  rfl

theorem witness_BitAndCompletes :
    ready2 testShape .byte (.const .eight) (.indexed .r5 0) wState = true ∧
    canFinish computeShape .byte (.reg .r7) (.indexed .r5 0) wState
      (src2 .byte (.reg .r7) wState &&& dst2 .byte (.reg .r7) (.indexed .r5 0) wState) = true := by decide

theorem witness_BicBisCompletes :
    canFinish bitsShape .word (.const .eight) (.reg .sr) wState
      (dst2 .word (.const .eight) (.reg .sr) wState &&& ~~~(src2 .word (.const .eight) wState)) = true ∧
    canFinish bitsShape .byte (.imm 0x55) (.indexed .r5 0) wState
      (dst2 .byte (.imm 0x55) (.indexed .r5 0) wState ||| src2 .byte (.imm 0x55) wState) = true := by decide

theorem witness_XorCompletes :
    canFinish computeShape .word (.const .minusOne) (.absolute 0x03FE) wState
      (src2 .word (.const .minusOne) wState ^^^ dst2 .word (.const .minusOne) (.absolute 0x03FE) wState) = true := by
  decide

theorem witness_RrcCompletes :
    canFinish1 true .byte (.autoInc .r5) wState
      (BitVec.ofNat 16 ((val1 .byte (.autoInc .r5) wState).toNat / 2
        + wState.carry.toNat * 2 ^ (nBits .byte - 1))) = true ∧
    canFinish1 true .word (.reg .r7) wState 9 = true ∧
    { startConfig with rrcV := RrcV.alwaysZero }.rrcV = .alwaysZero ∧
    { startConfig with rrcV := RrcV.signChange }.rrcV = .signChange := by decide

theorem witness_RraCompletes :
    canFinish1 true .word (.indirect .r5) wState
      (BitVec.ofNat 16 (signedN .word (val1 .word (.indirect .r5) wState) / 2 % 2 ^ nBits .word).toNat) = true := by
  decide

theorem witness_SwpbSxtCompletes :
    canFinish1 false .word (.absolute 0x0202) wState
      (BitVec.ofNat 16 ((val1 .word (.absolute 0x0202) wState).toNat % 256 * 256
        + (val1 .word (.absolute 0x0202) wState).toNat / 256)) = true ∧
    canFinish1 true .word (.absolute 0x0202) wState
      (BitVec.ofInt 16 (signedN .byte (BitVec.ofNat 16
        ((val1 .word (.absolute 0x0202) wState).toNat % 256)))) = true := by decide

/-- The stack grows to the top word of RAM and to its first. -/
theorem witness_PushCompletes :
    (Src.autoInc .sp ≠ .reg .sp) ∧ ready1 .word (.autoInc .sp) wState = true ∧
    pushReady .word (state1 .word (.autoInc .sp) wState) = true ∧
    ready1 .byte (.imm 0x1234) wState = true ∧ pushReady .byte (state1 .byte (.imm 0x1234) wState) = true ∧
    Memory.wf wState.mem = true ∧
    (let s := { wState with regs := { wState.regs with sp := 0x0202 } }
     ready1 .word (.reg .r5) s = true ∧ pushReady .word (state1 .word (.reg .r5) s) = true ∧
       inRam s.cfg 0x0200 = true) := by decide

theorem witness_CallCompletes :
    ready1 .word (.imm 0xC100) wState = true ∧ pushReady .word (state1 .word (.imm 0xC100) wState) = true ∧
    storable wState.cfg .pc (val1 .word (.imm 0xC100) wState) = true ∧
    storable wState.cfg .pc (val1 .word (.imm 0xC101) wState) = true := by decide

theorem witness_RetiCompletes :
    isOdd wState.regs.sp = false ∧ inRam wState.cfg wState.regs.sp = true ∧
    inRam wState.cfg (wState.regs.sp + 2) = true ∧ (Memory.readWord wState.mem wState.regs.sp).toNat < 0x0200 ∧
    isOdd (Memory.readWord wState.mem (wState.regs.sp + 2)) = false := by decide

theorem witness_CompareThenJump :
    holds (exec (.cmp .word (.reg .r5) (.reg .r6)) wState) (fun _ => true) = true := by decide

theorem witness_AdcSbcComplete :
    canFinish computeShape .word (.const .zero) (.reg .r5) wState
      (reduced .word ((dst2 .word (.const .zero) (.reg .r5) wState).toNat + wState.carry.toNat)) = true ∧
    canFinish computeShape .byte (.const .zero) (.absolute 0x0201) wState
      (reduced .byte ((dst2 .byte (.const .zero) (.absolute 0x0201) wState).toNat + 2 ^ nBits .byte
        - (!wState.carry).toNat)) = true := by decide

theorem witness_DadcCompletes :
    isDecimal (nBits .byte / 4) (dst2 .byte (.const .zero) (.indexed .r5 2) wState).toNat = true ∧
    canFinish computeShape .byte (.const .zero) (.indexed .r5 2) wState 0x99 = true ∧
    (let s := { wState with regs := { wState.regs with r6 := 0x000A } }
     isDecimal (nBits .word / 4) (dst2 .word (.const .zero) (.reg .r6) s).toNat = false) := by decide

theorem witness_DadcCompletes_any (v : Word) :
    canFinish computeShape .word (.const .zero) (.reg .r6)
      { wState with regs := { wState.regs with r6 := 0x000A } } v = true := by
  have h : ready2 computeShape .word (.const .zero) (.reg .r6)
      { wState with regs := { wState.regs with r6 := 0x000A } } = true := by decide
  unfold canFinish
  rw [h]
  rfl

theorem witness_IncDecComplete :
    canFinish computeShape .word (.const .one) (.absolute 0x0200) wState 0x0035 = true ∧
    reduced .word ((dst2 .word (.const .one) (.absolute 0x0200) wState).toNat + 1) = 0x0035 ∧
    canFinish computeShape .word (.const .one) (.absolute 0x0200) wState 0x0033 = true ∧
    reduced .word ((dst2 .word (.const .one) (.absolute 0x0200) wState).toNat + 2 ^ nBits .word - 1) = 0x0033 ∧
    canFinish computeShape .byte (.const .two) (.reg .r6) wState 0x0012 = true ∧
    reduced .byte ((dst2 .byte (.const .two) (.reg .r6) wState).toNat + 2) = 0x0012 ∧
    canFinish computeShape .byte (.const .two) (.reg .r6) wState 0x000E = true ∧
    reduced .byte ((dst2 .byte (.const .two) (.reg .r6) wState).toNat + 2 ^ nBits .byte - 2) = 0x000E := by
  decide

theorem witness_InvTstComplete :
    canFinish computeShape .byte (.const .minusOne) (.reg .r7) wState 0x00ED = true ∧
    BitVec.ofNat 16 (2 ^ nBits .byte - 1 - (dst2 .byte (.const .minusOne) (.reg .r7) wState).toNat) = 0x00ED ∧
    ready2 testShape .word (.const .zero) (.absolute 0x0200) wState = true := by decide

theorem witness_RlaRlcComplete :
    canFinish computeShape .word (Dst.indexed .r5 2).asSrc (Dst.indexed .r5 2).second wState
      (reduced .word ((src2 .word (Dst.indexed .r5 2).asSrc wState).toNat
        + (dst2 .word (Dst.indexed .r5 2).asSrc (Dst.indexed .r5 2).second wState).toNat)) = true ∧
    canFinish computeShape .byte (Dst.reg .r7).asSrc (Dst.reg .r7).second wState
      (reduced .byte ((src2 .byte (Dst.reg .r7).asSrc wState).toNat
        + (dst2 .byte (Dst.reg .r7).asSrc (Dst.reg .r7).second wState).toNat + wState.carry.toNat)) = true ∧
    (Dst.indexed .r5 2).wf = true ∧
    place2 .word (Dst.indexed .r5 2).asSrc (Dst.indexed .r5 2).second wState = .mem 0x0202 ∧
    0x0200 ≤ (alignTo .word 0x0202).toNat := by decide

theorem witness_ClrNopBrComplete :
    canFinish moveShape .word (.const .zero) (.absolute 0x0200) wState 0 = true ∧
    ready2 moveShape .word (.autoInc .r5) (.reg .pc) wState = true ∧
    storable wState.cfg .pc (src2 .word (.autoInc .r5) wState) = true := by decide

theorem witness_PopRetComplete :
    canFinish moveShape .word (.autoInc .sp) (.reg .r5) wState
      (valueAt .word wState.regs.sp wState.skipWord) = true ∧
    (let s := { wState with regs := { wState.regs with sp := 0x03FE } }
     isOdd s.regs.sp = false ∧ inRam s.cfg s.regs.sp = true ∧
       isOdd (Memory.readWord s.mem s.regs.sp) = false) := by decide

theorem witness_FlagInstructionsComplete : wState.regs.sr.toNat < 0x0200 := by decide

/-! Frames: an instruction of each kind that answers. -/

theorem witness_PcAdvances :
    (Instr.mov .word (.imm 5) (.absolute 0x0200)).loadsPc = false ∧
    holds (exec (.mov .word (.imm 5) (.absolute 0x0200)) wState) (fun t => decide (t.regs.pc = 0xC006)) = true := by
  decide

theorem witness_RegisterFormFrame :
    (Instr.inc .word (.reg .r5)).formI = some (computeShape, .word, .const .one, .reg .r5) ∧
    computeShape.writesDst = true ∧ (Dst.reg .r5).isMem = false ∧
    holds (exec (.inc .word (.reg .r5)) wState) (fun _ => true) = true ∧
    (Instr.cmp .word (.reg .r5) (.absolute 0x0200)).formI =
      some (testShape, .word, .reg .r5, .absolute 0x0200) ∧ testShape.writesDst = false ∧
    holds (exec (.cmp .word (.reg .r5) (.absolute 0x0200)) wState) (fun _ => true) = true := by decide

theorem witness_StoreFormFrame :
    (Instr.bis .byte (.imm 0x55) (.indexed .r5 1)).formI =
      some (bitsShape, .byte, .imm 0x55, .indexed .r5 1) ∧
    bitsShape.writesDst = true ∧ (Dst.indexed .r5 1).isMem = true ∧
    holds (exec (.bis .byte (.imm 0x55) (.indexed .r5 1)) wState) (fun _ => true) = true ∧
    srcOperand .byte (.imm 0x55) wState.skipWord = .next (0x55, wState.skipWord.skipWord) ∧
    dstLocation (.indexed .r5 1) wState.skipWord.skipWord =
      .next (.mem 0x0201, wState.skipWord.skipWord.skipWord) := by
  refine ⟨?_, ?_, ?_, ?_, rfl, rfl⟩ <;> decide

theorem witness_RotateFrame :
    (Instr.rra .word (.reg .r7)).rotates = some (true, .word, .reg .r7) ∧
    holds (exec (.rra .word (.reg .r7)) wState) (fun _ => true) = true ∧
    opLocation .word (.reg .r7) wState.skipWord = .next (.reg .r7, wState.skipWord) ∧
    (Instr.swpb (.indirect .r5)).rotates = some (false, .word, .indirect .r5) ∧
    holds (exec (.swpb (.indirect .r5)) wState) (fun _ => true) = true ∧
    opLocation .word (.indirect .r5) wState.skipWord = .next (.mem 0x0200, wState.skipWord) := by
  refine ⟨?_, ?_, rfl, ?_, ?_, rfl⟩ <;> decide

theorem witness_StackFrame :
    holds (exec (.push .byte (.reg .r5)) wState) (fun t => decide (0x0200 ≤ t.regs.sp.toNat)) = true ∧
    holds (exec (.call (.imm 0xC100)) wState) (fun t => decide (0x0200 ≤ t.regs.sp.toNat)) = true := by decide

/-! Interrupts, reset, invariants. -/

/-- A vector of one flag, a shared one, and the (non)-maskable one with GIE = 0. -/
theorem witness_InterruptEntry :
    (let s := { wState with regs := { wState.regs with sr := 0x0008 }, pending := [IrqSource.timer0Ccr0] }
     s.inv = true ∧ s.resetRequested = none ∧ s.acceptable = some .timer0Ccr0 ∧
       inRam s.cfg (s.regs.sp - 2) = true ∧ inRam s.cfg (s.regs.sp - 4) = true ∧
       storable s.cfg .pc (Memory.readWord s.mem (vectorAddr (priority .timer0Ccr0))) = true) ∧
    (let s := { wState with regs := { wState.regs with sr := 0x0048 }, pending := [IrqSource.portP1] }
     s.inv = true ∧ s.acceptable = some .portP1 ∧
       storable s.cfg .pc (Memory.readWord s.mem (vectorAddr (priority .portP1))) = true) ∧
    (let s := { wState with pending := [IrqSource.nmi] }
     s.inv = true ∧ s.acceptable = some .nmi ∧
       storable s.cfg .pc (Memory.readWord s.mem (vectorAddr (priority .nmi))) = true) := by decide

theorem witness_EntryThenReturn :
    wState.inv = true ∧ inRam wState.cfg (wState.regs.sp - 2) = true ∧
    inRam wState.cfg (wState.regs.sp - 4) = true ∧
    holds (enterInterrupt .nmi wState) (fun t =>
      decide (t.cfg = startConfig) && decide (t.regs.sp = 0x03F8)) = true := by decide

theorem witness_ResetEffect :
    wState.cfg.wf = true ∧
    { wState with resetRequested := some ResetCause.powerUp }.resetRequested = some .powerUp ∧
    storable wState.cfg .pc (Memory.readWord wState.mem 0xFFFE) = true := by decide

/-- A step of a state that meets the invariant. -/
theorem witness_StepKeepsInvariant :
    (let s := stateOf startConfig { tRegs with sp := 0x0400, r5 := 0x1234 } [(0xC000, 0x1205)]
     s.inv = true ∧ holds (step s) (fun t => decide (t.regs.sp = 0x03FE)) = true) := by decide

/-- The same step; a byte of flash. -/
theorem witness_StepKeepsFlash :
    (let s := stateOf startConfig { tRegs with sp := 0x0400, r5 := 0x1234 } [(0xC000, 0x1205)]
     s.cfg.wf = true ∧ holds (step s) (fun _ => true) = true ∧ inFlash s.cfg 0xC000 = true ∧
       inFlash s.cfg 0xFFFF = true) := by decide

theorem witness_CycleTables :
    (Instr.mov .word (.imm 5) (.reg .pc)).formI = some (moveShape, .word, .imm 5, .reg .pc) ∧
    (Instr.sub .word (.imm 5) (.absolute 0x0200)).formI = some (computeShape, .word, .imm 5, .absolute 0x0200) ∧
    (Instr.nop).formI = some (moveShape, .word, .const .zero, .bucket) ∧
    (Instr.swpb (.reg .r5)).rotates = some (false, .word, .reg .r5) := by decide

theorem witness_VectorTable : (0 : Nat) ≤ 31 ∧ (vectorAddr 0).toNat = 0xFFC0 ∧ (31 : Nat) ≤ 31 := by decide

/-- Examples of Table 3-16 (R408): 3 cycles for `BR #2AEh`, 6 for `MOV EDE,&TONI`. -/
theorem test_cycles :
    cycles (.br (.imm 0x02AE)) = some 3 ∧ cycles (.mov .word (.symbolic 0x420E) (.absolute 0x0220)) = some 6 := by
  decide

end Sys2Proof.Tests
end

section
/-! PROOFS. Writing a register (O20). -/

namespace Sys2Proof.Machine

/-- Clearing bit 0 of an odd value takes one away. -/
theorem clearBit0_of_odd {v : Word} (h : isOdd v = true) : clearBit0 v = v - 1 := by
  rw [isOdd_iff] at h
  have hv := v.isLt
  apply BitVec.eq_of_toNat_eq
  rw [clearBit0_toNat, BitVec.toNat_sub]
  simp only [BitVec.reduceToNat]
  omega

theorem evenValue_of_even {c : Config} {v : Word} (h : isOdd v = false) : evenValue c v = .next v := by
  simp [evenValue, h]

theorem evenValue_of_refuse {c : Config} {v : Word} (h : isOdd v = true) (hc : c.oddPcSp = .refuse) :
    evenValue c v = .refused .oddPcSp := by
  simp [evenValue, h, hc]

theorem evenValue_of_clearBit0 {c : Config} {v : Word} (h : isOdd v = true)
    (hc : c.oddPcSp = .clearBit0) : evenValue c v = .next (v - 1) := by
  simp [evenValue, h, hc, clearBit0_of_odd h]

/-- PC and SP take the even value that `ODD_PC_SP` leaves of what is written (R26, R30). -/
theorem writeReg_of_pc_or_sp {r : Reg} (hr : r = .pc ∨ r = .sp) (v : Word) (s : State) :
    writeReg r v s = andThen (evenValue s.cfg v) fun u => .next (s.put r u) := by
  rcases hr with rfl | rfl
  · rfl
  · rfl

theorem writeReg_sr_of_reserved {v : Word} (h : 0x0200 ≤ v.toNat) (s : State) :
    writeReg .sr v s = .refused .srReserved :=
  if_neg fun h0 => absurd ((srReserved_iff v).mp h0) (Nat.not_lt.mpr h)

/-- Every register but PC, SP and SR takes any value (R24). -/
theorem writeReg_of_ne {r : Reg} (hpc : r ≠ .pc) (hsp : r ≠ .sp) (hsr : r ≠ .sr) (v : Word) (s : State) :
    writeReg r v s = .next (s.put r v) := by
  cases r
  case pc => exact absurd rfl hpc
  case sp => exact absurd rfl hsp
  case sr => exact absurd rfl hsr
  all_goals rfl

/-- Settles O20: each clause is the case of `writeReg` for that register. -/
theorem registerWrites : Obligations.RegisterWrites := by
  unfold Obligations.RegisterWrites
  intro r v s
  refine ⟨fun hr he => ?_, fun hr ho => ⟨fun hc => ?_, fun hc => ?_⟩, ?_, ?_, fun hpc hsp hsr => ?_⟩
  · rw [writeReg_of_pc_or_sp hr, evenValue_of_even he, andThen_next]
  · rw [writeReg_of_pc_or_sp hr, evenValue_of_refuse ho hc, andThen_refused]
  · rw [writeReg_of_pc_or_sp hr, evenValue_of_clearBit0 ho hc, andThen_next]
  · rintro rfl
    exact ⟨fun h => writeReg_next (decide_eq_true h), fun h => writeReg_sr_of_reserved h s⟩
  · rintro rfl
    rfl
  · exact writeReg_of_ne hpc hsp hsr v s

end Sys2Proof.Machine
end

section
/-! PROOFS. The shape of every instruction's meaning, and the number of its code words by that shape: one case
split over the instructions, which the proofs about `exec` cite. -/

namespace Sys2Proof.Machine

/-! ## What `exec` is -/

/-- The shapes of the meanings: Format I, the rotates with SWPB and SXT, PUSH, CALL, RETI and the jumps, each
with what identifies it among the instructions. -/
inductive ExecShape (i : Instr) (s : State) : Prop where
  | formI {sh : Shape} {alu : Nat → Bool → Word → Word → AluOut} {w : Width} {src : Src} {dst : Dst}
      (syn : i.formI = some (sh, w, src, dst)) (sem : exec i s = doubleOp sh alu w src dst s)
  | rotate {flags : Bool} {alu : Nat → Bool → Word → AluOut} {w : Width} {o : Src}
      (syn : i.rotates = some (flags, w, o)) (sem : exec i s = singleOp flags alu w o s)
  | push {w : Width} {o : Src} (syn : i = .push w o)
  | call {o : Src} (syn : i = .call o)
  | reti (syn : i = .reti)
  | jump {taken : Bool} {off : BitVec 10} (syn : i.loadsPc = true) (sem : exec i s = jumpIf taken off s)

/-- Every instruction has one of the shapes: the emulated ones are of Format I (R250). -/
theorem exec_shape (i : Instr) (s : State) : ExecShape i s := by
  cases i with
  | mov w src dst => exact .formI rfl (exec_mov w src dst s)
  | add w src dst => exact .formI rfl (exec_add w src dst s)
  | addc w src dst => exact .formI rfl (exec_addc w src dst s)
  | subc w src dst => exact .formI rfl (exec_subc w src dst s)
  | sub w src dst => exact .formI rfl (exec_sub w src dst s)
  | cmp w src dst => exact .formI rfl (exec_cmp w src dst s)
  | dadd w src dst => exact .formI rfl (exec_dadd w src dst s)
  | bit w src dst => exact .formI rfl (exec_bit w src dst s)
  | bic w src dst => exact .formI rfl (exec_bic w src dst s)
  | bis w src dst => exact .formI rfl (exec_bis w src dst s)
  | xor w src dst => exact .formI rfl (exec_xor w src dst s)
  | and w src dst => exact .formI rfl (exec_and w src dst s)
  | rrc w o => exact .rotate rfl (exec_rrc w o s)
  | swpb o => exact .rotate rfl (exec_swpb o s)
  | rra w o => exact .rotate rfl (exec_rra w o s)
  | sxt o => exact .rotate rfl (exec_sxt o s)
  | push w o => exact .push rfl
  | call o => exact .call rfl
  | reti => exact .reti rfl
  | jne off => exact .jump rfl (exec_jne off s)
  | jeq off => exact .jump rfl (exec_jeq off s)
  | jnc off => exact .jump rfl (exec_jnc off s)
  | jc off => exact .jump rfl (exec_jc off s)
  | jn off => exact .jump rfl (exec_jn off s)
  | jge off => exact .jump rfl (exec_jge off s)
  | jl off => exact .jump rfl (exec_jl off s)
  | jmp off => exact .jump rfl (exec_jmp off s)
  | adc w dst => exact .formI rfl (exec_adc w dst s)
  | br src => exact .formI rfl (exec_br src s)
  | clr w dst => exact .formI rfl (exec_clr w dst s)
  | clrc => exact .formI rfl (exec_clrc s)
  | clrn => exact .formI rfl (exec_clrn s)
  | clrz => exact .formI rfl (exec_clrz s)
  | dadc w dst => exact .formI rfl (exec_dadc w dst s)
  | dec w dst => exact .formI rfl (exec_dec w dst s)
  | decd w dst => exact .formI rfl (exec_decd w dst s)
  | dint => exact .formI rfl (exec_dint s)
  | eint => exact .formI rfl (exec_eint s)
  | inc w dst => exact .formI rfl (exec_inc w dst s)
  | incd w dst => exact .formI rfl (exec_incd w dst s)
  | inv w dst => exact .formI rfl (exec_inv w dst s)
  | nop => exact .formI rfl (exec_nop s)
  | pop w dst => exact .formI rfl (exec_pop w dst s)
  | ret => exact .formI rfl (exec_ret s)
  | rla w dst => exact .formI rfl (exec_rla w dst s)
  | rlc w dst => exact .formI rfl (exec_rlc w dst s)
  | sbc w dst => exact .formI rfl (exec_sbc w dst s)
  | setc => exact .formI rfl (exec_setc s)
  | setn => exact .formI rfl (exec_setn s)
  | setz => exact .formI rfl (exec_setz s)
  | tst w dst => exact .formI rfl (exec_tst w dst s)

/-! ## Code words by shape (R103 to R105, R115) -/

theorem length_toList_eq_extCount (e : Option Word) : e.toList.length = extCount e := by
  cases e <;> rfl

theorem length_encodeFormatI (op : BitVec 4) (w : Width) (src : Src) (dst : Dst) :
    (encodeFormatI op w src dst).length = 1 + extCount src.ext + extCount dst.ext := by
  simp only [encodeFormatI, List.length_cons, List.length_append, length_toList_eq_extCount]
  omega

theorem length_encodeFormatII (op : BitVec 3) (w : Width) (o : Src) :
    (encodeFormatII op w o).length = 1 + extCount o.ext := by
  simp only [encodeFormatII, List.length_cons, length_toList_eq_extCount]
  omega

/-- A Format I instruction has a word for each operand in memory or immediate, and it loads PC exactly when it
writes its result to R0. -/
theorem formI_length_loadsPc {i : Instr} {sh : Shape} {w : Width} {src : Src} {dst : Dst}
    (h : i.formI = some (sh, w, src, dst)) :
    i.length = 1 + extCount src.ext + extCount dst.ext ∧
      i.loadsPc = (sh.writesDst && dst == .reg .pc) := by
  unfold Instr.formI at h
  unfold Instr.length encode Instr.loadsPc
  split at h
  all_goals cases h
  all_goals rename_i he
  all_goals rw [he]
  all_goals exact ⟨length_encodeFormatI _ _ _ _, rfl⟩

theorem rotates_length_loadsPc {i : Instr} {flags : Bool} {w : Width} {o : Src}
    (h : i.rotates = some (flags, w, o)) :
    i.length = 1 + extCount o.ext ∧ i.loadsPc = (o == .reg .pc) := by
  unfold Instr.rotates at h
  split at h
  all_goals cases h
  all_goals exact ⟨length_encodeFormatII _ _ _, rfl⟩

theorem length_push (w : Width) (o : Src) : (Instr.push w o).length = 1 + extCount o.ext :=
  length_encodeFormatII 4 w o

end Sys2Proof.Machine
end

section
/-! PROOFS. PC after an instruction (O48): resolving an operand moves PC past the operand's extension word, and
nothing else moves it but a result written to R0. -/

namespace Sys2Proof.Machine

/-- An address past `n` code words. -/
def pastWords (a : Word) (n : Nat) : Word := a + BitVec.ofNat 16 (2 * n)

theorem pastWords_zero (a : Word) : pastWords a 0 = a := BitVec.add_zero a

theorem pastWords_pastWords (a : Word) (m n : Nat) : pastWords (pastWords a m) n = pastWords a (m + n) := by
  unfold pastWords
  rw [BitVec.add_assoc, ← BitVec.ofNat_add, ← Nat.mul_add]

theorem State.skipWord_pc_eq_pastWords (s : State) : s.skipWord.regs.pc = pastWords s.regs.pc 1 := rfl

/-! ## Operands -/

/-- R103, R141: PC after a source operand; no base register of an auto-increment is PC. -/
theorem srcDone_pc {w : Width} {o : Src} {s : State} (h : srcReady w o s = true) :
    (srcDone w o s).regs.pc = pastWords s.regs.pc (extCount o.ext) := by
  cases o with
  | const c => exact (pastWords_zero _).symm
  | reg r => exact (pastWords_zero _).symm
  | indexed r x => rw [srcDone, afterRead_regs]; rfl
  | symbolic x => rw [srcDone, afterRead_regs]; rfl
  | absolute a => rw [srcDone, afterRead_regs]; rfl
  | indirect r => rw [srcDone, afterRead_regs]; exact (pastWords_zero _).symm
  | autoInc r =>
    simp only [srcReady, Bool.and_eq_true] at h
    obtain ⟨⟨hbase, -⟩, -⟩ := h
    rw [srcDone, State.put_pc_of_ne _ _ _ (Reg.ne_pc_of_isBase hbase), afterRead_regs]
    exact (pastWords_zero _).symm
  | imm n => rfl

/-- R103, R150: PC after a destination is placed. -/
theorem dstDone_pc (d : Dst) (s : State) :
    (dstDone d s).regs.pc = pastWords s.regs.pc (extCount d.ext) := by
  cases d with
  | reg r => exact (pastWords_zero _).symm
  | bucket => exact (pastWords_zero _).symm
  | indexed r x => rfl
  | symbolic x => rfl
  | absolute a => rfl

/-- R103, R160: PC after the operand of a Format II instruction is placed. -/
theorem opDone_pc {w : Width} {o : Src} {s : State} (h : opReady w o s = true) :
    (opDone w o s).regs.pc = pastWords s.regs.pc (extCount o.ext) := by
  cases o with
  | const c => exact (pastWords_zero _).symm
  | reg r => exact (pastWords_zero _).symm
  | indexed r x => rfl
  | symbolic x => rfl
  | absolute a => rfl
  | indirect r => exact (pastWords_zero _).symm
  | autoInc r =>
    simp only [opReady, Bool.and_eq_true] at h
    rw [opDone, State.put_pc_of_ne _ _ _ (Reg.ne_pc_of_isBase h.1)]
    exact (pastWords_zero _).symm
  | imm n => rfl

theorem locDone_pc (w : Width) (l : Loc) (s : State) : (locDone w l s).regs.pc = s.regs.pc :=
  locDone_get w l s .pc

theorem state2_pc {sh : Shape} {w : Width} {src : Src} {dst : Dst} {s : State}
    (h : ready2 sh w src dst s = true) :
    (state2 sh w src dst s).regs.pc = pastWords s.regs.pc (1 + extCount src.ext + extCount dst.ext) := by
  simp only [ready2, Bool.and_eq_true] at h
  obtain ⟨⟨⟨_, hsrc⟩, _⟩, _⟩ := h
  have hdst : (dstDone dst (srcDone w src s.skipWord)).regs.pc =
      pastWords s.regs.pc (1 + extCount src.ext + extCount dst.ext) := by
    rw [dstDone_pc, srcDone_pc hsrc, State.skipWord_pc_eq_pastWords, pastWords_pastWords,
      pastWords_pastWords, Nat.add_assoc]
  unfold state2
  dsimp only
  split
  · rw [locDone_pc, hdst]
  · exact hdst

theorem state1_pc {w : Width} {o : Src} {s : State} (h : ready1 w o s = true) :
    (state1 w o s).regs.pc = pastWords s.regs.pc (1 + extCount o.ext) := by
  simp only [ready1, Bool.and_eq_true] at h
  rw [state1, locDone_pc, opDone_pc h.1, State.skipWord_pc_eq_pastWords, pastWords_pastWords]

theorem putAt_pc {w : Width} {l : Loc} (h : l ≠ .reg .pc) (v : Word) (s : State) :
    (putAt w l v s).regs.pc = s.regs.pc :=
  putAt_get h

theorem place2_ne_reg {w : Width} {src : Src} {dst : Dst} {s : State} {r : Reg} (h : dst ≠ .reg r) :
    place2 w src dst s ≠ .reg r := by
  cases dst <;> simp_all [place2, dstPlace]

theorem place1_ne_reg {w : Width} {o : Src} {s : State} {r : Reg} (h : o ≠ .reg r) :
    place1 w o s ≠ .reg r := by
  cases o <;> simp_all [place1, opPlace]

/-! ## Instructions by shape -/

theorem doubleOp_pc {sh : Shape} {alu : Nat → Bool → Word → Word → AluOut} {w : Width} {src : Src}
    {dst : Dst} {s t : State} (h : doubleOp sh alu w src dst s = .next t)
    (hd : sh.writesDst = true → dst ≠ .reg .pc) :
    t.regs.pc = pastWords s.regs.pc (1 + extCount src.ext + extCount dst.ext) := by
  obtain ⟨hready, out, -, -, rfl⟩ := doubleOp_eq_next.mp h
  rw [State.setFlags_pc, ← state2_pc hready]
  split
  · rw [putAt_pc (place2_ne_reg (hd ‹_›)), State.takeDraws_regs]
  · rw [State.takeDraws_regs]

theorem singleOp_pc {flags : Bool} {alu : Nat → Bool → Word → AluOut} {w : Width} {o : Src}
    {s t : State} (h : singleOp flags alu w o s = .next t) (ho : o ≠ .reg .pc) :
    t.regs.pc = pastWords s.regs.pc (1 + extCount o.ext) := by
  obtain ⟨hready, out, -, -, rfl⟩ := singleOp_eq_next.mp h
  simp only [Bool.and_eq_true] at hready
  rw [State.setFlags_pc, putAt_pc (place1_ne_reg ho), State.takeDraws_regs, state1_pc hready.2]

theorem execPush_pc {w : Width} {o : Src} {s t : State} (h : execPush w o s = .next t) :
    t.regs.pc = pastWords s.regs.pc (1 + extCount o.ext) := by
  obtain ⟨-, hready, rfl⟩ := execPush_eq_next.mp h
  simp only [Bool.and_eq_true] at hready
  rw [pushed, afterWrite_regs, State.put_sp_pc, state1_pc hready.1]

/-- Settles O48, by the shape of the instruction: its operands take PC past its words, and `loadsPc` says
whether its result goes to R0. -/
theorem pcAdvances : Obligations.PcAdvances := by
  unfold Obligations.PcAdvances
  intro i s t hload h
  change t.regs.pc = pastWords s.regs.pc i.length
  cases exec_shape i s with
  | @formI sh alu w src dst syn sem =>
    obtain ⟨hlen, hpc⟩ := formI_length_loadsPc syn
    rw [hlen]
    refine doubleOp_pc (sem ▸ h) fun hw hd => ?_
    simp [hpc, hw, hd] at hload
  | @rotate flags alu w o syn sem =>
    obtain ⟨hlen, hpc⟩ := rotates_length_loadsPc syn
    rw [hlen]
    refine singleOp_pc (sem ▸ h) fun ho => ?_
    simp [hpc, ho] at hload
  | @push w o syn =>
    subst syn
    rw [length_push]
    exact execPush_pc h
  | call syn => subst syn; exact nomatch hload
  | reti syn => subst syn; exact nomatch hload
  | jump syn _ => exact nomatch syn.symm.trans hload

end Sys2Proof.Machine
end

section
/-! PROOFS. The invariant (O57, O58): each of its parts as a property of the memory, the registers or the
peripheral registers alone, with what every operation of the machine does to it. -/

namespace Sys2Proof.Machine

/-! ## Memory: canonical, and RAM and flash bytes only -/

/-- The address of a RAM or flash byte (R61). -/
def IsCell (c : Config) (x : Nat) : Prop :=
  x < 65536 ∧ (inRam c (BitVec.ofNat 16 x) = true ∨ inFlash c (BitVec.ofNat 16 x) = true)

/-- `memInv`, of a memory under a map. -/
def MemHeld (c : Config) (m : List Host.Cell) : Prop :=
  Memory.wf m = true ∧ ∀ e ∈ m, IsCell c e.1

theorem memInv_iff {s : State} : memInv s = true ↔ MemHeld s.cfg s.mem := by
  simp [memInv, MemHeld, IsCell]

theorem isCell_of_inRam {c : Config} {a : Word} (h : inRam c a = true) : IsCell c a.toNat :=
  ⟨a.isLt, .inl (by simpa using h)⟩

/-- RAM ends on an odd byte, so it holds both bytes of an even word. -/
theorem inRam_succ {c : Config} {a : Word} (hc : c.wf = true) (he : isOdd a = false)
    (h : inRam c a = true) : inRam c (a + 1) = true := by
  simp only [Config.wf, Bool.and_eq_true] at hc
  obtain ⟨⟨⟨⟨_, hend⟩, _⟩, _⟩, _⟩ := hc
  have hodd : c.ramEnd.toNat % 2 = 1 := isOdd_iff.mp hend
  have heven : a.toNat % 2 = 0 := not_isOdd_iff.mp he
  simp only [inRam, Bool.and_eq_true, decide_eq_true_eq, toNat_succ_of_even he] at h ⊢
  omega

theorem MemHeld.write {c : Config} {m : List Host.Cell} (h : MemHeld c m) {x : Nat} (hx : IsCell c x)
    (b : Byte) : MemHeld c (Memory.write m x b) := by
  obtain ⟨hwf, hcells⟩ := h
  refine ⟨Memory.wf_write hwf x b, fun e he => ?_⟩
  rcases Memory.mem_write he with heq | hmem
  · rwa [heq]
  · exact hcells e hmem

theorem MemHeld.storeValue {c : Config} {m : List Host.Cell} (h : MemHeld c m) (hc : c.wf = true)
    {w : Width} {a : Word} (ha : inRam c (alignTo w a) = true) (v : Word) :
    MemHeld c (storeValue m w (alignTo w a) v) := by
  cases w with
  | byte => exact h.write (isCell_of_inRam ha) _
  | word =>
    have hnext := inRam_succ hc (isOdd_clearBit0 a) ha
    exact (h.write (isCell_of_inRam ha) _).write (isCell_of_inRam hnext) _

theorem MemHeld.drawBytes {c : Config} {m : List Host.Cell} (h : MemHeld c m) (n a k : Nat)
    (hcells : ∀ x, a ≤ x → x < a + n → IsCell c x) : MemHeld c (drawBytes n a k m) := by
  induction n generalizing a k m with
  | zero => exact h
  | succ n ih =>
    exact ih (h.write (hcells a (Nat.le_refl a) (by omega)) _) _ _
      fun x hlo hhi => hcells x (by omega) (by omega)

/-- The bytes that power-up fills are RAM's (R40, R61). -/
theorem isCell_of_ramSize {c : Config} {x : Nat} (hlo : 0x0200 ≤ x) (hhi : x < 0x0200 + ramSize c) :
    IsCell c x := by
  have hend := c.ramEnd.isLt
  unfold ramSize at hhi
  have hx : x < 65536 := by omega
  refine ⟨hx, .inl ?_⟩
  simp only [inRam, BitVec.toNat_ofNat, Nat.mod_eq_of_lt hx, Bool.and_eq_true, decide_eq_true_eq]
  omega

/-! ## Registers: PC and SP even, SR's reserved bits 0 -/

/-- `regsInv`, of a register file. -/
def RegsHeld (x : Regs) : Prop :=
  isOdd x.pc = false ∧ isOdd x.sp = false ∧ x.sr.toNat < 0x0200

theorem regsInv_iff {s : State} : regsInv s = true ↔ RegsHeld s.regs := by
  simp [regsInv, RegsHeld, and_assoc]

/-- What a register holds after an allowed write keeps the registers' part of the invariant. -/
theorem RegsHeld.set_stored {x : Regs} (h : RegsHeld x) {c : Config} {r : Reg} {v : Word}
    (hs : storable c r v = true) : RegsHeld (x.set r (stored r v)) := by
  obtain ⟨hpc, hsp, hsr⟩ := h
  cases r
  case pc => exact ⟨isOdd_clearBit0 v, hsp, hsr⟩
  case sp => exact ⟨hpc, isOdd_clearBit0 v, hsr⟩
  case sr => exact ⟨hpc, hsp, of_decide_eq_true hs⟩
  all_goals exact ⟨hpc, hsp, hsr⟩

theorem RegsHeld.afterReset (v : Word) (d : Nat → Word) :
    RegsHeld (Regs.afterReset (clearBit0 v) d) :=
  ⟨isOdd_clearBit0 v, isOdd_clearBit0 (d 0), Nat.zero_lt_succ _⟩

/-- The flags of an instruction leave SR's reserved bits as they are (R33). -/
theorem apply_lt {sr : Word} (h : sr.toNat < 0x0200) (f : FlagUpdate) : (f.apply sr).toNat < 0x0200 := by
  rw [← srReserved_iff] at h ⊢
  have hmask : srReservedMask = 0xFEF8 &&& srReservedMask := by decide
  rw [hmask, ← BitVec.and_assoc, apply_and_flagless, BitVec.and_assoc, ← hmask, h]

/-! ## Peripheral registers: nothing outside the held bits -/

/-- Every bit of a word that is 1 is in the mask. -/
theorem and_not_eq_zero_iff {v m : Word} :
    v &&& ~~~m = 0 ↔ ∀ k, v.getLsbD k = true → m.getLsbD k = true := by
  constructor
  · intro h k hk
    have hlt : k < 16 := BitVec.lt_of_getLsbD hk
    have hbit : (v &&& ~~~m).getLsbD k = false := by rw [h]; exact BitVec.getLsbD_zero
    simpa [hk, hlt] using hbit
  · intro h
    apply BitVec.eq_of_getLsbD_eq
    intro k hk
    have := h k
    simp only [BitVec.getLsbD_and, BitVec.getLsbD_not, hk, BitVec.ofNat_eq_ofNat, BitVec.getLsbD_zero]
    cases hv : v.getLsbD k <;> simp_all

/-- `periphInv`, of the peripheral registers: a bit that is 1 is a held one (log entry 15). -/
def PeriphHeld (p : Periph) : Prop :=
  ∀ (r : PeriphReg) (k : Nat), (p.get r).getLsbD k = true → (heldMask r).getLsbD k = true

theorem mem_allPeriph (r : PeriphReg) : r ∈ allPeriph := by
  cases r <;> decide

theorem periphInv_iff {s : State} : periphInv s = true ↔ PeriphHeld s.periph := by
  simp only [periphInv, List.all_eq_true, mem_allPeriph, forall_true_left, beq_iff_eq,
    and_not_eq_zero_iff, PeriphHeld]

theorem PeriphHeld.set {p : Periph} (h : PeriphHeld p) {r : PeriphReg} {v : Word}
    (hv : ∀ k, v.getLsbD k = true → (heldMask r).getLsbD k = true) : PeriphHeld (p.set r v) := by
  intro q k hk
  rw [Periph.get_set] at hk
  split at hk
  · rename_i hq
    rw [hq.1]
    exact hv k hk
  · exact h q k hk

theorem held_of_soft {r : PeriphReg} {k : Nat} (h : (softMask r).getLsbD k = true) :
    (heldMask r).getLsbD k = true := by
  rw [heldMask, BitVec.getLsbD_or, h, Bool.true_or]

theorem held_of_device {r : PeriphReg} {k : Nat} (h : (deviceMask r).getLsbD k = true) :
    (heldMask r).getLsbD k = true := by
  rw [heldMask, BitVec.getLsbD_or, h, Bool.or_true]

/-- Replacing bits by a mask of held ones gives held bits. -/
theorem held_mixBits {p : Periph} (h : PeriphHeld p) {r : PeriphReg} {m v : Word}
    (hm : ∀ k, m.getLsbD k = true → (heldMask r).getLsbD k = true) (k : Nat)
    (hk : (mixBits m (p.get r) v).getLsbD k = true) : (heldMask r).getLsbD k = true := by
  rw [getLsbD_mixBits] at hk
  split at hk
  · exact hm k ‹_›
  · exact h r k hk

theorem PeriphHeld.writeValue {p : Periph} (h : PeriphHeld p) (r : PeriphReg) (v d : Word) (k : Nat)
    (hk : (p.writeValue r v d).getLsbD k = true) : (heldMask r).getLsbD k = true := by
  unfold Periph.writeValue at hk
  dsimp only at hk
  split at hk
  · rw [BitVec.getLsbD_and, Bool.and_eq_true] at hk
    exact held_mixBits h (fun _ => held_of_soft) k hk.1
  · exact held_mixBits h (fun _ => held_of_soft) k hk

theorem PeriphHeld.nextBoundary {s : State} (h : PeriphHeld s.periph) :
    PeriphHeld s.nextBoundary.periph := by
  intro r k hk
  by_cases hd : (deviceMask r).getLsbD k = true
  · exact held_of_device hd
  · have hlt : k < 16 := BitVec.lt_of_getLsbD hk
    have hsame := congrArg (·.getLsbD k) (s.nextBoundary_get r)
    simp only [BitVec.getLsbD_and, BitVec.getLsbD_not, hk, hlt, hd] at hsame
    exact h r k (by simpa using hsame)

theorem PeriphHeld.acceptFlag {p : Periph} (h : PeriphHeld p) (i : IrqSource) :
    PeriphHeld (p.acceptFlag i) := by
  have hclear : ∀ (r : PeriphReg) (j k : Nat), j < 16 → (setBit (p.get r) j false).getLsbD k = true →
      (heldMask r).getLsbD k = true := by
    intro r j k hj hk
    rw [getLsbD_setBit _ _ _ _ hj] at hk
    split at hk
    · exact absurd hk (by decide)
    · exact h r k hk
  intro r k hk
  rw [Periph.acceptFlag_get] at hk
  split at hk
  · exact hclear r 2 k (by decide) hk
  · split at hk
    · exact hclear r 0 k (by decide) hk
    · exact h r k hk

theorem PeriphHeld.reset : PeriphHeld Periph.reset := fun r =>
  and_not_eq_zero_iff.mp (by cases r <;> decide)

theorem held_zextByte {r : PeriphReg} (hr : heldMask r = 0x00FF) (v : Word) (k : Nat)
    (hk : (zextByte v).getLsbD k = true) : (heldMask r).getLsbD k = true := by
  rw [zextByte, BitVec.getLsbD_and, Bool.and_eq_true] at hk
  rw [hr]
  exact hk.2

/-- A reset sets the eight-bit registers without a reset value to free bytes, over the annotated values. -/
theorem PeriphHeld.afterReset (d : Nat → Word) : PeriphHeld (Periph.afterReset d) :=
  have h1 := PeriphHeld.reset.set (r := .p1out) (held_zextByte (by decide) (d 0))
  have h2 := h1.set (r := .p1ren) (held_zextByte (by decide) (d 1))
  have h3 := h2.set (r := .p2out) (held_zextByte (by decide) (d 2))
  have h4 := h3.set (r := .p2ren) (held_zextByte (by decide) (d 3))
  have h5 := h4.set (r := .uca0br0) (held_zextByte (by decide) (d 4))
  have h6 := h5.set (r := .uca0br1) (held_zextByte (by decide) (d 5))
  h6.set (r := .uca0txbuf) (held_zextByte (by decide) (d 6))

/-! ## The state -/

theorem State.inv_iff {s : State} :
    s.inv = true ↔ s.cfg.wf = true ∧ MemHeld s.cfg s.mem ∧ RegsHeld s.regs ∧ PeriphHeld s.periph ∧
      s.pending.Nodup := by
  simp only [State.inv, Bool.and_eq_true, decide_eq_true_eq, memInv_iff, regsInv_iff, periphInv_iff,
    and_assoc]

/-- Settles O57: nothing is listed, the registers are even, and every annotated bit is a held one. -/
theorem resetMeetsInvariant : Obligations.ResetMeetsInvariant := by
  unfold Obligations.ResetMeetsInvariant
  have hinv : State.reset.inv = true :=
    State.inv_iff.mpr ⟨by decide, ⟨wf_reset, fun e he => absurd he List.not_mem_nil⟩,
      ⟨by decide, by decide, by decide⟩, PeriphHeld.reset, List.nodup_nil⟩
  exact ⟨hinv, rfl, rfl, rfl, rfl⟩

end Sys2Proof.Machine
end

section
/-! PROOFS. Every step keeps the invariant (O58): one lemma for each operation of the machine, then one for each
shape of instruction, interrupt entry, reset and the environment's move. -/

namespace Sys2Proof.Machine

/-! ## Registers -/

/-- An allowed register write keeps the invariant (R26, R30, R33). -/
theorem inv_put_stored {s : State} (h : s.inv = true) {r : Reg} {v : Word}
    (hs : storable s.cfg r v = true) : (s.put r (stored r v)).inv = true := by
  obtain ⟨hcfg, hmem, hregs, hper, hpend⟩ := State.inv_iff.mp h
  exact State.inv_iff.mpr ⟨hcfg, hmem, hregs.set_stored hs, hper, hpend⟩

theorem inv_put_pc_of_even {s : State} (h : s.inv = true) {v : Word} (hv : isOdd v = false) :
    (s.put .pc v).inv = true := by
  have hs : storable s.cfg .pc v = true := by simp [storable, hv]
  have hput := inv_put_stored h hs
  rwa [stored_of_even hv] at hput

theorem inv_put_sr {s : State} (h : s.inv = true) {v : Word} (hv : v.toNat < 0x0200) :
    (s.put .sr v).inv = true :=
  inv_put_stored h (decide_eq_true hv)

theorem inv_pc_even {s : State} (h : s.inv = true) : isOdd s.regs.pc = false := by
  obtain ⟨-, -, ⟨hpc, -, -⟩, -, -⟩ := State.inv_iff.mp h
  exact hpc

theorem inv_skipWord {s : State} (h : s.inv = true) : s.skipWord.inv = true :=
  inv_put_pc_of_even h ((isOdd_add_two s.regs.pc).trans (inv_pc_even h))

theorem inv_setFlags {s : State} (h : s.inv = true) (f : FlagUpdate) : (s.setFlags f).inv = true := by
  obtain ⟨-, -, ⟨-, -, hsr⟩, -, -⟩ := State.inv_iff.mp h
  exact inv_put_sr h (apply_lt hsr f)

theorem inv_takeDraws {s : State} (h : s.inv = true) (n : Nat) : (s.takeDraws n).inv = true := h

/-! ## Memory accesses -/

theorem nodup_readRequests {ps : List IrqSource} (h : ps.Nodup) (r : PeriphReg) (b : Bool) :
    (readRequests r b ps).Nodup := by
  cases r
  case uca0rxbuf =>
    cases b
    · exact nodup_withdraw h
    · exact h
  all_goals exact h

theorem inv_devRead {s : State} (h : s.inv = true) (w : Width) (a : Word) :
    (devRead w a s).2.inv = true := by
  obtain ⟨hcfg, hmem, hregs, hper, hpend⟩ := State.inv_iff.mp h
  unfold devRead
  dsimp only
  split
  · exact State.inv_iff.mpr ⟨hcfg, hmem, hregs, hper, hpend⟩
  · exact State.inv_iff.mpr ⟨hcfg, hmem, hregs, hper, nodup_readRequests hpend _ _⟩

theorem inv_devWrite {s : State} (h : s.inv = true) (w : Width) (a v : Word) :
    (devWrite w a v s).inv = true := by
  obtain ⟨hcfg, hmem, hregs, hper, hpend⟩ := State.inv_iff.mp h
  unfold devWrite
  dsimp only
  split
  · exact State.inv_iff.mpr ⟨hcfg, hmem, hregs, hper, hpend⟩
  · exact State.inv_iff.mpr
      ⟨hcfg, hmem, hregs, hper.set (hper.writeValue _ _ _), nodup_writeRequests hpend⟩

theorem inv_afterRead {s : State} (h : s.inv = true) (w : Width) (a : Word) :
    (afterRead w a s).inv = true := by
  unfold afterRead
  split
  · exact inv_devRead h w _
  · exact h

/-- An allowed store reaches a peripheral register or RAM, never flash (R65). -/
theorem inv_afterWrite {s : State} (h : s.inv = true) {w : Width} {a : Word}
    (hw : writable s.cfg w a = true) (v : Word) : (afterWrite w a v s).inv = true := by
  unfold afterWrite
  split
  · exact inv_devWrite h w _ v
  · rename_i hge
    simp only [writable, Bool.and_eq_true, Bool.or_eq_true] at hw
    have hram : inRam s.cfg (alignTo w a) = true := hw.2.resolve_left fun hd => hge (inDevice_lt hd)
    obtain ⟨hcfg, hmem, hregs, hper, hpend⟩ := State.inv_iff.mp h
    exact State.inv_iff.mpr ⟨hcfg, hmem.storeValue hcfg hram v, hregs, hper, hpend⟩

/-! ## Operands -/

theorem inv_srcDone {s : State} (h : s.inv = true) {w : Width} {o : Src}
    (hr : srcReady w o s = true) : (srcDone w o s).inv = true := by
  cases o with
  | const c => exact h
  | reg r => exact h
  | indexed r x => exact inv_afterRead (inv_skipWord h) w _
  | symbolic x => exact inv_afterRead (inv_skipWord h) w _
  | absolute a => exact inv_afterRead (inv_skipWord h) w a
  | indirect r => exact inv_afterRead h w _
  | autoInc r =>
    simp only [srcReady, Bool.and_eq_true] at hr
    exact inv_put_stored (inv_afterRead h w _) (by rw [afterRead_cfg]; exact hr.2)
  | imm n => exact inv_skipWord h

theorem inv_dstDone {s : State} (h : s.inv = true) (d : Dst) : (dstDone d s).inv = true := by
  unfold dstDone
  split
  · exact inv_skipWord h
  · exact h

theorem inv_opDone {s : State} (h : s.inv = true) {w : Width} {o : Src}
    (hr : opReady w o s = true) : (opDone w o s).inv = true := by
  cases o with
  | const c => exact h
  | reg r => exact h
  | indexed r x => exact inv_skipWord h
  | symbolic x => exact inv_skipWord h
  | absolute a => exact inv_skipWord h
  | indirect r => exact h
  | autoInc r =>
    simp only [opReady, Bool.and_eq_true] at hr
    exact inv_put_stored h hr.2
  | imm n => exact inv_skipWord h

theorem inv_locDone {s : State} (h : s.inv = true) (w : Width) (l : Loc) :
    (locDone w l s).inv = true := by
  cases l with
  | mem ea => exact inv_afterRead h w ea
  | const v => exact h
  | reg r => exact h
  | bucket => exact h

theorem inv_putAt {s : State} (h : s.inv = true) {w : Width} {l : Loc} {v : Word}
    (hp : putReady w l v s = true) : (putAt w l v s).inv = true := by
  cases l with
  | mem ea =>
    simp only [putReady, Bool.and_eq_true] at hp
    exact inv_afterWrite h hp.1 v
  | const c => exact h
  | reg r => exact inv_put_stored h hp
  | bucket => exact h

theorem inv_state2 {sh : Shape} {w : Width} {src : Src} {dst : Dst} {s : State} (h : s.inv = true)
    (hr : ready2 sh w src dst s = true) : (state2 sh w src dst s).inv = true := by
  simp only [ready2, Bool.and_eq_true] at hr
  obtain ⟨⟨⟨_, hsrc⟩, _⟩, _⟩ := hr
  have hdst := inv_dstDone (inv_srcDone (inv_skipWord h) hsrc) dst
  unfold state2
  dsimp only
  split
  · exact inv_locDone hdst w _
  · exact hdst

theorem inv_state1 {w : Width} {o : Src} {s : State} (h : s.inv = true)
    (hr : ready1 w o s = true) : (state1 w o s).inv = true := by
  simp only [ready1, Bool.and_eq_true] at hr
  exact inv_locDone (inv_opDone (inv_skipWord h) hr.1) w _

/-! ## Instructions -/

theorem inv_doubleOp {sh : Shape} {alu : Nat → Bool → Word → Word → AluOut} {w : Width} {src : Src}
    {dst : Dst} {s t : State} (h : s.inv = true) (ht : doubleOp sh alu w src dst s = .next t) :
    t.inv = true := by
  obtain ⟨hready, out, -, hput, rfl⟩ := doubleOp_eq_next.mp ht
  have hread := inv_takeDraws (inv_state2 h hready) out.used
  apply inv_setFlags
  split
  · rename_i hw
    exact inv_putAt hread (by simpa [hw] using hput)
  · exact hread

theorem inv_singleOp {flags : Bool} {alu : Nat → Bool → Word → AluOut} {w : Width} {o : Src}
    {s t : State} (h : s.inv = true) (ht : singleOp flags alu w o s = .next t) : t.inv = true := by
  obtain ⟨hready, out, -, hput, rfl⟩ := singleOp_eq_next.mp ht
  simp only [Bool.and_eq_true] at hready
  exact inv_setFlags (inv_putAt (inv_takeDraws (inv_state1 h hready.2) _) hput) _

/-- SP goes down by 2 and the value is stored at the new SP, both allowed. -/
theorem inv_pushed {s : State} (h : s.inv = true) {w : Width}
    (hs : storable s.cfg .sp (s.regs.sp - 2) = true)
    (hw : writable s.cfg w (stored .sp (s.regs.sp - 2)) = true) (v : Word) : (pushed w v s).inv = true :=
  inv_afterWrite (inv_put_stored h hs) hw v

theorem inv_pushed_of_pushReady {s : State} (h : s.inv = true) {w : Width}
    (hp : pushReady w s = true) (v : Word) : (pushed w v s).inv = true := by
  simp only [pushReady, Bool.and_eq_true] at hp
  obtain ⟨⟨hs, hw⟩, -⟩ := hp
  exact inv_pushed h hs hw v

theorem inv_execPush {w : Width} {o : Src} {s t : State} (h : s.inv = true)
    (ht : execPush w o s = .next t) : t.inv = true := by
  obtain ⟨-, hready, rfl⟩ := execPush_eq_next.mp ht
  simp only [Bool.and_eq_true] at hready
  exact inv_pushed_of_pushReady (inv_state1 h hready.1) hready.2 _

theorem inv_execCall {o : Src} {s t : State} (h : s.inv = true)
    (ht : execCall o s = .next t) : t.inv = true := by
  obtain ⟨hready, rfl⟩ := execCall_eq_next.mp ht
  simp only [Bool.and_eq_true] at hready
  obtain ⟨⟨hop, hpush⟩, htarget⟩ := hready
  refine inv_put_stored (inv_pushed_of_pushReady (inv_state1 h hop) hpush _) ?_
  rwa [pushed_cfg, state1_cfg]

theorem inv_popInto {r : Reg} {s t : State} (h : s.inv = true) (ht : popInto r s = .next t) :
    t.inv = true := by
  obtain ⟨u, ⟨-, hval, rfl⟩, hsp, rfl⟩ := popInto_eq_next.mp ht
  have hread := inv_afterRead h .word s.regs.sp
  have hvalue := inv_put_stored hread (r := r) (v := valueAt .word s.regs.sp s) (by rwa [afterRead_cfg])
  exact inv_put_stored hvalue (by simpa only [State.put_cfg, afterRead_cfg] using hsp)

theorem inv_returnFromInterrupt {s t : State} (h : s.inv = true)
    (ht : returnFromInterrupt s = .next t) : t.inv = true := by
  obtain ⟨u, hsr, hpc⟩ := andThen_eq_next.mp ht
  exact inv_popInto (inv_popInto h hsr) hpc

/-- A jump's target is an even distance from the jump (R200). -/
theorem isOdd_jumpTarget (a : Word) (off : BitVec 10) : isOdd (jumpTarget a off) = isOdd a := by
  rw [isOdd_eq, isOdd_eq, jumpTarget, BitVec.toNat_add, BitVec.toNat_add, BitVec.toNat_mul]
  simp only [BitVec.reduceToNat, decide_eq_decide]
  omega

/-- R200: what a jump does. -/
theorem jumpIf_eq_next {taken : Bool} {off : BitVec 10} {s t : State} :
    jumpIf taken off s = .next t ↔
      t = if taken then s.put .pc (jumpTarget s.regs.pc off) else s.skipWord := by
  rw [jumpIf, Host.Outcome.next.injEq, eq_comm]

theorem inv_jumpIf {taken : Bool} {off : BitVec 10} {s t : State} (h : s.inv = true)
    (ht : jumpIf taken off s = .next t) : t.inv = true := by
  obtain rfl := jumpIf_eq_next.mp ht
  split
  · exact inv_put_pc_of_even h ((isOdd_jumpTarget _ off).trans (inv_pc_even h))
  · exact inv_skipWord h

/-- Every instruction that completes keeps the invariant. -/
theorem inv_exec {i : Instr} {s t : State} (h : s.inv = true) (ht : exec i s = .next t) :
    t.inv = true := by
  cases exec_shape i s with
  | formI _ sem => exact inv_doubleOp h (sem ▸ ht)
  | rotate _ sem => exact inv_singleOp h (sem ▸ ht)
  | push syn => subst syn; exact inv_execPush h ht
  | call syn => subst syn; exact inv_execCall h ht
  | reti syn => subst syn; exact inv_returnFromInterrupt (inv_skipWord h) ht
  | jump _ sem => exact inv_jumpIf h (sem ▸ ht)

/-! ## Interrupts, reset and the boundary -/

/-- Two words pushed, then SR cleared but for SCG0 (R308). -/
theorem inv_entryCleared {s : State} (h : s.inv = true) (h1 : canPush s = true)
    (h2 : canPush (pushed .word s.regs.pc s) = true) : (entryCleared s).inv = true := by
  simp only [canPush, Bool.and_eq_true] at h1 h2
  have hpc := inv_pushed h h1.1 h1.2 s.regs.pc
  have hpushed := inv_pushed hpc h2.1 h2.2 s.regs.sr
  have hscg0 : ∀ b : Bool, (setBit 0 bitSCG0 b).toNat < 0x0200 := by decide
  exact inv_put_sr (inv_takeDraws hpushed 1) (hscg0 _)

theorem inv_enterInterrupt {p : IrqSource} {s t : State} (h : s.inv = true)
    (ht : enterInterrupt p s = .next t) : t.inv = true := by
  obtain ⟨v, u, hcan, -, rfl, hv, rfl⟩ := enterInterrupt_eq_next.mp ht
  simp only [Bool.and_eq_true] at hcan
  obtain ⟨⟨hpushPc, hpushSr⟩, -⟩ := hcan
  have hread := inv_afterRead (inv_entryCleared h hpushPc hpushSr) .word (vectorAddr (priority p))
  have hvector := inv_put_stored (r := .pc) (v := v) hread (by simpa [entryCleared] using hv)
  obtain ⟨hcfg, hmem, hregs, hper, hpend⟩ := State.inv_iff.mp hvector
  refine State.inv_iff.mpr ⟨hcfg, hmem, hregs, hper.acceptFlag p, ?_⟩
  dsimp only
  split
  · exact nodup_withdraw hpend
  · exact hpend

theorem inv_performReset {c : Option ResetCause} {s t : State} (h : s.inv = true)
    (ht : performReset c s = .next t) : t.inv = true := by
  obtain ⟨-, rfl⟩ := performReset_eq_next.mp ht
  obtain ⟨hcfg, hmem, -, -, -⟩ := State.inv_iff.mp h
  refine State.inv_iff.mpr ⟨hcfg, ?_, .afterReset _ _, .afterReset _, List.nodup_nil⟩
  dsimp only
  split
  · exact hmem.drawBytes _ _ _ fun _ => isCell_of_ramSize
  · exact hmem

theorem inv_runInstr {s t : State} (h : s.inv = true) (ht : runInstr s = .next t) : t.inv = true := by
  rcases runInstr_eq_next.mp ht with ⟨i, -, hexec⟩ | ⟨f, -, -, hreset⟩
  · exact inv_exec h hexec
  · exact inv_performReset h hreset

theorem inv_nextBoundary {s : State} (h : s.inv = true) : s.nextBoundary.inv = true := by
  obtain ⟨hcfg, hmem, hregs, hper, hpend⟩ := State.inv_iff.mp h
  refine State.inv_iff.mpr ⟨?_, ?_, ?_, hper.nextBoundary, State.nextBoundary_nodup hpend⟩
  · rwa [State.nextBoundary_cfg]
  · rwa [State.nextBoundary_cfg, State.nextBoundary_mem]
  · rwa [State.nextBoundary_regs]

/-- Settles O58: by what the step does at the boundary (reset, interrupt, waiting or an instruction), then the
environment's move. -/
theorem stepKeepsInvariant : Obligations.StepKeepsInvariant := by
  unfold Obligations.StepKeepsInvariant
  intro s t h ht
  obtain ⟨u, rfl, hu⟩ := step_eq_next.mp ht
  apply inv_nextBoundary
  rcases hu with ⟨c, -, hreset⟩ | ⟨p, -, -, henter⟩ | ⟨-, -, rfl⟩ | ⟨-, -, hrun⟩
  · exact inv_performReset h hreset
  · exact inv_enterInterrupt h henter
  · exact h
  · exact inv_runInstr h hrun

end Sys2Proof.Machine
end

section
/-! PROOFS. No step changes flash or a parameter (O59): memory is written by stores into RAM and by the power-up
that fills RAM, and by nothing else. -/

namespace Sys2Proof.Machine

/-! ## The relation -/

/-- `t` has the parameters of `s` and every flash byte of it. -/
def KeepsFlash (s t : State) : Prop :=
  t.cfg = s.cfg ∧ ∀ a : Word, inFlash s.cfg a = true → Memory.read t.mem a.toNat = Memory.read s.mem a.toNat

theorem KeepsFlash.of_mem_eq {s t : State} (hcfg : t.cfg = s.cfg) (hmem : t.mem = s.mem) : KeepsFlash s t :=
  ⟨hcfg, fun a _ => by rw [hmem]⟩

theorem KeepsFlash.refl (s : State) : KeepsFlash s s := .of_mem_eq rfl rfl

theorem KeepsFlash.trans {s t u : State} (h1 : KeepsFlash s t) (h2 : KeepsFlash t u) : KeepsFlash s u := by
  obtain ⟨hcfg1, hread1⟩ := h1
  obtain ⟨hcfg2, hread2⟩ := h2
  exact ⟨hcfg2.trans hcfg1, fun a ha => (hread2 a (by rwa [hcfg1])).trans (hread1 a ha)⟩

/-! ## Stores and power-up reach RAM only -/

theorem toNat_ne_of_inFlash_of_inRam {c : Config} {x b : Word} (hx : inFlash c x = true)
    (hb : inRam c b = true) : x.toNat ≠ b.toNat := by
  intro heq
  rw [← BitVec.eq_of_toNat_eq heq, inFlash_not_inRam hx] at hb
  exact nomatch hb

/-- Both bytes of a store whose first byte is in RAM are RAM bytes (R61, R65). -/
theorem not_mem_storedBytes_of_inFlash {c : Config} (hc : c.wf = true) {w : Width} {a x : Word}
    (ha : inRam c (alignTo w a) = true) (hx : inFlash c x = true) : x.toNat ∉ storedBytes w a := by
  cases w with
  | byte =>
    simp only [storedBytes, List.mem_singleton]
    exact toNat_ne_of_inFlash_of_inRam hx ha
  | word =>
    have hnext := inRam_succ hc (isOdd_clearBit0 a) ha
    simp only [storedBytes, List.mem_cons, List.not_mem_nil, or_false, not_or]
    exact ⟨toNat_ne_of_inFlash_of_inRam hx ha, toNat_ne_of_inFlash_of_inRam hx hnext⟩

/-- An allowed store reaches a peripheral register or RAM. -/
theorem keepsFlash_afterWrite {s : State} (hc : s.cfg.wf = true) {w : Width} {a : Word}
    (hw : writable s.cfg w a = true) (v : Word) : KeepsFlash s (afterWrite w a v s) := by
  refine ⟨afterWrite_cfg w a v s, fun x hx => ?_⟩
  unfold afterWrite
  split
  · rw [devWrite_mem]
  · rename_i hge
    simp only [writable, Bool.and_eq_true, Bool.or_eq_true] at hw
    have hram : inRam s.cfg (alignTo w a) = true := hw.2.resolve_left fun hd => hge (inDevice_lt hd)
    exact read_storeValue_other s.mem w a v x.toNat (not_mem_storedBytes_of_inFlash hc hram hx)

/-- The bytes that power-up fills end where flash has not begun (R40, R61). -/
theorem ramSize_le_of_inFlash {c : Config} {x : Word} (hx : inFlash c x = true) :
    0x0200 + ramSize c ≤ x.toNat := by
  simp only [inFlash, Bool.and_eq_true, decide_eq_true_eq] at hx
  unfold ramSize
  omega

/-! ## Instructions -/

theorem keepsFlash_putAt {s : State} (hc : s.cfg.wf = true) {w : Width} {l : Loc} {v : Word}
    (hp : putReady w l v s = true) : KeepsFlash s (putAt w l v s) := by
  cases l with
  | mem ea =>
    simp only [putReady, Bool.and_eq_true] at hp
    exact keepsFlash_afterWrite hc hp.1 v
  | const c => exact .refl s
  | reg r => exact .of_mem_eq rfl rfl
  | bucket => exact .refl s

theorem keepsFlash_doubleOp {sh : Shape} {alu : Nat → Bool → Word → Word → AluOut} {w : Width} {src : Src}
    {dst : Dst} {s t : State} (hc : s.cfg.wf = true) (ht : doubleOp sh alu w src dst s = .next t) :
    KeepsFlash s t := by
  obtain ⟨-, out, -, hput, rfl⟩ := doubleOp_eq_next.mp ht
  have hread : KeepsFlash s ((state2 sh w src dst s).takeDraws out.used) := .of_mem_eq (by simp) (by simp)
  refine .trans ?_ (.of_mem_eq (State.setFlags_cfg _ _) (State.setFlags_mem _ _))
  split
  · rename_i hw
    exact hread.trans (keepsFlash_putAt (by simpa using hc) (by simpa [hw] using hput))
  · exact hread

theorem keepsFlash_singleOp {flags : Bool} {alu : Nat → Bool → Word → AluOut} {w : Width} {o : Src}
    {s t : State} (hc : s.cfg.wf = true) (ht : singleOp flags alu w o s = .next t) : KeepsFlash s t := by
  obtain ⟨-, out, -, hput, rfl⟩ := singleOp_eq_next.mp ht
  have hread : KeepsFlash s ((state1 w o s).takeDraws out.used) := .of_mem_eq (by simp) (by simp)
  exact (hread.trans (keepsFlash_putAt (by simpa using hc) hput)).trans
    (.of_mem_eq (State.setFlags_cfg _ _) (State.setFlags_mem _ _))

/-- A push writes memory at the new SP alone. -/
theorem keepsFlash_pushed {s : State} (hc : s.cfg.wf = true) {w : Width}
    (hw : writable s.cfg w (stored .sp (s.regs.sp - 2)) = true) (v : Word) : KeepsFlash s (pushed w v s) := by
  have hsp : KeepsFlash s (s.put .sp (stored .sp (s.regs.sp - 2))) := .of_mem_eq rfl rfl
  refine hsp.trans (keepsFlash_afterWrite ?_ ?_ v)
  exacts [hc, hw]

/-- Reading the operand, then the push of PUSH and CALL. -/
theorem keepsFlash_pushed_state1 {s : State} (hc : s.cfg.wf = true) {w : Width} {o : Src}
    (hp : pushReady w (state1 w o s) = true) (v : Word) : KeepsFlash s (pushed w v (state1 w o s)) := by
  simp only [pushReady, Bool.and_eq_true] at hp
  obtain ⟨⟨-, hw⟩, -⟩ := hp
  exact .trans (.of_mem_eq (state1_cfg w o s) (state1_mem w o s))
    (keepsFlash_pushed (by rwa [state1_cfg]) hw v)

theorem keepsFlash_execPush {w : Width} {o : Src} {s t : State} (hc : s.cfg.wf = true)
    (ht : execPush w o s = .next t) : KeepsFlash s t := by
  obtain ⟨-, hready, rfl⟩ := execPush_eq_next.mp ht
  simp only [Bool.and_eq_true] at hready
  exact keepsFlash_pushed_state1 hc hready.2 _

theorem keepsFlash_execCall {o : Src} {s t : State} (hc : s.cfg.wf = true)
    (ht : execCall o s = .next t) : KeepsFlash s t := by
  obtain ⟨hready, rfl⟩ := execCall_eq_next.mp ht
  simp only [Bool.and_eq_true] at hready
  obtain ⟨⟨-, hpush⟩, -⟩ := hready
  exact (keepsFlash_pushed_state1 hc hpush _).trans (.of_mem_eq (State.put_cfg _ _ _) (State.put_mem _ _ _))

theorem keepsFlash_popInto {r : Reg} {s t : State} (ht : popInto r s = .next t) : KeepsFlash s t := by
  obtain ⟨u, ⟨-, -, rfl⟩, -, rfl⟩ := popInto_eq_next.mp ht
  exact .of_mem_eq (by simp) (by simp)

theorem keepsFlash_returnFromInterrupt {s t : State} (ht : returnFromInterrupt s = .next t) :
    KeepsFlash s t := by
  obtain ⟨u, hsr, hpc⟩ := andThen_eq_next.mp ht
  exact (keepsFlash_popInto hsr).trans (keepsFlash_popInto hpc)

theorem keepsFlash_jumpIf {taken : Bool} {off : BitVec 10} {s t : State}
    (ht : jumpIf taken off s = .next t) : KeepsFlash s t := by
  obtain rfl := jumpIf_eq_next.mp ht
  split
  · exact .of_mem_eq rfl rfl
  · exact .of_mem_eq rfl rfl

/-- Every instruction that completes keeps flash and the parameters. -/
theorem keepsFlash_exec {i : Instr} {s t : State} (hc : s.cfg.wf = true) (ht : exec i s = .next t) :
    KeepsFlash s t := by
  cases exec_shape i s with
  | formI _ sem => exact keepsFlash_doubleOp hc (sem ▸ ht)
  | rotate _ sem => exact keepsFlash_singleOp hc (sem ▸ ht)
  | push syn => subst syn; exact keepsFlash_execPush hc ht
  | call syn => subst syn; exact keepsFlash_execCall hc ht
  | reti syn =>
    subst syn
    exact .trans (.of_mem_eq (State.skipWord_cfg s) (State.skipWord_mem s))
      (keepsFlash_returnFromInterrupt ht)
  | jump _ sem => exact keepsFlash_jumpIf (sem ▸ ht)

/-! ## Interrupts, reset and the boundary -/

/-- Interrupt entry writes memory by its two pushes alone (R308). -/
theorem keepsFlash_enterInterrupt {p : IrqSource} {s t : State} (hc : s.cfg.wf = true)
    (ht : enterInterrupt p s = .next t) : KeepsFlash s t := by
  obtain ⟨v, u, hcan, -, rfl, -, rfl⟩ := enterInterrupt_eq_next.mp ht
  simp only [canPush, Bool.and_eq_true] at hcan
  obtain ⟨⟨⟨-, hpushPc⟩, -, hpushSr⟩, -⟩ := hcan
  have hpc := keepsFlash_pushed hc hpushPc s.regs.pc
  have hsr := keepsFlash_pushed (by rwa [pushed_cfg]) hpushSr s.regs.sr
  exact (hpc.trans hsr).trans (.of_mem_eq (by simp [entryCleared]) (by simp [entryCleared]))

/-- A reset writes memory at power-up alone, and RAM bytes alone (R312). -/
theorem keepsFlash_performReset {c : Option ResetCause} {s t : State}
    (ht : performReset c s = .next t) : KeepsFlash s t := by
  obtain ⟨-, rfl⟩ := performReset_eq_next.mp ht
  refine ⟨rfl, fun x hx => ?_⟩
  dsimp only
  split
  · exact read_drawBytes_other _ _ _ _ _ (.inr (ramSize_le_of_inFlash hx))
  · rfl

theorem keepsFlash_runInstr {s t : State} (hc : s.cfg.wf = true) (ht : runInstr s = .next t) :
    KeepsFlash s t := by
  rcases runInstr_eq_next.mp ht with ⟨i, -, hexec⟩ | ⟨f, -, -, hreset⟩
  · exact keepsFlash_exec hc hexec
  · exact keepsFlash_performReset hreset

theorem keepsFlash_nextBoundary (s : State) : KeepsFlash s s.nextBoundary :=
  .of_mem_eq s.nextBoundary_cfg s.nextBoundary_mem

/-- Settles O59: by what the step does at the boundary (reset, interrupt, waiting or an instruction), then the
environment's move. -/
theorem stepKeepsFlash : Obligations.StepKeepsFlash := by
  unfold Obligations.StepKeepsFlash
  intro s t hc ht
  obtain ⟨u, rfl, hu⟩ := step_eq_next.mp ht
  have hboundary : KeepsFlash s u := by
    rcases hu with ⟨c, -, hreset⟩ | ⟨p, -, -, henter⟩ | ⟨-, -, rfl⟩ | ⟨-, -, hrun⟩
    · exact keepsFlash_performReset hreset
    · exact keepsFlash_enterInterrupt hc henter
    · exact .refl u
    · exact keepsFlash_runInstr hc hrun
  exact hboundary.trans (keepsFlash_nextBoundary u)

end Sys2Proof.Machine
end

section
/-! PROOFS. Fetches outside RAM and flash (O11). -/

namespace Sys2Proof.Machine

/-! ## The fetch -/

theorem fetchAddr_of_not_fetchable {s : State} (ha : aligned s.cfg .word s.regs.pc = true)
    (hf : fetchable s = false) : fetchAddr s = .fault (.pcOutOfRange s.regs.pc) := by
  rw [fetchable, ha, Bool.true_and] at hf
  rw [fetchAddr, accessAddr_next ha, andThen_next, isCode_eq, hf]
  rfl

theorem fetchExt_of_not_fetchable {s : State} (ha : aligned s.cfg .word s.regs.pc = true)
    (hf : fetchable s = false) : fetchExt s = .fault (.pcOutOfRange s.regs.pc) := by
  rw [fetchExt, fetchAddr_of_not_fetchable ha hf, andThen_fault]

theorem fetchInstr_of_not_fetchable {s : State} (ha : aligned s.cfg .word s.regs.pc = true)
    (hf : fetchable s = false) : fetchInstr s = .fault (.pcOutOfRange s.regs.pc) := by
  rw [fetchInstr, fetchAddr_of_not_fetchable ha hf, andThen_fault]

/-! ## Operands with an extension word -/

/-- Resolving an operand begins with the fetch of its extension word (R140, R160). -/
theorem opLocation_of_fetchExt_fault {o : Src} {s : State} {f : Fault} (hwf : o.wf = true)
    (hext : o.ext.isSome = true) (hf : fetchExt s = .fault f) (w : Width) :
    opLocation w o s = .fault f := by
  cases o with
  | indexed r x =>
    have hbase : r.isBase = true := hwf
    rw [opLocation, if_pos hbase, hf, andThen_fault]
  | symbolic x => rw [opLocation, hf, andThen_fault]
  | absolute a => rw [opLocation, hf, andThen_fault]
  | imm n => rw [opLocation, hf, andThen_fault]
  | const c => exact nomatch hext
  | reg r => exact nomatch hext
  | indirect r => exact nomatch hext
  | autoInc r => exact nomatch hext

/-- R141: every source operand but `@Rn+` is read at the location R160 gives it. -/
theorem srcOperand_of_ne_autoInc {o : Src} (h : ∀ r, o ≠ .autoInc r) (w : Width) (s : State) :
    srcOperand w o s = andThen (opLocation w o s) fun p => readLoc w p.1 p.2 := by
  cases o
  case autoInc r => exact absurd rfl (h r)
  all_goals rfl

theorem srcOperand_of_fetchExt_fault {o : Src} {s : State} {f : Fault} (hwf : o.wf = true)
    (hext : o.ext.isSome = true) (hf : fetchExt s = .fault f) (w : Width) :
    srcOperand w o s = .fault f := by
  have hinc : ∀ r, o ≠ .autoInc r := by
    rintro r rfl
    exact nomatch hext
  rw [srcOperand_of_ne_autoInc hinc, opLocation_of_fetchExt_fault hwf hext hf, andThen_fault]

theorem dstLocation_of_fetchExt_fault {d : Dst} {s : State} {f : Fault} (hwf : d.wf = true)
    (hext : d.ext.isSome = true) (hf : fetchExt s = .fault f) : dstLocation d s = .fault f := by
  cases d with
  | indexed r x =>
    have hbase : r.isBase = true := hwf
    rw [dstLocation, if_pos hbase, hf, andThen_fault]
  | symbolic x => rw [dstLocation, hf, andThen_fault]
  | absolute a => rw [dstLocation, hf, andThen_fault]
  | reg r => exact nomatch hext
  | bucket => exact nomatch hext

/-! ## The step -/

theorem atBoundary_of_quiet {s : State} (hq : quiet s = true) (hc : s.cpuOff = false) :
    atBoundary s = runInstr s := by
  simp only [quiet, Bool.and_eq_true, Option.isNone_iff_eq_none] at hq
  obtain ⟨hreset, haccept⟩ := hq
  simp [atBoundary, hreset, haccept, hc]

theorem step_of_quiet {s : State} (hq : quiet s = true) (hc : s.cpuOff = false) :
    step s = andThen (runInstr s) fun t => .next t.nextBoundary := by
  rw [step, boundaryStep, atBoundary_of_quiet hq hc]

/-- R301: a fault of the fetch, under each `FAULT_ACTION`. -/
theorem runInstr_of_fetchInstr_fault {s : State} {f : Fault} (hf : fetchInstr s = .fault f) :
    (s.cfg.faultAction = .stop → runInstr s = .fault f) ∧
    (s.cfg.faultAction = .reset → runInstr s = performReset (causeOf f) s) := by
  rw [runInstr, hf, andThen_fault]
  exact ⟨fun h => by simp [onFault, h], fun h => by simp [onFault, h]⟩

/-- Settles O11: where no word can be fetched, the fetch is the first thing to fail. -/
theorem fetchOutOfRangeFaults : Obligations.FetchOutOfRangeFaults := by
  unfold Obligations.FetchOutOfRangeFaults
  refine ⟨fun s hq hc ha hram hflash => ?_, fun s ha hf => ?_⟩
  · have hfetch : fetchable s = false := by rw [fetchable, hram, hflash, Bool.or_false, Bool.and_false]
    obtain ⟨hstop, hreset⟩ := runInstr_of_fetchInstr_fault (fetchInstr_of_not_fetchable ha hfetch)
    rw [step_of_quiet hq hc]
    exact ⟨fun h => by rw [hstop h, andThen_fault], fun h => by rw [hreset h, causeOf]⟩
  · have hext := fetchExt_of_not_fetchable ha hf
    exact ⟨fun w o hwf ho =>
        ⟨srcOperand_of_fetchExt_fault hwf ho hext w, opLocation_of_fetchExt_fault hwf ho hext w⟩,
      fun d hwf hd => dstLocation_of_fetchExt_fault hwf hd hext⟩

end Sys2Proof.Machine
end

section
/-! PROOFS. Data accesses (O13 to O16): an access at an address its width allows is decided by the region of that
address alone (R66, R67), and then is a load, a store or a peripheral access there. -/

namespace Sys2Proof.Machine

/-! ## Alignment (R66) -/

theorem accessAddr_of_refuse {c : Config} {a : Word} (ho : isOdd a = true)
    (hc : c.oddWordAccess = .refuse) : accessAddr c .word a = .refused .oddWordAccess := by
  simp [accessAddr, ho, hc]

theorem isOdd_sub_one {a : Word} (ho : isOdd a = true) : isOdd (a - 1) = false := by
  rw [← clearBit0_of_odd ho]
  exact isOdd_clearBit0 a

theorem accessAddr_of_even {c : Config} {w : Width} {a : Word} (h : w = .byte ∨ isOdd a = false) :
    accessAddr c w a = .next a := by
  rcases h with rfl | he
  · rfl
  · cases w
    · simp [accessAddr, he]
    · rfl

theorem accessAddr_of_clearBit0 {c : Config} {a : Word} (ho : isOdd a = true)
    (hc : c.oddWordAccess = .clearBit0) : accessAddr c .word a = accessAddr c .word (a - 1) := by
  rw [accessAddr_of_even (.inr (isOdd_sub_one ho)), ← clearBit0_of_odd ho]
  simp [accessAddr, ho, hc]

theorem aligned_and_alignTo_of_even {c : Config} {w : Width} {a : Word}
    (h : w = .byte ∨ isOdd a = false) : aligned c w a = true ∧ alignTo w a = a := by
  obtain ⟨haligned, heq⟩ := accessAddr_eq_next.mp (accessAddr_of_even (c := c) h)
  exact ⟨haligned, heq.symm⟩

/-- An access depends on its address through the place R66 gives it. -/
theorem access_congr {w : Width} {a b : Word} {s : State}
    (h : accessAddr s.cfg w a = accessAddr s.cfg w b) (v : Word) :
    readMem w a s = readMem w b s ∧ writeMem w a v s = writeMem w b v s ∧
      storeMem w a v s = storeMem w b v s := by
  simp only [readMem, writeMem, storeMem, writeTarget, h, and_self]

theorem access_of_refuse {a : Word} {s : State} (ho : isOdd a = true)
    (hc : s.cfg.oddWordAccess = .refuse) (v : Word) :
    readMem .word a s = .refused .oddWordAccess ∧ writeMem .word a v s = .refused .oddWordAccess ∧
      storeMem .word a v s = .refused .oddWordAccess := by
  simp only [readMem, writeMem, storeMem, writeTarget, accessAddr_of_refuse ho hc, andThen_refused,
    and_self]

/-! ## Admission (R67) -/

/-- Words only to 0100h to 01FFh, bytes only below 0100h. -/
theorem admission_of_wrongKind {c : Config} {w : Width} {a : Word}
    (h : (w = .word ∧ a.toNat < 0x0100) ∨ (w = .byte ∧ 0x0100 ≤ a.toNat ∧ a.toNat < 0x0200)) :
    admission c w a = .refused .accessKind := by
  rcases h with ⟨rfl, hlt⟩ | ⟨rfl, hge, hlt⟩
  · have hregion : region c a = .sfr ∨ region c a = .periph8 := by
      by_cases h10 : a.toNat < 0x0010 <;> simp [region, h10, hlt]
    unfold admission
    rcases hregion with hr | hr
    · rw [hr]
    · rw [hr]
  · have hregion : region c a = .periph16 := by
      simp [region, hlt, Nat.not_lt.mpr hge, show ¬a.toNat < 0x0010 by omega]
    unfold admission
    rw [hregion]

theorem inDevice_of_not_wrongKind {w : Width} {a : Word} (hlt : a.toNat < 0x0200)
    (h : ¬((w = .word ∧ a.toNat < 0x0100) ∨ (w = .byte ∧ 0x0100 ≤ a.toNat ∧ a.toNat < 0x0200))) :
    inDevice w a = true := by
  cases w with
  | word =>
    have hge : ¬a.toNat < 0x0100 := fun hl => h (.inl ⟨rfl, hl⟩)
    simp [inDevice, hlt, Nat.not_lt.mp hge]
  | byte =>
    have hge : ¬0x0100 ≤ a.toNat := fun hg => h (.inr ⟨rfl, hg, hlt⟩)
    simp [inDevice, Nat.not_le.mp hge]

theorem admission_of_unpopulated {c : Config} {a : Word} (hge : 0x0200 ≤ a.toNat)
    (hram : inRam c a = false) (hflash : inFlash c a = false) (w : Width) :
    admission c w a = .refused .unpopulated := by
  have hregion : region c a = .unpopulated := by
    simp only [inRam, inFlash, Bool.and_eq_false_iff, Bool.or_eq_false_iff,
      decide_eq_false_iff_not] at hram hflash
    rw [region, if_neg (by omega), if_neg (by omega), if_neg (by omega), if_neg (by omega),
      if_pos (by omega)]
  unfold admission
  rw [hregion]

/-- What the map refuses is refused to reads and writes alike. -/
theorem access_of_admission_refused {w : Width} {a : Word} {s : State} {r : Refusal}
    (h : w = .byte ∨ isOdd a = false) (hadm : admission s.cfg w a = .refused r) (v : Word) :
    readMem w a s = .refused r ∧ writeMem w a v s = .refused r := by
  simp only [readMem, writeMem, writeTarget, accessAddr_of_even h, andThen_next, hadm, andThen_refused,
    and_self]

theorem writeMem_of_inFlash {w : Width} {a : Word} {s : State} (h : w = .byte ∨ isOdd a = false)
    (hflash : inFlash s.cfg a = true) (v : Word) : writeMem w a v s = .refused .writeToFlash := by
  simp only [writeMem, writeTarget, accessAddr_of_even h, andThen_next, admit_eq_flash.mpr hflash,
    andThen_refused]

theorem readMem_of_even {w : Width} {a : Word} {s : State} (h : w = .byte ∨ isOdd a = false)
    (hr : (inDevice w a || inRam s.cfg a || inFlash s.cfg a) = true) :
    readMem w a s = .next (valueAt w a s, afterRead w a s) := by
  obtain ⟨haligned, hto⟩ := aligned_and_alignTo_of_even (c := s.cfg) h
  exact readMem_next (by rw [readable, haligned, hto, hr, Bool.and_self])

theorem writable_of_even {c : Config} {w : Width} {a : Word} (h : w = .byte ∨ isOdd a = false)
    (hw : (inDevice w a || inRam c a) = true) : writable c w a = true := by
  obtain ⟨haligned, hto⟩ := aligned_and_alignTo_of_even (c := c) h
  rw [writable, haligned, hto, hw, Bool.and_self]

theorem writeMem_of_even {w : Width} {a : Word} {s : State} (h : w = .byte ∨ isOdd a = false)
    (hw : (inDevice w a || inRam s.cfg a) = true) (v : Word) :
    writeMem w a v s = .next (afterWrite w a v s) :=
  writeMem_eq_next.mpr ⟨writable_of_even h hw, rfl⟩

/-- Settles O13: alignment first, then one case for each region of the map. -/
theorem accessAdmission : Obligations.AccessAdmission := by
  unfold Obligations.AccessAdmission
  refine ⟨fun a v s ho => ⟨fun hc => ?_, fun hc => ?_⟩, fun w a v s h => ?_⟩
  · obtain ⟨hread, hwrite, -⟩ := access_of_refuse ho hc v
    exact ⟨hread, hwrite⟩
  · obtain ⟨hread, hwrite, -⟩ := access_congr (accessAddr_of_clearBit0 ho hc) v
    exact ⟨hread, hwrite⟩
  · intro n wrongKind ram flash
    have hram : inRam s.cfg a = decide ram := by simp [inRam, ram, n]
    have hflash : inFlash s.cfg a = decide flash := by
      simp [inFlash, flash, n, Bool.and_assoc]
    refine ⟨fun hk => ?_, fun ⟨hlt, hk⟩ => ?_, fun hr => ?_, fun hf => ?_, fun ⟨hge, hr, hf⟩ => ?_⟩
    · exact access_of_admission_refused h (admission_of_wrongKind hk) v
    · have hdevice : inDevice w a = true := inDevice_of_not_wrongKind hlt hk
      exact ⟨⟨_, readMem_of_even h (by simp [hdevice])⟩, ⟨_, writeMem_of_even h (by simp [hdevice]) v⟩⟩
    · have hr' : inRam s.cfg a = true := hram.trans (decide_eq_true hr)
      exact ⟨⟨_, readMem_of_even h (by simp [hr'])⟩, ⟨_, writeMem_of_even h (by simp [hr']) v⟩⟩
    · have hf' : inFlash s.cfg a = true := hflash.trans (decide_eq_true hf)
      exact ⟨⟨_, readMem_of_even h (by simp [hf'])⟩, writeMem_of_inFlash h hf' v⟩
    · have hadm := admission_of_unpopulated hge (hram.trans (decide_eq_false hr))
        (hflash.trans (decide_eq_false hf)) w
      exact access_of_admission_refused h hadm v

/-! ## What an access changes (R65, R74) -/

theorem afterRead_of_ge {w : Width} {a : Word} (h : 0x0200 ≤ (alignTo w a).toNat) (s : State) :
    afterRead w a s = s :=
  if_neg (Nat.not_lt.mpr h)

theorem afterWrite_of_ge {w : Width} {a : Word} (h : 0x0200 ≤ (alignTo w a).toNat) (v : Word) (s : State) :
    afterWrite w a v s = { s with mem := storeValue s.mem w (alignTo w a) v } :=
  if_neg (Nat.not_lt.mpr h)

/-- Settles O15: what a write and a read can answer is `afterWrite` and `afterRead`. -/
theorem accessFrame : Obligations.AccessFrame := by
  unfold Obligations.AccessFrame
  refine ⟨fun w a v s t ht => ?_, fun w a s p hge hp => ?_⟩
  · obtain ⟨-, rfl⟩ := writeMem_eq_next.mp ht
    refine ⟨fun x hx => read_afterWrite_other w a v s x hx, afterWrite_regs w a v s, afterWrite_cfg w a v s,
      fun hwf => wf_afterWrite hwf w a v, fun hge => ?_⟩
    rw [afterWrite_of_ge hge]
  · obtain ⟨-, rfl⟩ := readMem_eq_next.mp hp
    exact afterRead_of_ge hge s

/-! ## RAM as bytes and words (R63, R76) -/

theorem readMem_of_inRam {w : Width} {a : Word} {s : State} (h : w = .byte ∨ isOdd a = false)
    (hram : inRam s.cfg a = true) : readMem w a s = .next (loadValue s.mem w a, s) := by
  obtain ⟨-, hto⟩ := aligned_and_alignTo_of_even (c := s.cfg) h
  have hge : ¬(alignTo w a).toNat < 0x0200 := by rw [hto]; exact Nat.not_lt.mpr (inRam_ge hram)
  rw [readMem_of_even h (by simp [hram]), valueAt, if_neg hge, hto,
    afterRead_of_ge (Nat.not_lt.mp hge)]

theorem writeMem_of_inRam {w : Width} {a : Word} {s : State} (h : w = .byte ∨ isOdd a = false)
    (hram : inRam s.cfg a = true) (v : Word) :
    writeMem w a v s = .next { s with mem := storeValue s.mem w a v } := by
  obtain ⟨-, hto⟩ := aligned_and_alignTo_of_even (c := s.cfg) h
  rw [writeMem_of_even h (by simp [hram]), afterWrite_of_ge (by rw [hto]; exact inRam_ge hram), hto]

/-- A RAM read sees the memory alone, whatever list of bytes stands in the state. -/
theorem readMem_setMem_of_inRam {w : Width} {a : Word} {s : State} (h : w = .byte ∨ isOdd a = false)
    (hram : inRam s.cfg a = true) (m : List Host.Cell) :
    readMem w a { s with mem := m } = .next (loadValue m w a, { s with mem := m }) :=
  readMem_of_inRam (s := { s with mem := m }) h hram

theorem loadValue_byte (m : List Host.Cell) (a : Word) :
    loadValue m .byte a = BitVec.ofNat 16 (Memory.read m a.toNat).toNat :=
  BitVec.eq_of_toNat_eq (by simp [loadValue])

theorem wordOfBytes_lo_lo (x y : Word) :
    wordOfBytes (Word.lo x) (Word.lo y) = BitVec.ofNat 16 (x.toNat % 256 + 256 * (y.toNat % 256)) := by
  apply BitVec.eq_of_toNat_eq
  rw [wordOfBytes_toNat, lo_toNat, lo_toNat, BitVec.toNat_ofNat]
  omega

/-- After a word store at an even address, the byte there and the byte after it. -/
theorem loadValue_byte_writeWord {m : List Host.Cell} (hm : Memory.wf m = true) {a : Word}
    (he : isOdd a = false) (v : Word) :
    loadValue (storeValue m .word a v) .byte a = BitVec.ofNat 16 (v.toNat % 256) ∧
      loadValue (storeValue m .word a v) .byte (a + 1) = BitVec.ofNat 16 (v.toNat / 256) := by
  have hne : a.toNat ≠ (a + 1).toNat := by rw [toNat_succ_of_even he]; omega
  rw [loadValue_byte, loadValue_byte, storeValue, Memory.read_writeWord hm, Memory.read_writeWord hm,
    if_neg hne, if_pos rfl, if_pos rfl, lo_toNat, hi_toNat]
  exact ⟨rfl, rfl⟩

theorem loadValue_word_write_write {m : List Host.Cell} (hm : Memory.wf m = true) {a : Word}
    (he : isOdd a = false) (x y : Word) :
    loadValue (storeValue (storeValue m .byte a x) .byte (a + 1) y) .word a =
      BitVec.ofNat 16 (x.toNat % 256 + 256 * (y.toNat % 256)) := by
  have hne : a.toNat ≠ (a + 1).toNat := by rw [toNat_succ_of_even he]; omega
  simp only [loadValue, storeValue, Memory.readWord]
  rw [Memory.read_write_other _ _ _ _ hne, Memory.read_write_same hm,
    Memory.read_write_same (Memory.wf_write hm _ _), wordOfBytes_lo_lo]

theorem truncTo_byte_eq_ofNat (v : Word) : truncTo .byte v = BitVec.ofNat 16 (v.toNat % 256) := by
  apply BitVec.eq_of_toNat_eq
  rw [truncTo_toNat, BitVec.toNat_ofNat]
  simp only [nBits]
  omega

/-- Settles O14: RAM accesses are loads and stores of the same list of bytes. -/
theorem mixedWidthView : Obligations.MixedWidthView := by
  unfold Obligations.MixedWidthView
  refine ⟨fun a v s hm he hram hram1 => ⟨?_, fun x y => ?_⟩, fun r s hr => ?_⟩
  · obtain ⟨hlow, hhigh⟩ := loadValue_byte_writeWord hm he v
    refine ⟨_, writeMem_of_inRam (.inr he) hram v, ?_, ?_, ?_⟩
    · rw [readMem_setMem_of_inRam (.inl rfl) hram, hlow]
    · rw [readMem_setMem_of_inRam (.inl rfl) hram1, hhigh]
    · rw [readMem_setMem_of_inRam (.inr he) hram, loadValue_storeValue hm, truncTo_word]
  · refine ⟨_, _, writeMem_of_inRam (.inl rfl) hram x,
      writeMem_of_inRam (s := { s with mem := storeValue s.mem .byte a x }) (.inl rfl) hram1 y, ?_⟩
    rw [readMem_setMem_of_inRam (.inr he) hram, loadValue_word_write_write hm he]
  · have hread : readLoc .byte (.reg r) s = .next (BitVec.ofNat 16 ((s.get r).toNat % 256), s) := by
      rw [readLoc, truncTo_byte_eq_ofNat]
    exact ⟨by rw [srcOperand_of_ne_autoInc (by simp), opLocation, if_neg hr, andThen_next, hread], hread⟩

/-! ## Peripheral addresses with no printed register (R75) -/

theorem devRead_of_regAt_none {a : Word} {s : State} (h : regAt s.cfg a = none) (w : Width) :
    devRead w a s = (truncTo w (Config.freeWord s.draws),
      { s with draws := s.draws + 1, events := .read a w :: s.events }) := by
  simp only [devRead, h]

theorem devWrite_of_regAt_none {a : Word} {s : State} (h : regAt s.cfg a = none) (w : Width) (v : Word) :
    devWrite w a v s = { s with draws := s.draws + 1, events := .write a w (truncTo w v) :: s.events } := by
  simp only [devWrite, h]

/-- Settles O16: the access is admitted, and is the environment's. -/
theorem environmentAccess : Obligations.EnvironmentAccess := by
  unfold Obligations.EnvironmentAccess
  intro w a v s hdevice h hnone
  obtain ⟨-, hto⟩ := aligned_and_alignTo_of_even (c := s.cfg) h
  have hlt : (alignTo w a).toNat < 0x0200 := by rw [hto]; exact inDevice_lt hdevice
  constructor
  · refine ⟨valueAt w a s, ?_⟩
    rw [readMem_of_even h (by simp [hdevice]), afterRead, if_pos hlt, hto, devRead_of_regAt_none hnone]
  · rw [writeMem_of_even h (by simp [hdevice]), afterWrite, if_pos hlt, hto, devWrite_of_regAt_none hnone]

end Sys2Proof.Machine
end

section
/-! PROOFS. Stores into the word after the storing instruction (O19). -/

namespace Sys2Proof.Machine

/-! ## Stores by an instruction (R82) -/

/-- A store away from the next word is the plain write, refused or not. -/
theorem storeMem_of_not_touches {w : Width} {a : Word} {s : State}
    (h : touches w (alignTo w a) s.regs.pc = false) (v : Word) : storeMem w a v s = writeMem w a v s := by
  unfold storeMem writeMem
  cases htarget : writeTarget s.cfg w a with
  | next p =>
    obtain ⟨-, rfl⟩ := writeTarget_eq_next.mp htarget
    simp [h]
  | fault f => rfl
  | refused r => rfl

theorem storeMem_of_touches {w : Width} {a : Word} {s : State} (hw : writable s.cfg w a = true)
    (h : touches w (alignTo w a) s.regs.pc = true) (v : Word) :
    storeMem w a v s = .refused .smcNextWord := by
  rw [storeMem, writeTarget_eq_next.mpr ⟨hw, rfl⟩, andThen_next, if_pos h]

theorem touches_byte_iff {a pc : Word} : touches .byte a pc = true ↔ a = pc ∨ a = pc + 1 := by
  simp [touches]

theorem ne_succ_of_even {a b : Word} (ha : isOdd a = false) (hb : isOdd b = false) : a ≠ b + 1 := by
  rintro rfl
  rw [not_isOdd_iff] at ha
  rw [toNat_succ_of_even hb] at ha
  rw [not_isOdd_iff] at hb
  omega

/-- Two even words meet only where they are the same. -/
theorem touches_word_iff_of_even {a pc : Word} (ha : isOdd a = false) (hpc : isOdd pc = false) :
    touches .word a pc = true ↔ a = pc := by
  simp only [touches, Bool.or_eq_true, beq_iff_eq]
  constructor
  · rintro ((h | h) | h)
    · exact h
    · exact absurd h (ne_succ_of_even ha hpc)
    · exact absurd h.symm (ne_succ_of_even hpc ha)
  · exact fun h => .inl (.inl h)

/-- R82 for a word store at an even address. -/
theorem storeMem_word_of_even {a : Word} {s : State} (hpc : isOdd s.regs.pc = false)
    (ha : isOdd a = false) (hram : inRam s.cfg a = true) (v : Word) :
    (a = s.regs.pc → storeMem .word a v s = .refused .smcNextWord) ∧
      (a ≠ s.regs.pc → storeMem .word a v s = writeMem .word a v s) := by
  have hto : alignTo .word a = a := alignTo_of_even .word ha
  have htouch := touches_word_iff_of_even ha hpc
  refine ⟨fun h => storeMem_of_touches (writable_of_even (.inr ha) (by simp [hram])) ?_ v,
    fun h => storeMem_of_not_touches ?_ v⟩
  · rwa [hto, htouch]
  · rwa [hto, Bool.eq_false_iff, ne_eq, htouch]

theorem inRam_sub_one {c : Config} {a : Word} (ho : isOdd a = true) (h : inRam c a = true) :
    inRam c (a - 1) = true := by
  have hodd := isOdd_iff.mp ho
  simp only [inRam, Bool.and_eq_true, decide_eq_true_eq] at h ⊢
  rw [← clearBit0_of_odd ho, clearBit0_toNat]
  omega

/-- Settles O19: a word store at an odd address is first refused, or is the store at the even address below. -/
theorem storeToNextWordRefused : Obligations.StoreToNextWordRefused := by
  unfold Obligations.StoreToNextWordRefused
  intro a v s hpc hram
  refine ⟨fun h => ?_, fun h0 h1 => ?_, fun h => ?_, fun ha h => ?_,
    fun ho => ⟨fun hc => ?_, fun hc => ?_⟩⟩
  · exact storeMem_of_touches (writable_of_even (.inl rfl) (by simp [hram])) (touches_byte_iff.mpr h) v
  · refine storeMem_of_not_touches ?_ v
    rw [alignTo_byte, Bool.eq_false_iff, ne_eq, touches_byte_iff, not_or]
    exact ⟨h0, h1⟩
  · exact (storeMem_word_of_even hpc (h ▸ hpc) hram v).1 h
  · exact (storeMem_word_of_even hpc ha hram v).2 h
  · obtain ⟨-, -, hstore⟩ := access_of_refuse ho hc v
    exact hstore
  · obtain ⟨-, -, hstore⟩ := access_congr (accessAddr_of_clearBit0 ho hc) v
    obtain ⟨hnext, hother⟩ := storeMem_word_of_even hpc (isOdd_sub_one ho) (inRam_sub_one ho hram) v
    have hiff : a - 1 = s.regs.pc ↔ a = s.regs.pc + 1 := sub_eq_iff_eq_add
    rw [hstore, ← hiff]
    exact ⟨hnext, fun h => hother fun e => h (hiff.mp e)⟩

end Sys2Proof.Machine
end

section
/-! PROOFS. The vector table (O53). -/

namespace Sys2Proof.Machine

/-- No vector wraps past the top of memory (R72). -/
theorem vectorAddr_toNat {p : Nat} (hp : p ≤ 31) : (vectorAddr p).toNat = 0xFFC0 + 2 * p := by
  rw [vectorAddr, BitVec.toNat_add, BitVec.toNat_ofNat]
  simp only [BitVec.reduceToNat]
  omega

/-- Settles O53: the sources' priorities run from 30 down to 18, without 20. -/
theorem vectorTable : Obligations.VectorTable := by
  unfold Obligations.VectorTable
  exact ⟨fun _ hp => vectorAddr_toNat hp, by decide, by decide⟩

end Sys2Proof.Machine
end

section
/-! PROOFS. The instruction word as bit fields (R104 to R106), and the fields as registers, widths and operands
(R110, R111): each reading of a field undone by its writing. -/

namespace Sys2Proof

/-! ## Fields of a word -/

theorem toNat_append_eq_add {m n : Nat} (a : BitVec m) (b : BitVec n) :
    (a ++ b).toNat = a.toNat * 2 ^ n + b.toNat := by
  rw [BitVec.toNat_append, Nat.shiftLeft_eq, Nat.mul_comm, ← Nat.two_pow_add_eq_or_of_lt b.isLt]

theorem toNat_field (v : Word) (lo len : Nat) : (v.extractLsb' lo len).toNat = v.toNat / 2 ^ lo % 2 ^ len := by
  rw [BitVec.extractLsb'_toNat, Nat.shiftRight_eq_div_pow]

theorem toNat_bit (v : Word) (k : Nat) : (BitVec.ofBool (v.getLsbD k)).toNat = v.toNat / 2 ^ k % 2 := by
  rw [BitVec.toNat_ofBool, BitVec.getLsbD, Nat.toNat_testBit]

/-- R104: the word of a Format I instruction from its fields. -/
def formatIWord (op sreg : BitVec 4) (ad bw : BitVec 1) (as : BitVec 2) (dreg : BitVec 4) : Word :=
  op ++ sreg ++ ad ++ bw ++ as ++ dreg

/-- R105: the word of a Format II instruction from its fields. -/
def formatIIWord (op : BitVec 3) (bw : BitVec 1) (as : BitVec 2) (reg : BitVec 4) : Word :=
  0b000100#6 ++ op ++ bw ++ as ++ reg

/-- R106: the word of a Format III instruction from its fields. -/
def formatIIIWord (c : BitVec 3) (off : BitVec 10) : Word := 0b001#3 ++ c ++ off

theorem formatIWord_toNat (op sreg : BitVec 4) (ad bw : BitVec 1) (as : BitVec 2) (dreg : BitVec 4) :
    (formatIWord op sreg ad bw as dreg).toNat = op.toNat * 4096 + sreg.toNat * 256 + ad.toNat * 128
      + bw.toNat * 64 + as.toNat * 16 + dreg.toNat := by
  simp only [formatIWord, toNat_append_eq_add]
  omega

theorem formatIIWord_toNat (op : BitVec 3) (bw : BitVec 1) (as : BitVec 2) (reg : BitVec 4) :
    (formatIIWord op bw as reg).toNat = 4096 + op.toNat * 128 + bw.toNat * 64 + as.toNat * 16 + reg.toNat := by
  simp only [formatIIWord, toNat_append_eq_add, BitVec.toNat_ofNat]
  omega

theorem formatIIIWord_toNat (c : BitVec 3) (off : BitVec 10) :
    (formatIIIWord c off).toNat = 8192 + c.toNat * 1024 + off.toNat := by
  simp only [formatIIIWord, toNat_append_eq_add, BitVec.toNat_ofNat]
  omega

/-- Every word is the Format I word of exactly one choice of fields. -/
theorem formatIWord_eq_iff {op sreg : BitVec 4} {ad bw : BitVec 1} {as : BitVec 2} {dreg : BitVec 4} {v : Word} :
    formatIWord op sreg ad bw as dreg = v ↔
      op = v.extractLsb' 12 4 ∧ sreg = v.extractLsb' 8 4 ∧ ad = BitVec.ofBool (v.getLsbD 7) ∧
        bw = BitVec.ofBool (v.getLsbD 6) ∧ as = v.extractLsb' 4 2 ∧ dreg = v.extractLsb' 0 4 := by
  simp only [← BitVec.toNat_inj, formatIWord_toNat, toNat_field, toNat_bit]
  omega

/-- A word is a Format II word exactly if its upper six bits say so, and then of one choice of fields. -/
theorem formatIIWord_eq_iff {op : BitVec 3} {bw : BitVec 1} {as : BitVec 2} {reg : BitVec 4} {v : Word} :
    formatIIWord op bw as reg = v ↔
      v.toNat / 1024 = 4 ∧ op = v.extractLsb' 7 3 ∧ bw = BitVec.ofBool (v.getLsbD 6) ∧
        as = v.extractLsb' 4 2 ∧ reg = v.extractLsb' 0 4 := by
  simp only [← BitVec.toNat_inj, formatIIWord_toNat, toNat_field, toNat_bit]
  omega

/-- A word is a Format III word exactly if its upper three bits say so, and then of one choice of fields. -/
theorem formatIIIWord_eq_iff {c : BitVec 3} {off : BitVec 10} {v : Word} :
    formatIIIWord c off = v ↔
      v.toNat / 8192 = 1 ∧ c = v.extractLsb' 10 3 ∧ off = v.extractLsb' 0 10 := by
  simp only [← BitVec.toNat_inj, formatIIIWord_toNat, toNat_field]
  omega

/-! ## Registers and widths -/

@[simp] theorem Reg.ofBits_bits (r : Reg) : Reg.ofBits r.bits = r := by cases r <;> rfl

@[simp] theorem Reg.bits_ofBits (b : BitVec 4) : (Reg.ofBits b).bits = b := by
  revert b; decide

theorem Reg.bits_eq_iff {r : Reg} {b : BitVec 4} : r.bits = b ↔ r = .ofBits b :=
  ⟨fun h => by rw [← h, ofBits_bits], fun h => by rw [h, bits_ofBits]⟩

theorem Width.bits_eq_iff {w : Width} {b : Bool} : w.bits = BitVec.ofBool b ↔ w = .ofBit b := by
  cases w <;> cases b <;> decide

/-! ## Operands -/

/-- The four addressing-mode fields of a source operand (R110). -/
theorem as_cases (as : BitVec 2) : as = 0 ∨ as = 1 ∨ as = 2 ∨ as = 3 := by revert as; decide

theorem fields_decodeSrc (as : BitVec 2) (r : Reg) (x : Word) : (decodeSrc as r x).fields = (as, r) := by
  rcases as_cases as with rfl | rfl | rfl | rfl <;> cases r <;> rfl

/-- A decoded source operand has no extension word but the word it was decoded with (R115). -/
theorem getD_ext_decodeSrc (as : BitVec 2) (r : Reg) (x : Word) : (decodeSrc as r x).ext.getD x = x := by
  rcases as_cases as with rfl | rfl | rfl | rfl <;> cases r <;> rfl

/-- R110: every As and register field is the field of an operand. -/
theorem wf_decodeSrc (as : BitVec 2) (r : Reg) (x : Word) : (decodeSrc as r x).wf = true := by
  rcases as_cases as with rfl | rfl | rfl | rfl <;> cases r <;> rfl

theorem fields_decodeDst (ad : Bool) (r : Reg) (x : Word) :
    (decodeDst ad r x).fields = (BitVec.ofBool ad, r) := by
  cases ad <;> cases r <;> rfl

theorem getD_ext_decodeDst (ad : Bool) (r : Reg) (x : Word) : (decodeDst ad r x).ext.getD x = x := by
  cases ad <;> cases r <;> rfl

/-- R110: a legal source operand is decoded from its fields and its extension word. -/
theorem decodeSrc_fields {s : Src} (hs : s.wf = true) (x : Word) :
    decodeSrc s.fields.1 s.fields.2 (s.ext.getD x) = s := by
  cases s with
  | const c => cases c <;> rfl
  | symbolic y => rfl
  | absolute y => rfl
  | imm y => rfl
  | reg r =>
    cases r
    case cg => exact nomatch hs
    all_goals rfl
  | indexed r y =>
    cases r
    case pc | sr | cg => exact nomatch hs
    all_goals rfl
  | indirect r =>
    cases r
    case sr | cg => exact nomatch hs
    all_goals rfl
  | autoInc r =>
    cases r
    case pc | sr | cg => exact nomatch hs
    all_goals rfl

/-- R111: a legal destination operand is decoded from its fields and its extension word. -/
theorem decodeDst_fields {d : Dst} (hd : d.wf = true) {ad : Bool} (ha : d.fields.1 = BitVec.ofBool ad)
    (x : Word) : decodeDst ad d.fields.2 (d.ext.getD x) = d := by
  have had : ad = (d.fields.1 == 1) := by rw [ha]; cases ad <;> rfl
  subst had
  cases d with
  | bucket => rfl
  | symbolic y => rfl
  | absolute y => rfl
  | reg r =>
    cases r
    case cg => exact nomatch hd
    all_goals rfl
  | indexed r y =>
    cases r
    case pc | sr | cg => exact nomatch hd
    all_goals rfl

end Sys2Proof
end

section
/-! PROOFS. The core instructions by format (R104 to R109): the instruction an opcode and its operands select, what it
encodes to, and what each range of first words decodes to. -/

namespace Sys2Proof

/-! ## The instruction of an opcode -/

/-- R107: the Format I instruction of an opcode, 4 to 15. -/
def formatIInstr (op : BitVec 4) (w : Width) (s : Src) (d : Dst) : Instr :=
  match op.toNat with
  | 4 => .mov w s d
  | 5 => .add w s d
  | 6 => .addc w s d
  | 7 => .subc w s d
  | 8 => .sub w s d
  | 9 => .cmp w s d
  | 10 => .dadd w s d
  | 11 => .bit w s d
  | 12 => .bic w s d
  | 13 => .bis w s d
  | 14 => .xor w s d
  | _ => .and w s d

/-- R33: the opcodes of ADD, ADDC, SUBC, SUB, DADD, XOR and AND, which compute flags and write a destination. -/
def formatIComputes (op : BitVec 4) : Bool :=
  [5, 6, 7, 8, 10, 14, 15].contains op.toNat

/-- R108: the Format II instruction of an opcode, 0 to 5; RETI has no operand. -/
def formatIIInstr (op : BitVec 3) (w : Width) (o : Src) : Instr :=
  match op.toNat with
  | 0 => .rrc w o
  | 1 => .swpb o
  | 2 => .rra w o
  | 3 => .sxt o
  | 4 => .push w o
  | _ => .call o

/-- Of the Format II opcodes 0 to 5, the odd ones (SWPB, SXT and CALL) have no byte form (R117). -/
def formatIIWidthOk (op : BitVec 3) (w : Width) : Prop := op.toNat % 2 = 1 → w = .word

/-- R109: the jump of a condition. -/
def formatIIIInstr (c : BitVec 3) (off : BitVec 10) : Instr :=
  match c.toNat with
  | 0 => .jne off
  | 1 => .jeq off
  | 2 => .jnc off
  | 3 => .jc off
  | 4 => .jn off
  | 5 => .jge off
  | 6 => .jl off
  | _ => .jmp off

theorem encodeCore_formatIInstr {op : BitVec 4} (h : 4 ≤ op.toNat) (w : Width) (s : Src) (d : Dst) :
    encodeCore (formatIInstr op w s d) =
      formatIWord op s.fields.2.bits d.fields.1 w.bits s.fields.1 d.fields.2.bits
        :: (s.ext.toList ++ d.ext.toList) := by
  obtain ⟨n, hn⟩ := op
  change 4 ≤ n at h
  interval_cases n <;> rfl

theorem formProblem_formatIInstr {op : BitVec 4} (h : 4 ≤ op.toNat) (w : Width) (s : Src) (d : Dst) :
    (formatIInstr op w s d).formProblem = formIProblem (formatIComputes op) s d := by
  obtain ⟨n, hn⟩ := op
  change 4 ≤ n at h
  interval_cases n <;> rfl

theorem expand_formatIInstr (op : BitVec 4) (w : Width) (s : Src) (d : Dst) :
    (formatIInstr op w s d).expand = formatIInstr op w s d := by
  unfold formatIInstr
  split <;> rfl

theorem encodeCore_formatIIInstr {op : BitVec 3} {w : Width} (h : op.toNat ≤ 5) (hw : formatIIWidthOk op w)
    (o : Src) :
    encodeCore (formatIIInstr op w o) =
      formatIIWord op w.bits o.fields.1 o.fields.2.bits :: o.ext.toList := by
  obtain ⟨n, hn⟩ := op
  change n ≤ 5 at h
  change n % 2 = 1 → w = .word at hw
  interval_cases n
  · rfl
  · obtain rfl := hw rfl; rfl
  · rfl
  · obtain rfl := hw rfl; rfl
  · rfl
  · obtain rfl := hw rfl; rfl

theorem expand_formatIIInstr (op : BitVec 3) (w : Width) (o : Src) :
    (formatIIInstr op w o).expand = formatIIInstr op w o := by
  unfold formatIIInstr
  split <;> rfl

theorem encodeCore_formatIIIInstr (c : BitVec 3) (off : BitVec 10) :
    encodeCore (formatIIIInstr c off) = [formatIIIWord c off] := by
  obtain ⟨n, hn⟩ := c
  interval_cases n <;> rfl

theorem formProblem_formatIIIInstr (c : BitVec 3) (off : BitVec 10) :
    (formatIIIInstr c off).formProblem = none := by
  unfold formatIIIInstr
  split <;> rfl

theorem expand_formatIIIInstr (c : BitVec 3) (off : BitVec 10) :
    (formatIIIInstr c off).expand = formatIIIInstr c off := by
  unfold formatIIIInstr
  split <;> rfl

/-! ## Forms without a meaning (R117, R33) -/

section
variable {flags : Bool} {s o : Src} {d : Dst}

theorem formIProblem_eq_reserved_iff :
    formIProblem flags s d = some .reservedForm ↔
      (s.wf = false ∨ d.wf = false) ∨ s = .reg .pc ∧ d.isMem = true := by
  unfold formIProblem
  split_ifs <;> simp_all

theorem formIProblem_eq_srDst_iff :
    formIProblem flags s d = some .srDstWithFlags ↔ s.wf = true ∧ flags = true ∧ d = .reg .sr := by
  have hwf : (Dst.reg .sr).wf = true := rfl
  have hmem : (Dst.reg .sr).isMem = false := rfl
  unfold formIProblem
  split_ifs <;> simp_all <;> grind

theorem formIProblem_eq_none_iff :
    formIProblem flags s d = none ↔
      (s.wf = true ∧ d.wf = true) ∧ ¬ (s = .reg .pc ∧ d.isMem = true) ∧
        ¬ (flags = true ∧ d = .reg .sr) := by
  unfold formIProblem
  split_ifs <;> simp_all
  grind

theorem rmwProblem_eq_reserved_iff :
    rmwProblem flags o = some .reservedForm ↔ o.wf = false ∨ o.isConst = true := by
  unfold rmwProblem
  split_ifs <;> simp_all

theorem rmwProblem_eq_none_iff :
    rmwProblem flags o = none ↔ o.wf = true ∧ o.isConst = false ∧ ¬ (flags = true ∧ o = .reg .sr) := by
  unfold rmwProblem
  split_ifs <;> simp_all
  grind

theorem pushProblem_eq_none_iff : pushProblem o = none ↔ o.wf = true ∧ o ≠ .reg .sp := by
  unfold pushProblem
  split_ifs <;> simp_all
  grind

theorem callProblem_eq_none_iff : callProblem o = none ↔ o.wf = true := by
  unfold callProblem
  split_ifs <;> simp_all

theorem pushProblem_eq_reserved_iff :
    pushProblem o = some .reservedForm ↔ o.wf = false ∨ o = .reg .sp := by
  unfold pushProblem
  split_ifs <;> simp_all

theorem callProblem_eq_reserved_iff : callProblem o = some .reservedForm ↔ o.wf = false := by
  unfold callProblem
  split_ifs <;> simp_all

theorem rmwProblem_eq_srDst_iff :
    rmwProblem flags o = some .srDstWithFlags ↔ flags = true ∧ o = .reg .sr := by
  have hwf : (Src.reg .sr).wf = true := rfl
  have hconst : (Src.reg .sr).isConst = false := rfl
  unfold rmwProblem
  split_ifs <;> simp_all
  grind

theorem pushProblem_ne_srDst : pushProblem o ≠ some .srDstWithFlags := by
  unfold pushProblem
  split_ifs <;> simp

theorem callProblem_ne_srDst : callProblem o ≠ some .srDstWithFlags := by
  unfold callProblem
  split_ifs <;> simp

/-- R117 by Format II opcode: RRC, SWPB, RRA and SXT, of which SWPB alone computes no flags; PUSH; CALL. -/
theorem formProblem_formatIIInstr {op : BitVec 3} (hop : op.toNat ≤ 5) (w : Width) :
    (formatIIInstr op w o).formProblem =
      if op.toNat ≤ 3 then rmwProblem (op.toNat != 1) o
      else if op.toNat = 4 then pushProblem o else callProblem o := by
  obtain ⟨n, hn⟩ := op
  change n ≤ 5 at hop
  interval_cases n <;> rfl

theorem formatIIInstr_eq_reserved_iff {op : BitVec 3} (hop : op.toNat ≤ 5) (w : Width) :
    (formatIIInstr op w o).formProblem = some .reservedForm ↔
      o.wf = false ∨ op.toNat ≤ 3 ∧ o.isConst = true ∨ op.toNat = 4 ∧ o = .reg .sp := by
  rw [formProblem_formatIIInstr hop]
  split_ifs with h3 h4
  · rw [rmwProblem_eq_reserved_iff]
    have h4 : op.toNat ≠ 4 := by omega
    simp only [h3, h4, true_and, false_and, or_false]
  · rw [pushProblem_eq_reserved_iff]
    simp [h4]
  · rw [callProblem_eq_reserved_iff]
    simp only [h3, h4, false_and, or_false]

theorem formatIIInstr_eq_srDst_iff {op : BitVec 3} (hop : op.toNat ≤ 5) (w : Width) :
    (formatIIInstr op w o).formProblem = some .srDstWithFlags ↔
      (op.toNat ≤ 3 ∧ op.toNat ≠ 1) ∧ o = .reg .sr := by
  rw [formProblem_formatIIInstr hop]
  split_ifs with h3 h4
  · rw [rmwProblem_eq_srDst_iff, bne_iff_ne]
    simp only [h3, true_and]
  · exact ⟨fun h => absurd h pushProblem_ne_srDst, fun h => absurd h.1.1 h3⟩
  · exact ⟨fun h => absurd h callProblem_ne_srDst, fun h => absurd h.1.1 h3⟩

theorem wf_of_formatIIInstr {op : BitVec 3} (hop : op.toNat ≤ 5) {w : Width}
    (h : (formatIIInstr op w o).formProblem = none) : o.wf = true := by
  rw [← Bool.not_eq_false]
  intro hwf
  exact nomatch h.symm.trans ((formatIIInstr_eq_reserved_iff hop w).mpr (.inl hwf))

end

/-! ## The core instructions -/

/-- The core instructions by their format, each with the fields its words have. -/
inductive CoreForm : Instr → Prop where
  | formatI {op : BitVec 4} (hop : 4 ≤ op.toNat) (w : Width) (s : Src) (d : Dst) :
      CoreForm (formatIInstr op w s d)
  | formatII {op : BitVec 3} (hop : op.toNat ≤ 5) {w : Width} (hw : formatIIWidthOk op w) (o : Src) :
      CoreForm (formatIIInstr op w o)
  | reti : CoreForm .reti
  | formatIII (c : BitVec 3) (off : BitVec 10) : CoreForm (formatIIIInstr c off)

theorem CoreForm.expand_eq {c : Instr} (h : CoreForm c) : c.expand = c := by
  cases h with
  | formatI hop w s d => exact expand_formatIInstr _ w s d
  | formatII hop hw o => exact expand_formatIIInstr _ _ o
  | reti => rfl
  | formatIII c off => exact expand_formatIIIInstr c off

theorem CoreForm.encodeCore_length {c : Instr} (h : CoreForm c) :
    1 ≤ (encodeCore c).length ∧ (encodeCore c).length ≤ 3 := by
  cases h with
  | formatI hop w s d =>
    rw [encodeCore_formatIInstr hop]
    exact Laws.LengthRule.formatI _ w s d
  | formatII hop hw o =>
    rw [encodeCore_formatIIInstr hop hw]
    exact Laws.LengthRule.formatII _ _ o
  | reti => exact ⟨Nat.le_refl 1, by decide⟩
  | formatIII c off => rw [encodeCore_formatIIIInstr]; exact Laws.LengthRule.formatIII c off

theorem Instr.expand_expand (i : Instr) : i.expand.expand = i.expand := by cases i <;> rfl

/-- The 27 instructions that are their own core instruction have one of the formats. -/
theorem coreForm_of_expand {c : Instr} (h : c.expand = c) : CoreForm c := by
  cases c with
  | mov w s d => exact .formatI (op := 4) (by decide) w s d
  | add w s d => exact .formatI (op := 5) (by decide) w s d
  | addc w s d => exact .formatI (op := 6) (by decide) w s d
  | subc w s d => exact .formatI (op := 7) (by decide) w s d
  | sub w s d => exact .formatI (op := 8) (by decide) w s d
  | cmp w s d => exact .formatI (op := 9) (by decide) w s d
  | dadd w s d => exact .formatI (op := 10) (by decide) w s d
  | bit w s d => exact .formatI (op := 11) (by decide) w s d
  | bic w s d => exact .formatI (op := 12) (by decide) w s d
  | bis w s d => exact .formatI (op := 13) (by decide) w s d
  | xor w s d => exact .formatI (op := 14) (by decide) w s d
  | and w s d => exact .formatI (op := 15) (by decide) w s d
  | rrc w o => exact .formatII (op := 0) (w := w) (by decide) (fun h => nomatch h) o
  | swpb o => exact .formatII (op := 1) (w := .word) (by decide) (fun _ => rfl) o
  | rra w o => exact .formatII (op := 2) (w := w) (by decide) (fun h => nomatch h) o
  | sxt o => exact .formatII (op := 3) (w := .word) (by decide) (fun _ => rfl) o
  | push w o => exact .formatII (op := 4) (w := w) (by decide) (fun h => nomatch h) o
  | call o => exact .formatII (op := 5) (w := .word) (by decide) (fun _ => rfl) o
  | reti => exact .reti
  | jne off => exact .formatIII 0 off
  | jeq off => exact .formatIII 1 off
  | jnc off => exact .formatIII 2 off
  | jc off => exact .formatIII 3 off
  | jn off => exact .formatIII 4 off
  | jge off => exact .formatIII 5 off
  | jl off => exact .formatIII 6 off
  | jmp off => exact .formatIII 7 off
  | _ => exact nomatch h

/-- Every instruction is a core instruction under another name, or one itself (R250). -/
theorem coreForm_expand (i : Instr) : CoreForm i.expand := coreForm_of_expand i.expand_expand

/-! ## What a word decodes to -/

/-- The source operand a Format I word names, `x1` being the word after it. -/
def formatISrc (v x1 : Word) : Src := decodeSrc (v.extractLsb' 4 2) (.ofBits (v.extractLsb' 8 4)) x1

/-- The destination operand a Format I word names: its extension word comes after the source's (R103). -/
def formatIDst (v x1 x2 : Word) : Dst :=
  decodeDst (v.getLsbD 7) (.ofBits (v.extractLsb' 0 4)) (if (formatISrc v x1).ext.isSome then x2 else x1)

/-- The operand a Format II word names. -/
def formatIIOperand (v x1 : Word) : Src := decodeSrc (v.extractLsb' 4 2) (.ofBits (v.extractLsb' 0 4)) x1

/-- The width the b/w bit of a word names (R68). -/
def wordWidth (v : Word) : Width := .ofBit (v.getLsbD 6)

/-- Words from 4000h on are of Format I. -/
theorem decodeCore_formatI {v : Word} (h : 0x4000 ≤ v.toNat) (x1 x2 : Word) :
    decodeCore v x1 x2 =
      .ok (formatIInstr (v.extractLsb' 12 4) (wordWidth v) (formatISrc v x1) (formatIDst v x1 x2)) := by
  have hclass : 2 ≤ (v.extractLsb' 13 3).toNat ∧ (v.extractLsb' 13 3).toNat < 8 := by
    rw [toNat_field]; omega
  have hop : 4 ≤ (v.extractLsb' 12 4).toNat := by rw [toNat_field]; omega
  have hI : decodeFormatI v x1 x2 =
      .ok (formatIInstr (v.extractLsb' 12 4) (wordWidth v) (formatISrc v x1) (formatIDst v x1 x2)) := by
    unfold decodeFormatI formatIInstr
    have hlt := (v.extractLsb' 12 4).isLt
    generalize (v.extractLsb' 12 4).toNat = n at hop hlt ⊢
    interval_cases n <;> rfl
  rw [← hI, decodeCore]
  generalize (v.extractLsb' 13 3).toNat = n at hclass ⊢
  obtain ⟨h2, h8⟩ := hclass
  interval_cases n <;> rfl

/-- Words from 2000h to 3FFFh are of Format III. -/
theorem decodeCore_formatIII {v : Word} (h : v.toNat / 8192 = 1) (x1 x2 : Word) :
    decodeCore v x1 x2 = .ok (formatIIIInstr (v.extractLsb' 10 3) (v.extractLsb' 0 10)) := by
  have hclass : (v.extractLsb' 13 3).toNat = 1 := by rw [toNat_field]; omega
  have hlt := (v.extractLsb' 10 3).isLt
  rw [decodeCore, hclass]
  unfold decodeFormatIII formatIIIInstr
  generalize (v.extractLsb' 10 3).toNat = n at hlt ⊢
  interval_cases n <;> rfl

/-- Words from 1000h to 13FFh are of Format II. -/
theorem decodeCore_formatII {v : Word} (h : v.toNat / 1024 = 4) (x1 x2 : Word) :
    decodeCore v x1 x2 = decodeFormatII v x1 := by
  have hclass : (v.extractLsb' 13 3).toNat = 0 := by rw [toNat_field]; omega
  have hII : v.extractLsb' 10 6 = 0b000100#6 := by
    apply BitVec.eq_of_toNat_eq
    rw [toNat_field, BitVec.toNat_ofNat]
    omega
  rw [decodeCore, hclass]
  exact if_pos hII

/-- R116: the other words below 2000h select nothing. -/
theorem decodeCore_illegal {v : Word} (h : v.toNat < 0x2000) (hII : v.toNat / 1024 ≠ 4) (x1 x2 : Word) :
    decodeCore v x1 x2 = .error (.illegal v) := by
  have hclass : (v.extractLsb' 13 3).toNat = 0 := by rw [toNat_field]; omega
  have hne : v.extractLsb' 10 6 ≠ 0b000100#6 := by
    rw [ne_eq, ← BitVec.toNat_inj, toNat_field, BitVec.toNat_ofNat]
    omega
  rw [decodeCore, hclass]
  exact if_neg hne

theorem wordWidth_eq_byte_iff {v : Word} : wordWidth v = .byte ↔ v.toNat / 64 % 2 = 1 := by
  have h : v.getLsbD 6 = decide (v.toNat / 64 % 2 = 1) := Nat.testBit_eq_decide_div_mod_eq
  rw [wordWidth, h]
  by_cases hb : v.toNat / 64 % 2 = 1 <;> simp [hb, Width.ofBit]

/-- R108: a Format II word of opcode 0 to 5, but for the byte forms of SWPB, SXT and CALL. -/
theorem decodeFormatII_instr {v : Word} (hop : (v.extractLsb' 7 3).toNat ≤ 5)
    (hw : formatIIWidthOk (v.extractLsb' 7 3) (wordWidth v)) (x1 : Word) :
    decodeFormatII v x1 = .ok (formatIIInstr (v.extractLsb' 7 3) (wordWidth v) (formatIIOperand v x1)) := by
  have hnb : wordWidth v = .word → ¬ wordWidth v = .byte := fun h hb => nomatch h.symm.trans hb
  unfold decodeFormatII formatIIInstr
  unfold formatIIWidthOk at hw
  generalize (v.extractLsb' 7 3).toNat = n at hop hw ⊢
  interval_cases n
  · rfl
  · exact if_neg (hnb (hw rfl))
  · rfl
  · exact if_neg (hnb (hw rfl))
  · rfl
  · exact if_neg (hnb (hw rfl))

/-- R117: SWPB, SXT and CALL have no byte form. -/
theorem decodeFormatII_byteForm {v : Word} (hop : (v.extractLsb' 7 3).toNat ≤ 5)
    (hw : ¬ formatIIWidthOk (v.extractLsb' 7 3) (wordWidth v)) (x1 : Word) :
    decodeFormatII v x1 = .error (.form .reservedForm) := by
  obtain ⟨hodd, hbyte⟩ : (v.extractLsb' 7 3).toNat % 2 = 1 ∧ wordWidth v = .byte := by
    unfold formatIIWidthOk at hw
    cases hv : wordWidth v <;> simp_all
  unfold decodeFormatII
  generalize (v.extractLsb' 7 3).toNat = n at hop hodd ⊢
  interval_cases n
  · exact nomatch hodd
  · exact if_pos hbyte
  · exact nomatch hodd
  · exact if_pos hbyte
  · exact nomatch hodd
  · exact if_pos hbyte

/-- R117: RETI is the word 1300h alone. -/
theorem decodeFormatII_reti {v : Word} (hop : (v.extractLsb' 7 3).toNat = 6) (x1 : Word) :
    decodeFormatII v x1 = if v.extractLsb' 0 7 = 0 then .ok .reti else .error (.form .reservedForm) := by
  unfold decodeFormatII
  rw [hop]
  rfl

/-- R188: Format II opcode 111. -/
theorem decodeFormatII_illegal {v : Word} (hop : (v.extractLsb' 7 3).toNat = 7) (x1 : Word) :
    decodeFormatII v x1 = .error (.illegal v) := by
  unfold decodeFormatII
  rw [hop]
  rfl

/-- What the decoder makes of a word before the form check, by the range the word is in (R102, R116, R117). -/
inductive CoreDecode (v x1 x2 : Word) : Except DecodeError Instr → Prop where
  | illegal (h : v.toNat < 0x1000 ∨ 0x1380 ≤ v.toNat ∧ v.toNat ≤ 0x1FFF) :
      CoreDecode v x1 x2 (.error (.illegal v))
  | reserved (h : v.toNat / 1024 = 4)
      (hform : (v.extractLsb' 7 3).toNat ≤ 5 ∧ ¬ formatIIWidthOk (v.extractLsb' 7 3) (wordWidth v) ∨
        (v.extractLsb' 7 3).toNat = 6 ∧ v.toNat ≠ 0x1300) :
      CoreDecode v x1 x2 (.error (.form .reservedForm))
  | formatII (h : v.toNat / 1024 = 4) (hop : (v.extractLsb' 7 3).toNat ≤ 5)
      (hw : formatIIWidthOk (v.extractLsb' 7 3) (wordWidth v)) :
      CoreDecode v x1 x2 (.ok (formatIIInstr (v.extractLsb' 7 3) (wordWidth v) (formatIIOperand v x1)))
  | reti (h : v = 0x1300) : CoreDecode v x1 x2 (.ok .reti)
  | formatIII (h : v.toNat / 8192 = 1) :
      CoreDecode v x1 x2 (.ok (formatIIIInstr (v.extractLsb' 10 3) (v.extractLsb' 0 10)))
  | formatI (h : 0x4000 ≤ v.toNat) :
      CoreDecode v x1 x2
        (.ok (formatIInstr (v.extractLsb' 12 4) (wordWidth v) (formatISrc v x1) (formatIDst v x1 x2)))

theorem eq_reti_word_iff {v : Word} : v = 0x1300 ↔ v.toNat = 0x1300 := BitVec.toNat_inj.symm

theorem coreDecode (v x1 x2 : Word) : CoreDecode v x1 x2 (decodeCore v x1 x2) := by
  by_cases hI : 0x4000 ≤ v.toNat
  · rw [decodeCore_formatI hI]; exact .formatI hI
  by_cases hIII : v.toNat / 8192 = 1
  · rw [decodeCore_formatIII hIII]; exact .formatIII hIII
  by_cases hII : v.toNat / 1024 = 4
  · rw [decodeCore_formatII hII]
    have hop := toNat_field v 7 3
    by_cases h5 : (v.extractLsb' 7 3).toNat ≤ 5
    · by_cases hw : formatIIWidthOk (v.extractLsb' 7 3) (wordWidth v)
      · rw [decodeFormatII_instr h5 hw]; exact .formatII hII h5 hw
      · rw [decodeFormatII_byteForm h5 hw]; exact .reserved hII (.inl ⟨h5, hw⟩)
    by_cases h6 : (v.extractLsb' 7 3).toNat = 6
    · have hlow : v.extractLsb' 0 7 = 0 ↔ v = 0x1300 := by
        rw [eq_reti_word_iff, ← BitVec.toNat_inj, toNat_field]
        change _ = 0 ↔ _
        omega
      rw [decodeFormatII_reti h6]
      split
      · exact .reti (hlow.mp ‹_›)
      · exact .reserved hII (.inr ⟨h6, fun h => absurd (hlow.mpr (eq_reti_word_iff.mpr h)) ‹_›⟩)
    · rw [decodeFormatII_illegal (by omega)]; exact .illegal (by omega)
  · rw [decodeCore_illegal (by omega) hII]; exact .illegal (by omega)

/-! ## Decoding undoes encoding, on core instructions -/

/-- R103, R115: the extension words follow the instruction word, the source's first. -/
theorem exts_prefix_iff {e f : Option Word} {x1 x2 : Word} :
    e.toList ++ f.toList <+: [x1, x2] ↔ e.getD x1 = x1 ∧ f.getD (if e.isSome then x2 else x1) =
      if e.isSome then x2 else x1 := by
  cases e <;> cases f <;> simp [List.cons_prefix_cons]

theorem ext_prefix_iff {e : Option Word} {x1 x2 : Word} : e.toList <+: [x1, x2] ↔ e.getD x1 = x1 := by
  cases e <;> simp [List.cons_prefix_cons]

/-- Every word that selects an instruction is the first word of its encoding, and the words after it are the
extension words the encoding has: no bit of it is ignored. -/
theorem encodeCore_of_decodeCore {v x1 x2 : Word} {c : Instr} (h : decodeCore v x1 x2 = .ok c) :
    CoreForm c ∧ encodeCore c <+: [v, x1, x2] := by
  have hview := coreDecode v x1 x2
  rw [h] at hview
  cases hview with
  | formatI hv =>
    have hop : 4 ≤ (v.extractLsb' 12 4).toNat := by rw [toNat_field]; omega
    refine ⟨.formatI hop _ _ _, ?_⟩
    rw [encodeCore_formatIInstr hop, List.cons_prefix_cons, formatIWord_eq_iff, exts_prefix_iff]
    refine ⟨⟨rfl, ?_, ?_, ?_, ?_, ?_⟩, getD_ext_decodeSrc _ _ _, getD_ext_decodeDst _ _ _⟩
    · rw [formatISrc, fields_decodeSrc, Reg.bits_ofBits]
    · rw [formatIDst, fields_decodeDst]
    · rw [Width.bits_eq_iff, wordWidth]
    · rw [formatISrc, fields_decodeSrc]
    · rw [formatIDst, fields_decodeDst, Reg.bits_ofBits]
  | formatII hv hop hw =>
    refine ⟨.formatII hop hw _, ?_⟩
    rw [encodeCore_formatIIInstr hop hw, List.cons_prefix_cons, formatIIWord_eq_iff, ext_prefix_iff]
    refine ⟨⟨hv, rfl, ?_, ?_, ?_⟩, getD_ext_decodeSrc _ _ _⟩
    · rw [Width.bits_eq_iff, wordWidth]
    · rw [formatIIOperand, fields_decodeSrc]
    · rw [formatIIOperand, fields_decodeSrc, Reg.bits_ofBits]
  | reti hv => exact ⟨.reti, hv ▸ ⟨[x1, x2], rfl⟩⟩
  | formatIII hv =>
    refine ⟨.formatIII _ _, ?_⟩
    rw [encodeCore_formatIIIInstr, List.cons_prefix_cons, formatIIIWord_eq_iff]
    exact ⟨⟨hv, rfl, rfl⟩, List.nil_prefix⟩

/-- The fields and the extension words of a legal core instruction's encoding give it back. -/
theorem decodeCore_of_encodeCore {v x1 x2 : Word} {c : Instr} (hc : CoreForm c) (hp : c.formProblem = none)
    (h : encodeCore c <+: [v, x1, x2]) : decodeCore v x1 x2 = .ok c := by
  cases hc with
  | @formatI op hop w s d =>
    rw [encodeCore_formatIInstr hop, List.cons_prefix_cons, formatIWord_eq_iff, exts_prefix_iff] at h
    obtain ⟨⟨hv, hsreg, had, hw, has, hdreg⟩, hx1, hx2⟩ := h
    rw [formProblem_formatIInstr hop] at hp
    obtain ⟨⟨hs, hd⟩, -, -⟩ := formIProblem_eq_none_iff.mp hp
    have hsrc : formatISrc v x1 = s := by
      rw [formatISrc, ← has, ← Reg.bits_eq_iff.mp hsreg, ← hx1, decodeSrc_fields hs]
    have hdst : formatIDst v x1 x2 = d := by
      rw [formatIDst, hsrc, ← Reg.bits_eq_iff.mp hdreg, ← hx2, decodeDst_fields hd had]
    have hrange : 0x4000 ≤ v.toNat := by rw [hv, toNat_field] at hop; omega
    rw [decodeCore_formatI hrange, hsrc, hdst, ← hv, wordWidth, ← Width.bits_eq_iff.mp hw]
  | @formatII op hop w hwok o =>
    rw [encodeCore_formatIIInstr hop hwok, List.cons_prefix_cons, formatIIWord_eq_iff, ext_prefix_iff] at h
    obtain ⟨⟨hv, hopv, hw, has, hreg⟩, hx1⟩ := h
    have ho : formatIIOperand v x1 = o := by
      rw [formatIIOperand, ← has, ← Reg.bits_eq_iff.mp hreg, ← hx1, decodeSrc_fields (wf_of_formatIIInstr hop hp)]
    rw [Width.bits_eq_iff] at hw
    subst hw hopv
    rw [decodeCore_formatII hv, decodeFormatII_instr hop hwok, ho, wordWidth]
  | reti =>
    obtain ⟨rfl, -⟩ := List.cons_prefix_cons.mp h
    rfl
  | formatIII c off =>
    rw [encodeCore_formatIIIInstr, List.cons_prefix_cons, formatIIIWord_eq_iff] at h
    obtain ⟨⟨hv, rfl, rfl⟩, -⟩ := h
    exact decodeCore_formatIII hv x1 x2

end Sys2Proof
end

section
/-! PROOFS. Emulated names (R250 to R274): an instruction and the core instruction it stands for have the same form
problem, and the name the decoder prefers stands for the instruction it was given. -/

namespace Sys2Proof

/-- The two operands of RLA and RLC are one operand (R268). -/
theorem of_sameOperand {s : Src} {d e : Dst} (h : sameOperand s d = some e) : e.asSrc = s ∧ e.second = d := by
  unfold sameOperand at h
  split at h
  case h_5 => cases h
  all_goals
    split at h
    · cases h
      simp_all [Dst.asSrc, Dst.second]
    · cases h

/-- R117 for `ADD dst,dst` and `ADDC dst,dst`: the operands are legal exactly when `dst` is, and no bit bucket. -/
theorem formIProblem_asSrc_second (d : Dst) :
    formIProblem true d.asSrc d.second =
      if d == .bucket then some .reservedForm else formIProblem true (.const .zero) d := by
  cases d with
  | bucket => rfl
  | reg r => cases r <;> rfl
  | indexed r x => cases r <;> rfl
  | symbolic x => rfl
  | absolute x => rfl

/-- An emulated instruction is in a legal form exactly when the core instruction it stands for is. -/
theorem Instr.formProblem_expand (i : Instr) : i.expand.formProblem = i.formProblem := by
  cases i with
  | rla w d => exact formIProblem_asSrc_second d
  | rlc w d => exact formIProblem_asSrc_second d
  | _ => rfl

theorem Instr.wf_iff {i : Instr} : i.wf = true ↔ i.formProblem = none := by
  rw [Instr.wf, beq_iff_eq]

/-- The preferred name of a core instruction stands for it. -/
theorem Instr.expand_preferred {c : Instr} (h : c.expand = c) : c.preferred.expand = c := by
  cases c with
  | mov w s d => simp only [Instr.preferred]; split <;> rfl
  | add w s d =>
    simp only [Instr.preferred]
    split
    · rfl
    · rfl
    · split
      · obtain ⟨hs, hd⟩ := of_sameOperand ‹_›
        rw [Instr.expand, hs, hd]
      · rfl
  | addc w s d =>
    simp only [Instr.preferred]
    split
    · rfl
    · split
      · obtain ⟨hs, hd⟩ := of_sameOperand ‹_›
        rw [Instr.expand, hs, hd]
      · rfl
  | sub w s d => simp only [Instr.preferred]; split <;> rfl
  | bic w s d => simp only [Instr.preferred]; split <;> rfl
  | bis w s d => simp only [Instr.preferred]; split <;> rfl
  | subc w s d => simp only [Instr.preferred]; split <;> simp_all [Instr.expand]
  | cmp w s d => simp only [Instr.preferred]; split <;> simp_all [Instr.expand]
  | dadd w s d => simp only [Instr.preferred]; split <;> simp_all [Instr.expand]
  | xor w s d => simp only [Instr.preferred]; split <;> simp_all [Instr.expand]
  | _ => exact h

end Sys2Proof
end

section
/-! PROOFS. Decoding and encoding undo each other (O1, O2, O3), for words and then for bytes. -/

namespace Sys2Proof

/-! ## Words -/

theorem decodeWords_eq_ok_iff {v x1 x2 : Word} {i : Instr} :
    decodeWords v x1 x2 = .ok i ↔
      ∃ c, decodeCore v x1 x2 = .ok c ∧ c.formProblem = none ∧ c.preferred = i := by
  unfold decodeWords
  cases decodeCore v x1 x2 with
  | error e => simp
  | ok c => cases hc : c.formProblem <;> simp [hc]

/-- Three words decode to an instruction exactly when it is legal, has the preferred name, and they begin with its
code words. -/
theorem decodeWords_iff_encode {v x1 x2 : Word} {i : Instr} :
    decodeWords v x1 x2 = .ok i ↔ i.wf = true ∧ i.canonical = true ∧ encode i <+: [v, x1, x2] := by
  rw [decodeWords_eq_ok_iff, Instr.wf_iff, Instr.canonical, decide_eq_true_eq]
  constructor
  · rintro ⟨c, hc, hform, rfl⟩
    obtain ⟨hcore, hprefix⟩ := encodeCore_of_decodeCore hc
    have hexpand := Instr.expand_preferred hcore.expand_eq
    rw [← Instr.formProblem_expand, encode, hexpand]
    exact ⟨hform, rfl, hprefix⟩
  · rintro ⟨hform, hname, hprefix⟩
    rw [← Instr.formProblem_expand] at hform
    exact ⟨i.expand, decodeCore_of_encodeCore (coreForm_expand i) hform hprefix, hform, hname⟩

/-! ## Bytes -/

theorem length_bytesOfWords (ws : List Word) : (bytesOfWords ws).length = 2 * ws.length := by
  induction ws with
  | nil => rfl
  | cons v t ih => simp only [bytesOfWords, List.length_cons, ih]; omega

theorem lo_wordOfBytes (l h : Byte) : Word.lo (wordOfBytes l h) = l := by
  apply BitVec.eq_of_toNat_eq
  rw [lo_toNat, wordOfBytes_toNat]
  omega

theorem hi_wordOfBytes (l h : Byte) : Word.hi (wordOfBytes l h) = h := by
  apply BitVec.eq_of_toNat_eq
  rw [hi_toNat, wordOfBytes_toNat]
  omega

theorem word_eq_iff_bytes {v : Word} {l h : Byte} : v = wordOfBytes l h ↔ Word.lo v = l ∧ Word.hi v = h := by
  constructor
  · rintro rfl
    exact ⟨lo_wordOfBytes l h, hi_wordOfBytes l h⟩
  · rintro ⟨rfl, rfl⟩
    exact (Machine.Memory.wordOfBytes_lo_hi v).symm

/-- The first `n` code words of some bytes. -/
def codeWords (n : Nat) (bs : List Byte) : List Word := (List.range n).map (codeWordAt bs)

theorem codeWords_succ (n : Nat) (l h : Byte) (bs : List Byte) :
    codeWords (n + 1) (l :: h :: bs) = wordOfBytes l h :: codeWords n bs := by
  rw [codeWords, List.range_succ_eq_map, List.map_cons, List.map_map]
  rfl

/-- Bytes begin with those of some code words when they are long enough and their own code words begin with them. -/
theorem bytesOfWords_prefix_iff {ws : List Word} {n : Nat} (hn : ws.length ≤ n) (bs : List Byte) :
    bytesOfWords ws <+: bs ↔ 2 * ws.length ≤ bs.length ∧ ws <+: codeWords n bs := by
  induction ws generalizing n bs with
  | nil => simp [bytesOfWords]
  | cons v t ih =>
    match n, bs with
    | n + 1, l :: h :: bs =>
      have hlen : 2 * (v :: t).length ≤ (l :: h :: bs).length ↔ 2 * t.length ≤ bs.length := by
        simp only [List.length_cons]; omega
      rw [bytesOfWords, List.cons_prefix_cons, List.cons_prefix_cons, codeWords_succ, List.cons_prefix_cons,
        ih (Nat.le_of_succ_le_succ hn), word_eq_iff_bytes, hlen]
      tauto
    | _, [] => simp [bytesOfWords]
    | _, [b] => simp [bytesOfWords, List.cons_prefix_cons]; omega

theorem length_pos_le_three (i : Instr) : 1 ≤ (encode i).length ∧ (encode i).length ≤ 3 :=
  (coreForm_expand i).encodeCore_length

theorem decode_eq_ok_iff {bs rest : List Byte} {i : Instr} :
    decode bs = .ok (i, rest) ↔
      2 * i.length ≤ bs.length ∧ bs.drop (2 * i.length) = rest ∧
        decodeWords (codeWordAt bs 0) (codeWordAt bs 1) (codeWordAt bs 2) = .ok i := by
  have hpos : ∀ j : Instr, 1 ≤ j.length := fun j => (length_pos_le_three j).1
  unfold decode
  by_cases hshort : bs.length < 2
  · have := hpos i
    simp [hshort]; omega
  · rw [if_neg hshort]
    cases hw : decodeWords (codeWordAt bs 0) (codeWordAt bs 1) (codeWordAt bs 2) with
    | error e => simp
    | ok j =>
      have hj := hpos j
      simp only [Except.ok.injEq]
      split
      · constructor
        · exact fun h => nomatch h
        · rintro ⟨hle, -, rfl⟩
          omega
      · rw [Except.ok.injEq, Prod.mk.injEq]
        constructor
        · rintro ⟨rfl, rfl⟩
          exact ⟨by omega, rfl, rfl⟩
        · rintro ⟨-, hrest, rfl⟩
          exact ⟨rfl, hrest⟩

/-- Bytes decode to an instruction exactly when it is legal, has the preferred name, and they are its own bytes
followed by the bytes that remain. -/
theorem decode_iff_encode {bs rest : List Byte} {i : Instr} :
    decode bs = .ok (i, rest) ↔
      i.wf = true ∧ i.canonical = true ∧ bs = bytesOfWords (encode i) ++ rest := by
  have hbytes := bytesOfWords_prefix_iff (length_pos_le_three i).2 bs
  have hlen := length_bytesOfWords (encode i)
  rw [decode_eq_ok_iff, decodeWords_iff_encode, Instr.length, ← hlen]
  rw [← hlen] at hbytes
  constructor
  · rintro ⟨hle, rfl, hwf, hname, hprefix⟩
    obtain ⟨t, rfl⟩ := hbytes.mpr ⟨hle, hprefix⟩
    rw [List.drop_left]
    exact ⟨hwf, hname, rfl⟩
  · rintro ⟨hwf, hname, rfl⟩
    obtain ⟨hle, hprefix⟩ := hbytes.mp (List.prefix_append _ _)
    exact ⟨hle, List.drop_left, hwf, hname, hprefix⟩

/-- Settles O1: one direction of `decode_iff_encode`. -/
theorem decodeOfEncode : Obligations.DecodeOfEncode := by
  unfold Obligations.DecodeOfEncode
  exact fun i rest hwf hname => decode_iff_encode.mpr ⟨hwf, hname, rfl⟩

/-- Settles O2: the other direction of `decode_iff_encode`. -/
theorem encodeOfDecode : Obligations.EncodeOfDecode := by
  unfold Obligations.EncodeOfDecode
  exact fun bs rest i h => decode_iff_encode.mp h

/-- Settles O3: the nine instructions are legal and canonical, and the bytes are their encodings. -/
theorem sampleWordsDecode : Obligations.SampleWordsDecode := by
  unfold Obligations.SampleWordsDecode
  simp only [decode_iff_encode]
  decide

end Sys2Proof
end

section
/-! PROOFS. The length of an instruction by its first word (O4). -/

namespace Sys2Proof

/-- R115: the number of extension words of a source operand, by the values of As and the register field. -/
def extOfFields (as r : Nat) : Nat := if as = 1 ∧ r ≠ 3 ∨ as = 3 ∧ r = 0 then 1 else 0

theorem extCount_src {s : Src} (hs : s.wf = true) :
    extCount s.ext = extOfFields s.fields.1.toNat s.fields.2.bits.toNat := by
  cases s with
  | const c => cases c <;> rfl
  | symbolic x => rfl
  | absolute x => rfl
  | imm x => rfl
  | reg r => cases r <;> rfl
  | indexed r x =>
    cases r
    case pc | sr | cg => exact nomatch hs
    all_goals rfl
  | indirect r => cases r <;> rfl
  | autoInc r =>
    cases r
    case pc | sr | cg => exact nomatch hs
    all_goals rfl

theorem extCount_dst (d : Dst) : extCount d.ext = d.fields.1.toNat := by cases d <;> rfl

theorem wordLength_formatIWord {op : BitVec 4} (hop : 4 ≤ op.toNat) (sreg : BitVec 4) (ad bw : BitVec 1)
    (as : BitVec 2) (dreg : BitVec 4) :
    wordLength (formatIWord op sreg ad bw as dreg) = 1 + extOfFields as.toNat sreg.toNat + ad.toNat := by
  have hn := formatIWord_toNat op sreg ad bw as dreg
  generalize formatIWord op sreg ad bw as dreg = v at hn ⊢
  have h1 : ¬ v.toNat / 8192 = 1 := by omega
  have h0 : ¬ v.toNat / 8192 = 0 := by omega
  have has : v.toNat / 16 % 4 = as.toNat := by omega
  have hsreg : v.toNat / 256 % 16 = sreg.toNat := by omega
  have had : v.toNat / 128 % 2 = ad.toNat := by omega
  simp only [wordLength, if_neg h1, if_neg h0, has, hsreg, had, extOfFields]

theorem wordLength_formatIIWord {op : BitVec 3} (hop : op.toNat ≤ 5) (bw : BitVec 1) (as : BitVec 2)
    (reg : BitVec 4) :
    wordLength (formatIIWord op bw as reg) = 1 + extOfFields as.toNat reg.toNat := by
  have hn := formatIIWord_toNat op bw as reg
  generalize formatIIWord op bw as reg = v at hn ⊢
  have h1 : ¬ v.toNat / 8192 = 1 := by omega
  have h0 : v.toNat / 8192 = 0 := by omega
  have h6 : ¬ v.toNat / 128 % 8 = 6 := by omega
  have has : v.toNat / 16 % 4 = as.toNat := by omega
  have hreg : v.toNat % 16 = reg.toNat := by omega
  simp only [wordLength, if_neg h1, if_pos h0, if_neg h6, has, hreg, extOfFields]

theorem wordLength_formatIIIWord (c : BitVec 3) (off : BitVec 10) : wordLength (formatIIIWord c off) = 1 := by
  have h1 : (formatIIIWord c off).toNat / 8192 = 1 := by
    rw [formatIIIWord_toNat]
    omega
  simp only [wordLength, if_pos h1]

theorem CoreForm.length_eq_wordLength {c : Instr} (hc : CoreForm c) (hp : c.formProblem = none) {v : Word}
    {t : List Word} (h : encodeCore c = v :: t) : (encodeCore c).length = wordLength v := by
  cases hc with
  | @formatI op hop w s d =>
    rw [formProblem_formatIInstr hop] at hp
    obtain ⟨⟨hs, -⟩, -, -⟩ := formIProblem_eq_none_iff.mp hp
    rw [encodeCore_formatIInstr hop] at h ⊢
    obtain ⟨rfl, -⟩ := List.cons.inj h
    rw [wordLength_formatIWord hop, ← extCount_src hs, ← extCount_dst]
    exact Machine.length_encodeFormatI op w s d
  | @formatII op hop w hw o =>
    rw [encodeCore_formatIIInstr hop hw] at h ⊢
    obtain ⟨rfl, -⟩ := List.cons.inj h
    rw [wordLength_formatIIWord hop, ← extCount_src (wf_of_formatIIInstr hop hp)]
    exact Machine.length_encodeFormatII op w o
  | reti =>
    obtain ⟨rfl, -⟩ := List.cons.inj h
    rfl
  | formatIII c off =>
    rw [encodeCore_formatIIIInstr] at h ⊢
    obtain ⟨rfl, -⟩ := List.cons.inj h
    rw [wordLength_formatIIIWord]
    rfl

/-- Settles O4, by the format of the core instruction. -/
theorem lengthFromFirstWord : Obligations.LengthFromFirstWord := by
  unfold Obligations.LengthFromFirstWord
  intro i v t hwf h
  rw [Instr.wf_iff, ← Instr.formProblem_expand] at hwf
  exact (coreForm_expand i).length_eq_wordLength hwf h

end Sys2Proof
end

section
/-! PROOFS. The rejected words (O5, O10): each range of words, and in it the fields of the forms R117 and R33 list. -/

namespace Sys2Proof

/-! ## The operands a word names, by its fields -/

theorem Reg.ofBits_eq_iff {b : BitVec 4} {r : Reg} : Reg.ofBits b = r ↔ b.toNat = r.bits.toNat := by
  rw [BitVec.toNat_inj, eq_comm, ← Reg.bits_eq_iff, eq_comm]

theorem Reg.ofBits_eq_pc_iff {b : BitVec 4} : Reg.ofBits b = .pc ↔ b.toNat = 0 := ofBits_eq_iff
theorem Reg.ofBits_eq_sp_iff {b : BitVec 4} : Reg.ofBits b = .sp ↔ b.toNat = 1 := ofBits_eq_iff
theorem Reg.ofBits_eq_sr_iff {b : BitVec 4} : Reg.ofBits b = .sr ↔ b.toNat = 2 := ofBits_eq_iff
theorem Reg.ofBits_eq_cg_iff {b : BitVec 4} : Reg.ofBits b = .cg ↔ b.toNat = 3 := ofBits_eq_iff

theorem decodeSrc_eq_reg_iff {as : BitVec 2} {r q : Reg} {x : Word} (hq : q ≠ .cg) :
    decodeSrc as r x = .reg q ↔ as.toNat = 0 ∧ r = q := by
  constructor
  · intro h
    obtain ⟨rfl, rfl⟩ := Prod.mk.inj ((fields_decodeSrc as r x).symm.trans (congrArg Src.fields h))
    exact ⟨rfl, rfl⟩
  · rintro ⟨has, rfl⟩
    obtain rfl : as = 0 := BitVec.eq_of_toNat_eq has
    cases r
    case cg => exact absurd rfl hq
    all_goals rfl

/-- R149, R148: the fields of an operand with no location. -/
theorem isConst_decodeSrc (as : BitVec 2) (r : Reg) (x : Word) :
    (decodeSrc as r x).isConst = (r == .cg || r == .sr && decide (2 ≤ as.toNat) || r == .pc && as.toNat == 3) := by
  rcases as_cases as with rfl | rfl | rfl | rfl <;> cases r <;> rfl

theorem isMem_decodeDst (ad : Bool) (r : Reg) (x : Word) : (decodeDst ad r x).isMem = ad := by
  cases ad <;> cases r <;> rfl

/-- R111: `Ad = 1` with R3 is the only destination field that is no operand. -/
theorem wf_decodeDst (ad : Bool) (r : Reg) (x : Word) : (decodeDst ad r x).wf = !(ad && r == .cg) := by
  cases ad <;> cases r <;> rfl

theorem decodeDst_eq_sr_iff {ad : Bool} {r : Reg} {x : Word} :
    decodeDst ad r x = .reg .sr ↔ ad = false ∧ r = .sr := by
  constructor
  · intro h
    obtain ⟨had, rfl⟩ := Prod.mk.inj ((fields_decodeDst ad r x).symm.trans (congrArg Dst.fields h))
    cases ad
    · exact ⟨rfl, rfl⟩
    · exact nomatch had
  · rintro ⟨rfl, rfl⟩
    rfl

theorem getLsbD_eq_true_iff {v : Word} {k : Nat} : v.getLsbD k = true ↔ v.toNat / 2 ^ k % 2 = 1 := by
  rw [BitVec.getLsbD, Nat.testBit_eq_decide_div_mod_eq, decide_eq_true_eq]

theorem getLsbD_eq_false_iff {v : Word} {k : Nat} : v.getLsbD k = false ↔ v.toNat / 2 ^ k % 2 = 0 := by
  rw [← Bool.not_eq_true, getLsbD_eq_true_iff]
  omega

theorem formatIComputes_iff {op : BitVec 4} :
    formatIComputes op = true ↔ op.toNat = 5 ∨ op.toNat = 6 ∨ op.toNat = 7 ∨ op.toNat = 8 ∨ op.toNat = 10 ∨
      op.toNat = 14 ∨ op.toNat = 15 := by
  simp [formatIComputes]

theorem not_formatIIWidthOk_iff {v : Word} :
    ¬ formatIIWidthOk (v.extractLsb' 7 3) (wordWidth v) ↔ v.toNat / 128 % 2 = 1 ∧ v.toNat / 64 % 2 = 1 := by
  have hw : wordWidth v = .word ↔ ¬ v.toNat / 64 % 2 = 1 := by
    rw [← wordWidth_eq_byte_iff]
    cases wordWidth v <;> decide
  rw [formatIIWidthOk, hw, toNat_field]
  omega

/-! ## The form check -/

theorem decodeWords_of_decodeCore_error {v x1 x2 : Word} {e : DecodeError} (h : decodeCore v x1 x2 = .error e) :
    decodeWords v x1 x2 = .error e := by
  rw [decodeWords, h]

theorem decodeWords_of_decodeCore_ok {v x1 x2 : Word} {c : Instr} (h : decodeCore v x1 x2 = .ok c) :
    decodeWords v x1 x2 ≠ .error (.illegal v) ∧
      ∀ p, decodeWords v x1 x2 = .error (.form p) ↔ c.formProblem = some p := by
  rw [decodeWords, h]
  cases hc : c.formProblem <;> simp [hc]

/-- R117 for a Format I word, by its fields. -/
theorem formatI_reserved_iff {v : Word} (h : 0x4000 ≤ v.toNat) (w : Width) (x1 x2 : Word) :
    (formatIInstr (v.extractLsb' 12 4) w (formatISrc v x1) (formatIDst v x1 x2)).formProblem =
        some .reservedForm ↔
      v.toNat / 128 % 2 = 1 ∧ v.toNat % 16 = 3 ∨
        v.toNat / 128 % 2 = 1 ∧ v.toNat / 16 % 4 = 0 ∧ v.toNat / 256 % 16 = 0 := by
  have hop : 4 ≤ (v.extractLsb' 12 4).toNat := by rw [toNat_field]; omega
  rw [formProblem_formatIInstr hop, formIProblem_eq_reserved_iff, formatISrc, formatIDst, wf_decodeSrc,
    wf_decodeDst, isMem_decodeDst, decodeSrc_eq_reg_iff (by decide)]
  simp only [Bool.not_eq_false', Bool.and_eq_true, beq_iff_eq, Reg.ofBits_eq_pc_iff, Reg.ofBits_eq_cg_iff,
    getLsbD_eq_true_iff, toNat_field, Bool.true_eq_false, false_or]
  omega

/-- R33 for a Format I word, by its fields. -/
theorem formatI_srDst_iff {v : Word} (h : 0x4000 ≤ v.toNat) (w : Width) (x1 x2 : Word) :
    (formatIInstr (v.extractLsb' 12 4) w (formatISrc v x1) (formatIDst v x1 x2)).formProblem =
        some .srDstWithFlags ↔
      v.toNat / 128 % 2 = 0 ∧ v.toNat % 16 = 2 ∧
        (v.toNat / 4096 = 5 ∨ v.toNat / 4096 = 6 ∨ v.toNat / 4096 = 7 ∨ v.toNat / 4096 = 8 ∨
          v.toNat / 4096 = 0xA ∨ v.toNat / 4096 = 0xE ∨ v.toNat / 4096 = 0xF) := by
  have hop : 4 ≤ (v.extractLsb' 12 4).toNat := by rw [toNat_field]; omega
  rw [formProblem_formatIInstr hop, formIProblem_eq_srDst_iff, formatISrc, formatIDst, wf_decodeSrc,
    decodeDst_eq_sr_iff, formatIComputes_iff]
  simp only [Reg.ofBits_eq_sr_iff, getLsbD_eq_false_iff, toNat_field, true_and]
  omega

/-- R117 for a Format II word of opcode 0 to 5, by its fields. -/
theorem formatII_reserved_iff {v : Word} (hop : (v.extractLsb' 7 3).toNat ≤ 5) (w : Width) (x1 : Word) :
    (formatIIInstr (v.extractLsb' 7 3) w (formatIIOperand v x1)).formProblem = some .reservedForm ↔
      v.toNat / 128 % 8 ≤ 3 ∧
          (v.toNat % 16 = 3 ∨ (v.toNat % 16 = 2 ∧ 2 ≤ v.toNat / 16 % 4) ∨
            (v.toNat % 16 = 0 ∧ v.toNat / 16 % 4 = 3)) ∨
        v.toNat / 128 % 8 = 4 ∧ v.toNat / 16 % 4 = 0 ∧ v.toNat % 16 = 1 := by
  rw [formatIIInstr_eq_reserved_iff hop, formatIIOperand, wf_decodeSrc, isConst_decodeSrc,
    decodeSrc_eq_reg_iff (by decide)]
  simp only [Bool.or_eq_true, Bool.and_eq_true, beq_iff_eq, decide_eq_true_eq, Reg.ofBits_eq_pc_iff,
    Reg.ofBits_eq_sp_iff, Reg.ofBits_eq_sr_iff, Reg.ofBits_eq_cg_iff, toNat_field, Bool.true_eq_false, false_or]
  omega

/-- R33 for a Format II word of opcode 0 to 5, by its fields. -/
theorem formatII_srDst_iff {v : Word} (hop : (v.extractLsb' 7 3).toNat ≤ 5) (w : Width) (x1 : Word) :
    (formatIIInstr (v.extractLsb' 7 3) w (formatIIOperand v x1)).formProblem = some .srDstWithFlags ↔
      (v.toNat / 128 % 8 ≤ 3 ∧ v.toNat / 128 % 8 ≠ 1) ∧ v.toNat / 16 % 4 = 0 ∧ v.toNat % 16 = 2 := by
  rw [formatIIInstr_eq_srDst_iff hop, formatIIOperand, decodeSrc_eq_reg_iff (by decide)]
  simp only [Reg.ofBits_eq_sr_iff, toNat_field]
  omega

/-- Settles O5, by the range of the word. -/
theorem rejectedWordsExact : Obligations.RejectedWordsExact := by
  unfold Obligations.RejectedWordsExact
  intro v x1 x2
  dsimp only
  obtain ⟨r, hr⟩ : ∃ r, decodeCore v x1 x2 = r := ⟨_, rfl⟩
  have hrange := hr ▸ coreDecode v x1 x2
  cases hrange with
  | illegal h =>
    rw [decodeWords_of_decodeCore_error hr]
    simp only [true_iff, Except.error.injEq, reduceCtorEq, false_iff]
    omega
  | reserved h hform =>
    rw [decodeWords_of_decodeCore_error hr]
    rw [not_formatIIWidthOk_iff, toNat_field] at hform
    simp only [true_iff, Except.error.injEq, DecodeError.form.injEq, reduceCtorEq, false_iff]
    rcases hform with ⟨hop, hbyte⟩ | ⟨hop, hne⟩
    · exact ⟨by omega, .inl ⟨by omega, by omega, .inl (by omega)⟩, by omega⟩
    · exact ⟨by omega, .inl ⟨by omega, by omega, .inr (.inl (by omega))⟩, by omega⟩
  | formatII h hop hw =>
    obtain ⟨hillegal, hproblem⟩ := decodeWords_of_decodeCore_ok hr
    have hbyte := not_not.mpr hw
    rw [not_formatIIWidthOk_iff] at hbyte
    rw [iff_false_intro hillegal, hproblem, hproblem, formatII_reserved_iff hop, formatII_srDst_iff hop]
    replace hop : v.toNat / 128 % 8 ≤ 5 := by rw [toNat_field] at hop; exact hop
    have hlow : 0x1000 ≤ v.toNat ∧ v.toNat < 0x1380 ∧ ¬ 0x4000 ≤ v.toNat := by omega
    have hop3 : v.toNat < 0x1200 ↔ v.toNat / 128 % 8 ≤ 3 := by omega
    have hopcode : v.toNat / 4096 = 1 := by omega
    have hodd : v.toNat / 128 % 2 = v.toNat / 128 % 8 % 2 := by omega
    rw [hodd] at hbyte
    simp only [hlow, hop3, hopcode, OfNat.one_ne_ofNat, or_false, and_false, true_and, false_and, false_iff]
    generalize v.toNat / 128 % 8 = op at hop hbyte
    refine ⟨?_, ?_, ?_⟩
    · omega
    · have h6 : op ≠ 6 := by omega
      have hwide : ¬ ((op = 1 ∨ op = 3 ∨ op = 5) ∧ v.toNat / 64 % 2 = 1) := by omega
      simp only [h6, hwide, false_and, false_or]
    · omega
  | reti h =>
    obtain ⟨hillegal, hproblem⟩ := decodeWords_of_decodeCore_ok hr
    rw [eq_reti_word_iff] at h
    rw [iff_false_intro hillegal, hproblem, hproblem]
    simp only [Instr.formProblem, reduceCtorEq, false_iff]
    omega
  | formatIII h =>
    obtain ⟨hillegal, hproblem⟩ := decodeWords_of_decodeCore_ok hr
    rw [iff_false_intro hillegal, hproblem, hproblem, formProblem_formatIIIInstr]
    simp only [reduceCtorEq, false_iff]
    omega
  | formatI h =>
    obtain ⟨hillegal, hproblem⟩ := decodeWords_of_decodeCore_ok hr
    rw [iff_false_intro hillegal, hproblem, hproblem, formatI_reserved_iff h, formatI_srDst_iff h]
    have hhigh : ¬ v.toNat < 0x1000 ∧ ¬ v.toNat ≤ 0x1FFF ∧ ¬ v.toNat < 0x1200 ∧ ¬ v.toNat < 0x1380 := by
      omega
    simp only [h, hhigh, and_false, false_and, or_self, false_or, true_and, and_self]

end Sys2Proof

namespace Sys2Proof

theorem decode_of_decodeWords_error {bs : List Byte} {e : DecodeError} (hlen : 2 ≤ bs.length)
    (h : decodeWords (codeWordAt bs 0) (codeWordAt bs 1) (codeWordAt bs 2) = .error e) : decode bs = .error e := by
  rw [decode, if_neg (Nat.not_lt.mpr hlen), h]

end Sys2Proof

namespace Sys2Proof.Machine

theorem codeWordAt_codeBytes_zero (s : State) (a : Word) : codeWordAt (codeBytes s a) 0 = peekWord s a :=
  Memory.wordOfBytes_lo_hi _

/-- A word that can be fetched is the one the decoder sees (R69). -/
theorem peekWord_of_fetchAddr {s : State} {a : Word} (h : fetchAddr s = .next a) :
    peekWord s a = Memory.readWord s.mem a := by
  obtain ⟨hf, rfl⟩ := fetchAddr_eq_next.mp h
  rw [fetchable, ← isCode_eq, Bool.and_eq_true] at hf
  rw [peekWord, if_pos hf.2]

/-- R116: a word that is rejected by itself, whatever follows it, is rejected when it is fetched. -/
theorem fetchInstr_of_rejected {s : State} {a : Word} {e : DecodeError} (ha : fetchAddr s = .next a)
    (h : ∀ x1 x2, decodeWords (Memory.readWord s.mem a) x1 x2 = .error e) : fetchInstr s = rejection s e := by
  have hdecode : decode (codeBytes s a) = .error e := by
    refine decode_of_decodeWords_error (Nat.le_add_left 2 4) ?_
    rw [codeWordAt_codeBytes_zero, peekWord_of_fetchAddr ha, h]
  rw [fetchInstr, ha, andThen_next, hdecode]

/-- Settles O10: the word at PC is rejected as O5 says, and the rejection is the fault. -/
theorem illegalWordFaults : Obligations.IllegalWordFaults := by
  unfold Obligations.IllegalWordFaults
  intro s a hq hc ha hword
  have hfault : fetchInstr s = .fault (.illegalInstruction s.regs.pc (Memory.readWord s.mem a)) :=
    fetchInstr_of_rejected ha fun x1 x2 => (rejectedWordsExact _ x1 x2).1.mpr hword
  obtain ⟨hstop, hreset⟩ := runInstr_of_fetchInstr_fault hfault
  rw [step_of_quiet hq hc]
  exact ⟨fun h => by rw [hstop h, andThen_fault], fun h => by rw [hreset h, causeOf]⟩

end Sys2Proof.Machine
end

section
/-! PROOFS. Forms without a meaning never complete (O6). -/

namespace Sys2Proof.Machine

theorem wf_of_srcReady {w : Width} {o : Src} {s : State} (h : srcReady w o s = true) : o.wf = true := by
  cases o <;> simp_all [srcReady, Src.wf]

theorem wf_of_dstReady {d : Dst} {s : State} (h : dstReady d s = true) : d.wf = true := by
  cases d <;> simp_all [dstReady, Dst.wf]

theorem wf_of_ready1 {w : Width} {o : Src} {s : State} (h : ready1 w o s = true) : o.wf = true := by
  have hop : opReady w o s.skipWord = true := by
    rw [ready1, Bool.and_eq_true] at h
    exact h.1
  cases o <;> simp_all [opReady, Src.wf]

/-- R117, R33: a Format I instruction whose operands can be read is in a legal form. -/
theorem formIProblem_of_ready2 {sh : Shape} {w : Width} {src : Src} {dst : Dst} {s : State}
    (h : ready2 sh w src dst s = true) : formIProblem (sh.setsFlags && sh.writesDst) src dst = none := by
  simp only [ready2, Bool.and_eq_true, Bool.not_eq_true', Bool.and_eq_false_iff, beq_eq_false_iff_ne] at h
  obtain ⟨⟨⟨⟨hpc, hsr⟩, hsrc⟩, hdst⟩, -⟩ := h
  refine formIProblem_eq_none_iff.mpr ⟨⟨wf_of_srcReady hsrc, wf_of_dstReady hdst⟩, ?_, ?_⟩
  · rintro ⟨rfl, hmem⟩
    simp_all
  · rintro ⟨hflags, rfl⟩
    simp_all

theorem exec_expand (i : Instr) (s : State) : exec i.expand s = exec i s := by cases i <;> rfl

theorem exec_formatIInstr {op : BitVec 4} (hop : 4 ≤ op.toNat) (w : Width) (src : Src) (dst : Dst) (s : State) :
    ∃ sh alu, exec (formatIInstr op w src dst) s = doubleOp sh alu w src dst s ∧
      (sh.setsFlags && sh.writesDst) = formatIComputes op := by
  obtain ⟨n, hn⟩ := op
  change 4 ≤ n at hop
  interval_cases n
  · exact ⟨_, _, exec_mov w src dst s, rfl⟩
  · exact ⟨_, _, exec_add w src dst s, rfl⟩
  · exact ⟨_, _, exec_addc w src dst s, rfl⟩
  · exact ⟨_, _, exec_subc w src dst s, rfl⟩
  · exact ⟨_, _, exec_sub w src dst s, rfl⟩
  · exact ⟨_, _, exec_cmp w src dst s, rfl⟩
  · exact ⟨_, _, exec_dadd w src dst s, rfl⟩
  · exact ⟨_, _, exec_bit w src dst s, rfl⟩
  · exact ⟨_, _, exec_bic w src dst s, rfl⟩
  · exact ⟨_, _, exec_bis w src dst s, rfl⟩
  · exact ⟨_, _, exec_xor w src dst s, rfl⟩
  · exact ⟨_, _, exec_and w src dst s, rfl⟩

theorem exec_formatIIInstr_rotate {op : BitVec 3} (hop : op.toNat ≤ 3) (w : Width) (o : Src) (s : State) :
    ∃ alu w', exec (formatIIInstr op w o) s = singleOp (op.toNat != 1) alu w' o s := by
  obtain ⟨n, hn⟩ := op
  change n ≤ 3 at hop
  interval_cases n
  · exact ⟨_, _, exec_rrc w o s⟩
  · exact ⟨_, _, exec_swpb o s⟩
  · exact ⟨_, _, exec_rra w o s⟩
  · exact ⟨_, _, exec_sxt o s⟩

theorem formProblem_of_exec_formatI {op : BitVec 4} (hop : 4 ≤ op.toNat) {w : Width} {src : Src} {dst : Dst}
    {s t : State} (h : exec (formatIInstr op w src dst) s = .next t) :
    (formatIInstr op w src dst).formProblem = none := by
  obtain ⟨sh, alu, hexec, hflags⟩ := exec_formatIInstr hop w src dst s
  obtain ⟨hready, -⟩ := doubleOp_eq_next.mp (hexec ▸ h)
  rw [formProblem_formatIInstr hop, ← hflags, formIProblem_of_ready2 hready]

theorem formProblem_of_exec_formatII {op : BitVec 3} (hop : op.toNat ≤ 5) {w : Width} {o : Src}
    {s t : State} (h : exec (formatIIInstr op w o) s = .next t) :
    (formatIIInstr op w o).formProblem = none := by
  rw [formProblem_formatIIInstr hop]
  split_ifs with h3 h4
  · obtain ⟨alu, w', hexec⟩ := exec_formatIIInstr_rotate h3 w o s
    obtain ⟨hlegal, -⟩ := singleOp_eq_next.mp (hexec ▸ h)
    simp only [Bool.and_eq_true, Bool.not_eq_true', Bool.and_eq_false_iff, beq_eq_false_iff_ne] at hlegal
    obtain ⟨⟨hconst, hsr⟩, hready⟩ := hlegal
    refine rmwProblem_eq_none_iff.mpr ⟨wf_of_ready1 hready, hconst, ?_⟩
    rintro ⟨hflags, rfl⟩
    simp_all
  · obtain rfl : op = 4 := BitVec.eq_of_toNat_eq h4
    obtain ⟨hsp, hready, -⟩ := execPush_eq_next.mp h
    rw [Bool.and_eq_true] at hready
    exact pushProblem_eq_none_iff.mpr ⟨wf_of_ready1 hready.1, hsp⟩
  · obtain rfl : op = 5 := BitVec.eq_of_toNat_eq (show op.toNat = 5 by omega)
    obtain ⟨hready, -⟩ := execCall_eq_next.mp h
    simp only [Bool.and_eq_true] at hready
    exact callProblem_eq_none_iff.mpr (wf_of_ready1 hready.1.1)

/-- A core instruction that completes is in a legal form. -/
theorem formProblem_of_exec {c : Instr} (hc : CoreForm c) {s t : State} (h : exec c s = .next t) :
    c.formProblem = none := by
  cases hc with
  | formatI hop w src dst => exact formProblem_of_exec_formatI hop h
  | formatII hop hw o => exact formProblem_of_exec_formatII hop h
  | reti => rfl
  | formatIII c off => exact formProblem_formatIIIInstr c off

/-- Settles O6: an emulated instruction means what its core instruction means, and what completes is legal. -/
theorem illFormedNeverCompletes : Obligations.IllFormedNeverCompletes := by
  unfold Obligations.IllFormedNeverCompletes
  intro i s t hwf h
  have hlegal : i.wf = true := by
    rw [← exec_expand] at h
    rw [Instr.wf_iff, ← Instr.formProblem_expand, formProblem_of_exec (coreForm_expand i) h]
  exact Bool.noConfusion (hwf.symm.trans hlegal)

end Sys2Proof.Machine
end

section
/-! PROOFS. Where an operand is and what it reads (O21, O22): one lemma for the operands of each kind, in RAM and
flash, where a read leaves the state alone. -/

namespace Sys2Proof.Machine

/-! ## Operands that are ready -/

theorem srcOperand_next {w : Width} {o : Src} {s : State} (h : srcReady w o s = true) :
    srcOperand w o s = .next (srcVal w o s, srcDone w o s) :=
  srcOperand_eq_next.mpr ⟨h, rfl⟩

theorem dstLocation_next {d : Dst} {s : State} (h : dstReady d s = true) :
    dstLocation d s = .next (dstPlace d s, dstDone d s) :=
  dstLocation_eq_next.mpr ⟨h, rfl⟩

theorem valueAt_of_ge {w : Width} {a : Word} (h : 0x0200 ≤ (alignTo w a).toNat) (s : State) :
    valueAt w a s = loadValue s.mem w (alignTo w a) :=
  if_neg (Nat.not_lt.mpr h)

/-! ## Auto-increment (R147) -/

theorem autoStep_eq_ite (w : Width) (r : Reg) :
    autoStep w r = if w = .byte ∧ r ≠ .sp then 1 else 2 := by
  cases w with
  | word => rfl
  | byte => cases r <;> rfl

/-- SP moves by 2 in both widths, so it stays even. -/
theorem isOdd_add_autoStep_sp (w : Width) (v : Word) : isOdd (v + autoStep w .sp) = isOdd v := by
  have hstep : autoStep w .sp = 2 := by cases w <;> rfl
  rw [hstep]
  exact isOdd_add_two v

/-- Of the registers but SR, PC and SP alone restrict what is written (R26, R30). -/
theorem storable_of_even {r : Reg} {v : Word} (hsr : r ≠ .sr)
    (he : r = .pc ∨ r = .sp → isOdd v = false) (c : Config) : storable c r v = true := by
  cases r
  case pc => simp [storable, he (.inl rfl)]
  case sp => simp [storable, he (.inr rfl)]
  case sr => exact absurd rfl hsr
  all_goals rfl

theorem stored_eq_self {r : Reg} {v : Word} (he : r = .pc ∨ r = .sp → isOdd v = false) :
    stored r v = v := by
  cases r
  case pc => exact clearBit0_of_even (he (.inl rfl))
  case sp => exact clearBit0_of_even (he (.inr rfl))
  all_goals rfl

theorem Reg.ne_sr_of_isBase {r : Reg} (h : r.isBase = true) : r ≠ .sr := by
  rintro rfl
  exact absurd h (by decide)

/-- Of the base registers, SP alone restricts what is written. -/
theorem even_of_isBase {r : Reg} {v : Word} (h : r.isBase = true) (he : r = .sp → isOdd v = false) :
    r = .pc ∨ r = .sp → isOdd v = false :=
  fun hr => he (hr.resolve_left (Reg.ne_pc_of_isBase h))

section
variable {w : Width} {r : Reg} {s : State}

theorem even_autoInc (hr : r.isBase = true) (hsp : r = .sp → isOdd (s.get r) = false) :
    r = .pc ∨ r = .sp → isOdd (s.get r + autoStep w r) = false :=
  even_of_isBase hr fun h => by
    subst h
    rw [isOdd_add_autoStep_sp, hsp rfl]

theorem srcReady_autoInc (hr : r.isBase = true) (hsp : r = .sp → isOdd (s.get r) = false)
    (hread : readable s.cfg w (s.get r) = true) : srcReady w (.autoInc r) s = true := by
  rw [srcReady, hr, hread, storable_of_even (Reg.ne_sr_of_isBase hr) (even_autoInc hr hsp)]
  rfl

theorem srcDone_autoInc (hr : r.isBase = true) (hsp : r = .sp → isOdd (s.get r) = false)
    (hge : 0x0200 ≤ (alignTo w (s.get r)).toNat) :
    srcDone w (.autoInc r) s = s.put r (s.get r + autoStep w r) := by
  rw [srcDone, stored_eq_self (even_autoInc hr hsp), afterRead_of_ge hge]

end

/-- R149: each generated constant cut to the operand width. -/
theorem truncTo_constValue_minusOne (w : Width) :
    truncTo w (constValue .minusOne) = BitVec.ofNat 16 (2 ^ nBits w - 1) := by
  cases w <;> rfl

theorem truncTo_constValue_of_ne {c : ConstGen} (h : c ≠ .minusOne) (w : Width) :
    truncTo w (constValue c) = constValue c := by
  apply truncTo_of_lt
  cases c
  case minusOne => exact absurd rfl h
  all_goals cases w <;> decide

/-- Settles O21: in each mode the operand is ready, and its value and the state after it are read off. -/
theorem sourceModes : Obligations.SourceModes := by
  unfold Obligations.SourceModes
  intro w s
  have hconst : ∀ c, c ≠ .minusOne → srcOperand w (.const c) s = .next (constValue c, s) := by
    intro c hc
    rw [srcOperand_next rfl, srcVal, truncTo_constValue_of_ne hc, srcDone]
  refine ⟨fun r hr => ?reg, fun n hf => ?imm, ⟨hconst _ nofun, hconst _ nofun, hconst _ nofun,
    hconst _ nofun, hconst _ nofun, ?minusOne⟩, ?indexed, ?symbolic, ?absolute, ?indirect, ?autoInc⟩
  case reg => exact srcOperand_next (o := .reg r) (bne_iff_ne.mpr hr)
  case imm => exact srcOperand_next (o := .imm n) hf
  case minusOne => rw [srcOperand_next rfl, srcVal, truncTo_constValue_minusOne, srcDone]
  case indexed =>
    rintro r x ea hr rfl hf hge hread
    rw [srcOperand_next (by simp [srcReady, hr, hf, hread]), srcVal, srcDone, valueAt_of_ge hge,
      afterRead_of_ge hge, State.skipWord_mem]
  case symbolic =>
    rintro x ea rfl hf hge hread
    rw [srcOperand_next (by simp [srcReady, hf, hread]), srcVal, srcDone, valueAt_of_ge hge,
      afterRead_of_ge hge, State.skipWord_mem]
  case absolute =>
    intro ea hf hge hread
    rw [srcOperand_next (by simp [srcReady, hf, hread]), srcVal, srcDone, valueAt_of_ge hge,
      afterRead_of_ge hge, State.skipWord_mem]
  case indirect =>
    rintro r ea hr rfl hge hread
    rw [srcOperand_next (by simp [srcReady, hr, hread]), srcVal, srcDone, valueAt_of_ge hge,
      afterRead_of_ge hge]
  case autoInc =>
    rintro r ea hr rfl hsp hge hread
    rw [srcOperand_next (srcReady_autoInc hr hsp hread), srcVal, valueAt_of_ge hge,
      srcDone_autoInc hr hsp hge, autoStep_eq_ite]

/-- Settles O22: each destination is placed where `dstPlace` says, its extension word, if any, fetched. -/
theorem destinationModes : Obligations.DestinationModes := by
  unfold Obligations.DestinationModes
  intro s
  refine ⟨fun r hr => ?_, rfl, fun w v => ⟨rfl, rfl⟩, fun hf => ⟨fun r x hr => ?_, fun x => ?_, fun a => ?_⟩⟩
  · exact dstLocation_next (d := .reg r) (bne_iff_ne.mpr hr)
  · exact dstLocation_next (d := .indexed r x) (by rw [dstReady, hr, hf, Bool.and_self])
  · exact dstLocation_next (d := .symbolic x) hf
  · exact dstLocation_next (d := .absolute a) hf

end Sys2Proof.Machine
end

section
/-! PROOFS. Operands that share a register, and PC as an operand (O23): what MOV and ADD do with a register
destination and MOV with a RAM one, for any source; then the sources of R156 and R157. -/

namespace Sys2Proof.Machine

/-! ## Words and registers -/

theorem isOdd_add (a b : Word) : isOdd (a + b) = (isOdd a ^^ isOdd b) := by
  rw [isOdd_eq, isOdd_eq, isOdd_eq, BitVec.toNat_add, Bool.eq_iff_iff, Bool.xor_iff_ne, ne_eq,
    decide_eq_decide, decide_eq_true_eq]
  omega

theorem even_add_two {v : Word} (h : isOdd v = false) : isOdd (v + 2) = false :=
  (isOdd_add_two v).trans h

@[simp] theorem State.put_put (s : State) (r : Reg) (u v : Word) : (s.put r u).put r v = s.put r v := by
  cases r <;> rfl

theorem addAlu_word (a b : Word) : addAlu .word a b = ⟨a + b, (addAlu .word a b).flags, 0⟩ := by
  have hres : (addAlu .word a b).res = a + b := by
    apply BitVec.eq_of_toNat_eq
    rw [BitVec.toNat_add]
    simp [addAlu, addFlags, nBits]
  rw [← hres]
  rfl

/-! ## MOV and ADD of words -/

section
variable {src : Src} {dst : Dst} {s u : State} {l : Loc} {v : Word}

/-- MOV once its operands are resolved: `v` goes to the location `l` in the state `u`. -/
theorem exec_mov_word (hready : ready2 moveShape .word src dst s = true)
    (hl : place2 .word src dst s = l) (hu : state2 moveShape .word src dst s = u)
    (hv : src2 .word src s = v) (hput : putReady .word l v u = true) :
    exec (.mov .word src dst) s = .next (putAt .word l v u) := by
  rw [exec_mov, doubleOp_move, finished, hu, hv, hl]
  · rfl
  · rw [canFinish, hready, hl, hu, hv, hput]
    rfl

/-- ADD once its operands are resolved: the sum `v` goes to the location `l` in the state `u`. -/
theorem exec_add_word (hready : ready2 computeShape .word src dst s = true)
    (hl : place2 .word src dst s = l) (hu : state2 computeShape .word src dst s = u)
    (hv : src2 .word src s + dst2 .word src dst s = v) (hput : putReady .word l v u = true) :
    ∃ f, exec (.add .word src dst) s = .next ((putAt .word l v u).setFlags f) := by
  have hfinish : canFinish computeShape .word src dst s v = true := by
    rw [canFinish, hready, hl, hu, hput]
    rfl
  have halu := addAlu_word (src2 .word src s) (dst2 .word src dst s)
  rw [hv] at halu
  refine ⟨(addAlu .word (src2 .word src s) (dst2 .word src dst s)).flags, ?_⟩
  rw [exec_add, doubleOp_of_canFinish rfl hfinish halu, finished, hu, hl]
  rfl

end

/-! ## Words of RAM as locations -/

section
variable {c : Config} {ea : Word} {u : State}

theorem locDone_of_inRam (he : isOdd ea = false) (hram : inRam c ea = true) (u : State) :
    locDone .word (.mem ea) u = u :=
  afterRead_of_ge (by rw [alignTo_of_even .word he]; exact inRam_ge hram) u

theorem locReady_of_inRam (he : isOdd ea = false) (hram : inRam u.cfg ea = true) :
    locReady .word (.mem ea) u = true := by
  simp [locReady, readable, aligned, he, clearBit0_of_even he, hram]

theorem putReady_of_inRam (he : isOdd ea = false) (hram : inRam u.cfg ea = true)
    (hpc : isOdd u.regs.pc = false) (hnext : ea ≠ u.regs.pc) (v : Word) :
    putReady .word (.mem ea) v u = true := by
  have htouch : touches .word ea u.regs.pc = false :=
    Bool.eq_false_iff.mpr fun h => hnext ((touches_word_iff_of_even he hpc).mp h)
  rw [putReady, alignTo_of_even .word he, htouch, writable_of_even (.inr he) (by simp [hram])]
  rfl

theorem putAt_of_inRam (he : isOdd ea = false) (hram : inRam u.cfg ea = true) (v : Word) :
    putAt .word (.mem ea) v u = { u with mem := Memory.writeWord u.mem ea v } := by
  have hto : alignTo .word ea = ea := alignTo_of_even .word he
  rw [putAt, afterWrite_of_ge (by rw [hto]; exact inRam_ge hram), hto]
  rfl

end

/-! ## By the destination -/

/-- Where reading the destination leaves no trace, the operands leave what resolving them does. -/
theorem state2_eq_dstDone {w : Width} {src : Src} {dst : Dst} {s : State}
    (h : ∀ t, locDone w (place2 w src dst s) t = t) (sh : Shape) :
    state2 sh w src dst s = dstDone dst (srcDone w src s.skipWord) := by
  rw [state2, h, ite_self]

theorem state2_reg (sh : Shape) (w : Width) (src : Src) (r : Reg) (s : State) :
    state2 sh w src (.reg r) s = srcDone w src s.skipWord :=
  state2_eq_dstDone (fun _ => rfl) sh

/-- A register destination other than R2 and R3 is in a legal form and always read. -/
theorem ready2_reg {w : Width} {src : Src} {r : Reg} {s : State} (hsrc : srcReady w src s.skipWord = true)
    (hcg : r ≠ .cg) (hsr : r ≠ .sr) (sh : Shape) : ready2 sh w src (.reg r) s = true := by
  simp [ready2, hsrc, dstReady, dstPlace, locReady, Dst.isMem, hcg, hsr]

section
variable {src : Src} {r : Reg} {s u : State} {v : Word}

theorem exec_mov_reg (hsrc : srcReady .word src s.skipWord = true) (hcg : r ≠ .cg) (hsr : r ≠ .sr)
    (hu : srcDone .word src s.skipWord = u) (hv : srcVal .word src s.skipWord = v)
    (he : r = .pc ∨ r = .sp → isOdd v = false) :
    exec (.mov .word src (.reg r)) s = .next (u.put r v) := by
  rw [exec_mov_word (ready2_reg hsrc hcg hsr _) rfl ((state2_reg _ _ _ _ _).trans hu) hv
    (storable_of_even hsr he _), place2, dstPlace, putAt, truncTo_word, stored_eq_self he]

theorem exec_add_reg (hsrc : srcReady .word src s.skipWord = true) (hcg : r ≠ .cg) (hsr : r ≠ .sr)
    (hu : srcDone .word src s.skipWord = u) (hv : srcVal .word src s.skipWord + u.get r = v)
    (he : r = .pc ∨ r = .sp → isOdd v = false) :
    ∃ t, exec (.add .word src (.reg r)) s = .next t ∧ t.get r = v := by
  have hsum : src2 .word src s + dst2 .word src (.reg r) s = v := by
    rw [← hv, ← hu]
    rfl
  obtain ⟨f, hexec⟩ := exec_add_word (ready2_reg hsrc hcg hsr _) rfl ((state2_reg _ _ _ _ _).trans hu) hsum
    (storable_of_even hsr he _)
  refine ⟨_, hexec, ?_⟩
  rw [State.get_setFlags _ _ _ hsr, place2, dstPlace, putAt, truncTo_word, State.get_put_self _ _ _ hcg,
    stored_eq_self he]

/-- MOV to a word of RAM other than the next instruction word. -/
theorem exec_mov_indexed {x ea : Word} (hsrc : srcReady .word src s.skipWord = true) (hpc : src ≠ .reg .pc)
    (hu : srcDone .word src s.skipWord = u) (hv : srcVal .word src s.skipWord = v) (hr : r.isBase = true)
    (hf : fetchable u = true) (hea : u.get r + x = ea) (he : isOdd ea = false)
    (hram : inRam s.cfg ea = true) (heven : isOdd u.regs.pc = false) (hnext : ea ≠ u.regs.pc + 2) :
    exec (.mov .word src (.indexed r x)) s =
      .next { u.skipWord with mem := Memory.writeWord u.mem ea v } := by
  have hcfg : u.cfg = s.cfg := by rw [← hu, srcDone_cfg, State.skipWord_cfg]
  have hram' : inRam u.skipWord.cfg ea = true := by rwa [State.skipWord_cfg, hcfg]
  have hplace : place2 .word src (.indexed r x) s = .mem ea := by
    rw [place2, dstPlace, hu, hea]
  have hstate : state2 moveShape .word src (.indexed r x) s = u.skipWord := by
    rw [state2_eq_dstDone (fun t => hplace ▸ locDone_of_inRam he hram t), hu]
    rfl
  have hready : ready2 moveShape .word src (.indexed r x) s = true := by
    have hloc : locReady .word (.mem ea) (dstDone (.indexed r x) u) = true := locReady_of_inRam he hram'
    simp [ready2, hsrc, hpc, hu, dstReady, hr, hf, dstPlace, hea, hloc]
  rw [exec_mov_word hready hplace hstate hv (putReady_of_inRam he hram' (even_add_two heven) hnext v),
    putAt_of_inRam he hram']
  rfl

end

/-! ## The sources of R156 and R157 -/

section
variable {r : Reg} {s : State} (hr : r.isBase = true)
include hr

theorem get_skipWord_of_isBase : s.skipWord.get r = s.get r :=
  State.get_skipWord _ _ (Reg.ne_pc_of_isBase hr)

/-- R156, `MOV Rn,0(Rn)`. -/
theorem exec_mov_reg_indexed (he : isOdd (s.get r) = false) (hram : inRam s.cfg (s.get r) = true)
    (hf : fetchable s.skipWord = true) (hnext : s.get r ≠ s.regs.pc + 4) (hpc : isOdd s.regs.pc = false) :
    exec (.mov .word (.reg r) (.indexed r 0)) s =
      .next { s.skipWord.skipWord with mem := Memory.writeWord s.mem (s.get r) (s.get r) } := by
  have hget := get_skipWord_of_isBase (s := s) hr
  refine exec_mov_indexed (u := s.skipWord) (bne_iff_ne.mpr (Reg.ne_cg_of_isBase hr)) ?_ rfl hget hr hf ?_ he
    hram (even_add_two hpc) ?_
  · simpa using Reg.ne_pc_of_isBase hr
  · rw [hget]
    exact BitVec.add_zero _
  · rw [State.skipWord_pc, BitVec.add_assoc]
    exact hnext

/-- R156, `ADD Rn,Rn`; twice a value is even, for SP too. -/
theorem exec_add_self :
    ∃ t, exec (.add .word (.reg r) (.reg r)) s = .next t ∧ t.get r = s.get r + s.get r := by
  have hcg := Reg.ne_cg_of_isBase hr
  refine exec_add_reg (u := s.skipWord) (bne_iff_ne.mpr hcg) hcg (Reg.ne_sr_of_isBase hr) rfl ?_ fun _ => ?_
  · rw [srcVal, truncTo_word, get_skipWord_of_isBase hr]
  · rw [isOdd_add, Bool.xor_self]

variable (he : isOdd (s.get r) = false) (hge : 0x0200 ≤ (s.get r).toNat)
  (hread : readable s.cfg .word (s.get r) = true)
include he hge hread

/-- R156, `@Rn+`: the word is read at the old address, and the register raised before the destination is. -/
theorem srcOperand_autoInc_word :
    srcReady .word (.autoInc r) s.skipWord = true ∧
      srcDone .word (.autoInc r) s.skipWord = s.skipWord.put r (s.get r + 2) ∧
      srcVal .word (.autoInc r) s.skipWord = Memory.readWord s.mem (s.get r) := by
  have hget := get_skipWord_of_isBase (s := s) hr
  have hto : alignTo .word (s.get r) = s.get r := alignTo_of_even .word he
  have hge' : 0x0200 ≤ (alignTo .word (s.skipWord.get r)).toNat := by rwa [hget, hto]
  have hsp : r = .sp → isOdd (s.skipWord.get r) = false := fun _ => by rwa [hget]
  refine ⟨srcReady_autoInc hr hsp (by rwa [hget]), ?_, ?_⟩
  · rw [srcDone_autoInc hr hsp hge', hget]
    rfl
  · rw [srcVal, valueAt_of_ge hge', hget, hto]
    rfl

theorem exec_mov_autoInc_reg (hv : r = .sp → isOdd (Memory.readWord s.mem (s.get r)) = false) :
    exec (.mov .word (.autoInc r) (.reg r)) s =
      .next (s.skipWord.put r (Memory.readWord s.mem (s.get r))) := by
  obtain ⟨hready, hdone, hval⟩ := srcOperand_autoInc_word hr he hge hread
  rw [exec_mov_reg hready (Reg.ne_cg_of_isBase hr) (Reg.ne_sr_of_isBase hr) hdone hval
    (even_of_isBase hr hv), State.put_put]

theorem exec_add_autoInc_reg (hv : r = .sp → isOdd (Memory.readWord s.mem (s.get r)) = false) :
    ∃ t, exec (.add .word (.autoInc r) (.reg r)) s = .next t ∧
      t.get r = s.get r + 2 + Memory.readWord s.mem (s.get r) := by
  obtain ⟨hready, hdone, hval⟩ := srcOperand_autoInc_word hr he hge hread
  have hcg := Reg.ne_cg_of_isBase hr
  refine exec_add_reg hready hcg (Reg.ne_sr_of_isBase hr) hdone ?_ (even_of_isBase hr fun h => ?_)
  · rw [hval, State.get_put_self _ _ _ hcg, BitVec.add_comm]
  · rw [isOdd_add, even_add_two he, hv h]
    rfl

theorem exec_mov_autoInc_indexed (hram : inRam s.cfg (s.get r + 2) = true)
    (hf : fetchable s.skipWord = true) (hnext : s.get r + 2 ≠ s.regs.pc + 4)
    (hpc : isOdd s.regs.pc = false) :
    ∃ t, exec (.mov .word (.autoInc r) (.indexed r 0)) s = .next t ∧ t.get r = s.get r + 2 ∧
      t.mem = Memory.writeWord s.mem (s.get r + 2) (Memory.readWord s.mem (s.get r)) := by
  obtain ⟨hready, hdone, hval⟩ := srcOperand_autoInc_word hr he hge hread
  have hget : (s.skipWord.put r (s.get r + 2)).get r = s.get r + 2 :=
    State.get_put_self _ _ _ (Reg.ne_cg_of_isBase hr)
  have hpc' : (s.skipWord.put r (s.get r + 2)).regs.pc = s.regs.pc + 2 :=
    State.put_pc_of_ne _ _ _ (Reg.ne_pc_of_isBase hr)
  refine ⟨_, exec_mov_indexed (ea := s.get r + 2) hready nofun hdone hval hr ?_ ?_ (even_add_two he) hram ?_ ?_,
    ?_, rfl⟩
  · rwa [fetchable_skipWord_dep (State.put_cfg _ _ _) hpc']
  · rw [hget]
    exact BitVec.add_zero _
  · rw [hpc']
    exact even_add_two hpc
  · rw [hpc', BitVec.add_assoc]
    exact hnext
  · exact (get_skipWord_of_isBase hr).trans hget

end

/-- R157, `ADD Rn,PC`: PC is read as the address of the next instruction. -/
theorem exec_add_reg_pc {r : Reg} {s : State} (hne : r ≠ .pc) (hcg : r ≠ .cg) (he : isOdd (s.get r) = false)
    (hpc : isOdd s.regs.pc = false) :
    ∃ t, exec (.add .word (.reg r) (.reg .pc)) s = .next t ∧ t.regs.pc = s.regs.pc + 2 + s.get r := by
  refine exec_add_reg (r := .pc) (u := s.skipWord) (bne_iff_ne.mpr hcg) nofun nofun rfl ?_ fun _ => ?_
  · rw [srcVal, truncTo_word, State.get_skipWord _ _ hne, BitVec.add_comm]
    rfl
  · rw [isOdd_add, he, Bool.xor_false]
    exact even_add_two hpc

/-- Settles O23: each instruction is MOV or ADD to a register or to RAM, with the source the clause names; a result
that goes to PC or SP is even. -/
theorem sharedOperands : Obligations.SharedOperands := by
  unfold Obligations.SharedOperands
  refine ⟨?autoInc, fun r s hr => ⟨exec_mov_reg_indexed hr, exec_add_self hr⟩,
    fun s hpc => ⟨fun r hsr hcg => ?movPc, fun r hne hcg he => exec_add_reg_pc hne hcg he hpc, ?callPc⟩⟩
  case autoInc =>
    rintro r s v hr he hge hread rfl
    exact ⟨fun hv => ⟨exec_mov_autoInc_reg hr he hge hread hv, exec_add_autoInc_reg hr he hge hread hv⟩,
      exec_mov_autoInc_indexed hr he hge hread⟩
  case movPc => exact exec_mov_reg (src := .reg .pc) rfl hcg hsr rfl rfl fun _ => even_add_two hpc
  case callPc =>
    intro t h
    obtain ⟨-, rfl⟩ := execCall_eq_next.mp h
    exact clearBit0_of_even (even_add_two hpc)

end Sys2Proof.Machine
end

section
/-! PROOFS. RRC, RRA, SWPB and SXT (O32 to O34): what each computation gives, in the arithmetic of the statements.
The operand is read and the result written as `singleOp_of_canFinish1` says. -/

namespace Sys2Proof.Machine

/-! ## A shift right by one (R181, R183) -/

theorem setBit_shift_eq_ofNat {w : Width} {v : Word} (h : v.toNat < 2 ^ nBits w) (b : Bool) :
    setBit (v >>> 1) (nBits w - 1) b =
      BitVec.ofNat 16 (v.toNat / 2 + b.toNat * 2 ^ (nBits w - 1)) := by
  rw [← setBit_shift_toNat h, BitVec.ofNat_toNat, BitVec.setWidth_eq]

theorem setBit_shift_lt {w : Width} {v : Word} (h : v.toNat < 2 ^ nBits w) (b : Bool) :
    (setBit (v >>> 1) (nBits w - 1) b).toNat < 2 ^ nBits w := by
  have hb : b.toNat ≤ 1 := Bool.toNat_le b
  rw [setBit_shift_toNat h]
  cases w <;> simp only [nBits] at h ⊢ <;> omega

/-- The flags of a shift: N and Z from the result, C the bit shifted out. -/
theorem shiftFlags_eq_resultFlags {w : Width} {res : Word} (h : res.toNat < 2 ^ nBits w) (x : Bool)
    (v : Word) :
    FlagUpdate.mk (some x) (some (msb w res)) (some (res == 0)) (some (v.getLsbD 0)) =
      resultFlags w res x (decide (v.toNat % 2 = 1)) := by
  rw [resultFlags, msb_eq h, beq_zero_eq, ← isOdd_eq, isOdd]

/-! ## The results -/

/-- V is 1 under `RRC_V = signChange` exactly when the carry makes a positive operand negative. -/
theorem not_msb_and_eq {w : Width} {v : Word} (h : v.toNat < 2 ^ nBits w) (c : Bool) :
    (!msb w v && c) = (decide (0 ≤ signedN w v) && c) := by
  simp only [msb_eq_neg h, ← decide_not, Int.not_lt]

/-- R181: all that RRC computes but V. -/
theorem rrcAlu_eq {p : RrcV} {w : Width} {k : Nat} {c x : Bool} {v res : Word}
    (h : v.toNat < 2 ^ nBits w) (hv : (rrcAlu p w k c v).flags.v = some x)
    (hres : res = BitVec.ofNat 16 (v.toNat / 2 + c.toNat * 2 ^ (nBits w - 1))) :
    rrcAlu p w k c v =
      ⟨res, resultFlags w res x (decide (v.toNat % 2 = 1)), if p = .anyValue then 1 else 0⟩ := by
  rw [← setBit_shift_eq_ofNat h] at hres
  subst hres
  rw [← shiftFlags_eq_resultFlags (setBit_shift_lt h c), ← hv]
  cases p <;> rfl

/-- R181: V, for each value of `RRC_V`. -/
theorem rrcAlu_v {w : Width} {v : Word} (h : v.toNat < 2 ^ nBits w) (p : RrcV) (k : Nat) (c : Bool) :
    ∃ x : Bool, (p = .alwaysZero → x = false) ∧
      (p = .signChange → x = (decide (0 ≤ signedN w v) && c)) ∧
      (rrcAlu p w k c v).flags.v = some x := by
  cases p with
  | anyValue => exact ⟨_, nofun, nofun, rfl⟩
  | alwaysZero => exact ⟨false, fun _ => rfl, nofun, rfl⟩
  | signChange => exact ⟨_, nofun, fun _ => not_msb_and_eq h c, rfl⟩

/-- Halving a signed number and rounding down keeps its sign bit. -/
theorem signedN_half_toNat {w : Width} {v : Word} (h : v.toNat < 2 ^ nBits w) :
    (signedN w v / 2 % 2 ^ nBits w).toNat = v.toNat / 2 + (msb w v).toNat * 2 ^ (nBits w - 1) := by
  rw [msb_eq h, signedN]
  by_cases hneg : v.toNat < 2 ^ (nBits w - 1)
  · rw [if_pos hneg, decide_eq_false (Nat.not_le.mpr hneg)]
    cases w <;> simp only [nBits, Bool.toNat_false] at h hneg ⊢ <;> omega
  · rw [if_neg hneg, decide_eq_true (Nat.not_lt.mp hneg)]
    cases w <;> simp only [nBits, Bool.toNat_true] at h hneg ⊢ <;> omega

/-- R183. -/
theorem rraAlu_eq {w : Width} {v res : Word} (h : v.toNat < 2 ^ nBits w)
    (hres : res = BitVec.ofNat 16 (signedN w v / 2 % 2 ^ nBits w).toNat) :
    rraAlu w v = ⟨res, resultFlags w res false (decide (v.toNat % 2 = 1)), 0⟩ := by
  rw [signedN_half_toNat h, ← setBit_shift_eq_ofNat h] at hres
  subst hres
  rw [← shiftFlags_eq_resultFlags (setBit_shift_lt h _)]
  rfl

/-- R182. -/
theorem wordOfBytes_hi_lo (v : Word) :
    wordOfBytes (Word.hi v) (Word.lo v) = BitVec.ofNat 16 (v.toNat % 256 * 256 + v.toNat / 256) := by
  apply BitVec.eq_of_toNat_eq
  rw [wordOfBytes_toNat, hi_toNat, lo_toNat, BitVec.toNat_ofNat]
  omega

theorem toInt_lo (v : Word) : (Word.lo v).toInt = signedN .byte (BitVec.ofNat 16 (v.toNat % 256)) := by
  rw [BitVec.toInt_eq_toNat_cond, lo_toNat, signedN, BitVec.toNat_ofNat]
  simp only [nBits]
  split_ifs <;> omega

/-- R184. -/
theorem sextByte_eq_ofInt (v : Word) :
    sextByte v = BitVec.ofInt 16 (signedN .byte (BitVec.ofNat 16 (v.toNat % 256))) := by
  rw [← toInt_lo]
  rfl

/-- Settles O32: the operand's value fits its width, so RRC computes what `rrcAlu_eq` and `rrcAlu_v` say. -/
theorem rrcCompletes : Obligations.RrcCompletes := by
  unfold Obligations.RrcCompletes
  rintro w o s v res rfl hres hfin
  obtain ⟨x, hzero, hsign, hv⟩ := rrcAlu_v (val1_lt w o s) s.cfg.rrcV (state1 w o s).draws s.carry
  refine ⟨x, hzero, hsign, ?_⟩
  rw [exec_rrc]
  exact singleOp_of_canFinish1 hfin (rrcAlu_eq (val1_lt w o s) hv hres)

/-- Settles O33, by `rraAlu_eq`. -/
theorem rraCompletes : Obligations.RraCompletes := by
  unfold Obligations.RraCompletes
  rintro w o s v res rfl hres hfin
  rw [exec_rra]
  exact singleOp_of_canFinish1 hfin (rraAlu_eq (val1_lt w o s) hres)

/-- Settles O34: SWPB is a result without flags, SXT a logical one. -/
theorem swpbSxtCompletes : Obligations.SwpbSxtCompletes := by
  unfold Obligations.SwpbSxtCompletes
  rintro o s v rfl
  refine ⟨fun res hres hfin => ?swpb, fun res hres hfin => ?sxt⟩
  case swpb =>
    rw [exec_swpb]
    refine singleOp_of_canFinish1 hfin ?_
    rw [swpbAlu, wordOfBytes_hi_lo, ← hres, plainResult]
  case sxt =>
    rw [exec_sxt]
    refine singleOp_of_canFinish1 hfin ?_
    rw [sxtAlu, sextByte_eq_ofInt, ← hres, logicFlags_eq res.isLt]

end Sys2Proof.Machine
end

section
/-! PROOFS. PUSH and CALL (O35, O36, O52): both are `pushed` after the operand is read, CALL then with PC loaded. -/

namespace Sys2Proof.Machine

/-! ## A push (R29, R30, R185) -/

section
variable (w : Width) (v : Word) (s : State)

@[simp] theorem pushed_sp : (pushed w v s).regs.sp = clearBit0 (s.regs.sp - 2) := by
  rw [pushed, afterWrite_regs]
  rfl

theorem get_pushed {r : Reg} (h : r ≠ .sp) : (pushed w v s).get r = s.get r := by
  rw [pushed, get_afterWrite, State.get_put_of_ne _ _ _ _ h]

@[simp] theorem pushed_pc : (pushed w v s).regs.pc = s.regs.pc := get_pushed w v s (r := .pc) nofun

@[simp] theorem pushed_sr : (pushed w v s).regs.sr = s.regs.sr := get_pushed w v s (r := .sr) nofun

@[simp] theorem pushed_resetFlags : (pushed w v s).resetFlags = s.resetFlags := by
  rw [pushed, afterWrite_resetFlags, State.put_resetFlags]

theorem read_pushed_other {x : Nat} (h : x ∉ storedBytes w (clearBit0 (s.regs.sp - 2))) :
    Memory.read (pushed w v s).mem x = Memory.read s.mem x :=
  read_afterWrite_other w _ v _ x h

/-- A stack slot that is no peripheral register is a store to memory alone; SP is even, so it is made at SP. -/
theorem pushed_of_ge (h : 0x0200 ≤ (clearBit0 (s.regs.sp - 2)).toNat) :
    pushed w v s =
      { s.put .sp (clearBit0 (s.regs.sp - 2)) with
        mem := storeValue s.mem w (clearBit0 (s.regs.sp - 2)) v } := by
  have hto : alignTo w (clearBit0 (s.regs.sp - 2)) = clearBit0 (s.regs.sp - 2) :=
    alignTo_of_even w (isOdd_clearBit0 _)
  rw [pushed, stored, afterWrite_of_ge (by rwa [hto]), hto]
  rfl

theorem pushed_periph_of_ge (h : 0x0200 ≤ (clearBit0 (s.regs.sp - 2)).toNat) :
    (pushed w v s).periph = s.periph := by
  rw [pushed_of_ge w v s h, State.put_periph]

/-- What is pushed is read back from the new SP. -/
theorem loadValue_pushed (hwf : Memory.wf s.mem = true)
    (h : 0x0200 ≤ (clearBit0 (s.regs.sp - 2)).toNat) :
    loadValue (pushed w v s).mem w (clearBit0 (s.regs.sp - 2)) = truncTo w v := by
  rw [pushed_of_ge w v s h]
  exact loadValue_storeValue hwf w _ v

end

/-! ## PUSH and CALL -/

/-- Settles O35: the next state is `pushed` with the operand's value, which fits its width. -/
theorem pushCompletes : Obligations.PushCompletes := by
  unfold Obligations.PushCompletes
  intro w o s ho hready hpush
  have hexec : exec (.push w o) s = .next (pushed w (val1 w o s) (state1 w o s)) := by
    rw [exec_push]
    exact execPush_eq_next.mpr ⟨ho, by rw [hready, hpush]; rfl, rfl⟩
  refine ⟨_, hexec, pushed_sp w _ _, pushed_pc w _ _, ?_, fun hwf hram => ?_⟩
  · rw [pushed_sr, state1_sr hready]
  · rw [pushed_sp] at hram ⊢
    rw [loadValue_pushed w _ _ (by rwa [state1_mem]) (inRam_ge hram), truncTo_of_lt (val1_lt w o s)]

theorem length_call (o : Src) : (Instr.call o).length = 1 + extCount o.ext :=
  length_encodeFormatII 5 .word o

/-- Settles O36: PC past the operand's words is `A + 2L`, which is what is pushed. -/
theorem callCompletes : Obligations.CallCompletes := by
  unfold Obligations.CallCompletes
  intro o s hready hpush hpc
  have hexec : exec (.call o) s =
      .next ((pushed .word (state1 .word o s).regs.pc (state1 .word o s)).put .pc
        (stored .pc (val1 .word o s))) := by
    rw [exec_call]
    exact execCall_eq_next.mpr ⟨by rw [hready, hpush, hpc]; rfl, rfl⟩
  refine ⟨_, hexec, rfl, ?_, ?_, fun hwf hram => ?_⟩
  · rw [State.put_pc_sp, pushed_sp]
  · rw [State.put_pc_sr, pushed_sr, state1_sr hready]
  · rw [State.put_pc_sp, pushed_sp] at hram ⊢
    rw [State.put_mem, length_call]
    calc Memory.readWord (pushed .word (state1 .word o s).regs.pc (state1 .word o s)).mem
          (clearBit0 ((state1 .word o s).regs.sp - 2))
        = (state1 .word o s).regs.pc :=
          loadValue_pushed .word _ _ (by rwa [state1_mem]) (inRam_ge hram)
      _ = s.regs.pc + BitVec.ofNat 16 (2 * (1 + extCount o.ext)) := state1_pc hready

/-- PUSH and CALL alike: a push after the operand is read, and whatever is then in PC. -/
theorem exec_push_or_call_eq_next {i : Instr} {w : Width} {o : Src} {s t : State}
    (hi : i = .push w o ∨ i = .call o ∧ w = .word) (h : exec i s = .next t) :
    ∃ v pc, t = (pushed w v (state1 w o s)).put .pc pc := by
  rcases hi with rfl | ⟨rfl, rfl⟩
  · obtain ⟨-, -, rfl⟩ := execPush_eq_next.mp h
    exact ⟨_, _, rfl⟩
  · obtain ⟨-, rfl⟩ := execCall_eq_next.mp h
    exact ⟨_, _, rfl⟩

/-- Settles O52: reading the operand changes PC and an auto-incremented register, the push SP and the slot. -/
theorem stackFrame : Obligations.StackFrame := by
  unfold Obligations.StackFrame
  intro i w o s t hi h
  obtain ⟨v, pc, rfl⟩ := exec_push_or_call_eq_next hi h
  rw [State.put_pc_sp, pushed_sp, State.put_mem, State.put_periph]
  refine ⟨fun r hpc hsp hinc => ?_, ?_, ?_, fun x hx => ?_, fun hge => ?_⟩
  · rw [State.get_put_of_ne _ _ _ _ hpc, get_pushed w v _ hsp, state1_get hpc hinc]
  · rw [State.put_cfg, pushed_cfg, state1_cfg]
  · rw [State.put_resetFlags, pushed_resetFlags, state1_resetFlags]
  · rw [read_pushed_other w v _ hx, state1_mem]
  · rw [pushed_periph_of_ge w v _ hge, state1_periph]

end Sys2Proof.Machine
end

section
/-! PROOFS. RETI (O37): two pops from words of RAM or flash. -/

namespace Sys2Proof.Machine

theorem inRam_or_inFlash_ge {c : Config} {a : Word} (h : (inRam c a || inFlash c a) = true) :
    0x0200 ≤ a.toNat := by
  rcases Bool.or_eq_true _ _ |>.mp h with hram | hflash
  · exact inRam_ge hram
  · exact inFlash_ge hflash

/-- R187: a pop of a value the register takes as it stands. -/
theorem popInto_of_even {r : Reg} {s : State} {v : Word} (hsp : r ≠ .sp)
    (he : isOdd s.regs.sp = false) (hmem : (inRam s.cfg s.regs.sp || inFlash s.cfg s.regs.sp) = true)
    (hv : v = Memory.readWord s.mem s.regs.sp) (hs : storable s.cfg r v = true) (hr : stored r v = v) :
    popInto r s = .next ((s.put r v).put .sp (s.regs.sp + 2)) := by
  obtain ⟨haligned, hto⟩ := aligned_and_alignTo_of_even (c := s.cfg) (w := .word) (.inr he)
  have hge : 0x0200 ≤ (alignTo .word s.regs.sp).toNat := by rw [hto]; exact inRam_or_inFlash_ge hmem
  have hread : readable s.cfg .word s.regs.sp = true := by
    rw [readable, haligned, hto, Bool.or_assoc, hmem, Bool.or_true, Bool.and_self]
  have hval : valueAt .word s.regs.sp s = v := by
    rw [valueAt_of_ge hge, hto, hv]
    rfl
  have hput : (s.put r v).regs.sp = s.regs.sp := State.put_sp_of_ne s r v hsp
  refine popInto_eq_next.mpr ⟨s.put r v, ⟨hread, by rwa [hval], ?_⟩, ?_, ?_⟩
  · rw [hval, hr, afterRead_of_ge hge]
  · rw [hput, storable, even_add_two he]
    rfl
  · rw [hput, stored_of_even (even_add_two he)]

/-- Settles O37: SR is popped from SP and PC from SP + 2; the pops change nothing else. -/
theorem retiCompletes : Obligations.RetiCompletes := by
  unfold Obligations.RetiCompletes
  rintro s sp sr pc rfl he hmem hmem2 hsr hpc hlt hpce
  have hpopSr : popInto .sr s.skipWord =
      .next ((s.skipWord.put .sr sr).put .sp (s.regs.sp + 2)) :=
    popInto_of_even nofun he hmem hsr (decide_eq_true hlt) rfl
  have hpopPc : popInto .pc ((s.skipWord.put .sr sr).put .sp (s.regs.sp + 2)) =
      .next ((((s.skipWord.put .sr sr).put .sp (s.regs.sp + 2)).put .pc pc).put .sp
        (s.regs.sp + 2 + 2)) :=
    popInto_of_even nofun (even_add_two he) hmem2 hpc (by simp [storable, hpce]) (stored_of_even hpce)
  rw [exec_reti, returnFromInterrupt, hpopSr, andThen_next, hpopPc, BitVec.add_assoc]
  rfl

end Sys2Proof.Machine
end

section
/-! PROOFS. The frame of RRC, RRA, SWPB and SXT (O51): they end in `finished1`, which changes the operand's place
and the flags. -/

namespace Sys2Proof.Machine

/-! ## A result at a place -/

@[simp] theorem putAt_resetFlags (w : Width) (l : Loc) (v : Word) (s : State) :
    (putAt w l v s).resetFlags = s.resetFlags := by
  cases l with
  | mem ea => exact afterWrite_resetFlags w ea v s
  | const c => rfl
  | reg r => rfl
  | bucket => rfl

theorem putAt_periph_of_ge {w : Width} {ea : Word} (h : 0x0200 ≤ (alignTo w ea).toNat) (v : Word)
    (s : State) : (putAt w (.mem ea) v s).periph = s.periph := by
  rw [putAt, afterWrite_of_ge h]

/-! ## `finished1` -/

section
variable {w : Width} {o : Src} {s : State} {n : Nat} {res : Word} {f : FlagUpdate}

theorem finished1_get {r : Reg} (hpc : r ≠ .pc) (hsr : r ≠ .sr) (ho : o ≠ .reg r)
    (hinc : o ≠ .autoInc r) : (finished1 w o s n res f).get r = s.get r := by
  rw [finished1, State.get_setFlags _ _ _ hsr, putAt_get (place1_ne_reg ho), State.get_takeDraws,
    state1_get hpc hinc]

theorem finished1_sr (hready : ready1 w o s = true) (ho : o ≠ .reg .sr) :
    (finished1 w o s n res f).regs.sr = f.apply s.regs.sr := by
  have hput : (putAt w (place1 w o s) res ((state1 w o s).takeDraws n)).regs.sr = s.regs.sr :=
    (putAt_get (place1_ne_reg ho)).trans (state1_sr hready)
  rw [finished1, State.setFlags_sr, hput]

@[simp] theorem finished1_cfg : (finished1 w o s n res f).cfg = s.cfg := by
  simp [finished1]

@[simp] theorem finished1_resetFlags : (finished1 w o s n res f).resetFlags = s.resetFlags := by
  simp [finished1]

theorem finished1_mem_of_reg {r : Reg} (h : place1 w o s = .reg r) :
    (finished1 w o s n res f).mem = s.mem := by
  rw [finished1, h]
  exact state1_mem w o s

theorem finished1_periph_of_reg {r : Reg} (h : place1 w o s = .reg r) :
    (finished1 w o s n res f).periph = s.periph := by
  rw [finished1, h]
  exact state1_periph w o s

theorem finished1_read_other {a : Word} (h : place1 w o s = .mem a) {x : Nat}
    (hx : x ∉ storedBytes w a) :
    Memory.read (finished1 w o s n res f).mem x = Memory.read s.mem x := by
  rw [finished1, h, State.setFlags_mem, putAt_read_other hx, State.takeDraws_mem, state1_mem]

theorem finished1_periph_of_ge {a : Word} (h : place1 w o s = .mem a)
    (hge : 0x0200 ≤ (alignTo w a).toNat) : (finished1 w o s n res f).periph = s.periph := by
  rw [finished1, h, State.setFlags_periph, putAt_periph_of_ge hge, State.takeDraws_periph,
    state1_periph]

end

/-! ## The instructions -/

theorem singleOp_eq_finished1 {flags : Bool} {alu : Nat → Bool → Word → AluOut} {w : Width} {o : Src}
    {s t : State} (h : singleOp flags alu w o s = .next t) :
    ready1 w o s = true ∧
      ∃ k c v, t = finished1 w o s (alu k c v).used (alu k c v).res (alu k c v).flags := by
  obtain ⟨hready, _, rfl, -, rfl⟩ := singleOp_eq_next.mp h
  simp only [Bool.and_eq_true] at hready
  exact ⟨hready.2, _, _, _, rfl⟩

/-- R180: the meaning behind `rotates`; SWPB, the one that computes no flags, updates none. -/
theorem exec_eq_singleOp_of_rotates {i : Instr} {flags : Bool} {w : Width} {o : Src}
    (hi : i.rotates = some (flags, w, o)) (s : State) :
    ∃ alu, exec i s = singleOp flags alu w o s ∧
      (flags = false → ∀ k c v, (alu k c v).flags = FlagUpdate.none) := by
  unfold Instr.rotates at hi
  split at hi
  case h_1 => cases hi; exact ⟨_, exec_rrc w o s, nofun⟩
  case h_2 => cases hi; exact ⟨_, exec_swpb o s, fun _ _ _ _ => rfl⟩
  case h_3 => cases hi; exact ⟨_, exec_rra w o s, nofun⟩
  case h_4 => cases hi; exact ⟨_, exec_sxt o s, nofun⟩
  case h_5 => cases hi

/-- Settles O51: the place `opLocation` answers with is `place1`, where `finished1` puts the result. -/
theorem rotateFrame : Obligations.RotateFrame := by
  unfold Obligations.RotateFrame
  intro i flags w o s t hi h
  obtain ⟨alu, hexec, hnone⟩ := exec_eq_singleOp_of_rotates hi s
  obtain ⟨hready, k, c, v, rfl⟩ := singleOp_eq_finished1 (hexec.symm.trans h)
  refine ⟨fun r hpc hsr ho hinc => finished1_get hpc hsr ho hinc, fun ho => ?_, finished1_cfg,
    finished1_resetFlags, fun l u hl => ?_⟩
  · rw [finished1_sr hready ho]
    refine ⟨apply_and_flagless _ s.regs.sr, fun hflags => ?_⟩
    rw [hnone hflags]
    rfl
  · obtain ⟨-, hplace⟩ := opLocation_eq_next.mp hl
    have hplace1 : place1 w o s = l := (congrArg Prod.fst hplace).symm
    refine ⟨fun r hr => ?_, fun a ha => ⟨fun x hx => ?_, fun hge => ?_⟩⟩
    · exact ⟨fun x => by rw [finished1_mem_of_reg (hplace1.trans hr)],
        finished1_periph_of_reg (hplace1.trans hr)⟩
    · exact finished1_read_other (hplace1.trans ha) hx
    · exact finished1_periph_of_ge (hplace1.trans ha) hge

end Sys2Proof.Machine
end

section
/-! PROOFS. The jumps (O38) and what they compare after CMP (O39). -/

namespace Sys2Proof

/-- R106: the one word of a jump as a number. -/
theorem encodeFormatIII_eq_ofNat (c : BitVec 3) (off : BitVec 10) :
    encodeFormatIII c off = [BitVec.ofNat 16 (0x2000 + 1024 * c.toNat + off.toNat)] := by
  rw [Nat.mul_comm, ← formatIIIWord_toNat, BitVec.ofNat_toNat, BitVec.setWidth_eq]
  rfl

end Sys2Proof

namespace Sys2Proof.Machine

/-! ## The target and the condition -/

/-- R113: the target with the offset as a signed number. -/
theorem jumpTarget_eq_ofInt (a : Word) (off : BitVec 10) :
    jumpTarget a off = BitVec.ofInt 16 (a.toNat + 2 + 2 * off.toInt) := by
  rw [BitVec.ofInt_add, BitVec.ofInt_add, BitVec.ofInt_mul, BitVec.ofInt_natCast, BitVec.ofNat_toNat,
    BitVec.setWidth_eq]
  rfl

/-- R200: a jump writes PC and nothing else, whether it is taken or not. -/
theorem jumpIf_eq_put_pc (taken : Bool) (off : BitVec 10) (s : State) :
    jumpIf taken off s =
      .next (s.put .pc (if taken then jumpTarget s.regs.pc off else s.regs.pc + 2)) := by
  cases taken <;> rfl

theorem jumpIf_decide (p : Prop) [Decidable p] (off : BitVec 10) (s : State) :
    jumpIf (decide p) off s =
      .next (s.put .pc (if p then jumpTarget s.regs.pc off else s.regs.pc + 2)) := by
  simp only [jumpIf_eq_put_pc, decide_eq_true_eq]

/-- Settles O38: every jump is `jumpIf` of its condition, and its word that of Format III. -/
theorem jumpsComplete : Obligations.JumpsComplete := by
  unfold Obligations.JumpsComplete
  rintro off s c z n v rfl rfl rfl rfl
  have hgo : ∀ b : Bool, jumpIf b off s = .next { s with
      regs := { s.regs with pc :=
        if b then BitVec.ofInt 16 (s.regs.pc.toNat + 2 + 2 * off.toInt) else s.regs.pc + 2 } } :=
    fun b => by rw [jumpIf_eq_put_pc, jumpTarget_eq_ofInt]; rfl
  refine ⟨hgo _, hgo _, hgo _, hgo _, hgo _, hgo _, hgo _, hgo _, ?words⟩
  case words =>
    calc _ = ([0, 1, 2, 3, 4, 5, 6, 7] : List (BitVec 3)).map (encodeFormatIII · off) := rfl
      _ = _ := by simp only [encodeFormatIII_eq_ofNat]; rfl

/-! ## The flags of a computed result, read back from SR (R31) -/

section
variable (w : Width) (res : Word) (v c : Bool) (sr : Word)

@[simp] theorem bitC_apply_resultFlags : ((resultFlags w res v c).apply sr).getLsbD bitC = c :=
  getLsbD_apply _ _ _

@[simp] theorem bitZ_apply_resultFlags :
    ((resultFlags w res v c).apply sr).getLsbD bitZ = decide (res.toNat = 0) := getLsbD_apply _ _ _

@[simp] theorem bitN_apply_resultFlags :
    ((resultFlags w res v c).apply sr).getLsbD bitN = decide (2 ^ (nBits w - 1) ≤ res.toNat) :=
  getLsbD_apply _ _ _

@[simp] theorem bitV_apply_resultFlags : ((resultFlags w res v c).apply sr).getLsbD bitV = v :=
  getLsbD_apply _ _ _

end

/-! ## Subtraction as comparison (R221, R227, R234) -/

/-- R226 and R227: the difference `b - a`, its C as "no borrow" and its V as signed overflow. -/
theorem subAlu_eq {w : Width} {a b : Word} (ha : a.toNat < 2 ^ nBits w) (hb : b.toNat < 2 ^ nBits w) :
    subAlu w a b =
      ⟨reduced w (b.toNat + 2 ^ nBits w - a.toNat),
        resultFlags w (reduced w (b.toNat + 2 ^ nBits w - a.toNat)) (outOfRange w (signedN w b - signedN w a))
          (decide (a.toNat ≤ b.toNat)), 0⟩ := by
  simpa [subAlu] using addFlags_notN ha hb true

section
variable {w : Width} {a b : Word} (ha : a.toNat < 2 ^ nBits w) (hb : b.toNat < 2 ^ nBits w)
include ha hb

/-- The reduced difference is zero exactly when the operands are equal. -/
theorem reduced_sub_eq_zero_iff : (reduced w (b.toNat + 2 ^ nBits w - a.toNat)).toNat = 0 ↔ a = b := by
  rw [reduced_toNat, ← BitVec.toNat_inj]
  cases w <;> simp only [nBits] at ha hb ⊢ <;> omega

/-- N differs from V exactly when the true difference is negative. -/
theorem sign_ne_overflow_iff :
    (decide (2 ^ (nBits w - 1) ≤ (reduced w (b.toNat + 2 ^ nBits w - a.toNat)).toNat) !=
      outOfRange w (signedN w b - signedN w a)) = decide (signedN w b < signedN w a) := by
  rw [reduced_toNat, outOfRange, ← Bool.decide_or, Bool.eq_iff_iff, bne_iff_ne, ne_eq, decide_eq_decide,
    decide_eq_true_eq, signedN, signedN]
  cases w <;> simp only [nBits, Nat.reduceSub, Nat.reducePow, Int.reducePow] at ha hb ⊢ <;>
    split_ifs <;> omega

end

/-! ## CMP, then a jump -/

/-- R227: SR after CMP holds the flags of the difference. -/
theorem sr_of_exec_cmp {w : Width} {src : Src} {dst : Dst} {s t : State}
    (h : exec (.cmp w src dst) s = .next t) :
    ∃ sr, t.regs.sr = (subAlu w (src2 w src s) (dst2 w src dst s)).flags.apply sr := by
  rw [exec_cmp] at h
  obtain ⟨-, _, rfl, -, rfl⟩ := doubleOp_eq_next.mp h
  exact ⟨_, rfl⟩

/-- R201 to R204, R206 and R207: the jump conditions after CMP, as orders on the operands. -/
theorem jump_conditions_of_exec_cmp {w : Width} {src : Src} {dst : Dst} {s t : State} {a b : Word}
    (ha : a = src2 w src s) (hb : b = dst2 w src dst s) (h : exec (.cmp w src dst) s = .next t) :
    t.regs.sr.getLsbD bitZ = decide (a = b) ∧
      t.regs.sr.getLsbD bitC = decide (a.toNat ≤ b.toNat) ∧
      (t.regs.sr.getLsbD bitN != t.regs.sr.getLsbD bitV) = decide (signedN w b < signedN w a) := by
  obtain ⟨sr, hsr⟩ := sr_of_exec_cmp h
  have hlta : a.toNat < 2 ^ nBits w := ha ▸ src2_lt w src s
  have hltb : b.toNat < 2 ^ nBits w := hb ▸ dst2_lt w src dst s
  rw [hsr, ← ha, ← hb, subAlu_eq hlta hltb, bitZ_apply_resultFlags, bitC_apply_resultFlags,
    bitN_apply_resultFlags, bitV_apply_resultFlags]
  exact ⟨decide_eq_decide.mpr (reduced_sub_eq_zero_iff hlta hltb), rfl, sign_ne_overflow_iff hlta hltb⟩

/-- Settles O39: `jumpIf` of the conditions CMP leaves; JNE, JNC and JGE have the opposite of JEQ, JC and JL. -/
theorem compareThenJump : Obligations.CompareThenJump := by
  unfold Obligations.CompareThenJump
  intro w src dst s t off a b ha hb h
  obtain ⟨hz, hc, hnv⟩ := jump_conditions_of_exec_cmp ha hb h
  have hnv' : (t.regs.sr.getLsbD bitN == t.regs.sr.getLsbD bitV) =
      decide (signedN w a ≤ signedN w b) := by
    rw [← Bool.not_not (_ == _), ← bne, hnv, ← decide_not, decide_eq_decide, Int.not_lt]
  refine ⟨?jeq, ?jne, ?jc, ?jnc, ?jge, ?jl⟩
  case jeq => rw [exec_jeq, hz, jumpIf_decide]
  case jne => rw [exec_jne, hz, ← decide_not, jumpIf_decide]
  case jc => rw [exec_jc, hc, jumpIf_decide]
  case jnc => rw [exec_jnc, hc, ← decide_not, decide_eq_decide.mpr Nat.not_le, jumpIf_decide]
  case jge => rw [exec_jge, hnv', jumpIf_decide]
  case jl => rw [exec_jl, hnv, jumpIf_decide]

end Sys2Proof.Machine
end

section
/-! PROOFS. The double-operand instructions (O24 to O31): what each computation gives, in the arithmetic of the
statements. The operands are read and the result written as `doubleOp_of_canFinish` says. -/

namespace Sys2Proof.Machine

/-! ## The results -/

section
variable {w : Width} {a b : Word} (ha : a.toNat < 2 ^ nBits w) (hb : b.toNat < 2 ^ nBits w)
include ha hb

/-- R223. -/
theorem addAlu_eq :
    addAlu w a b =
      ⟨reduced w (a.toNat + b.toNat),
        resultFlags w (reduced w (a.toNat + b.toNat)) (outOfRange w (signedN w a + signedN w b))
          (decide (2 ^ nBits w ≤ a.toNat + b.toNat)), 0⟩ := by
  simpa [addAlu] using addFlags_eq ha hb false

/-- R224. -/
theorem addcAlu_eq (c : Bool) :
    addcAlu w c a b =
      ⟨reduced w (a.toNat + b.toNat + c.toNat),
        resultFlags w (reduced w (a.toNat + b.toNat + c.toNat))
          (outOfRange w (signedN w a + signedN w b + c.toNat))
          (decide (2 ^ nBits w ≤ a.toNat + b.toNat + c.toNat)), 0⟩ :=
  addFlags_eq ha hb c

/-- R225: the old carry 0 is a borrow. -/
theorem subcAlu_eq (c : Bool) :
    subcAlu w c a b =
      ⟨reduced w (b.toNat + 2 ^ nBits w - a.toNat - (!c).toNat),
        resultFlags w (reduced w (b.toNat + 2 ^ nBits w - a.toNat - (!c).toNat))
          (outOfRange w (signedN w b - signedN w a - (!c).toNat))
          (decide (a.toNat + (!c).toNat ≤ b.toNat)), 0⟩ :=
  addFlags_notN ha hb c

/-- R232. -/
theorem xorAlu_eq :
    xorAlu w a b =
      ⟨a ^^^ b,
        resultFlags w (a ^^^ b) (decide (signedN w a < 0 ∧ signedN w b < 0))
          (decide ((a ^^^ b).toNat ≠ 0)), 0⟩ := by
  rw [xorAlu, logicFlags_eq (xor_lt ha hb), msb_eq_neg ha, msb_eq_neg hb, Bool.decide_and]

end

/-- R229 and R233. -/
theorem andAlu_eq {w : Width} {a : Word} (ha : a.toNat < 2 ^ nBits w) (b : Word) :
    andAlu w a b = ⟨a &&& b, resultFlags w (a &&& b) false (decide ((a &&& b).toNat ≠ 0)), 0⟩ :=
  logicFlags_eq (and_lt ha b) false

theorem truncTo_and (w : Width) (v b : Word) : truncTo w v &&& b = v &&& truncTo w b := by
  cases w with
  | word => rfl
  | byte => rw [truncTo, truncTo, zextByte, zextByte, BitVec.and_assoc, BitVec.and_comm b]

/-- R230: the bits `notN` cuts off are 0 in the destination. -/
theorem bicAlu_eq {w : Width} {b : Word} (hb : b.toNat < 2 ^ nBits w) (a : Word) :
    bicAlu w a b = ⟨b &&& ~~~a, FlagUpdate.none, 0⟩ := by
  rw [bicAlu, notN, truncTo_and, truncTo_of_lt hb, BitVec.and_comm, plainResult]

/-- R231. -/
theorem bisAlu_eq (a b : Word) : bisAlu a b = ⟨b ||| a, FlagUpdate.none, 0⟩ := by
  rw [bisAlu, BitVec.or_comm, plainResult]

/-! ## The decimal sum (R228) -/

section
variable {w : Width} {a b : Word} (ha : isDecimal (nBits w / 4) a.toNat = true)
  (hb : isDecimal (nBits w / 4) b.toNat = true)
include ha hb

theorem decimalAdd_lt (c : Bool) :
    (decimalAdd (nBits w / 4) a.toNat b.toNat c).1 < 2 ^ nBits w := by
  have hdigits := (decimalAdd_isDecimal _ _ _ c ha hb).2
  cases w <;> exact hdigits

/-- R228 on decimal operands: a decimal result, N and Z from it; V is a free value. -/
theorem daddAlu_of_decimal (k : Nat) (c : Bool) :
    ∃ (res : Word) (v cout : Bool),
      bcdValue (nBits w / 4) res.toNat + 10 ^ (nBits w / 4) * cout.toNat =
        bcdValue (nBits w / 4) a.toNat + bcdValue (nBits w / 4) b.toNat + c.toNat ∧
      isDecimal (nBits w / 4) res.toNat = true ∧ res.toNat < 2 ^ nBits w ∧
      daddAlu w k c a b = ⟨res, resultFlags w res v cout, 2⟩ := by
  have hlt := decimalAdd_lt ha hb c
  have hvalue := decimalAdd_value _ _ _ c ha hb
  have hdigits := (decimalAdd_isDecimal _ _ _ c ha hb).1
  have halu : daddAlu w k c a b = _ := if_pos (by rw [ha, hb]; rfl)
  have hres := reduced_toNat w (decimalAdd (nBits w / 4) a.toNat b.toNat c).1
  rw [reduced, Nat.mod_eq_of_lt hlt] at hres
  rw [← hres] at hlt hvalue hdigits
  refine ⟨_, (Config.freeWord (k + 1)).getLsbD 3, _, hvalue, hdigits, hlt, ?_⟩
  rw [halu, msb_eq hlt, beq_zero_eq, resultFlags]

end

/-- R228 with a digit above 9: the result and the flags are free values. -/
theorem daddAlu_of_not_decimal {w : Width} {a b : Word}
    (h : ¬(isDecimal (nBits w / 4) a.toNat = true ∧ isDecimal (nBits w / 4) b.toNat = true))
    (k : Nat) (c : Bool) :
    ∃ (res : Word) (v n z cout : Bool), res.toNat < 2 ^ nBits w ∧
      daddAlu w k c a b = ⟨res, ⟨some v, some n, some z, some cout⟩, 2⟩ := by
  rw [← Bool.and_eq_true] at h
  exact ⟨_, _, _, _, _, truncTo_lt w (Config.freeWord k), if_neg h⟩

/-! ## The instructions -/

/-- Settles O24: MOV is the move `doubleOp_move` is about. -/
theorem movCompletes : Obligations.MovCompletes := by
  unfold Obligations.MovCompletes
  intro w src dst s hfin
  rw [exec_mov]
  exact doubleOp_move hfin

/-- Settles O25, by `addAlu_eq` and `addcAlu_eq`. -/
theorem addAddcComplete : Obligations.AddAddcComplete := by
  unfold Obligations.AddAddcComplete
  rintro w src dst s a b c rfl rfl rfl
  have ha := src2_lt w src s
  have hb := dst2_lt w src dst s
  refine ⟨?add, ?addc⟩
  case add =>
    rintro res rfl hfin
    rw [exec_add]
    exact doubleOp_of_canFinish rfl hfin (addAlu_eq ha hb)
  case addc =>
    rintro res rfl hfin
    rw [exec_addc]
    exact doubleOp_of_canFinish rfl hfin (addcAlu_eq ha hb s.carry)

/-- Settles O26, by `subcAlu_eq`. -/
theorem subcCompletes : Obligations.SubcCompletes := by
  unfold Obligations.SubcCompletes
  rintro w src dst s a b res borrow rfl rfl rfl rfl hfin
  rw [exec_subc]
  exact doubleOp_of_canFinish rfl hfin (subcAlu_eq (src2_lt w src s) (dst2_lt w src dst s) s.carry)

/-- Settles O27: SUB and CMP compute `subAlu_eq`, whose result is 0 exactly for equal operands. -/
theorem subCmpComplete : Obligations.SubCmpComplete := by
  unfold Obligations.SubCmpComplete
  rintro w src dst s a b res f rfl rfl rfl rfl
  have ha := src2_lt w src s
  have hb := dst2_lt w src dst s
  refine ⟨fun hfin => ?sub, fun hready => ?cmp, ?zero⟩
  case sub =>
    rw [exec_sub]
    exact doubleOp_of_canFinish rfl hfin (subAlu_eq ha hb)
  case cmp =>
    rw [exec_cmp]
    exact doubleOp_test hready (subAlu_eq ha hb)
  case zero =>
    rw [← reduced_sub_eq_zero_iff ha hb, resultFlags, Option.some_inj, decide_eq_true_eq]

/-- Settles O28, by `daddAlu_of_decimal` and `daddAlu_of_not_decimal`. -/
theorem daddCompletes : Obligations.DaddCompletes := by
  unfold Obligations.DaddCompletes
  rintro w src dst s a b d rfl rfl rfl
  refine ⟨fun ha hb => ?decimal, fun hdigits hfin => ?other⟩
  case decimal =>
    obtain ⟨res, v, c, hsum, hres, hlt, halu⟩ :=
      daddAlu_of_decimal ha hb (state2 computeShape w src dst s).draws s.carry
    refine ⟨res, v, c, hsum, hres, hlt, fun hfin => ?_⟩
    rw [exec_dadd]
    exact doubleOp_of_canFinish rfl hfin halu
  case other =>
    obtain ⟨res, v, n, z, c, hlt, halu⟩ :=
      daddAlu_of_not_decimal hdigits (state2 computeShape w src dst s).draws s.carry
    refine ⟨res, v, n, z, c, hlt, ?_⟩
    rw [exec_dadd]
    exact doubleOp_of_canFinish rfl (hfin res) halu

/-- Settles O29, by `andAlu_eq`. -/
theorem bitAndCompletes : Obligations.BitAndCompletes := by
  unfold Obligations.BitAndCompletes
  rintro w src dst s res f rfl rfl
  have halu := andAlu_eq (src2_lt w src s) (dst2 w src dst s)
  refine ⟨fun hready => ?bit, fun hfin => ?and⟩
  case bit =>
    rw [exec_bit]
    exact doubleOp_test hready halu
  case and =>
    rw [exec_and]
    exact doubleOp_of_canFinish rfl hfin halu

/-- Settles O30, by `bicAlu_eq` and `bisAlu_eq`. -/
theorem bicBisCompletes : Obligations.BicBisCompletes := by
  unfold Obligations.BicBisCompletes
  intro w src dst s
  refine ⟨?bic, ?bis⟩
  case bic =>
    rintro res rfl hfin
    rw [exec_bic]
    exact doubleOp_of_canFinish rfl hfin (bicAlu_eq (dst2_lt w src dst s) _)
  case bis =>
    rintro res rfl hfin
    rw [exec_bis]
    exact doubleOp_of_canFinish rfl hfin (bisAlu_eq _ _)

/-- Settles O31, by `xorAlu_eq`. -/
theorem xorCompletes : Obligations.XorCompletes := by
  unfold Obligations.XorCompletes
  rintro w src dst s a b res rfl rfl rfl hfin
  rw [exec_xor]
  exact doubleOp_of_canFinish rfl hfin (xorAlu_eq (src2_lt w src s) (dst2_lt w src dst s))

end Sys2Proof.Machine
end

section
/-! PROOFS. The frame of the Format I instructions (O49, O50): they end in `finished`, which changes the
destination's place, if the instruction writes it, and the flags. -/

namespace Sys2Proof.Machine

/-! ## `finished` -/

theorem place2_ne_mem {w : Width} {src : Src} {dst : Dst} {s : State} (h : dst.isMem = false) (ea : Word) :
    place2 w src dst s ≠ .mem ea := by
  cases dst with
  | reg r => exact nofun
  | bucket => exact nofun
  | indexed r x => cases h
  | symbolic x => cases h
  | absolute a => cases h

section
variable {sh : Shape} {w : Width} {src : Src} {dst : Dst} {s : State} {n : Nat} {res : Word}
  {f : FlagUpdate}

theorem finished_of_writes (h : sh.writesDst = true) :
    finished sh w src dst s n res f =
      (putAt w (place2 w src dst s) res ((state2 sh w src dst s).takeDraws n)).setFlags f := by
  rw [finished, if_pos h]

theorem finished_of_not_writes (h : sh.writesDst = false) :
    finished sh w src dst s n res f = ((state2 sh w src dst s).takeDraws n).setFlags f := by
  rw [finished, if_neg (Bool.eq_false_iff.mp h)]

/-- The result reaches only the register it is written to; SR is left to the flags. -/
theorem finished_get {r : Reg} (hpc : r ≠ .pc) (hsr : r ≠ .sr)
    (hdst : sh.writesDst = true → dst ≠ .reg r) (hinc : src ≠ .autoInc r) :
    (finished sh w src dst s n res f).get r = s.get r := by
  cases hw : sh.writesDst with
  | true =>
    rw [finished_of_writes hw, State.get_setFlags _ _ _ hsr, putAt_get (place2_ne_reg (hdst hw)),
      State.get_takeDraws, state2_get hpc hinc]
  | false =>
    rw [finished_of_not_writes hw, State.get_setFlags _ _ _ hsr, State.get_takeDraws,
      state2_get hpc hinc]

theorem finished_sr (hready : ready2 sh w src dst s = true)
    (hdst : sh.writesDst = true → dst ≠ .reg .sr) :
    (finished sh w src dst s n res f).regs.sr = f.apply s.regs.sr := by
  cases hw : sh.writesDst with
  | true =>
    have hput : (putAt w (place2 w src dst s) res ((state2 sh w src dst s).takeDraws n)).regs.sr =
        s.regs.sr := (putAt_get (place2_ne_reg (hdst hw))).trans (state2_sr hready)
    rw [finished_of_writes hw, State.setFlags_sr, hput]
  | false =>
    rw [finished_of_not_writes hw, State.setFlags_sr, State.takeDraws_regs, state2_sr hready]

@[simp] theorem finished_cfg : (finished sh w src dst s n res f).cfg = s.cfg := by
  unfold finished
  split <;> simp

@[simp] theorem finished_resetFlags :
    (finished sh w src dst s n res f).resetFlags = s.resetFlags := by
  unfold finished
  split <;> simp

/-- With no store, memory and the peripheral registers stay as they are. -/
theorem finished_mem_periph_of_no_store (h : sh.writesDst = false ∨ dst.isMem = false) :
    (finished sh w src dst s n res f).mem = s.mem ∧
      (finished sh w src dst s n res f).periph = s.periph := by
  cases hw : sh.writesDst with
  | true =>
    have hreg : dst.isMem = false := h.resolve_left (by rw [hw]; decide)
    obtain ⟨hmem, hperiph⟩ := putAt_mem_eq (w := w) (v := res)
      (s := (state2 sh w src dst s).takeDraws n) (place2_ne_mem (w := w) (src := src) (s := s) hreg)
    rw [finished_of_writes hw]
    exact ⟨hmem.trans (state2_mem sh w src dst s), hperiph.trans (state2_periph sh w src dst s)⟩
  | false =>
    rw [finished_of_not_writes hw]
    exact ⟨state2_mem sh w src dst s, state2_periph sh w src dst s⟩

theorem finished_read_other {a : Word} (hw : sh.writesDst = true) (h : place2 w src dst s = .mem a)
    {x : Nat} (hx : x ∉ storedBytes w a) :
    Memory.read (finished sh w src dst s n res f).mem x = Memory.read s.mem x := by
  rw [finished_of_writes hw, h, State.setFlags_mem, putAt_read_other hx, State.takeDraws_mem, state2_mem]

theorem finished_periph_of_ge {a : Word} (hw : sh.writesDst = true) (h : place2 w src dst s = .mem a)
    (hge : 0x0200 ≤ (alignTo w a).toNat) :
    (finished sh w src dst s n res f).periph = s.periph := by
  rw [finished_of_writes hw, h, State.setFlags_periph, putAt_periph_of_ge hge, State.takeDraws_periph,
    state2_periph]

end

/-- R150, after R141: the location the meaning computes, the source read first, is `place2`. -/
theorem place2_of_dstLocation {w : Width} {src : Src} {dst : Dst} {s u : State} {p : Word × State} {l : Loc}
    (hsrc : srcOperand w src s.skipWord = .next p) (hdst : dstLocation dst p.2 = .next (l, u)) :
    place2 w src dst s = l := by
  obtain ⟨-, rfl⟩ := srcOperand_eq_next.mp hsrc
  obtain ⟨-, hplace⟩ := dstLocation_eq_next.mp hdst
  exact (congrArg Prod.fst hplace).symm

/-! ## The instructions -/

/-- R220: the meaning behind `formI`; MOV, BIC and BIS, which compute no flags, update none. -/
theorem exec_eq_doubleOp_of_formI {i : Instr} {sh : Shape} {w : Width} {src : Src} {dst : Dst}
    (hi : i.formI = some (sh, w, src, dst)) (s : State) :
    ∃ alu, exec i s = doubleOp sh alu w src dst s ∧
      (sh.setsFlags = false → ∀ k c a b, (alu k c a b).flags = FlagUpdate.none) := by
  rw [← exec_expand]
  unfold Instr.formI at hi
  split at hi
  all_goals cases hi
  all_goals rename_i he
  all_goals rw [he]
  case h_1 => exact ⟨_, exec_mov w src dst s, fun _ _ _ _ _ => rfl⟩
  case h_2 => exact ⟨_, exec_add w src dst s, nofun⟩
  case h_3 => exact ⟨_, exec_addc w src dst s, nofun⟩
  case h_4 => exact ⟨_, exec_subc w src dst s, nofun⟩
  case h_5 => exact ⟨_, exec_sub w src dst s, nofun⟩
  case h_6 => exact ⟨_, exec_cmp w src dst s, nofun⟩
  case h_7 => exact ⟨_, exec_dadd w src dst s, nofun⟩
  case h_8 => exact ⟨_, exec_bit w src dst s, nofun⟩
  case h_9 => exact ⟨_, exec_bic w src dst s, fun _ _ _ _ _ => rfl⟩
  case h_10 => exact ⟨_, exec_bis w src dst s, fun _ _ _ _ _ => rfl⟩
  case h_11 => exact ⟨_, exec_xor w src dst s, nofun⟩
  case h_12 => exact ⟨_, exec_and w src dst s, nofun⟩

/-- R220: a Format I instruction ends in `finished`; without flags to set it updates none. -/
theorem finished_of_exec {i : Instr} {sh : Shape} {w : Width} {src : Src} {dst : Dst} {s t : State}
    (hi : i.formI = some (sh, w, src, dst)) (h : exec i s = .next t) :
    ready2 sh w src dst s = true ∧
      ∃ n res f, (sh.setsFlags = false → f = FlagUpdate.none) ∧ t = finished sh w src dst s n res f := by
  obtain ⟨alu, hexec, hnone⟩ := exec_eq_doubleOp_of_formI hi s
  obtain ⟨hready, out, hout, -, rfl⟩ := doubleOp_eq_next.mp (hexec.symm.trans h)
  exact ⟨hready, out.used, out.res, out.flags, fun hflags => hout ▸ hnone hflags _ _ _ _, rfl⟩

/-- R33 and R36: where SR is not the destination, its flags alone change, and only if the instruction sets them. -/
theorem finished_sr_frame {sh : Shape} {w : Width} {src : Src} {dst : Dst} {s : State} {f : FlagUpdate}
    (hready : ready2 sh w src dst s = true) (hf : sh.setsFlags = false → f = FlagUpdate.none)
    (hdst : sh.writesDst = true → dst ≠ .reg .sr) (n : Nat) (res : Word) :
    (finished sh w src dst s n res f).regs.sr &&& 0xFEF8 = s.regs.sr &&& 0xFEF8 ∧
      (sh.setsFlags = false → (finished sh w src dst s n res f).regs.sr = s.regs.sr) := by
  rw [finished_sr hready hdst]
  refine ⟨apply_and_flagless f s.regs.sr, fun hflags => ?_⟩
  rw [hf hflags]
  rfl

/-- Settles O49: with no store, `finished` leaves memory and the peripheral registers alone. -/
theorem registerFormFrame : Obligations.RegisterFormFrame := by
  unfold Obligations.RegisterFormFrame
  intro i sh w src dst s t hi hform h
  obtain ⟨hready, n, res, f, hf, rfl⟩ := finished_of_exec hi h
  obtain ⟨hmem, hperiph⟩ := finished_mem_periph_of_no_store (n := n) (res := res) (f := f) hform
  exact ⟨fun r hpc hsr hdst hinc => finished_get hpc hsr hdst hinc, fun x => by rw [hmem], hperiph,
    finished_cfg, finished_resetFlags, fun hdst => finished_sr_frame hready hf hdst n res⟩

/-- Settles O50: a destination in memory is no register, and the address of the statement is `place2`, where
`finished` puts the result. -/
theorem storeFormFrame : Obligations.StoreFormFrame := by
  unfold Obligations.StoreFormFrame
  intro i sh w src dst s t hi hwrites hmem h
  obtain ⟨hready, n, res, f, hf, rfl⟩ := finished_of_exec hi h
  have hdst : ∀ r, dst ≠ .reg r := by
    rintro r rfl
    cases hmem
  obtain ⟨hsr, hsrNone⟩ := finished_sr_frame hready hf (fun _ => hdst .sr) n res
  refine ⟨fun r hpc hr hinc => finished_get hpc hr (fun _ => hdst r) hinc, hsr, hsrNone, finished_cfg,
    finished_resetFlags, fun a p u hsrc hloc => ?_⟩
  have hplace := place2_of_dstLocation hsrc hloc
  exact ⟨fun x hx => finished_read_other hwrites hplace hx, finished_periph_of_ge hwrites hplace⟩

end Sys2Proof.Machine
end

section
/-! PROOFS. The emulated instructions that compute a result (O40 to O44): each is its core instruction (R250,
`exec_expand`), whose settled statement gives the result and the flags; what is left is what it has as source. -/

namespace Sys2Proof.Machine

/-! ## Constants as sources (R149) -/

section
variable {c : ConstGen} (h : c ≠ .minusOne)
include h

/-- A constant other than #-1 is the same in both widths. -/
theorem src2_const (w : Width) (s : State) : src2 w (.const c) s = constValue c :=
  truncTo_constValue_of_ne h w

/-- A constant other than #-1 is positive or 0 as a signed number of either width. -/
theorem signedN_constValue (w : Width) : signedN w (constValue c) = (constValue c).toNat := by
  cases c
  case minusOne => exact absurd rfl h
  all_goals cases w <;> rfl

end

theorem src2_const_zero (w : Width) (s : State) : src2 w (.const .zero) s = 0#16 :=
  src2_const (by decide) w s

theorem signedN_zero (w : Width) : signedN w 0#16 = 0 :=
  signedN_constValue (c := .zero) (by decide) w

/-! ## ADC, SBC and DADC: the source is #0 -/

/-- Settles O40: ADC is ADDC and SBC is SUBC, each with 0. -/
theorem adcSbcComplete : Obligations.AdcSbcComplete := by
  unfold Obligations.AdcSbcComplete
  intro w dst s b c borrow hb hc hborrow
  have hzero := (src2_const_zero w s).symm
  refine ⟨fun res hres hfin => ?adc, fun res hres hfin => ?sbc⟩
  case adc =>
    obtain ⟨-, haddc⟩ := addAddcComplete w (.const .zero) dst s _ b c hzero hb hc
    rw [← exec_expand, Instr.expand, haddc res (by simpa using hres) hfin]
    simp [signedN_zero]
  case sbc =>
    have hsubc := subcCompletes w (.const .zero) dst s _ b res borrow hzero hb hborrow
    rw [← exec_expand, Instr.expand, hsubc (by simpa using hres) hfin]
    simp [signedN_zero]

theorem isDecimal_zero (d : Nat) : isDecimal d 0 = true := by
  induction d with
  | zero => rfl
  | succ d ih => simpa [isDecimal] using ih

theorem bcdValue_zero (d : Nat) : bcdValue d 0 = 0 := by
  induction d with
  | zero => rfl
  | succ d ih => simp [bcdValue, ih]

/-- Settles O41: DADC is DADD with 0, a decimal number of value 0. -/
theorem dadcCompletes : Obligations.DadcCompletes := by
  unfold Obligations.DadcCompletes
  intro w dst s b d hb hd
  obtain ⟨hdecimal, hother⟩ :=
    daddCompletes w (.const .zero) dst s _ b d (src2_const_zero w s).symm hb hd
  rw [← exec_expand (.dadc w dst)]
  refine ⟨fun hdigits => ?decimal, fun hdigits hfin => ?other⟩
  case decimal =>
    obtain ⟨res, v, c, hsum, hres, hlt, hexec⟩ := hdecimal (isDecimal_zero d) hdigits
    have hzero : bcdValue d (0#16).toNat = 0 := bcdValue_zero d
    rw [hzero, Nat.zero_add] at hsum
    exact ⟨res, v, c, hsum, hres, hlt, hexec⟩
  case other => exact hother (fun ⟨_, h⟩ => absurd h (Bool.eq_false_iff.mp hdigits)) hfin

/-! ## INC, INCD, DEC and DECD: the source is #1 or #2 -/

/-- ADD and SUB of a constant `n` other than #-1. -/
theorem exec_add_sub_const {w : Width} {c : ConstGen} {dst : Dst} {s : State} {b res : Word} {n : Nat}
    (hc : c ≠ .minusOne) (hn : (constValue c).toNat = n) (hb : b = dst2 w (.const c) dst s)
    (hfin : canFinish computeShape w (.const c) dst s res = true) :
    (res = reduced w (b.toNat + n) →
      exec (.add w (.const c) dst) s = .next (finished computeShape w (.const c) dst s 0 res
        (resultFlags w res (outOfRange w (signedN w b + n)) (decide (2 ^ nBits w ≤ b.toNat + n))))) ∧
    (res = reduced w (b.toNat + 2 ^ nBits w - n) →
      exec (.sub w (.const c) dst) s = .next (finished computeShape w (.const c) dst s 0 res
        (resultFlags w res (outOfRange w (signedN w b - n)) (decide (n ≤ b.toNat))))) := by
  subst hn
  have hsrc := (src2_const hc w s).symm
  rw [← signedN_constValue hc w]
  refine ⟨fun hres => ?add, fun hres => ?sub⟩
  case add =>
    obtain ⟨hadd, -⟩ := addAddcComplete w (.const c) dst s _ b _ hsrc hb rfl
    rw [Nat.add_comm] at hres ⊢
    rw [Int.add_comm]
    exact hadd res hres hfin
  case sub =>
    obtain ⟨hsub, -, -⟩ := subCmpComplete w (.const c) dst s _ b res _ hsrc hb hres rfl
    exact hsub hfin

/-- Settles O42: INC and INCD are ADD, DEC and DECD are SUB, with 1 or with 2. -/
theorem incDecComplete : Obligations.IncDecComplete := by
  unfold Obligations.IncDecComplete
  intro w dst s b res
  rw [← exec_expand (.inc w dst), ← exec_expand (.dec w dst), ← exec_expand (.incd w dst),
    ← exec_expand (.decd w dst)]
  exact ⟨exec_add_sub_const (n := 1) (by decide) rfl, exec_add_sub_const (n := 2) (by decide) rfl⟩

/-! ## INV and TST -/

theorem truncTo_xor (w : Width) (a b : Word) : truncTo w a ^^^ truncTo w b = truncTo w (a ^^^ b) := by
  cases w with
  | word => rfl
  | byte =>
    apply BitVec.eq_of_toNat_eq
    simp [truncTo, zextByte, Nat.and_xor_distrib_right]

/-- Exclusive or with #-1 is the complement, whose number is `2^n - 1` less the operand's. -/
theorem minusOne_xor_eq_ofNat {w : Width} {b : Word} (hb : b.toNat < 2 ^ nBits w) :
    truncTo w (constValue .minusOne) ^^^ b = BitVec.ofNat 16 (2 ^ nBits w - 1 - b.toNat) := by
  have hnot : truncTo w (constValue .minusOne) ^^^ truncTo w b = notN w b := by
    rw [truncTo_xor, notN, ← BitVec.allOnes_xor]
    rfl
  rw [← notN_toNat hb, BitVec.ofNat_toNat, BitVec.setWidth_eq, ← hnot, truncTo_of_lt hb]

theorem signedN_minusOne (w : Width) : signedN w (truncTo w (constValue .minusOne)) = -1 := by
  cases w <;> rfl

/-- A signed number of the width is in its range (R8, R234). -/
theorem outOfRange_signedN {w : Width} {b : Word} (hb : b.toNat < 2 ^ nBits w) :
    outOfRange w (signedN w b) = false := by
  rw [outOfRange, ← Bool.decide_or, decide_eq_false_iff_not, signedN]
  cases w <;> simp only [nBits, Nat.reduceSub, Nat.reducePow, Int.reducePow] at hb ⊢ <;>
    split_ifs <;> omega

theorem reduced_add_two_pow {w : Width} {b : Word} (hb : b.toNat < 2 ^ nBits w) :
    reduced w (b.toNat + 2 ^ nBits w) = b := by
  apply BitVec.eq_of_toNat_eq
  rw [reduced_toNat, Nat.add_mod_right, Nat.mod_eq_of_lt hb]

/-- Settles O43: INV is XOR with #-1, a negative number; TST is CMP with 0, which takes nothing off. -/
theorem invTstComplete : Obligations.InvTstComplete := by
  unfold Obligations.InvTstComplete
  refine fun w dst s => ⟨fun b res hb hres hfin => ?inv, fun b hb hready => ?tst⟩
  case inv =>
    have hlt : b.toNat < 2 ^ nBits w := hb ▸ dst2_lt w _ dst s
    rw [← minusOne_xor_eq_ofNat hlt] at hres
    rw [← exec_expand, Instr.expand, xorCompletes w (.const .minusOne) dst s _ b res rfl hb hres hfin]
    simp [src2, srcVal, signedN_minusOne]
  case tst =>
    have hlt : b.toNat < 2 ^ nBits w := hb ▸ dst2_lt w _ dst s
    obtain ⟨-, hcmp, -⟩ :=
      subCmpComplete w (.const .zero) dst s _ b _ _ (src2_const_zero w s).symm hb rfl rfl
    rw [← exec_expand, Instr.expand, hcmp hready]
    simp [reduced_add_two_pow hlt, signedN_zero, outOfRange_signedN hlt]

/-! ## RLA and RLC: one operand as source and as destination -/

/-- Outside the peripheral regions a read sees the memory alone. -/
theorem valueAt_congr {w : Width} {a : Word} (hge : 0x0200 ≤ (alignTo w a).toNat) {s t : State}
    (hmem : s.mem = t.mem) : valueAt w a s = valueAt w a t := by
  rw [valueAt_of_ge hge, valueAt_of_ge hge, hmem]

/-- R268: the two forms name one place. -/
theorem place2_asSrc_second {w : Width} {dst : Dst} (s : State) (hmem : dst.isMem = true)
    (hwf : dst.wf = true) :
    ∃ ea, place2 w dst.asSrc dst.second s = .mem ea ∧
      src2 w dst.asSrc s = valueAt w ea s.skipWord.skipWord := by
  cases dst with
  | reg r => cases hmem
  | bucket => cases hmem
  | indexed r x =>
    have hpc : r ≠ .pc := Reg.ne_pc_of_isBase hwf
    refine ⟨s.skipWord.get r + x, ?_, rfl⟩
    show Loc.mem ((srcDone w (.indexed r x) s.skipWord).get r + x) = _
    rw [srcDone_get hpc (by simp)]
  | symbolic x =>
    refine ⟨s.skipWord.regs.pc + x, ?_, rfl⟩
    simp only [place2, Dst.asSrc, Dst.second, dstPlace, srcDone, afterRead_regs, State.skipWord_pc]
    congr 1
    bv_omega
  | absolute a => exact ⟨a, rfl, rfl⟩

/-- Reading the operand as source leaves its value as it was, but for a peripheral register. -/
theorem src2_asSrc_eq_dst2 {w : Width} {dst : Dst} {s : State} (hwf : dst.wf = true)
    (hge : ∀ ea, place2 w dst.asSrc dst.second s = .mem ea → 0x0200 ≤ (alignTo w ea).toNat) :
    src2 w dst.asSrc s = dst2 w dst.asSrc dst.second s := by
  cases hmem : dst.isMem with
  | false =>
    cases dst with
    | reg r => rfl
    | bucket => exact truncTo_of_lt (v := 0) (by cases w <;> decide)
    | indexed r x => cases hmem
    | symbolic x => cases hmem
    | absolute a => cases hmem
  | true =>
    obtain ⟨ea, hplace, hsrc⟩ := place2_asSrc_second (w := w) s hmem hwf
    rw [hsrc, dst2, hplace, locVal]
    exact valueAt_congr (hge ea hplace) (by simp)

/-- Settles O44: RLA is ADD and RLC is ADDC of the operand to itself. -/
theorem rlaRlcComplete : Obligations.RlaRlcComplete := by
  unfold Obligations.RlaRlcComplete
  intro w dst s a b c ha hb hc
  obtain ⟨hadd, haddc⟩ := addAddcComplete w dst.asSrc dst.second s a b c ha hb hc
  rw [← exec_expand (.rla w dst), ← exec_expand (.rlc w dst)]
  exact ⟨hadd, haddc, fun hwf hge => by rw [ha, hb, src2_asSrc_eq_dst2 hwf hge]⟩

end Sys2Proof.Machine
end

section
/-! PROOFS. The emulated instructions that move a value (O45, O46). -/

namespace Sys2Proof.Machine

/-- MOV to PC: PC takes the source value as R26 says, and nothing else is written. -/
theorem exec_mov_pc {src : Src} {s : State} (hready : ready2 moveShape .word src (.reg .pc) s = true)
    (hpc : storable s.cfg .pc (src2 .word src s) = true) :
    exec (.mov .word src (.reg .pc)) s =
      .next ((srcDone .word src s.skipWord).put .pc (clearBit0 (src2 .word src s))) := by
  have hput : putReady .word (.reg .pc) (src2 .word src s) (srcDone .word src s.skipWord) = true := by
    rwa [putReady, srcDone_cfg, State.skipWord_cfg, truncTo_word]
  exact exec_mov_word hready rfl (state2_reg _ _ _ _ _) rfl hput

/-- MOV of a value known beforehand. -/
theorem exec_mov_of_src2 {w : Width} {src : Src} {dst : Dst} {s : State} {v : Word} (hv : src2 w src s = v)
    (hfin : canFinish moveShape w src dst s v = true) :
    exec (.mov w src dst) s = .next (finished moveShape w src dst s 0 v FlagUpdate.none) := by
  subst hv
  exact movCompletes w src dst s hfin

/-- Settles O45: CLR, NOP and BR are MOV of #0 to an operand, of #0 to the bit bucket and to PC. -/
theorem clrNopBrComplete : Obligations.ClrNopBrComplete := by
  unfold Obligations.ClrNopBrComplete
  refine ⟨fun w dst s hfin => ?clr, fun s => ?nop, fun src s hready hpc => ?br⟩
  case clr =>
    rw [← exec_expand]
    exact exec_mov_of_src2 (src2_const_zero w s) hfin
  case nop =>
    rw [← exec_expand]
    exact exec_mov_of_src2 (dst := .bucket) (src2_const_zero .word s) rfl
  case br =>
    rw [← exec_expand]
    exact exec_mov_pc hready hpc

theorem readable_of_even {c : Config} {w : Width} {a : Word} (h : w = .byte ∨ isOdd a = false)
    (hr : (inDevice w a || inRam c a || inFlash c a) = true) : readable c w a = true := by
  obtain ⟨haligned, hto⟩ := aligned_and_alignTo_of_even (c := c) h
  rw [readable, haligned, hto, hr, Bool.and_self]

/-- The width does not matter to SP (R147). -/
theorem srcDone_autoInc_sp (w : Width) (s : State) :
    (srcDone w (.autoInc .sp) s).regs.sp = clearBit0 (s.regs.sp + 2) := by
  rw [srcDone, State.put_sp_sp, stored, autoStep_eq_ite]
  simp

/-- Settles O46: POP and RET are MOV of `@SP+`, which raises SP before the destination is placed. -/
theorem popRetComplete : Obligations.PopRetComplete := by
  unfold Obligations.PopRetComplete
  refine ⟨fun w dst s v hv hfin => ⟨?pop, srcDone_autoInc_sp w s.skipWord⟩, fun s he hmem hpc => ?ret⟩
  case pop =>
    rw [← exec_expand]
    exact exec_mov_of_src2 hv.symm hfin
  case ret =>
    have hread : readable s.cfg .word (s.get .sp) = true :=
      readable_of_even (.inr he) (by rw [Bool.or_assoc, State.get_sp, hmem, Bool.or_true])
    obtain ⟨hready, hdone, hval⟩ :=
      srcOperand_autoInc_word (r := .sp) rfl he (inRam_or_inFlash_ge hmem) hread
    rw [← exec_expand]
    exact exec_mov_reg (r := .pc) hready nofun nofun hdone hval fun _ => hpc

end Sys2Proof.Machine
end

section
/-! PROOFS. The instructions on one bit of SR (O47). -/

namespace Sys2Proof.Machine

/-- Setting one of bits 0 to 8 leaves SR's reserved bits as they are (R31). -/
theorem setBit_lt {v : Word} {k : Nat} (hk : k < 9) (h : v.toNat < 0x0200) (b : Bool) :
    (setBit v k b).toNat < 0x0200 := by
  have hmask : srReservedMask.getLsbD k = false := by interval_cases k <;> rfl
  rw [← srReserved_iff] at h ⊢
  rw [setBit_and_of_bit (by omega) hmask, h]

theorem canFinish_const_sr {v : Word} (h : v.toNat < 0x0200) (c : ConstGen) (s : State) :
    canFinish bitsShape .word (.const c) (.reg .sr) s v = true :=
  decide_eq_true h

theorem finished_const_sr (c : ConstGen) (s : State) (v : Word) :
    finished bitsShape .word (.const c) (.reg .sr) s 0 v FlagUpdate.none =
      { s with regs := { s.regs with pc := s.regs.pc + 2, sr := v } } := rfl

/-- R230 and R231: BIC and BIS of the constant that is bit `k` clear and set that bit of SR. -/
theorem exec_of_expand_bit_sr {i : Instr} {c : ConstGen} {k : Nat} {b : Bool} {s : State}
    (hi : i.expand = (bif b then Instr.bis else Instr.bic) .word (.const c) (.reg .sr))
    (hc : constValue c = BitVec.twoPow 16 k) (hk : k < 9) (hsr : s.regs.sr.toNat < 0x0200) :
    exec i s =
      .next { s with regs := { s.regs with pc := s.regs.pc + 2, sr := setBit s.regs.sr k b } } := by
  have hfin := canFinish_const_sr (setBit_lt hk hsr b) c s
  obtain ⟨hbic, hbis⟩ := bicBisCompletes .word (.const c) (.reg .sr) s
  rw [← exec_expand, hi, ← finished_const_sr c]
  cases b with
  | false =>
    have hclear : setBit s.regs.sr k false = s.regs.sr &&& ~~~constValue c := by rw [hc]; rfl
    exact hbic _ hclear hfin
  | true =>
    have hset : setBit s.regs.sr k true = s.regs.sr ||| constValue c := by rw [hc]; rfl
    exact hbis _ hset hfin

/-- Settles O47: the names expand to BIC and BIS of 1, 2, 4 and 8, which are the bits 0 to 3. -/
theorem flagInstructionsComplete : Obligations.FlagInstructionsComplete := by
  unfold Obligations.FlagInstructionsComplete
  refine ⟨?names, fun s hsr => ?effects⟩
  case names =>
    rintro _ rfl
    exact ⟨rfl, by decide⟩
  case effects =>
    intro writes
    refine ⟨?clrc, ?clrz, ?clrn, ?dint, ?setc, ?setz, ?setn, ?eint⟩
    case clrc => exact exec_of_expand_bit_sr (c := .one) rfl rfl (by decide) hsr
    case clrz => exact exec_of_expand_bit_sr (c := .two) rfl rfl (by decide) hsr
    case clrn => exact exec_of_expand_bit_sr (c := .four) rfl rfl (by decide) hsr
    case dint => exact exec_of_expand_bit_sr (c := .eight) rfl rfl (by decide) hsr
    case setc => exact exec_of_expand_bit_sr (c := .one) rfl rfl (by decide) hsr
    case setz => exact exec_of_expand_bit_sr (c := .two) rfl rfl (by decide) hsr
    case setn => exact exec_of_expand_bit_sr (c := .four) rfl rfl (by decide) hsr
    case eint => exact exec_of_expand_bit_sr (c := .eight) rfl rfl (by decide) hsr

end Sys2Proof.Machine
end

section
/-! PROOFS. The request accepted at a boundary (O9): the table of sources is searched from the highest priority down,
so what is found first has the highest. -/

namespace Sys2Proof.Machine

/-! ## Searching a list by falling keys -/

/-- In a list whose keys fall, the first element with a property is the one of the highest key among those with it. -/
theorem find?_eq_some_iff_of_pairwise {α : Type} {key : α → Nat} {f : α → Bool} {l : List α} {p : α}
    (hl : l.Pairwise fun x y => key y < key x) :
    l.find? f = some p ↔ p ∈ l ∧ f p = true ∧ ∀ q ∈ l, f q = true → key q ≤ key p := by
  induction l with
  | nil => simp
  | cons x t ih =>
    obtain ⟨hx, ht⟩ := List.pairwise_cons.mp hl
    cases hf : f x with
    | false =>
      rw [List.find?_cons_of_neg (by simp [hf]), ih ht]
      constructor
      · rintro ⟨hmem, hp, hmax⟩
        exact ⟨.tail x hmem, hp, List.forall_mem_cons.mpr ⟨fun h => absurd h (by simp [hf]), hmax⟩⟩
      · rintro ⟨hmem, hp, hmax⟩
        have hne : p ≠ x := by rintro rfl; simp [hf] at hp
        exact ⟨List.mem_of_ne_of_mem hne hmem, hp, (List.forall_mem_cons.mp hmax).2⟩
    | true =>
      rw [List.find?_cons_of_pos hf, Option.some.injEq]
      constructor
      · rintro rfl
        exact ⟨List.mem_cons_self, hf,
          List.forall_mem_cons.mpr ⟨fun _ => Nat.le_refl _, fun q hq _ => Nat.le_of_lt (hx q hq)⟩⟩
      · rintro ⟨hmem, -, hmax⟩
        have hle : key x ≤ key p := hmax x List.mem_cons_self hf
        rcases List.mem_cons.mp hmem with rfl | hmem
        · rfl
        · exact absurd (hx p hmem) (Nat.not_lt.mpr hle)

/-! ## The table of sources (R302, R304) -/

theorem mem_irqSources (p : IrqSource) : p ∈ irqSources := by
  cases p <;> decide

theorem irqSources_pairwise : irqSources.Pairwise fun p q => priority q < priority p := by decide

theorem isMaskable_eq_false {p : IrqSource} : isMaskable p = false ↔ p = .nmi := by
  cases p <;> decide

theorem priority_le_nmi (p : IrqSource) : priority p ≤ priority .nmi := by
  cases p <;> decide

theorem eq_nmi_of_priority_le {p : IrqSource} (h : priority .nmi ≤ priority p) : p = .nmi := by
  cases p
  case nmi => rfl
  all_goals exact absurd h (by decide)

/-! ## Acceptance (R305, R307) -/

section
variable {s : State}

theorem acceptable_of_nmi (h : .nmi ∈ s.pending) : s.acceptable = some .nmi := if_pos h

theorem acceptable_of_not_gie (h : .nmi ∉ s.pending) (hg : s.gie = false) : s.acceptable = none := by
  rw [State.acceptable, if_neg h, hg]
  rfl

/-- Without the (non)-maskable request every pending request is maskable. -/
theorem acceptable_of_gie (h : .nmi ∉ s.pending) (hg : s.gie = true) :
    s.acceptable = irqSources.find? fun p => decide (p ∈ s.pending) := by
  have hmask : (fun p => isMaskable p && decide (p ∈ s.pending)) = fun p => decide (p ∈ s.pending) := by
    funext p
    cases hp : isMaskable p with
    | true => rfl
    | false =>
      rw [isMaskable_eq_false.mp hp]
      simp [h]
  rw [State.acceptable, if_neg h, if_pos hg, hmask]

theorem acceptable_eq_some_iff {p : IrqSource} :
    s.acceptable = some p ↔
      p ∈ s.pending ∧ (p = .nmi ∨ s.gie = true) ∧ ∀ q ∈ s.pending, priority q ≤ priority p := by
  by_cases hn : .nmi ∈ s.pending
  · rw [acceptable_of_nmi hn, Option.some.injEq]
    constructor
    · rintro rfl
      exact ⟨hn, .inl rfl, fun q _ => priority_le_nmi q⟩
    · rintro ⟨-, -, hmax⟩
      exact (eq_nmi_of_priority_le (hmax _ hn)).symm
  · have hne : p ∈ s.pending → p ≠ .nmi := fun hp he => hn (he ▸ hp)
    cases hg : s.gie with
    | false =>
      rw [acceptable_of_not_gie hn hg]
      constructor
      · exact nofun
      · rintro ⟨hp, he | he, -⟩
        · exact absurd he (hne hp)
        · exact nomatch he
    | true =>
      rw [acceptable_of_gie hn hg, find?_eq_some_iff_of_pairwise irqSources_pairwise]
      simp [mem_irqSources]

theorem acceptable_eq_none_iff :
    s.acceptable = none ↔ .nmi ∉ s.pending ∧ (s.gie = true → s.pending = []) := by
  by_cases hn : .nmi ∈ s.pending
  · simp [acceptable_of_nmi hn, hn]
  · cases hg : s.gie with
    | false => simp [acceptable_of_not_gie hn hg, hn]
    | true => simp [acceptable_of_gie hn hg, hn, mem_irqSources, List.eq_nil_iff_forall_not_mem]

end

/-- Settles O9: by whether the (non)-maskable request is pending, then by GIE. -/
theorem highestPriorityAccepted : Obligations.HighestPriorityAccepted := by
  unfold Obligations.HighestPriorityAccepted
  exact fun _ => ⟨fun _ => acceptable_eq_some_iff, acceptable_eq_none_iff⟩

end Sys2Proof.Machine
end

section
/-! PROOFS. The boundary (O7, O8): what stands first at it decides the step, and the environment's move that follows
changes the hardware's own bits of the peripheral registers. -/

namespace Sys2Proof.Machine

section
variable {s : State}

theorem quiet_iff : quiet s = true ↔ s.resetRequested = none ∧ s.acceptable = none := by
  simp [quiet]

/-! ## The order of R307 -/

theorem step_of_resetRequested {c : ResetCause} (h : s.resetRequested = some c) :
    step s = andThen (performReset (some c) s) fun t => .next t.nextBoundary := by
  simp only [step, boundaryStep, atBoundary, h]

theorem step_of_acceptable {p : IrqSource} (hr : s.resetRequested = none) (ha : s.acceptable = some p) :
    step s = andThen (enterInterrupt p s) fun t => .next t.nextBoundary := by
  simp only [step, boundaryStep, atBoundary, hr, ha]

theorem step_of_cpuOff (hq : quiet s = true) (hc : s.cpuOff = true) : step s = .next s.nextBoundary := by
  obtain ⟨hr, ha⟩ := quiet_iff.mp hq
  simp only [step, boundaryStep, atBoundary, hr, ha, hc, if_true, andThen_next]

/-! ## The instruction at PC (R102) -/

theorem fetchInstr_of_decode {a : Word} {i : Instr} {rest : List Byte} (ha : fetchAddr s = .next a)
    (hd : decode (codeBytes s a) = .ok (i, rest)) : fetchInstr s = .next i := by
  rw [fetchInstr, ha, andThen_next, hd]

theorem runInstr_of_fetchInstr {i : Instr} (hf : fetchInstr s = .next i) :
    runInstr s = onFault s (exec i s) := by
  rw [runInstr, hf, andThen_next]

theorem onFault_fault_of_stop (f : Fault) (h : s.cfg.faultAction = .stop) :
    onFault s (.fault f) = .fault f := by
  simp only [onFault, h]

end

/-- Settles O7: at a quiet boundary the step is `runInstr`, which answers as `exec` does. -/
theorem stepRunsDecoded : Obligations.StepRunsDecoded := by
  unfold Obligations.StepRunsDecoded
  intro s a i rest hr ha hc hfetch hdecode
  have hstep : step s = andThen (onFault s (exec i s)) fun t => .next t.nextBoundary := by
    rw [step_of_quiet (quiet_iff.mpr ⟨hr, ha⟩) hc,
      runInstr_of_fetchInstr (fetchInstr_of_decode hfetch hdecode)]
  refine ⟨fun t ht => ?_, fun r hr => ?_, fun f hf hstop => ?_⟩
  · rw [hstep, ht]
    rfl
  · rw [hstep, hr]
    rfl
  · rw [hstep, hf, onFault_fault_of_stop f hstop, andThen_fault]

/-- Settles O8: the three events of a boundary in order, and the bits of `deviceMask`, register by register. -/
theorem boundaryOrder : Obligations.BoundaryOrder := by
  unfold Obligations.BoundaryOrder
  intro s
  refine ⟨fun c => step_of_resetRequested, fun p => step_of_acceptable, fun hc hr hn hp => ?_,
    s.nextBoundary_regs, s.nextBoundary_mem, s.nextBoundary_cfg, s.nextBoundary_resetFlags,
    s.nextBoundary_events, fun r => ?_⟩
  · have hnone : s.acceptable = none :=
      acceptable_eq_none_iff.mpr ⟨hn, fun hg => hp.resolve_left (by simp [hg])⟩
    exact step_of_cpuOff (quiet_iff.mpr ⟨hr, hnone⟩) hc
  · have hmove : ∀ hardware : Word, hardware = deviceMask r →
        s.nextBoundary.periph.get r &&& ~~~hardware = s.periph.get r &&& ~~~hardware := by
      rintro _ rfl
      exact s.nextBoundary_get r
    exact hmove _ (by cases r <;> rfl)

end Sys2Proof.Machine
end

section
/-! PROOFS. Interrupt entry and the return from it (O54, O55): with the stack in RAM the entry is two words written
below SP, and RETI reads them back. -/

namespace Sys2Proof.Machine

/-! ## Words of the vector table (R61, R72) -/

theorem isOdd_vectorAddr {k : Nat} (hk : k ≤ 31) : isOdd (vectorAddr k) = false := by
  rw [not_isOdd_iff, vectorAddr_toNat hk]
  omega

/-- The vector table is flash in every legal map. -/
theorem inFlash_of_ge {c : Config} (hc : c.wf = true) {a : Word} (ha : 0xFFE0 ≤ a.toNat) :
    inFlash c a = true := by
  simp only [Config.wf, Bool.and_eq_true, decide_eq_true_eq] at hc
  obtain ⟨⟨⟨⟨hstart, _⟩, hram⟩, _⟩, hflash⟩ := hc
  simp only [inFlash, Bool.and_eq_true, Bool.or_eq_true, decide_eq_true_eq]
  omega

theorem vectorAddr_ge {k : Nat} (hlo : 16 ≤ k) (hhi : k ≤ 31) : 0xFFE0 ≤ (vectorAddr k).toNat := by
  rw [vectorAddr_toNat hhi]
  omega

/-- A vector is read as the word there, and the read leaves no trace. -/
theorem read_vector {k : Nat} (hlo : 16 ≤ k) (hhi : k ≤ 31) {s : State} (hc : s.cfg.wf = true) :
    readable s.cfg .word (vectorAddr k) = true ∧
      valueAt .word (vectorAddr k) s = Memory.readWord s.mem (vectorAddr k) ∧
      afterRead .word (vectorAddr k) s = s := by
  have hvec := vectorAddr_ge hlo hhi
  obtain ⟨haligned, hto⟩ :=
    aligned_and_alignTo_of_even (c := s.cfg) (w := .word) (.inr (isOdd_vectorAddr hhi))
  have hge : 0x0200 ≤ (alignTo .word (vectorAddr k)).toNat := by rw [hto]; omega
  refine ⟨?_, ?_, afterRead_of_ge hge s⟩
  · rw [readable, haligned, hto, inFlash_of_ge hc hvec, Bool.or_true, Bool.and_self]
  · rw [valueAt_of_ge hge, hto]
    rfl

theorem readWord_of_keepsFlash {s t : State} (h : KeepsFlash s t) {a : Word}
    (ha : inFlash s.cfg a = true) (ha1 : inFlash s.cfg (a + 1) = true) :
    Memory.readWord t.mem a = Memory.readWord s.mem a := by
  obtain ⟨-, hread⟩ := h
  rw [Memory.readWord, Memory.readWord, hread a ha, hread (a + 1) ha1]

theorem readWord_vector_of_keepsFlash {s t : State} (h : KeepsFlash s t) (hc : s.cfg.wf = true) {k : Nat}
    (hlo : 16 ≤ k) (hhi : k ≤ 31) :
    Memory.readWord t.mem (vectorAddr k) = Memory.readWord s.mem (vectorAddr k) := by
  have hvec := vectorAddr_ge hlo hhi
  refine readWord_of_keepsFlash h (inFlash_of_ge hc hvec) (inFlash_of_ge hc ?_)
  rw [toNat_succ_of_even (isOdd_vectorAddr hhi)]
  omega

theorem priority_bounds (p : IrqSource) : 16 ≤ priority p ∧ priority p ≤ 31 := by
  cases p <;> decide

/-! ## Two words below SP -/

/-- Words at different even addresses do not overlap. -/
theorem readWord_writeWord_of_ne (m : List Host.Cell) {a b : Word} (v : Word) (ha : isOdd a = false)
    (hb : isOdd b = false) (h : a ≠ b) :
    Memory.readWord (Memory.writeWord m b v) a = Memory.readWord m a := by
  have hne : a.toNat ≠ b.toNat := fun he => h (BitVec.eq_of_toNat_eq he)
  have ha1 := toNat_succ_of_even ha
  have hb1 := toNat_succ_of_even hb
  rw [not_isOdd_iff] at ha hb
  rw [Memory.readWord, Memory.readWord, Memory.read_writeWord_other, Memory.read_writeWord_other]
  all_goals omega

theorem sub_two_sub_two (v : Word) : v - 2 - 2 = v - 4 := by
  bv_omega

theorem even_sub_two {v : Word} (h : isOdd v = false) : isOdd (v - 2) = false :=
  (isOdd_sub_two v).trans h

theorem even_sub_four {v : Word} (h : isOdd v = false) : isOdd (v - 4) = false := by
  rw [← sub_two_sub_two]
  exact even_sub_two (even_sub_two h)

theorem sub_two_ne_sub_four (v : Word) : v - 2 ≠ v - 4 := by
  bv_omega

section
variable {s : State}

theorem canPush_of_inRam (he : isOdd s.regs.sp = false) (h : inRam s.cfg (s.regs.sp - 2) = true) :
    canPush s = true := by
  have heven := even_sub_two he
  have hstore : storable s.cfg .sp (s.regs.sp - 2) = true := by
    rw [storable, heven]
    rfl
  rw [canPush, hstore, stored_of_even heven, writable_of_even (.inr heven) (by rw [h, Bool.or_true]),
    Bool.and_self]

/-- A push onto a stack in RAM. -/
theorem pushed_of_inRam (he : isOdd s.regs.sp = false) (h : inRam s.cfg (s.regs.sp - 2) = true) (v : Word) :
    pushed .word v s =
      { s with
        regs := { s.regs with sp := s.regs.sp - 2 }
        mem := Memory.writeWord s.mem (s.regs.sp - 2) v } := by
  have heven : clearBit0 (s.regs.sp - 2) = s.regs.sp - 2 :=
    clearBit0_of_even (even_sub_two he)
  rw [pushed_of_ge .word v s (by rw [heven]; exact inRam_ge h), heven]
  rfl

/-- Both pushes of interrupt entry onto a stack in RAM. -/
theorem pushed_pushed_of_inRam (he : isOdd s.regs.sp = false) (ha : inRam s.cfg (s.regs.sp - 2) = true)
    (hb : inRam s.cfg (s.regs.sp - 4) = true) (v v' : Word) :
    pushed .word v' (pushed .word v s) =
      { s with
        regs := { s.regs with sp := s.regs.sp - 4 }
        mem := Memory.writeWord (Memory.writeWord s.mem (s.regs.sp - 2) v) (s.regs.sp - 4) v' } := by
  rw [← sub_two_sub_two] at hb ⊢
  have hfirst := pushed_of_inRam he ha v
  rw [pushed_of_inRam (s := pushed .word v s), hfirst]
  · rw [hfirst]
    exact even_sub_two he
  · rw [hfirst]
    exact hb

/-! ## Entry (R308) -/

/-- What interrupt entry makes of a state whose stack is in RAM. -/
def entered (p : IrqSource) (s : State) : State :=
  { s with
    regs := { s.regs with
      pc := clearBit0 (Memory.readWord s.mem (vectorAddr (priority p)))
      sp := s.regs.sp - 4
      sr := setBit 0 bitSCG0 (s.regs.sr.getLsbD bitSCG0 && (Config.freeWord s.draws).getLsbD 0) }
    mem := Memory.writeWord (Memory.writeWord s.mem (s.regs.sp - 2) s.regs.pc) (s.regs.sp - 4) s.regs.sr
    periph := s.periph.acceptFlag p
    pending := if clearedByAcceptance p then withdraw p s.pending else s.pending
    events := .accepted p :: s.events
    draws := s.draws + 1 }

theorem entryCleared_of_inRam (he : isOdd s.regs.sp = false) (ha : inRam s.cfg (s.regs.sp - 2) = true)
    (hb : inRam s.cfg (s.regs.sp - 4) = true) :
    entryCleared s =
      { s with
        regs := { s.regs with
          sp := s.regs.sp - 4
          sr := setBit 0 bitSCG0 (s.regs.sr.getLsbD bitSCG0 && (Config.freeWord s.draws).getLsbD 0) }
        mem := Memory.writeWord (Memory.writeWord s.mem (s.regs.sp - 2) s.regs.pc) (s.regs.sp - 4) s.regs.sr
        draws := s.draws + 1 } := by
  rw [entryCleared, pushed_pushed_of_inRam he ha hb]
  rfl

/-- With the stack in RAM, entry can fail only by a vector that PC cannot hold. -/
theorem enterInterrupt_eq_next_of_inRam {p : IrqSource} {t : State} (hc : s.cfg.wf = true)
    (he : isOdd s.regs.sp = false) (ha : inRam s.cfg (s.regs.sp - 2) = true)
    (hb : inRam s.cfg (s.regs.sp - 4) = true) :
    enterInterrupt p s = .next t ↔
      storable s.cfg .pc (Memory.readWord s.mem (vectorAddr (priority p))) = true ∧ t = entered p s := by
  obtain ⟨hlo, hhi⟩ := priority_bounds p
  have hpushPc : canPush s = true := canPush_of_inRam he ha
  have hpushSr : canPush (pushed .word s.regs.pc s) = true := by
    rw [pushed_of_inRam he ha]
    exact canPush_of_inRam (even_sub_two he) (by rwa [sub_two_sub_two])
  obtain ⟨hreadable, -, -⟩ := read_vector hlo hhi hc
  have hcleared := entryCleared_of_inRam he ha hb
  obtain ⟨-, hvalue, hafter⟩ := read_vector hlo hhi (s := entryCleared s) (by rwa [hcleared])
  have hkeeps : KeepsFlash s (entryCleared s) := by
    simp only [canPush, Bool.and_eq_true] at hpushPc hpushSr
    exact ((keepsFlash_pushed hc hpushPc.2 _).trans
      (keepsFlash_pushed (by rwa [pushed_cfg]) hpushSr.2 _)).trans (.of_mem_eq rfl rfl)
  rw [readWord_vector_of_keepsFlash hkeeps hc hlo hhi] at hvalue
  rw [enterInterrupt_eq_next, hpushPc, hpushSr, hreadable, hvalue, hafter, hcleared]
  constructor
  · rintro ⟨_, _, -, rfl, rfl, hstore, rfl⟩
    exact ⟨hstore, rfl⟩
  · rintro ⟨hstore, rfl⟩
    exact ⟨_, _, rfl, rfl, rfl, hstore, rfl⟩

end

/-! ## Acceptance withdraws the request of a vector that serves one flag (R309) -/

theorem clearedByAcceptance_iff (p : IrqSource) :
    clearedByAcceptance p = true ↔ priority p ∈ [29, 27, 26, 25, 21] := by
  cases p <;> decide

theorem not_clearedByAcceptance_iff (p : IrqSource) :
    clearedByAcceptance p = false ↔ priority p ∈ [30, 28, 24, 23, 22, 19, 18] := by
  cases p <;> decide

theorem Periph.acceptFlag_eq (q : Periph) (p : IrqSource) :
    q.acceptFlag p = { q with
      adc10ctl0 := if p = .adc10 then q.adc10ctl0 &&& 0xFFFB else q.adc10ctl0
      ta0cctl0 := if p = .timer0Ccr0 then q.ta0cctl0 &&& 0xFFFE else q.ta0cctl0
      ta1cctl0 := if p = .timer1Ccr0 then q.ta1cctl0 &&& 0xFFFE else q.ta1cctl0 } := by
  cases p <;> rfl

section
variable {p : IrqSource} {s : State}

theorem readWord_entered_sp (hwf : Memory.wf s.mem = true) :
    Memory.readWord (entered p s).mem (s.regs.sp - 4) = s.regs.sr :=
  Memory.readWord_writeWord (Memory.wf_writeWord hwf _ _) _ _

theorem readWord_entered_sp_add_two (hwf : Memory.wf s.mem = true) (he : isOdd s.regs.sp = false) :
    Memory.readWord (entered p s).mem (s.regs.sp - 2) = s.regs.pc := by
  have heven := even_sub_two he
  rw [entered, readWord_writeWord_of_ne _ _ heven (even_sub_four he) (sub_two_ne_sub_four _),
    Memory.readWord_writeWord hwf]

/-- Entry writes the two stack words and nothing else in memory. -/
theorem read_entered_other (he : isOdd s.regs.sp = false) {x : Nat}
    (ha : x ∉ storedBytes .word (s.regs.sp - 2)) (hb : x ∉ storedBytes .word (s.regs.sp - 4)) :
    Memory.read (entered p s).mem x = Memory.read s.mem x := by
  have heven := even_sub_two he
  have hpc := read_storeValue_other s.mem .word (s.regs.sp - 2) s.regs.pc x ha
  rw [alignTo_of_even .word heven] at hpc
  have hsr := read_storeValue_other (Memory.writeWord s.mem (s.regs.sp - 2) s.regs.pc) .word
    (s.regs.sp - 4) s.regs.sr x hb
  rw [alignTo_of_even .word (even_sub_four he)] at hsr
  exact hsr.trans hpc

theorem get_entered {r : Reg} (hpc : r ≠ .pc) (hsp : r ≠ .sp) (hsr : r ≠ .sr) :
    (entered p s).get r = s.get r := by
  cases r
  case pc => exact absurd rfl hpc
  case sp => exact absurd rfl hsp
  case sr => exact absurd rfl hsr
  all_goals rfl

theorem entered_sr_and : (entered p s).regs.sr &&& 0xFFBF = 0 :=
  setBit_and_of_bit (by decide) (by decide)

theorem entered_sr_of_not_scg0 (h : s.regs.sr.getLsbD bitSCG0 = false) : (entered p s).regs.sr = 0 := by
  rw [entered, h]
  rfl

theorem entered_pending_of_cleared (h : clearedByAcceptance p = true) :
    (entered p s).pending = s.pending.filter (· != p) := if_pos h

theorem entered_pending_of_kept (h : clearedByAcceptance p = false) :
    (entered p s).pending = s.pending := if_neg (by simp [h])

end

/-- Settles O54: the entry answers `entered p s`, of which each clause is one field. -/
theorem interruptEntry : Obligations.InterruptEntry := by
  unfold Obligations.InterruptEntry
  rintro s p _ _ hinv hreset haccept rfl rfl ha hb hvector
  obtain ⟨hcfg, ⟨hwf, -⟩, ⟨-, he, -⟩, -, -⟩ := State.inv_iff.mp hinv
  have henter : enterInterrupt p s = .next (entered p s) :=
    (enterInterrupt_eq_next_of_inRam hcfg he ha hb).mpr ⟨hvector, rfl⟩
  refine ⟨entered p s, ?_, henter, rfl, rfl, entered_sr_and, entered_sr_of_not_scg0,
    readWord_entered_sp_add_two hwf he, readWord_entered_sp hwf, fun r => get_entered,
    fun x => read_entered_other he, rfl, rfl, hreset, rfl, rfl, s.periph.acceptFlag_eq p,
    fun hp => ?_, fun hp => ?_⟩
  · rw [step_of_acceptable hreset haccept, henter, andThen_next]
  · exact entered_pending_of_cleared ((clearedByAcceptance_iff p).mpr hp)
  · exact entered_pending_of_kept ((not_clearedByAcceptance_iff p).mpr hp)

/-- Settles O55: RETI pops the two words that entry pushed, SR first (R187). -/
theorem entryThenReturn : Obligations.EntryThenReturn := by
  unfold Obligations.EntryThenReturn
  intro s t u p hinv ha hb henter hcfg hsp hword hword2
  obtain ⟨hmap, ⟨hwf, -⟩, ⟨hpc, he, hsr⟩, -, -⟩ := State.inv_iff.mp hinv
  obtain ⟨-, rfl⟩ := (enterInterrupt_eq_next_of_inRam hmap he ha hb).mp henter
  have hspEq : (entered p s).regs.sp = s.regs.sp - 4 := rfl
  have hcfgEq : u.cfg = s.cfg := hcfg
  have hadd : s.regs.sp - 4 + 2 = s.regs.sp - 2 := by bv_omega
  rw [hspEq] at hsp hword hword2
  rw [readWord_entered_sp hwf] at hword
  rw [hadd, readWord_entered_sp_add_two hwf he] at hword2
  have hreti := retiCompletes u (s.regs.sp - 4) s.regs.sr s.regs.pc hsp.symm (even_sub_four he)
    (by rw [hcfgEq, hb, Bool.true_or]) (by rw [hcfgEq, hadd, ha, Bool.true_or]) hword.symm
    (by rw [hadd, hword2]) hsr hpc
  rwa [BitVec.sub_add_cancel] at hreti

end Sys2Proof.Machine
end

section
/-! PROOFS. The effect of a reset (O56). -/

namespace Sys2Proof.Machine

/-- R312: the cause's flag is set and the others stay (log entry 7). -/
theorem recordCause_some (f : ResetFlags) (c : ResetCause) :
    recordCause f (some c) =
      { porifg := f.porifg || c == .powerUp
        rstifg := f.rstifg || c == .externalReset
        wdtifg := f.wdtifg || c == .watchdog
        keyv := f.keyv || c == .flashKeyViolation } := by
  obtain ⟨_, _, _, _⟩ := f
  cases c <;> simp [recordCause]

/-- What power-up fills is RAM and no more (R40, R61). -/
theorem read_drawBytes_ramSize (c : Config) (m : List Host.Cell) (k : Nat) {x : Nat}
    (hx : x < 0x0200 ∨ c.ramEnd.toNat < x) :
    Memory.read (drawBytes (ramSize c) 0x0200 k m) x = Memory.read m x := by
  apply read_drawBytes_other
  unfold ramSize
  omega

/-- Settles O56: the state of `performReset_eq_next`, field by field; the vector is a word of flash. -/
theorem resetEffect : Obligations.ResetEffect := by
  unfold Obligations.ResetEffect
  intro s c hcfg hreset hstore
  obtain ⟨hreadable, hvalue, -⟩ := read_vector (k := 31) (by decide) (by decide) hcfg
  have hvector : valueAt .word resetVector s = Memory.readWord s.mem 0xFFFE := hvalue
  have hcan : (readable s.cfg .word resetVector &&
      storable s.cfg .pc (valueAt .word resetVector s)) = true := by
    rw [hvector, hstore, Bool.and_true]
    exact hreadable
  have hperform := performReset_eq_next (c := some c) |>.mpr ⟨hcan, rfl⟩
  refine ⟨_, ?_, hperform, congrArg clearBit0 hvector, rfl, isOdd_clearBit0 _, rfl, rfl, rfl,
    fun hc => ?_, fun x hx => ?_, rfl, rfl, rfl, rfl, rfl, rfl, rfl, rfl, rfl, rfl, rfl, rfl, rfl, rfl, rfl,
    rfl, rfl, recordCause_some _ _, rfl⟩
  · rw [step_of_resetRequested hreset, hperform, andThen_next]
  · exact if_neg fun h => hc (Option.some.inj h)
  · dsimp only
    split
    · exact read_drawBytes_ramSize s.cfg s.mem _ hx
    · rfl

end Sys2Proof.Machine
end

section
/-! PROOFS. The printed peripheral registers (O17, O18): an access to one is `Periph.readValue` and
`Periph.writeValue`, whose bits the layouts decide, and the requests of one vector. -/

namespace Sys2Proof.Machine

/-! ## Accesses in the peripheral regions (R74) -/

section
variable {w : Width} {a : Word} {s : State}

theorem writeMem_of_inDevice (h : w = .byte ∨ isOdd a = false) (hd : inDevice w a = true) (v : Word) :
    writeMem w a v s = .next (devWrite w a v s) := by
  obtain ⟨-, hto⟩ := aligned_and_alignTo_of_even (c := s.cfg) h
  rw [writeMem_of_even h (by simp [hd]), afterWrite, if_pos (by rw [hto]; exact inDevice_lt hd), hto]

/-- What a read below 0200h can answer is the peripheral read. -/
theorem readMem_eq_next_of_lt (h : w = .byte ∨ isOdd a = false) (hlt : a.toNat < 0x0200) {p : Word × State}
    (hp : readMem w a s = .next p) : p = devRead w a s := by
  obtain ⟨-, hto⟩ := aligned_and_alignTo_of_even (c := s.cfg) h
  have hlt' : (alignTo w a).toNat < 0x0200 := by rwa [hto]
  obtain ⟨-, rfl⟩ := readMem_eq_next.mp hp
  rw [valueAt, if_pos hlt', afterRead, if_pos hlt', hto]

theorem readMem_of_inDevice (h : w = .byte ∨ isOdd a = false) (hd : inDevice w a = true) :
    readMem w a s = .next (devRead w a s) := by
  have hread := readMem_of_even (s := s) h (by simp [hd])
  rw [hread, readMem_eq_next_of_lt h (inDevice_lt hd) hread]

theorem inDevice_byte_of_lt (h : a.toNat < 0x0100) : inDevice .byte a = true := decide_eq_true h

/-! ## Accesses to a printed register -/

variable {r : PeriphReg}

theorem devRead_value (h : regAt s.cfg a = some r) (w : Width) :
    (devRead w a s).1 = truncTo w (s.periph.readValue r (Config.freeWord s.draws)) := by
  simp only [devRead, h]

theorem devRead_pending (h : regAt s.cfg a = some r) (w : Width) :
    (devRead w a s).2.pending = readRequests r ((Config.freeWord s.draws).getLsbD 8) s.pending := by
  simp only [devRead, h]

theorem devWrite_periph (h : regAt s.cfg a = some r) (w : Width) (v : Word) :
    (devWrite w a v s).periph =
      s.periph.set r (s.periph.writeValue r (truncTo w v) (Config.freeWord s.draws)) := by
  simp only [devWrite, h]

theorem devWrite_pending (h : regAt s.cfg a = some r) (w : Width) (v : Word) :
    (devWrite w a v s).pending = writeRequests r (devWrite w a v s).periph s.pending := by
  simp only [devWrite, h]

/-! ## The bits of a register after a write (log entries 9 and 15) -/

theorem getLsbD_get_devWrite (h : regAt s.cfg a = some r) (hr : r ≠ .uca0txbuf) (w : Width) (v : Word)
    (k : Nat) :
    ((devWrite w a v s).periph.get r).getLsbD k =
      if (softMask r).getLsbD k then
        (if (s.periph.openBits r).getLsbD k then (Config.freeWord s.draws).getLsbD k
          else (truncTo w v).getLsbD k)
      else (s.periph.get r).getLsbD k := by
  rw [devWrite_periph h, Periph.get_set]
  by_cases hheld : heldMask r = 0
  · have hsoft : (softMask r).getLsbD k = false := by
      rw [Bool.eq_false_iff]
      intro hk
      simpa [hheld] using held_of_soft hk
    simp [hheld, hsoft]
  · rw [if_pos ⟨rfl, hheld⟩, Periph.getLsbD_writeValue _ _ _ _ _ hr]

theorem get_devWrite_of_ne (h : regAt s.cfg a = some r) (w : Width) (v : Word) {q : PeriphReg} (hq : q ≠ r) :
    (devWrite w a v s).periph.get q = s.periph.get q := by
  rw [devWrite_periph h, Periph.get_set_of_ne _ _ _ _ hq]

/-- A bit software writes is no bit that shows the outside. -/
theorem not_input_of_soft {r : PeriphReg} {k : Nat} (h : (softMask r).getLsbD k = true) :
    (inputMask r).getLsbD k = false := by
  have hdisjoint : softMask r &&& inputMask r = 0 := by cases r <;> decide
  have hbit : (softMask r &&& inputMask r).getLsbD k = false := by
    rw [hdisjoint]
    exact BitVec.getLsbD_zero
  simpa [h] using hbit

/-- The cut to an access width goes bit by bit. -/
theorem getLsbD_truncTo_congr {x y : Word} {k : Nat} (h : x.getLsbD k = y.getLsbD k) (w : Width) :
    (truncTo w x).getLsbD k = (truncTo w y).getLsbD k := by
  cases w with
  | word => exact h
  | byte => rw [truncTo, truncTo, zextByte, zextByte, BitVec.getLsbD_and, BitVec.getLsbD_and, h]

/-- A bit software writes that is not open is read back as written. -/
theorem getLsbD_devRead_devWrite (h : regAt s.cfg a = some r) (hr : r ≠ .uca0txbuf) (w : Width) (v : Word)
    {k : Nat} (hsoft : (softMask r).getLsbD k = true) (hopen : (s.periph.openBits r).getLsbD k = false) :
    (devRead w a (devWrite w a v s)).1.getLsbD k = (truncTo w v).getLsbD k := by
  have hrx : r ≠ .uca0rxbuf := by
    rintro rfl
    have hzero : softMask .uca0rxbuf = 0 := by decide
    simp [hzero] at hsoft
  have hheld : ((devWrite w a v s).periph.get r).getLsbD k = (truncTo w v).getLsbD k := by
    rw [getLsbD_get_devWrite h hr, if_pos hsoft, hopen]
    rfl
  have hregAt : regAt (devWrite w a v s).cfg a = some r := by rwa [devWrite_cfg]
  rw [devRead_value hregAt, ← truncTo_truncTo w v]
  apply getLsbD_truncTo_congr
  rw [Periph.getLsbD_readValue _ _ _ _ hrx, not_input_of_soft hsoft, held_of_soft hsoft, hheld,
    Bool.and_true]
  rfl

/-- A register of eight bits that software writes freely is read back whole. -/
theorem devRead_devWrite_byte (h : regAt s.cfg a = some r) (hr : r ≠ .uca0txbuf)
    (hsoft : softMask r = 0x00FF) (hopen : s.periph.openBits r = 0) (v : Word) :
    (devRead .byte a (devWrite .byte a v s)).1 = truncTo .byte v := by
  have hregAt : regAt (devWrite .byte a v s).cfg a = some r := by rwa [devWrite_cfg]
  apply BitVec.eq_of_getLsbD_eq
  intro k _
  cases hk : (softMask r).getLsbD k with
  | true => exact getLsbD_devRead_devWrite h hr .byte v hk (by rw [hopen]; exact BitVec.getLsbD_zero)
  | false =>
    have hcut : ∀ x : Word, (truncTo .byte x).getLsbD k = false := by
      intro x
      rw [hsoft] at hk
      rw [truncTo, zextByte, BitVec.getLsbD_and]
      exact Bool.and_eq_false_imp.mpr fun _ => hk
    rw [devRead_value hregAt, hcut, hcut]

end

/-! ## The requests of a vector (R306, R350, R351, R360; log entry 16) -/

/-- The request that follows the flags of a register, and whether a flag and its enable are both 1. -/
def flagVector (r : PeriphReg) (p : Periph) : Option (IrqSource × Bool) :=
  match r with
  | .ta0cctl0 => some (.timer0Ccr0, ccRequest p.ta0cctl0)
  | .ta1cctl0 => some (.timer1Ccr0, ccRequest p.ta1cctl0)
  | .ta0ctl | .ta0cctl1 | .ta0cctl2 =>
    some (.timer0Multi, taRequest p.ta0ctl || ccRequest p.ta0cctl1 || ccRequest p.ta0cctl2)
  | .ta1ctl | .ta1cctl1 | .ta1cctl2 =>
    some (.timer1Multi, taRequest p.ta1ctl || ccRequest p.ta1cctl1 || ccRequest p.ta1cctl2)
  | .adc10ctl0 => some (.adc10, adcRequest p.adc10ctl0)
  | _ => none

theorem flagRequests_eq (r : PeriphReg) (p : Periph) (ps : List IrqSource) :
    flagRequests r p ps = (flagVector r p).elim ps fun x => request x.1 x.2 ps := by
  cases r <;> rfl

/-- A write to any printed register but UCAxTXBUF moves the request of its vector alone. -/
theorem devWrite_pending_eq {a : Word} {s : State} {r : PeriphReg} (h : regAt s.cfg a = some r)
    (hr : r ≠ .uca0txbuf) (w : Width) (v : Word) :
    (devWrite w a v s).pending =
      (flagVector r (devWrite w a v s).periph).elim s.pending fun x => request x.1 x.2 s.pending := by
  rw [devWrite_pending h, writeRequests, if_neg hr, flagRequests_eq]

/-! ## Bits that read as zero -/

/-- A bit that is neither held nor shows the outside reads as 0. -/
theorem getLsbD_readValue_of_zero (p : Periph) {r : PeriphReg} (d : Word) {k : Nat} (hr : r ≠ .uca0rxbuf)
    (hi : (inputMask r).getLsbD k = false) (hh : (heldMask r).getLsbD k = false) :
    (p.readValue r d).getLsbD k = false := by
  rw [Periph.getLsbD_readValue _ _ _ _ hr, hi, hh, Bool.and_false]
  rfl

/-- A register with no bit that shows the outside reads as its held bits. -/
theorem readValue_of_inputMask (p : Periph) {r : PeriphReg} (d : Word) (hr : r ≠ .uca0rxbuf)
    (hi : inputMask r = 0) : p.readValue r d = p.get r &&& heldMask r := by
  rw [Periph.readValue, if_neg fun h => hr h.1, mixBits, if_pos hi]

/-- R352: TAIV holds three bits above bit 0. -/
theorem readValue_taiv {r : PeriphReg} (hr : r = .ta0iv ∨ r = .ta1iv) (p : Periph) (d : Word) :
    (p.readValue r d).toNat % 2 = 0 ∧ (p.readValue r d).toNat ≤ 0x0E := by
  have hvalue : p.readValue r d = p.get r &&& 0x000E := by
    rcases hr with rfl | rfl
    · exact readValue_of_inputMask p d (by decide) (by decide)
    · exact readValue_of_inputMask p d (by decide) (by decide)
  rw [hvalue]
  constructor
  · rw [← not_isOdd_iff, isOdd, BitVec.getLsbD_and]
    exact Bool.and_false _
  · rw [BitVec.toNat_and]
    exact Nat.and_le_right

/-! ## The printed registers -/

/-- The registers of O17's table, in its order: all but UCA0TXBUF. -/
def plainRegs : List PeriphReg :=
  [.p1in, .p1out, .p1ren, .p2in, .p2out, .p2ren, .uca0ctl0, .uca0ctl1, .uca0br0, .uca0br1, .uca0mctl,
   .uca0rxbuf, .ucb0ctl0, .ta0iv, .ta1iv, .ta0ctl, .ta1ctl, .ta0cctl0, .ta0cctl1, .ta0cctl2, .ta1cctl0,
   .ta1cctl1, .ta1cctl2, .adc10ctl0, .adc10ctl1, .adc10ae0]

theorem ne_txbuf_of_mem_plainRegs : ∀ r ∈ plainRegs, r ≠ .uca0txbuf := by decide

/-- Settles O17: the rows of the table are the masks of the layouts, and the vectors are those of `flagVector`. -/
theorem peripheralReads : Obligations.PeripheralReads := by
  unfold Obligations.PeripheralReads
  refine ⟨fun a v s r hlt hreg hr => ?ports, fun w a v s r soft left hd h hreg hrow => ?bits,
    fun w a v s t r hd hreg h hr ht => ?requests, fun a s r p hlt he hreg hp => ?zeros⟩
  case ports =>
    have hd := inDevice_byte_of_lt hlt
    refine ⟨_, (devRead .byte a (devWrite .byte a v s)).2, writeMem_of_inDevice (.inl rfl) hd v, ?_⟩
    have hback : (devRead .byte a (devWrite .byte a v s)).1 = truncTo .byte v := by
      rcases hr with rfl | rfl | rfl | rfl
      all_goals exact devRead_devWrite_byte hreg (by decide) (by decide) rfl v
    rw [readMem_of_inDevice (.inl rfl) hd, ← hback]
  case bits =>
    have hmasks : (r, soft, left) ∈ plainRegs.map fun q => (q, softMask q, s.periph.openBits q) := hrow
    obtain ⟨q, hq, heq⟩ := List.mem_map.mp hmasks
    simp only [Prod.mk.injEq] at heq
    obtain ⟨rfl, rfl, rfl⟩ := heq
    have hr := ne_txbuf_of_mem_plainRegs q hq
    refine ⟨_, _, _, writeMem_of_inDevice h hd v, readMem_of_inDevice h hd, fun k hsoft hopen => ⟨?_, ?_⟩,
      fun k hsoft => ?_, fun p hp => get_devWrite_of_ne hreg w v hp⟩
    · rw [getLsbD_get_devWrite hreg hr, if_pos hsoft, hopen]
      rfl
    · exact getLsbD_devRead_devWrite hreg hr w v hsoft hopen
    · rw [getLsbD_get_devWrite hreg hr, hsoft]
      rfl
  case requests =>
    rw [writeMem_of_inDevice h hd v] at ht
    obtain rfl := Host.Outcome.next.inj ht
    have hpending := devWrite_pending_eq hreg hr w v
    have hvector : ∀ vector, vector = flagVector r (devWrite w a v s).periph →
        (∀ p b, vector = some (p, b) →
          (p ∈ (devWrite w a v s).pending ↔ b = true) ∧
            ∀ q, q ≠ p → (q ∈ (devWrite w a v s).pending ↔ q ∈ s.pending)) ∧
        (vector = none → (devWrite w a v s).pending = s.pending) := by
      rintro _ rfl
      refine ⟨fun p b hsome => ?_, fun hnone => ?_⟩
      · rw [hpending, hsome]
        exact ⟨by simp, fun q hq => by simp [hq]⟩
      · rw [hpending, hnone]
        rfl
    exact hvector _ (by cases r <;> rfl)
  case zeros =>
    obtain rfl := readMem_eq_next_of_lt (.inr he) hlt hp
    rw [devRead_value hreg, truncTo_word]
    refine ⟨?_, ?_, fun hr => readValue_taiv hr _ _⟩
    · rintro (rfl | rfl)
      all_goals exact getLsbD_readValue_of_zero _ _ (by decide) (by decide) (by decide)
    · rintro (rfl | rfl | rfl | rfl | rfl | rfl)
      all_goals exact getLsbD_readValue_of_zero _ _ (by decide) (by decide) (by decide)

/-! ## The buffers of the USCI (R344, R345) -/

theorem mixBits_and_self (m a b : Word) : mixBits m a b &&& m = b &&& m := by
  apply BitVec.eq_of_getLsbD_eq
  intro k _
  rw [BitVec.getLsbD_and, BitVec.getLsbD_and, getLsbD_mixBits]
  cases m.getLsbD k <;> simp

/-- The eight bits of UCA0TXBUF after a write: without the top one in 7-bit mode (log entry 37). -/
theorem writeValue_txbuf_and (p : Periph) (v d : Word) :
    p.writeValue .uca0txbuf v d &&& 0x00FF = v &&& (if p.sevenBit then 0x007F else 0x00FF) := by
  have hplain : mixBits (softMask .uca0txbuf) (p.get .uca0txbuf) v &&& 0x00FF = v &&& 0x00FF :=
    mixBits_and_self 0x00FF _ v
  cases hp : p.sevenBit with
  | true =>
    calc p.writeValue .uca0txbuf v d &&& 0x00FF
        = (mixBits (softMask .uca0txbuf) (p.get .uca0txbuf) v &&& 0x007F) &&& 0x00FF :=
          congrArg (· &&& 0x00FF) (if_pos ⟨rfl, hp⟩)
      _ = (mixBits (softMask .uca0txbuf) (p.get .uca0txbuf) v &&& 0x00FF) &&& 0x007F := by
          rw [BitVec.and_assoc, BitVec.and_assoc]
          rfl
      _ = (v &&& 0x00FF) &&& 0x007F := by rw [hplain]
      _ = v &&& 0x007F := BitVec.and_assoc v _ _
  | false =>
    have hkept : p.writeValue .uca0txbuf v d = mixBits (softMask .uca0txbuf) (p.get .uca0txbuf) v :=
      if_neg (by simp [hp])
    rw [hkept, hplain]
    rfl

/-- R345: in 7-bit mode the top bit is stored as 0. -/
theorem writeValue_txbuf_top (p : Periph) (v d : Word) (h : p.sevenBit = true) :
    (p.writeValue .uca0txbuf v d).getLsbD 7 = false := by
  rw [Periph.writeValue, if_pos ⟨rfl, h⟩, BitVec.getLsbD_and]
  exact Bool.and_false _

/-- R344: in 7-bit mode the top bit reads as 0. -/
theorem readValue_rxbuf_top (p : Periph) (d : Word) (h : p.sevenBit = true) :
    (p.readValue .uca0rxbuf d).getLsbD 7 = false := by
  rw [Periph.readValue, if_pos ⟨rfl, h⟩, BitVec.getLsbD_and]
  exact Bool.and_false _

/-- Settles O18: the two registers' values at a write and at a read, and the one request each access can withdraw. -/
theorem usciBuffers : Obligations.UsciBuffers := by
  unfold Obligations.UsciBuffers
  refine ⟨fun a v s hlt hreg => ?txbuf, fun a s p hlt hreg hp => ?rxbuf⟩
  case txbuf =>
    have hd := inDevice_byte_of_lt hlt
    have hregAt : regAt (devWrite .byte a v s).cfg a = some .uca0txbuf := by rwa [devWrite_cfg]
    have hheld : (devWrite .byte a v s).periph.get .uca0txbuf =
        s.periph.writeValue .uca0txbuf (truncTo .byte v) (Config.freeWord s.draws) := by
      rw [devWrite_periph hreg]
      rfl
    have hvalue : (devRead .byte a (devWrite .byte a v s)).1 =
        if s.periph.sevenBit then v &&& 0x007F else v &&& 0x00FF := by
      have hmask : heldMask .uca0txbuf = 0x00FF := by decide
      rw [devRead_value hregAt, readValue_of_inputMask _ _ (by decide) (by decide), hheld, hmask,
        writeValue_txbuf_and]
      cases s.periph.sevenBit
      all_goals
        simp only [truncTo, zextByte, BitVec.and_assoc]
        rfl
    refine ⟨_, (devRead .byte a (devWrite .byte a v s)).2, writeMem_of_inDevice (.inl rfl) hd v,
      devWrite_pending hreg .byte v, ?_, devRead_periph _ _ _, fun h7 => ?_⟩
    · rw [readMem_of_inDevice (.inl rfl) hd]
      exact congrArg Host.Outcome.next (Prod.ext hvalue rfl)
    · exact (congrArg (·.getLsbD 7) hheld).trans (writeValue_txbuf_top _ _ _ h7)
  case rxbuf =>
    obtain rfl := readMem_eq_next_of_lt (.inl rfl) (by omega) hp
    refine ⟨?_, fun h7 => ?_⟩
    · rw [devRead_pending hreg]
      cases (Config.freeWord s.draws).getLsbD 8 with
      | true => exact .inl rfl
      | false => exact .inr rfl
    · rw [devRead_value hreg, truncTo, zextByte, BitVec.getLsbD_and, readValue_rxbuf_top _ _ h7]
      rfl

end Sys2Proof.Machine
end

section
/-! PROOFS. The cycle tables (O60): the cycles of an instruction depend on its format and its operands' modes alone. -/

namespace Sys2Proof.Machine

/-- A row of Table 3-16 (R408): the cycles to memory, to PC and to another register or the bit bucket. -/
def SrcTiming.row : SrcTiming → Nat × Nat × Nat
  | .register => (4, 2, 1)
  | .indirect => (5, 2, 2)
  | .autoInc => (5, 3, 2)
  | .immediate => (5, 3, 2)
  | .memory => (6, 3, 3)

theorem formatICycles_eq_row (o : Src) (d : Dst) :
    formatICycles o d =
      if d.isMem then (srcTiming o).row.1
      else if d = .reg .pc then (srcTiming o).row.2.1 else (srcTiming o).row.2.2 := by
  unfold formatICycles
  cases d.isMem with
  | true => cases srcTiming o <;> rfl
  | false =>
    rw [if_neg Bool.false_ne_true]
    by_cases hpc : d = .reg .pc
    · rw [if_pos hpc, decide_eq_true hpc]
      cases srcTiming o <;> rfl
    · rw [if_neg hpc, decide_eq_false hpc]
      cases srcTiming o <;> rfl

/-- R408, R409: a Format I instruction takes the cycles of its operands' modes, an emulated one those of the core
instruction it is. -/
theorem cycles_of_formI {i : Instr} {sh : Shape} {w : Width} {o : Src} {d : Dst}
    (h : i.formI = some (sh, w, o, d)) : cycles i = some (formatICycles o d) := by
  unfold Instr.formI at h
  unfold cycles
  split at h
  all_goals cases h
  all_goals rename_i he
  all_goals rw [he]
  all_goals rfl

theorem cycles_of_rotates {i : Instr} {flags : Bool} {w : Width} {o : Src}
    (h : i.rotates = some (flags, w, o)) : cycles i = rotateCycles o := by
  unfold Instr.rotates at h
  split at h
  all_goals cases h
  all_goals rfl

/-- Settles O60: the rows of Table 3-16 are `SrcTiming.row`; the columns of Table 3-15 are read off by mode. -/
theorem cycleTables : Obligations.CycleTables := by
  unfold Obligations.CycleTables
  refine ⟨?jumps, fun i sh w o d hi => ?formI, fun i flags w o hi => ?rotates, fun w o => ?pushCall⟩
  case jumps =>
    rintro off is rfl
    exact ⟨rfl, rfl⟩
  case formI =>
    rw [cycles_of_formI hi, formatICycles_eq_row]
    refine ⟨?_, ?_, ?_, ?_, ?_⟩
    · rintro (⟨r, rfl⟩ | ⟨c, rfl⟩) <;> rfl
    · rintro ⟨r, rfl⟩; rfl
    · rintro ⟨r, rfl⟩; rfl
    · rintro ⟨n, rfl⟩; rfl
    · rintro (⟨r, x, rfl⟩ | ⟨x, rfl⟩ | ⟨a, rfl⟩) <;> rfl
  case rotates =>
    rw [cycles_of_rotates hi]
    refine ⟨?_, ?_, ?_⟩
    · rintro ⟨r, rfl⟩; rfl
    · rintro ⟨r, rfl | rfl⟩ <;> rfl
    · rintro (⟨r, x, rfl⟩ | ⟨x, rfl⟩ | ⟨a, rfl⟩) <;> rfl
  case pushCall =>
    refine ⟨?_, ?_, ?_, ?_, ?_⟩
    · rintro ⟨r, rfl⟩; exact ⟨rfl, rfl⟩
    · rintro ⟨r, rfl⟩; exact ⟨rfl, rfl⟩
    · rintro ⟨r, rfl⟩; exact ⟨rfl, rfl⟩
    · rintro ⟨n, rfl⟩; exact ⟨rfl, rfl⟩
    · rintro (⟨r, x, rfl⟩ | ⟨x, rfl⟩ | ⟨a, rfl⟩) <;> exact ⟨rfl, rfl⟩

end Sys2Proof.Machine
end

section
/-! PROOFS. The terminal states (O12): in them the boundary accepts nothing, `JMP $` changes nothing, and the
environment, without a reset or the (non)-maskable request, brings no request that could be accepted. -/

namespace Sys2Proof.Machine

/-! ## What the terms of R410 say -/

section
variable {s : State}

theorem atJumpToSelf_iff :
    atJumpToSelf s = true ↔
      (∃ a, fetchAddr s = .next a ∧ Memory.readWord s.mem a = 0x3FFF) ∧ s.cpuOff = false := by
  simp only [atJumpToSelf, fetchAddr_eq_next, Bool.and_eq_true, Bool.not_eq_true', beq_iff_eq]
  constructor
  · rintro ⟨⟨hf, hc⟩, hw⟩
    exact ⟨⟨_, ⟨hf, rfl⟩, hw⟩, hc⟩
  · rintro ⟨⟨_, ⟨hf, rfl⟩, hw⟩, hc⟩
    exact ⟨⟨hf, hc⟩, hw⟩

theorem runEnded_iff :
    runEnded s = true ↔
      (atJumpToSelf s = true ∧ (s.gie = false ∨ nothingEnabled s = true)) ∨
        (s.cpuOff = true ∧ s.gie = false) := by
  simp [runEnded, jumpEnds, sleeping]

theorem undisturbed_iff :
    undisturbed s = true ↔
      s.resetRequested = none ∧ .nmi ∉ s.pending ∧ ∀ b ∈ s.inputs, b.reset = none ∧ .nmi ∉ b.raised := by
  simp [undisturbed, and_assoc]

theorem nothingEnabled_iff :
    nothingEnabled s = true ↔
      (∀ q ∈ s.pending, q = .nmi) ∧ enablesOff s.periph = true ∧
        ∀ b ∈ s.inputs, ∀ q ∈ b.raised, q = .nmi := by
  simp [nothingEnabled, and_assoc]

end

/-! ## The enable bits -/

/-- TAIE, CCIE and ADC10IE, the enable bits the spec prints (R306). -/
def enableBits : List (PeriphReg × Nat) :=
  [(.ta0ctl, 1), (.ta1ctl, 1), (.ta0cctl0, 4), (.ta0cctl1, 4), (.ta0cctl2, 4), (.ta1cctl0, 4), (.ta1cctl1, 4),
   (.ta1cctl2, 4), (.adc10ctl0, 3)]

theorem enablesOff_iff {p : Periph} :
    enablesOff p = true ↔ ∀ e ∈ enableBits, (p.get e.1).getLsbD e.2 = false := by
  simp [enablesOff, enableBits, Periph.get, and_assoc]

/-- No enable bit is the hardware's. -/
theorem deviceMask_enableBits : ∀ e ∈ enableBits, (~~~(deviceMask e.1)).getLsbD e.2 = true := by decide

/-- What changes the hardware's own bits alone leaves the enables off. -/
theorem enablesOff_of_get_eq {p q : Periph}
    (h : ∀ r, q.get r &&& ~~~(deviceMask r) = p.get r &&& ~~~(deviceMask r)) (hp : enablesOff p = true) :
    enablesOff q = true := by
  rw [enablesOff_iff] at hp ⊢
  intro e he
  have hbit := congrArg (·.getLsbD e.2) (h e.1)
  simpa only [BitVec.getLsbD_and, deviceMask_enableBits e he, Bool.and_true, hp e he] using hbit

/-- R306: with its enable off no vector requests, and no printed flag is one of the (non)-maskable vector's. -/
theorem flagVector_ne_request {q : IrqSource} {p : Periph} (h : q = .nmi ∨ enablesOff p = true) (r : PeriphReg) :
    flagVector r p ≠ some (q, true) := by
  rcases h with rfl | h
  · cases r <;> simp [flagVector]
  · have hoff := enablesOff_iff.mp h
    simp [enableBits, Periph.get] at hoff
    cases r <;> simp [flagVector, taRequest, ccRequest, adcRequest, hoff]

/-! ## The environment's move -/

theorem mem_flagRequests {q : IrqSource} {r : PeriphReg} {p : Periph} {ps : List IrqSource}
    (h : q ∈ flagRequests r p ps) : q ∈ ps ∨ flagVector r p = some (q, true) := by
  rw [flagRequests_eq] at h
  match hv : flagVector r p with
  | none => rw [hv] at h; exact .inl h
  | some (v, b) =>
    rw [hv] at h
    rcases mem_request.mp h with ⟨rfl, rfl⟩ | ⟨-, hq⟩
    · exact .inr rfl
    · exact .inl hq

theorem mem_pending_of_mem_deviceMoves {q : IrqSource} {s : State} (ms : List DeviceMove)
    (h : q = .nmi ∨ enablesOff s.periph = true) (hq : q ∈ (s.deviceMoves ms).pending) : q ∈ s.pending := by
  induction ms generalizing s with
  | nil => exact hq
  | cons m t ih =>
    have hmove : q = .nmi ∨ enablesOff (s.deviceMove m).periph = true :=
      h.imp_right (enablesOff_of_get_eq (s.deviceMove_get m))
    exact (mem_flagRequests (ih hmove hq)).resolve_right (flagVector_ne_request hmove m.reg)

theorem State.nextBoundary_inputs (s : State) : s.nextBoundary.inputs = s.inputs.tail := by
  unfold State.nextBoundary
  split
  · next h => exact h.trans (congrArg List.tail h).symm
  · next h => rw [h]; rfl

theorem State.nextBoundary_resetRequested (s : State) :
    s.nextBoundary.resetRequested = s.inputs.head?.bind (·.reset) := by
  unfold State.nextBoundary
  split
  · next h => rw [h]; rfl
  · next h => rw [h]; rfl

section
variable {s : State}

/-- A request no printed flag can make was up before, or the environment raises it. -/
theorem mem_pending_of_mem_nextBoundary {q : IrqSource} (h : q = .nmi ∨ enablesOff s.periph = true)
    (hq : q ∈ s.nextBoundary.pending) : q ∈ s.pending ∨ ∃ b ∈ s.inputs, q ∈ b.raised := by
  cases hi : s.inputs with
  | nil =>
    rw [State.nextBoundary_of_no_input hi] at hq
    exact .inl hq
  | cons b rest =>
    rcases (State.mem_nextBoundary_pending hi).mp hq with hraised | ⟨hmoved, -⟩
    · exact .inr ⟨b, List.mem_cons_self, hraised⟩
    · exact .inl (mem_pending_of_mem_deviceMoves b.device h hmoved)

theorem undisturbed_nextBoundary (h : undisturbed s = true) : undisturbed s.nextBoundary = true := by
  obtain ⟨-, hnmi, hinputs⟩ := undisturbed_iff.mp h
  refine undisturbed_iff.mpr ⟨?reset, fun hq => ?nmi, fun b hb => ?inputs⟩
  case reset =>
    rw [State.nextBoundary_resetRequested, Option.bind_eq_none_iff]
    exact fun b hb => (hinputs b (List.mem_of_head? hb)).1
  case nmi =>
    rcases mem_pending_of_mem_nextBoundary (.inl rfl) hq with hq | ⟨b, hb, hq⟩
    · exact hnmi hq
    · exact (hinputs b hb).2 hq
  case inputs =>
    rw [State.nextBoundary_inputs] at hb
    exact hinputs b (List.mem_of_mem_tail hb)

theorem nothingEnabled_nextBoundary (h : nothingEnabled s = true) : nothingEnabled s.nextBoundary = true := by
  obtain ⟨hpending, hoff, hinputs⟩ := nothingEnabled_iff.mp h
  refine nothingEnabled_iff.mpr ⟨fun q hq => ?_, enablesOff_of_get_eq s.nextBoundary_get hoff, fun b hb => ?_⟩
  · rcases mem_pending_of_mem_nextBoundary (.inr hoff) hq with hq | ⟨b, hb, hq⟩
    · exact hpending q hq
    · exact hinputs b hb q hq
  · rw [State.nextBoundary_inputs] at hb
    exact hinputs b (List.mem_of_mem_tail hb)

theorem runEnded_nextBoundary (h : runEnded s = true) : runEnded s.nextBoundary = true := by
  have hgie : s.nextBoundary.gie = s.gie := by rw [State.gie, State.gie, s.nextBoundary_regs]
  have hcpuOff : s.nextBoundary.cpuOff = s.cpuOff := by rw [State.cpuOff, State.cpuOff, s.nextBoundary_regs]
  have hplace : atJumpToSelf s.nextBoundary = atJumpToSelf s := by
    simp only [atJumpToSelf, fetchable, hcpuOff, State.nextBoundary_regs, State.nextBoundary_mem,
      State.nextBoundary_cfg]
  rw [runEnded_iff, hgie, hcpuOff, hplace]
  exact (runEnded_iff.mp h).imp_left (And.imp_right (Or.imp_right nothingEnabled_nextBoundary))

/-! ## The step -/

/-- In a terminal state nothing stands before the instruction at PC, or before waiting. -/
theorem quiet_of_runEnded (h : runEnded s = true) (hu : undisturbed s = true) : quiet s = true := by
  obtain ⟨hreset, hnmi, -⟩ := undisturbed_iff.mp hu
  refine quiet_iff.mpr ⟨hreset, acceptable_eq_none_iff.mpr ⟨hnmi, fun hg => ?_⟩⟩
  rcases runEnded_iff.mp h with ⟨-, hg' | hnothing⟩ | ⟨-, hg'⟩
  · simp [hg] at hg'
  · obtain ⟨hpending, -⟩ := nothingEnabled_iff.mp hnothing
    exact List.eq_nil_iff_forall_not_mem.mpr fun q hq => hnmi (hpending q hq ▸ hq)
  · simp [hg] at hg'

/-- R200, R208: offset -1 is the jump's own address. -/
theorem jumpTarget_neg_one (a : Word) : jumpTarget a 0x3FF = a := by
  have hback : 2 * (0x3FF : BitVec 10).signExtend 16 = (-2 : Word) := by decide
  rw [jumpTarget, hback, BitVec.add_assoc]
  exact BitVec.add_zero a

theorem exec_jumpToSelf (s : State) : exec (.jmp 0x3FF) s = .next s := by
  rw [exec_jmp, jumpIf_eq_put_pc, if_pos rfl, jumpTarget_neg_one]
  rfl

theorem step_of_jumpToSelf {a : Word} {rest : List Byte} (hq : quiet s = true) (hc : s.cpuOff = false)
    (hf : fetchAddr s = .next a) (hd : decode (codeBytes s a) = .ok (.jmp 0x3FF, rest)) :
    step s = .next s.nextBoundary := by
  rw [step_of_quiet hq hc, runInstr_of_fetchInstr (fetchInstr_of_decode hf hd), exec_jumpToSelf]
  rfl

/-- The word 3FFFh is `JMP $`, whatever follows it. -/
theorem decode_of_readWord_3FFF {a : Word} (hf : fetchAddr s = .next a) (hw : Memory.readWord s.mem a = 0x3FFF) :
    decode (codeBytes s a) = .ok (.jmp 0x3FF, bytesOfWords [peekWord s (a + 2), peekWord s (a + 4)]) := by
  refine decode_iff_encode.mpr ⟨by decide, by decide, ?_⟩
  rw [codeBytes, peekWord_of_fetchAddr hf, hw]
  rfl

/-- R410: in a terminal state the step is the environment's move alone. -/
theorem step_of_runEnded (h : runEnded s = true) (hu : undisturbed s = true) :
    step s = .next s.nextBoundary := by
  have hq := quiet_of_runEnded h hu
  rcases runEnded_iff.mp h with ⟨hplace, -⟩ | ⟨hc, -⟩
  · obtain ⟨⟨a, hf, hw⟩, hc⟩ := atJumpToSelf_iff.mp hplace
    exact step_of_jumpToSelf hq hc hf (decode_of_readWord_3FFF hf hw)
  · exact step_of_cpuOff hq hc

end

/-- Settles O12: with no input left the environment's move is none, and every move it can make without a reset or
the (non)-maskable request keeps `runEnded` and `undisturbed`. -/
theorem jumpToSelfRepeats : Obligations.JumpToSelfRepeats := by
  unfold Obligations.JumpToSelfRepeats
  refine ⟨fun s a rest hq hc hi hf hd => ?repeats, fun s h hu => ?ended, fun s => ?terminal⟩
  case repeats =>
    obtain ⟨hreset, -⟩ := quiet_iff.mp hq
    rw [step_of_jumpToSelf hq hc hf hd, State.nextBoundary_of_no_input hi, ← hreset]
  case ended =>
    exact ⟨step_of_runEnded h hu, s.nextBoundary_regs, s.nextBoundary_mem, runEnded_nextBoundary h,
      undisturbed_nextBoundary hu⟩
  case terminal => rw [runEnded_iff, atJumpToSelf_iff, and_assoc]

end Sys2Proof.Machine
end
